-- ==== Sys2Proof/Word.lean ====
section
/-!
DEFINITION. The word types of the part and the fixed-length table that holds a fixed number of like things.
-/

namespace Sys2Proof

/-- A byte of a link frame, of a record or of a chain frame. -/
abbrev Byte := BitVec 8

/-- The 16 data bits of a store word (R17), and the check register of a frame (R3). -/
abbrev Word16 := BitVec 16

/-- A fixed number `n` of like things, kept as a list of exactly that length. -/
structure Table (n : Nat) (α : Type) where
  items : List α
  len : items.length = n
deriving DecidableEq, Repr

namespace Table

variable {α : Type} {n : Nat}

/-- The entry at place `i`. -/
def get (t : Table n α) (i : Fin n) : α :=
  t.items[i.val]'(by rw [t.len]; exact i.isLt)

/-- The table with the entry at place `i` replaced. -/
def set (t : Table n α) (i : Fin n) (a : α) : Table n α :=
  ⟨t.items.set i.val a, by rw [List.length_set, t.len]⟩

/-- The table with the entry at place `i` changed by `f`. -/
def modify (t : Table n α) (i : Fin n) (f : α → α) : Table n α :=
  t.set i (f (t.get i))

/-- The table whose every entry is `a`. -/
def fill (n : Nat) (a : α) : Table n α :=
  ⟨List.replicate n a, List.length_replicate⟩

/-- The table whose entry at place `i` is `f i`. -/
def build (f : Fin n → α) : Table n α :=
  ⟨(List.finRange n).map f, by rw [List.length_map, List.length_finRange]⟩

/-- Entry by entry from place `i` on: the first list's where `p` holds, and otherwise the second's. -/
def pick (p : Nat → Bool) : Nat → List α → List α → List α
  | i, a :: as, b :: bs => (if p i then a else b) :: pick p (i + 1) as bs
  | _, [], bs => bs
  | _, _ :: _, [] => []

theorem pick_length (p : Nat → Bool) : ∀ (i : Nat) (as bs : List α), (pick p i as bs).length = bs.length
  | _, [], bs => by simp [pick]
  | _, _ :: _, [] => by simp [pick]
  | i, _ :: as, _ :: bs => by simp [pick, pick_length p (i + 1) as bs]

/-- The table that takes the entries of `a` at the places where `p` holds, and those of `b` elsewhere. -/
def choose (p : Nat → Bool) (a b : Table n α) : Table n α :=
  ⟨pick p 0 a.items b.items, by rw [pick_length, b.len]⟩

/-- The table with every entry changed by `f`. -/
def map {β : Type} (f : α → β) (t : Table n α) : Table n β :=
  ⟨t.items.map f, by rw [List.length_map, t.len]⟩

end Table

end Sys2Proof
end

