-- ==== Sys2Proof/Config.lean ====
section
/-!
DEFINITION. What an implementation fixes and the manual leaves open: the free values.
-/

namespace Sys2Proof

/-- FREE VALUE (log 3): how far an operation on the store had got, word by word, when a reset ended it (R33 says
only that each word is left in one of the ways it lists). The first argument is the count of resets so far, the
second the word's address in the store. No body: nothing may be proved of its value. -/
opaque Config.resetReach : Nat → Nat → Nat

end Sys2Proof
end

