-- ==== Sys2Proof/Syntax.lean ====
section
/-!
DEFINITION. The commands of the part: one constructor of `Instr` for each row of spec/opcode_table.json.

The part fetches no program. A command is one whole, indivisible event (95_what_each_step_holds.md): a lead
changing, a frame arriving, a queued request being served, a timed operation ending, a deadline being reached.
The commands that serve a request take no operand: the request's fields are in the frame at the head of the
request queue (R7, R8).
-/

namespace Sys2Proof

/-- A lever of the frame: place `i` is lever `i + 1` (levers 1 to 48). -/
abbrev Lever := Fin 48

/-- A track circuit: place `i` is TC`(i + 1)` (TC1 to TC24). -/
abbrev Tc := Fin 24

/-- A signal slot: place `i` is slot `i + 1` (slots 1 to 24). -/
abbrev SigSlot := Fin 24

/-- A vital output: place `i` is output `i + 1` (outputs 1 to 76). -/
abbrev Output := Fin 76

/-- An output group: place `i` is group `i + 1` (groups 1 to 10). -/
abbrev Group := Fin 10

/-- The three block lines. -/
inductive Line where
  | a
  | b
  | c
deriving DecidableEq, Repr

/-- The two sections of a block line, as seen from this box. -/
inductive Side where
  | incoming
  | outgoing
deriving DecidableEq, Repr

/-- The commands: the part's operations and events, in the table's order. -/
inductive Instr where
  /-- POWER_ON (R159). -/
  | powerOn
  /-- RESET_PIN (R159). -/
  | resetPin
  /-- RESTART_EFFECT (R16). -/
  | restartEffect
  /-- FRAME_RECEIVED (R4): the last byte of a complete frame has been taken; `check` is its check field. -/
  | frameReceived (kind tag : Byte) (payload : List Byte) (check : Word16)
  /-- GAP_DEADLINE (R5). -/
  | gapDeadline
  /-- UNKNOWN_KIND (R7). -/
  | unknownKind
  /-- IDENTIFY (R10). -/
  | identify
  /-- HOST_READ_COMPLETE (R7). -/
  | hostReadComplete
  /-- QUERY (R11). -/
  | query
  /-- LEVER_ENQUIRY (R90). -/
  | leverEnquiry
  /-- FAULT_ACK (R89). -/
  | faultAck
  /-- TIME_RELEASE (R105). -/
  | timeRelease
  /-- ALL_SIGNALS_ON (R98). -/
  | allSignalsOn
  /-- TC_TEST (R64). -/
  | tcTest
  /-- BELL_SEND (R119). -/
  | bellSend
  /-- COMMUTATOR (R131). -/
  | commutator
  /-- SECTION_RELEASE (R136). -/
  | sectionRelease
  /-- MODE (R160). -/
  | mode
  /-- RESTART (R162). -/
  | restart
  /-- TIMEBASE_RESTORE (R169). -/
  | timebaseRestore
  /-- TIMEBASE_TEST (R169). -/
  | timebaseTest
  /-- LAMP_TEST (R156). -/
  | lampTest
  /-- STORE_OPEN (R21). -/
  | storeOpen
  /-- STORE_CLOSE (R27). -/
  | storeClose
  /-- STORE_ERASE (R23). -/
  | storeErase
  /-- STORE_PROGRAM (R24). -/
  | storeProgram
  /-- STORE_READ (R27). -/
  | storeRead
  /-- STORE_SUSPEND (R25). -/
  | storeSuspend
  /-- STORE_RESUME (R25). -/
  | storeResume
  /-- STORE_LOCK (R26). -/
  | storeLock
  /-- VALIDATE (R28). -/
  | validate
  /-- STAMP_REMOVAL_END (R22). -/
  | stampRemovalEnd
  /-- REGION_ERASE_END (R23). -/
  | regionEraseEnd
  /-- WIPE_REGION_END (R21). -/
  | wipeRegionEnd
  /-- SLOT_PROGRAM_END (R24). -/
  | slotProgramEnd
  /-- LOCK_SET_END (R26). -/
  | lockSetEnd
  /-- HEADER_REWRITE_END (R26). -/
  | headerRewriteEnd
  /-- VALIDATION_PASS_START (R29). -/
  | validationPassStart
  /-- VALIDATION_PASS_END (R28). -/
  | validationPassEnd
  /-- SCRUB_STEP (R31). -/
  | scrubStep
  /-- SCRUB_PERIOD_END (R31). -/
  | scrubPeriodEnd
  /-- STARTUP_SLOT_READ (R32). -/
  | startupSlotRead
  /-- TRACK_RISING_EDGE (R55). -/
  | trackRisingEdge (tc : Tc)
  /-- TRACK_FALLING_EDGE (R55). -/
  | trackFallingEdge (tc : Tc)
  /-- MEASUREMENT_LAPSE (R55). -/
  | measurementLapse (tc : Tc)
  /-- DROP_DEADLINE (R57). -/
  | dropDeadline (tc : Tc)
  /-- TEST_DEADLINE (R65). -/
  | testDeadline (tc : Tc)
  /-- LEVER_EVENT (R72): the lever's three accepted values as they stand after the scan. -/
  | leverEvent (lever : Lever) (normal reverse grip : Bool)
  /-- EVALUATION_READ_COMPLETE (R78). -/
  | evaluationReadComplete
  /-- FREEING_EXPIRED (R87). -/
  | freeingExpired (lever : Lever)
  /-- TIME_DEADLINE (R108): of the route lock entry of this signal lever. -/
  | timeDeadline (lever : Lever)
  /-- BELL_RISING_EDGE (R113). -/
  | bellRisingEdge (line : Line)
  /-- BELL_FALLING_EDGE (R113). -/
  | bellFallingEdge (line : Line)
  /-- CODE_END_DEADLINE (R115). -/
  | codeEndDeadline (line : Line)
  /-- STUCK_LIMIT (R113). -/
  | stuckLimit (line : Line)
  /-- SOUNDING_END (R121). -/
  | soundingEnd (line : Line)
  /-- SPACING_END (R121). -/
  | spacingEnd (line : Line)
  /-- TRAILING_END (R121). -/
  | trailingEnd (line : Line)
  /-- OFFER_EXPIRY (R130): of the offer held on this side of the line. -/
  | offerExpiry (line : Line) (side : Side)
  /-- SENSE_READING_ACCEPTED (R126): the pair of levels on SENSEP and SENSEN. -/
  | senseReadingAccepted (line : Line) (p n : Bool)
  /-- SECTION_RELEASE_RUN_OUT (R136). -/
  | sectionReleaseRunOut (line : Line)
  /-- ROUND_DUE (R145). -/
  | roundDue
  /-- FIRST_READ_BACK (R146): bit `i` is what the group's output `8g − 7 + i` reads on ODRB. -/
  | firstReadBack (readings : Byte)
  /-- RETRY_READ_BACK (R146). -/
  | retryReadBack (readings : Byte)
  /-- CHAIN_FRAME_END (R155). -/
  | chainFrameEnd
  /-- FLASH_PHASE_TOGGLE (R154). -/
  | flashPhaseToggle
  /-- FULL_REFRESH (R154). -/
  | fullRefresh
  /-- LAMP_TEST_DEADLINE (R156). -/
  | lampTestDeadline
  /-- RESET_HOLD_RUN_OUT (R161). -/
  | resetHoldRunOut
  /-- TIMEBASE_WINDOW (R167): `good` when an edge was seen in the window's first 8 cycles. -/
  | timebaseWindow (good : Bool)
  /-- START_UP_TICK_LIMIT (R167). -/
  | startUpTickLimit
  /-- TRANSMIT_FRAME_END (R12). -/
  | transmitFrameEnd
  /-- BYTE_RECEIVED (R4): a byte from RXD, and whether its stop bit was good (R5). -/
  | byteReceived (byte : Byte) (stopGood : Bool)
  /-- SCRUB_STEP_END (R31). -/
  | scrubStepEnd
deriving DecidableEq, Repr

end Sys2Proof
end

