-- ==== Sys2Proof/WellFormed.lean ====
section
/-!
DEFINITION. Which commands the outside world can send. Object numbers are in range by their types, so the one
check left is the payload length of a complete frame (R2).
-/

namespace Sys2Proof

/-- A payload of a complete frame is 0 to 240 bytes long (R2). -/
def payloadFits (payload : List Byte) : Bool :=
  payload.length ≤ 240

/-- The well-formed commands. Every command but FRAME_RECEIVED is well-formed by its operands' types. -/
def Instr.wellFormed : Instr → Bool
  | .frameReceived _ _ payload _ => payloadFits payload
  | .powerOn | .resetPin | .restartEffect | .gapDeadline | .unknownKind | .identify | .hostReadComplete => true
  | .query | .leverEnquiry | .faultAck | .timeRelease | .allSignalsOn | .tcTest | .bellSend | .commutator => true
  | .sectionRelease | .mode | .restart | .timebaseRestore | .timebaseTest | .lampTest => true
  | .storeOpen | .storeClose | .storeErase | .storeProgram | .storeRead | .storeSuspend | .storeResume => true
  | .storeLock | .validate | .stampRemovalEnd | .regionEraseEnd | .wipeRegionEnd | .slotProgramEnd => true
  | .lockSetEnd | .headerRewriteEnd | .validationPassStart | .validationPassEnd => true
  | .scrubStep | .scrubPeriodEnd | .startupSlotRead | .scrubStepEnd => true
  | .trackRisingEdge _ | .trackFallingEdge _ | .measurementLapse _ | .dropDeadline _ | .testDeadline _ => true
  | .leverEvent _ _ _ _ | .evaluationReadComplete | .freeingExpired _ | .timeDeadline _ => true
  | .bellRisingEdge _ | .bellFallingEdge _ | .codeEndDeadline _ | .stuckLimit _ => true
  | .soundingEnd _ | .spacingEnd _ | .trailingEnd _ => true
  | .offerExpiry _ _ | .senseReadingAccepted _ _ _ | .sectionReleaseRunOut _ => true
  | .roundDue | .firstReadBack _ | .retryReadBack _ => true
  | .chainFrameEnd | .flashPhaseToggle | .fullRefresh | .lampTestDeadline | .resetHoldRunOut => true
  | .timebaseWindow _ | .startUpTickLimit | .transmitFrameEnd | .byteReceived _ _ => true

end Sys2Proof
end

