-- ==== Sys2Proof/Decode.lean ====
section
/-!
DEFINITION. The part decodes no instruction words: no row of spec/opcode_table.json gives a command any bits, so
no word spells a command. (The part's own framing of bytes into requests is Machine/Link.lean's.)
-/

namespace Sys2Proof

/-- The command that the word `w` of `nbits` bits spells by the table's bits: none, for the table gives no row bits. -/
def decodeTableWord (_nbits _w : Nat) : Option Instr :=
  none

end Sys2Proof
end

