-- ==== Sys2Proof/Machine/State.lean ====
section
/-!
DEFINITION. The part's whole state, block by block, as plain data, and the state right after reset.

Each block of the functional overview (00_scope.md) owns one field of `State`. What a block is "last told" of
another block's state is held once, at the owner: every telling reaches its readers inside the event that makes
the change (R70, R75, R94, R125), so a second copy could never differ (log 7).
-/

namespace Sys2Proof

/-- A slot of the store, by its place in scrub order (R31): 0 HEADER, 1 to 48 LEVERS, 49 to 72 TRACK,
73 to 75 LINES, 76 OPTIONS, 77 to 332 INDICATION. -/
abbrev Slot := Fin 333

/-- Line A is place 0, B place 1, C place 2. -/
def Line.place : Line → Fin 3
  | .a => 0
  | .b => 1
  | .c => 2

namespace Machine

/-- The part has no way to stop with a fault: every event of the spec has an effect, so there is no constructor. -/
inductive Fault where
deriving DecidableEq, Repr

/-- Why `exec` gives no next state. -/
inductive Refusal where
  /-- Raised by an arm of `exec` whose command has no meaning yet; safe (nothing is claimed of that command). -/
  | notModelled (mnemonic : String)
deriving DecidableEq, Repr

/-! ## Leads -/

/-- What the input leads now read. Only the outside world drives them (log 5). -/
structure Leads where
  /-- TCIN1 to TCIN24. -/
  tcin : Table 24 Bool
  /-- BELLINA to BELLINC. -/
  bellIn : Table 3 Bool
  /-- SENSEPA to SENSEPC. -/
  senseP : Table 3 Bool
  /-- SENSENA to SENSENC. -/
  senseN : Table 3 Bool
  /-- LSDIN: each lever's normal contact at the scan modules, true when closed. -/
  normal : Table 48 Bool
  /-- LSDIN: each lever's reverse contact. -/
  reverse : Table 48 Bool
  /-- LSDIN: each lever's catch handle, true when gripped. -/
  grip : Table 48 Bool
  /-- The strap BAUD1. -/
  baud1 : Bool
  /-- The strap BAUD0. -/
  baud0 : Bool
  /-- ODRB: what each output reads back. -/
  odrb : Table 76 Bool
deriving DecidableEq, Repr

/-- Every lead low. -/
def Leads.low : Leads where
  tcin := .fill 24 false
  bellIn := .fill 3 false
  senseP := .fill 3 false
  senseN := .fill 3 false
  normal := .fill 48 false
  reverse := .fill 48 false
  grip := .fill 48 false
  baud1 := false
  baud0 := false
  odrb := .fill 76 false

/-- A level filter: the filtered level, and for how many ticks the other level has been read (R53, R112). -/
structure LevelFilter where
  level : Bool
  count : Nat
deriving DecidableEq, Repr

/-! ## Records -/

/-- The conditions of a record (R30). -/
inductive Cond where
  | good
  | corrected
  | corrupt
deriving DecidableEq, Repr

/-- A record as a read delivers it: its slot's bytes, high byte of each word first, and its condition. -/
structure RecordCopy where
  bytes : List Byte
  cond : Cond
deriving DecidableEq, Repr

/-- A term as its four stored bytes (Table 3-3). -/
structure Term where
  kind : Byte
  index : Byte
  value : Byte
  qualifier : Byte
deriving DecidableEq, Repr

/-! ## Host Link Controller (chapter 1) -/

/-- The receiver's framing states (R4). -/
inductive Framing where
  | hunt
  | length
  | kind
  | tag
  | payload
  | checkHi
  | checkLo
deriving DecidableEq, Repr

/-- The receiver: its framing state, what it holds of the frame being assembled, the check register, and the gap
deadline (R4, R5). -/
structure Receiver where
  framing : Framing
  length : Nat
  kind : Byte
  tag : Byte
  payload : List Byte
  checkHi : Byte
  check : Word16
  gap : Option Nat
deriving DecidableEq, Repr

/-- A message's kind, tag and payload (R2); its length and check follow from them. -/
structure Frame where
  kind : Byte
  tag : Byte
  payload : List Byte
deriving DecidableEq, Repr

/-- The 119 report sources (Table 1-4). -/
inductive Source where
  | lever (l : Lever)
  | track (t : Tc)
  | sect (x : Line) (side : Side)
  | bell (x : Line)
  | routeLock (n : SigSlot)
  | group (g : Group)
  | mode
  | timebase
  | store
  | indication
deriving DecidableEq, Repr

/-- A frame on the transmit line: the message, its bytes on the wire, and the tick by which they have left. -/
structure WireFrame where
  frame : Frame
  bytes : List Byte
  endsAt : Nat
deriving DecidableEq, Repr

/-- The Host Link Controller's state. -/
structure Hlc where
  rx : Receiver
  /-- The request queue, oldest first, up to 4 (R6). -/
  requests : List Frame
  /-- The reply queue, oldest first, up to 8. -/
  replies : List Frame
  /-- The report queue, oldest first (R13). -/
  reports : List Source
  wire : Option WireFrame
  restartPending : Bool
  /-- The last byte of the RESTART reply has left the transmitter (R16). -/
  restartSent : Bool
  /-- The request at the head waits for its read of the store (R7). -/
  hostWait : Bool
  /-- The discarded-frame count (R5). -/
  discarded : Nat
  /-- The unanswered-request count (R6). -/
  unanswered : Nat
  /-- The baud code read from the straps (R1). -/
  baud : Fin 4
deriving DecidableEq, Repr

/-! ## Scheme Store (chapter 2) -/

/-- The store's six regions (Table 2-1). -/
inductive Region where
  | header
  | levers
  | track
  | lines
  | options
  | indication
deriving DecidableEq, Repr

/-- What a word's check bits say of it (R17). -/
inductive WordCheck where
  | good
  /-- One wrong bit: the corrected value is known. -/
  | correctable (value : Word16)
  | uncorrectable
deriving DecidableEq, Repr

/-- A store word: its data bits as they stand, and what its check bits say. -/
structure StoreWord where
  data : Word16
  check : WordCheck
deriving DecidableEq, Repr

/-- The store states (chapter 2.2). -/
inductive StoreState where
  | closed
  | openIdle
  | erasing
  | programming
  | eraseSuspended
  | validating
deriving DecidableEq, Repr

/-- A change of contents that waits for a stamp removal (R22). -/
inductive Change where
  | erase (r : Region)
  | program (slot : Slot) (words : List Word16)
deriving DecidableEq, Repr

/-- A warning of the validation pass: region, slot number, field code (R52). -/
structure Warning where
  region : Region
  slot : Nat
  code : Nat
deriving DecidableEq, Repr

/-- The operation in progress (Table 2-3). -/
inductive StoreOp where
  /-- A WIPE, now erasing region `r`. -/
  | wipe (r : Region)
  | erase (r : Region)
  | program (slot : Slot) (words : List Word16)
  | stampRemoval (next : Change)
  | lockSet (r : Region)
  /-- A header rewrite that clears the lock flag of `r`, with the commit word as it stood before it was voided. -/
  | unlock (r : Region) (commit : StoreWord)
  /-- A validation pass; `started` once it has the read port (R29). -/
  | validate (started : Bool)
  /-- A header rewrite that writes the stamp, with the content sum and warnings of the pass (R28), and the commit word
  as it stood before it was voided. -/
  | stampWrite (sum : Word16) (warnings : List Warning) (commit : StoreWord)
deriving DecidableEq, Repr

/-- The operation running and the tick at which it ends. -/
structure RunningOp where
  op : StoreOp
  endsAt : Nat
deriving DecidableEq, Repr

/-- The region of a suspended erase and the erase's remaining time (R25). -/
structure SuspendedErase where
  region : Region
  remaining : Nat
deriving DecidableEq, Repr

/-- The validation result (R28). -/
inductive ValidationResult where
  | none
  | passed
  | failed (region : Region) (slot : Nat) (reason : Nat)
deriving DecidableEq, Repr

/-- The start-up check result (R32). -/
inductive StartCheck where
  | isMatch
  | noStamp
  | sumMismatch
deriving DecidableEq, Repr

/-- Who reads a slot through the read port (R29). -/
inductive ReadUse where
  /-- An evaluation read of a lever; `live` until its evaluation is abandoned (R77, R78). -/
  | evaluation (l : Lever) (live : Bool)
  /-- The read of the request at the head of the request queue (R7). -/
  | host (slot : Slot)
  | scrub (slot : Slot)
  | startup (slot : Slot)
  | validation
deriving DecidableEq, Repr

/-- The read port: the read being served with the tick at which it ends, and the user reads waiting, oldest first. -/
structure Port where
  serving : Option (ReadUse × Nat)
  waiting : List ReadUse
deriving DecidableEq, Repr

/-- The Scheme Store's state. -/
structure Sst where
  /-- The store's contents: word address and word, addresses strictly rising, no erased word listed. -/
  cells : List (Nat × StoreWord)
  state : StoreState
  op : Option RunningOp
  /-- The state an operation returns to when it ends. -/
  returnTo : StoreState
  suspended : Option SuspendedErase
  result : ValidationResult
  warnings : List Warning
  startCheck : Option StartCheck
  /-- The record condition table (R30). -/
  conds : Table 333 Cond
  lastChange : Option (Slot × Cond)
  port : Port
  /-- The slot of the start-up pass being read, or next to be read (R32). -/
  startup : Option Slot
  /-- The scrub position: the place of the next slot to visit, 333 when all have been visited (R31). -/
  scrubPos : Nat
  /-- When the next scrub step is due. -/
  scrubDue : Option Nat
  /-- The end of the running scrub period. -/
  periodEnd : Option Nat
  overrun : Bool
  optionsDefaults : Bool
deriving DecidableEq, Repr

/-! ## Track Code Receivers (chapter 4) -/

/-- An open measurement: the time of its opening edge, and its high time once its falling edge has come (R55). -/
structure Measurement where
  openedAt : Nat
  high : Option Nat
deriving DecidableEq, Repr

/-- The states of a track circuit. -/
inductive TrackState where
  | clear
  | occupied
deriving DecidableEq, Repr

/-- The last-occupancy reasons (R61). -/
inductive OccReason where
  | noCode
  | crossCode
  | test
  | recordFault
  | reset
deriving DecidableEq, Repr

/-- The class of a closed measurement (R56). -/
inductive PulseClass where
  | none
  | good
  | bad
  | cross
deriving DecidableEq, Repr

/-- One track circuit's receiver. -/
structure Track where
  filter : LevelFilter
  /-- The input is being read: its edges open and close measurements. -/
  reading : Bool
  meas : Option Measurement
  state : TrackState
  reason : OccReason
  good : Nat
  holdUntil : Nat
  drop : Option Nat
  test : Option Nat
  npuEff : Nat
  copy : Option RecordCopy
  /-- In record fault (R67). -/
  inFault : Bool
  occupations : Nat
  lastClass : PulseClass
  lastPeriod : Nat
  lastHigh : Nat
deriving DecidableEq, Repr

/-! ## Lever Locking Engine (chapter 5) -/

/-- An accepted input of the scan chain and its debounce count (R72). -/
structure ScanInput where
  accepted : Bool
  count : Nat
deriving DecidableEq, Repr

/-- The ends of a lever's travel. -/
inductive LeverEnd where
  | n
  | r
deriving DecidableEq, Repr

/-- The states of a lever (R74, R75); `unformed` until the box leaves STARTING (R91). -/
inductive LeverState where
  | normal
  | reverse
  | freed
  | transit
  | fault
  | spare
  | unformed
deriving DecidableEq, Repr

/-- The withheld reasons of a refusal (R79). -/
inductive Withheld where
  | wrongMode
  | switchedOut
  | recordFault
  | groupCut
  | routeHeld
  | term
deriving DecidableEq, Repr

/-- The causes of a lever's FAULT (R75). -/
inductive FaultCause where
  | bothContacts
  | unlockedMove
  | lockFaultMoved
deriving DecidableEq, Repr

/-- A lever's last event (Table 5-1). -/
inductive LeverEvent where
  | none
  | freed
  | refused
  | settled
  | freeingExpired
  | freeingWithdrawn
  | lockFault
  | fault
  | faultCleared
deriving DecidableEq, Repr

/-- One lever. -/
structure LeverRec where
  normal : ScanInput
  reverse : ScanInput
  grip : ScanInput
  state : LeverState
  origin : Option LeverEnd
  position : Option LeverEnd
  moved : Bool
  withdrawn : Bool
  lockFault : Bool
  deadline : Option Nat
  waiting : Bool
  withheld : Option Withheld
  /-- The reported failing term with its place (1 to 12) in the list judged. -/
  failing : Option (Nat × Term)
  /-- For ROUTE_HELD, the signal lever of the entry found. -/
  holder : Option Lever
  cause : Option FaultCause
  event : LeverEvent
  copy : Option RecordCopy
deriving DecidableEq, Repr

/-- The Lever Locking Engine's state. -/
structure Lle where
  levers : Table 48 LeverRec
  /-- The freeing queue, oldest first (R77). -/
  queue : List Lever
  /-- The lever under evaluation (R78). -/
  eval : Option Lever
deriving DecidableEq, Repr

/-! ## Signal and Route Controller (chapter 6) -/

/-- Why a route lock entry was removed (R103). -/
inductive RemovalCause where
  | none
  | trainPassed
  | timeRelease
  | rePull
deriving DecidableEq, Repr

/-- One signal slot. -/
structure Signal where
  lever : Option Lever
  copy : Option RecordCopy
  demand : Bool
  stick : Bool
  removal : RemovalCause
deriving DecidableEq, Repr

/-- The release states of a route lock entry (R101). -/
inductive ReleaseState where
  | waitingTrain
  | trainPassing
  | timing
deriving DecidableEq, Repr

/-- An entry of the route lock list (R101). `time` is T in ms. -/
structure RouteLock where
  lever : Lever
  held : List Lever
  passing : Option Tc
  time : Nat
  state : ReleaseState
  deadline : Option Nat
  created : Nat
deriving DecidableEq, Repr

/-- The Signal and Route Controller's state. -/
structure Src where
  signals : Table 24 Signal
  /-- The route lock list, oldest first. -/
  locks : List RouteLock
  /-- The copies of the three LINES records, for EMERGENCY (R99). -/
  lines : Table 3 (Option RecordCopy)
deriving DecidableEq, Repr

/-! ## Bell Codec (chapter 7) -/

/-- The named bell codes, numbers 1 to 10 of Table 7-1. -/
inductive BellCode where
  | call
  | offerPassenger
  | offerMixed
  | offerGoods
  | offerEngine
  | offerEngineers
  | entering
  | outOfSection
  | cancel
  | emergency
deriving DecidableEq, Repr

/-- The receive states of a line (R112). -/
inductive BellRx where
  | idle
  | high
  | gap
  | stuck
deriving DecidableEq, Repr

/-- The code in progress (R114). -/
structure OpenCode where
  groups : List Nat
  seen : Nat
  invalid : Bool
  lastFall : Nat
deriving DecidableEq, Repr

/-- A code record (R115); `name` is none for UNKNOWN. -/
structure CodeRecord where
  pattern : List Nat
  name : Option BellCode
  invalid : Bool
  through : Bool
  completed : Nat
deriving DecidableEq, Repr

/-- The sender states (R121). -/
inductive Sender where
  | idle
  | sounding
  | spacing
  | trailing
deriving DecidableEq, Repr

/-- One line of the Bell Codec. -/
structure BellLine where
  filter : LevelFilter
  rx : BellRx
  code : Option OpenCode
  /-- The start time of the present high. -/
  highStart : Option Nat
  lastBeatEnd : Nat
  /-- The bell receive queue, oldest first, up to 8. -/
  received : List CodeRecord
  discarded : Bool
  autoRefused : Bool
  /-- The bell send queue, head first, up to 4. -/
  sendQueue : List BellCode
  sender : Sender
  /-- The beats still to sound of the head code after the present one, group by group. -/
  place : List Nat
  /-- The end time of the sender's present step. -/
  stepEnd : Option Nat
  through : Bool
deriving DecidableEq, Repr

/-! ## Block Section Controller (chapter 8) -/

/-- The states of an incoming section. -/
inductive InState where
  | blocked
  | lineClear
  | trainOnLine
deriving DecidableEq, Repr

/-- The readings of a sense pair, and the sensed states of an outgoing section (R126). -/
inductive Sensed where
  | blocked
  | lineClear
  | trainOnLine
  | senseFault
deriving DecidableEq, Repr

/-- An incoming offer: RECEIVED, or REPEATED once this box has repeated it. -/
structure InOffer where
  code : BellCode
  received : Nat
  repeated : Bool
  expiry : Nat
deriving DecidableEq, Repr

/-- An outgoing offer: SENT, or ACCEPTED once the neighbour has repeated it. -/
structure OutOffer where
  code : BellCode
  sent : Nat
  accepted : Bool
  expiry : Nat
deriving DecidableEq, Repr

/-- The arrival steps (R135). -/
inductive ArrivalStep where
  | none
  | entryOcc
  | berthOcc
  | entryCleared
  | proven
deriving DecidableEq, Repr

/-- The section release of an incoming section (R136). -/
inductive SectionRelease where
  | none
  | running (deadline : Nat)
  | runOut
deriving DecidableEq, Repr

/-- The last section event (Table 8-4). -/
inductive SectionEvent where
  | none
  | lineClearGiven
  | trainOnLine
  | unexpectedEntry
  | obstruction
  | blocked
  | recordFault
  | releaseSet
  | releaseTaken
  | releaseLost
  | offerExpired
  | restarted
deriving DecidableEq, Repr

/-- The last code action (Table 8-4). -/
inductive CodeAction where
  | none
  | offerAccepted
  | offerRecorded
  | offerCancelled
  | cancelRecorded
  | outOfferCancelled
  | emergency
  | reportedOnly
  | offerRepeated
  | offerSent
deriving DecidableEq, Repr

/-- The incoming section record (Table 8-1). -/
structure Incoming where
  state : InState
  offer : Option InOffer
  accepted : Option BellCode
  cancel : Bool
  step : ArrivalStep
  release : SectionRelease
  alarm : Bool
  driveFault : Bool
  event : SectionEvent
deriving DecidableEq, Repr

/-- The outgoing section record (Table 8-2), with the sense filter's candidate and count. -/
structure Outgoing where
  candidate : Sensed
  count : Nat
  reading : Option Sensed
  sensed : Sensed
  release : Bool
  offer : Option OutOffer
  event : SectionEvent
deriving DecidableEq, Repr

/-- One line of the Block Section Controller. -/
structure BlockLine where
  inc : Incoming
  out : Outgoing
  copy : Option RecordCopy
  homeCopy : Option RecordCopy
  /-- The last code handed or told as sent: none yet, or UNKNOWN, or a named code. -/
  lastCode : Option (Option BellCode)
  lastAction : CodeAction
  frozen : Bool
  /-- The tick of the last fall of the starting signal's demand. -/
  demandFell : Option Nat
deriving DecidableEq, Repr

/-- The Block Section Controller's state. -/
structure Bsc where
  lines : Table 3 BlockLine
  /-- The cut of group 10, as told by the VOD. -/
  cut10 : Bool
deriving DecidableEq, Repr

/-! ## Vital Output Driver (chapter 9) -/

/-- An owner's demand for an output (R143). -/
inductive Demand where
  | off
  | on
  | positive
  | negative
deriving DecidableEq, Repr

/-- The faults of an output (R147). -/
inductive OutFault where
  | none
  | noCurrent
  | wrongSide
deriving DecidableEq, Repr

/-- What a read-back is judged to be (R146). -/
inductive Judged where
  | agrees
  | noCurrent
  | wrongSide
deriving DecidableEq, Repr

/-- One vital output. Its commanded state follows from its demand, the mode and its group's cut (R143). -/
structure OutRec where
  demand : Demand
  readBack : Bool
  fault : OutFault
  lastPulse : Option Nat
  /-- What the last pulse carried: on, or for an instrument its polarity; off when none has been sent since reset
  (R144). -/
  carried : Demand
deriving DecidableEq, Repr

/-- The group refresh in progress: the commanded states fixed at its start, the first read-back's judgement while
a retry is waited for, and the tick of the next read-back (R146). -/
structure Refresh where
  group : Group
  /-- The commanded states, polarity included, fixed at the start. -/
  fixed : Table 8 Demand
  first : Option (Table 8 Judged)
  readAt : Nat
deriving DecidableEq, Repr

/-- The Vital Output Driver's state. -/
structure Vod where
  outs : Table 76 OutRec
  cuts : Table 10 Bool
  options : Option RecordCopy
  /-- Tr in force, ms. -/
  interval : Nat
  roundStart : Nat
  /-- When the next round falls due, until it has fallen due. -/
  nextDue : Option Nat
  /-- The successor fell due while the round was running. -/
  owed : Bool
  refresh : Option Refresh
  overruns : Nat
  lastLength : Nat
deriving DecidableEq, Repr

/-! ## Indication Chain Controller (chapter 10) -/

/-- The values of a lamp. -/
inductive Lamp where
  | off
  | steady
  | flash
deriving DecidableEq, Repr

/-- The kinds of chain frame (R153). -/
inductive ChainKind where
  | allOn
  | phase
  | rows (first last : Fin 32)
deriving DecidableEq, Repr

/-- A frame in flight on the indication chain, with its bytes (Table 10-1). -/
structure ChainFrame where
  kind : ChainKind
  bytes : List Byte
  endsAt : Nat
deriving DecidableEq, Repr

/-- The Indication Chain Controller's state. -/
structure Icc where
  /-- The copies of the INDICATION records; the position map follows from them (R151). -/
  copies : Table 256 (Option RecordCopy)
  /-- The desired image: row r, column c at place 16r + c. -/
  desired : Table 512 Lamp
  sent : Table 512 Lamp
  /-- The dirty row set. -/
  dirty : Table 32 Bool
  /-- The flash phase; none until the box has left STARTING. -/
  phase : Option Bool
  phaseDue : Bool
  toggleAt : Option Nat
  frame : Option ChainFrame
  refreshAt : Option Nat
  allOnPending : Bool
  testUntil : Option Nat
  testDone : Bool
deriving DecidableEq, Repr

/-! ## Box Mode Controller and Timebase Monitor (chapter 11) -/

/-- The box modes. -/
inductive Mode where
  | starting
  | commissioning
  | openBox
  | switchedOut
  | maintenance
deriving DecidableEq, Repr

/-- The restart causes (R159). -/
inductive RestartCause where
  | powerOn
  | resetPin
  | restart
deriving DecidableEq, Repr

/-- The Box Mode Controller's state. -/
structure Bmc where
  mode : Mode
  cause : RestartCause
  startCheck : Option StartCheck
  hold : Option Nat
  options : Option RecordCopy
  relayFault : Bool
  cut10 : Bool
  /-- The last refused condition and its object (Table 11-1). -/
  refused : Option (Nat × Nat)
deriving DecidableEq, Repr

/-- The timebase states. -/
inductive TimebaseState where
  | startingTb
  | good
  | degraded
deriving DecidableEq, Repr

/-- The tick sources. -/
inductive TickSource where
  | oscillator
  | crystal
deriving DecidableEq, Repr

/-- The last cause of the Timebase Monitor (Table 11-3). -/
inductive TimebaseCause where
  | none
  | startUp
  | windowMissed
  | test
  | restore
deriving DecidableEq, Repr

/-- The Timebase Monitor's state. -/
structure Tbm where
  source : TickSource
  state : TimebaseState
  goodCount : Nat
  run : Nat
  startTicks : Nat
  degrades : Nat
  cause : TimebaseCause
deriving DecidableEq, Repr

/-- The part's state, and the queue of the commands that are waiting, first in, first out. -/
structure State where
  /-- The count of ticks: the present time in ms. -/
  now : Nat
  /-- The tick at which the last reset ended. -/
  resetAt : Nat
  /-- The count of resets, from which the free values of R33 are drawn (log 3); the model's own field. -/
  resets : Nat
  leads : Leads
  hlc : Hlc
  sst : Sst
  tcr : Table 24 Track
  lle : Lle
  src : Src
  blc : Table 3 BellLine
  bsc : Bsc
  vod : Vod
  icc : Icc
  bmc : Bmc
  tbm : Tbm
  /-- The commands waiting; the model's own field. -/
  pending : List Instr
deriving DecidableEq, Repr

/-! ## The state right after reset -/

/-- The receiver after a reset (R4): HUNT, no bytes held, no gap deadline. -/
def Receiver.idle : Receiver where
  framing := .hunt
  length := 0
  kind := 0
  tag := 0
  payload := []
  checkHi := 0
  check := 0
  gap := none

/-- The HLC after a reset (R16); the BMC has posted the MODE source in the same event (R159). -/
def Hlc.afterReset : Hlc where
  rx := .idle
  requests := []
  replies := []
  reports := [.mode]
  wire := none
  restartPending := false
  restartSent := false
  hostWait := false
  discarded := 0
  unanswered := 0
  baud := 0

/-- The SST after a reset (R33): the start-up pass is reading its first slot, the header, for 2 ms (R32). -/
def Sst.afterReset : Sst where
  cells := []
  state := .closed
  op := none
  returnTo := .closed
  suspended := none
  result := .none
  warnings := []
  startCheck := none
  conds := .fill 333 .good
  lastChange := none
  port := ⟨some (.startup 0, 2), []⟩
  startup := some 0
  scrubPos := 0
  scrubDue := none
  periodEnd := none
  overrun := false
  optionsDefaults := false

/-- A track circuit after a reset (R69). -/
def Track.afterReset : Track where
  filter := ⟨false, 0⟩
  reading := false
  meas := none
  state := .occupied
  reason := .reset
  good := 0
  holdUntil := 0
  drop := none
  test := none
  npuEff := 0
  copy := none
  inFault := false
  occupations := 0
  lastClass := .none
  lastPeriod := 0
  lastHigh := 0

/-- A lever after a reset (R73, R91). -/
def LeverRec.afterReset : LeverRec where
  normal := ⟨false, 0⟩
  reverse := ⟨false, 0⟩
  grip := ⟨false, 0⟩
  state := .unformed
  origin := none
  position := none
  moved := false
  withdrawn := false
  lockFault := false
  deadline := none
  waiting := false
  withheld := none
  failing := none
  holder := none
  cause := none
  event := .none
  copy := none

/-- A signal slot after a reset, and while no slot is assigned (R109). -/
def Signal.afterReset : Signal where
  lever := none
  copy := none
  demand := false
  stick := false
  removal := .none

/-- A bell line after a reset (R123). -/
def BellLine.afterReset : BellLine where
  filter := ⟨false, 0⟩
  rx := .idle
  code := none
  highStart := none
  lastBeatEnd := 0
  received := []
  discarded := false
  autoRefused := false
  sendQueue := []
  sender := .idle
  place := []
  stepEnd := none
  through := false

/-- An incoming section after a reset (R141). -/
def Incoming.afterReset : Incoming where
  state := .blocked
  offer := none
  accepted := none
  cancel := false
  step := .none
  release := .none
  alarm := false
  driveFault := false
  event := .none

/-- An outgoing section after a reset (R141). -/
def Outgoing.afterReset : Outgoing where
  candidate := .blocked
  count := 0
  reading := none
  sensed := .senseFault
  release := false
  offer := none
  event := .none

/-- A line of the BSC after a reset (R141). -/
def BlockLine.afterReset : BlockLine where
  inc := .afterReset
  out := .afterReset
  copy := none
  homeCopy := none
  lastCode := none
  lastAction := .none
  frozen := false
  demandFell := none

/-- The VOD after a reset (R149): every output draining, and the first round started with Tr of 40 ms. With no
output on, group 1's first read-back comes 1 ms after the start (R146). -/
def Vod.afterReset : Vod where
  outs := .fill 76 ⟨.off, false, .none, some 0, .off⟩
  cuts := .fill 10 false
  options := none
  interval := 40
  roundStart := 0
  nextDue := some 40
  owed := false
  refresh := some ⟨0, .fill 8 .off, none, 1⟩
  overruns := 0
  lastLength := 0

/-- The ICC after a reset (R157). -/
def Icc.afterReset : Icc where
  copies := .fill 256 none
  desired := .fill 512 .off
  sent := .fill 512 .off
  dirty := .fill 32 false
  phase := none
  phaseDue := false
  toggleAt := none
  frame := none
  refreshAt := none
  allOnPending := false
  testUntil := none
  testDone := false

/-- The BMC after a reset (R159), with restart cause POWER_ON. -/
def Bmc.afterReset : Bmc where
  mode := .starting
  cause := .powerOn
  startCheck := none
  hold := none
  options := none
  relayFault := false
  cut10 := false
  refused := none

/-- The TBM after a reset (R167). -/
def Tbm.afterReset : Tbm where
  source := .oscillator
  state := .startingTb
  goodCount := 0
  run := 0
  startTicks := 0
  degrades := 0
  cause := .none

/-- The part right after a power-on reset: tick 0, every lead low, the store erased (log 2), nothing waiting. -/
def State.reset : State where
  now := 0
  resetAt := 0
  resets := 0
  leads := .low
  hlc := .afterReset
  sst := .afterReset
  tcr := .fill 24 .afterReset
  lle := ⟨.fill 48 .afterReset, [], none⟩
  src := ⟨.fill 24 .afterReset, [], .fill 3 none⟩
  blc := .fill 3 .afterReset
  bsc := ⟨.fill 3 .afterReset, false⟩
  vod := .afterReset
  icc := .afterReset
  bmc := .afterReset
  tbm := .afterReset
  pending := []

end Machine

end Sys2Proof
end

