-- ==== Sys2Proof/Machine/Ops.lean ====
section
/-!
DEFINITION. The named operations every block shares: bytes and flag bits, time arithmetic, the store as addressed
memory, access to one object of a block, and posting a report source.
-/

namespace Sys2Proof.Machine

/-! ## Bytes -/

/-- The byte that carries the number `n`. -/
def byteOf (n : Nat) : Byte :=
  BitVec.ofNat 8 n

/-- A two-byte number, most significant byte first (R2). -/
def twoBytes (n : Nat) : List Byte :=
  [byteOf (n / 256), byteOf n]

/-- The two bytes of a store word, high byte first. -/
def wordBytes (w : Word16) : List Byte :=
  twoBytes w.toNat

/-- The word whose bytes are `hi` and `lo`. -/
def wordOf (hi lo : Byte) : Word16 :=
  hi ++ lo

/-- The words that a run of bytes spells, two bytes to a word, high byte first. -/
def wordsOf : List Byte → List Word16
  | hi :: lo :: rest => wordOf hi lo :: wordsOf rest
  | _ => []

/-- The byte at offset `i` as a number; an offset past the end reads as an erased byte. -/
def byteAt (bs : List Byte) (i : Nat) : Nat :=
  (bs.getD i 0xFF).toNat

/-- The two-byte number at offset `i`. -/
def pairAt (bs : List Byte) (i : Nat) : Nat :=
  byteAt bs i * 256 + byteAt bs (i + 1)

/-- A run of `n` bytes equal to `b`. -/
def padBytes (n : Nat) (b : Byte) : List Byte :=
  List.replicate n b

/-- A list of bytes brought to exactly `n` by padding with `b`. -/
def fitBytes (n : Nat) (b : Byte) (bs : List Byte) : List Byte :=
  (bs ++ padBytes n b).take n

/-- A text field: fixed length, printable characters, then padding 0x00 to the end (R2, R8). -/
def textValid : List Byte → Bool
  | [] => true
  | b :: rest =>
    if b = 0 then rest.all (· = 0)
    else decide (0x20 ≤ b.toNat) && decide (b.toNat ≤ 0x7E) && textValid rest

/-! ## Object numbers -/

/-- The lever of a number 1 to 48. -/
def leverOf (n : Nat) : Option Lever :=
  if h : 1 ≤ n ∧ n ≤ 48 then some ⟨n - 1, by omega⟩ else none

/-- The track circuit of a number 1 to 24. -/
def tcOf (n : Nat) : Option Tc :=
  if h : 1 ≤ n ∧ n ≤ 24 then some ⟨n - 1, by omega⟩ else none

/-- The line of a number 1 to 3 (R8). -/
def lineOf (n : Nat) : Option Line :=
  match n with
  | 1 => some .a
  | 2 => some .b
  | 3 => some .c
  | _ => none

/-- The number of a line. -/
def lineNumber : Line → Nat
  | .a => 1
  | .b => 2
  | .c => 3

/-- The section of an index 1 to 6: A-in, A-out, B-in, B-out, C-in, C-out (Table 1-4). -/
def sectionOf (n : Nat) : Option (Line × Side) :=
  match n with
  | 1 => some (.a, .incoming)
  | 2 => some (.a, .outgoing)
  | 3 => some (.b, .incoming)
  | 4 => some (.b, .outgoing)
  | 5 => some (.c, .incoming)
  | 6 => some (.c, .outgoing)
  | _ => none

/-- The three lines in order. -/
def allLines : List Line :=
  [.a, .b, .c]

/-- The index of a section. -/
def sectionIndex (x : Line) : Side → Nat
  | .incoming => 2 * lineNumber x - 1
  | .outgoing => 2 * lineNumber x

/-- The lock output of a lever: output n for lever n (R86). -/
def lockOutput (l : Lever) : Output :=
  ⟨l.val, by omega⟩

/-- The aspect output of a signal slot: output 48 + s (R41). -/
def aspectOutput (n : SigSlot) : Output :=
  ⟨n.val + 48, by omega⟩

/-- The instrument output of a line: 73, 74, 75 (R125). -/
def instrumentOutput (x : Line) : Output :=
  ⟨x.place.val + 72, by omega⟩

/-- The through relay, output 76. -/
def relayOutput : Output :=
  75

/-- The group of an output: group g holds outputs 8g − 7 to 8g (R143). -/
def groupOf (o : Output) : Group :=
  ⟨o.val / 8, by omega⟩

/-- The number of outputs in a group: 8, or 4 for group 10. -/
def groupSize (g : Group) : Nat :=
  if g.val = 9 then 4 else 8

/-- The output at place `i` of a group, when the group has one there. -/
def groupOutput (g : Group) (i : Nat) : Option Output :=
  if h : i < 8 ∧ g.val * 8 + i < 76 then some ⟨g.val * 8 + i, h.2⟩ else none

/-! ## Time -/

/-- `r` × 5 / 4, rounded up to the next multiple of 100 ms (R106, R107). -/
def stretch (r : Nat) : Nat :=
  (r * 5 + 399) / 400 * 100

/-- The effective time T_eff of a configured time T in ms (R106). -/
def effectiveTime (tb : TimebaseState) (t : Nat) : Nat :=
  match tb with
  | .good => t
  | .degraded => stretch t
  | .startingTb => stretch t

/-- A deadline rescaled at a change from GOOD to DEGRADED (R107). -/
def rescaled (now deadline : Nat) : Nat :=
  now + stretch (deadline - now)

/-- The time to a deadline in units of 100 ms, rounded up; 0 when there is none. -/
def timeLeft (now : Nat) : Option Nat → Nat
  | none => 0
  | some d => (d - now + 99) / 100

/-- The deadline is present and reached. -/
def reached (now : Nat) : Option Nat → Bool
  | none => false
  | some d => d ≤ now

/-- `n` brought into the range `lo` to `hi` (R36). -/
def clampTo (lo hi n : Nat) : Nat :=
  max lo (min hi n)

/-! ## The store as memory

The store's contents are a list of address and word. An address not listed holds the erased word: erasing leaves
it so (R17), and the part is taken to leave the factory so (log 2). -/

/-- A word that reads 0xFFFF with all its check bits at one (R17). -/
def erasedWord : StoreWord :=
  ⟨0xFFFF, .good⟩

/-- A word's value as read: the corrected value of a correctable word, and otherwise its data bits (R19, R29). -/
def wordValue (w : StoreWord) : Word16 :=
  match w.check with
  | .good => w.data
  | .correctable v => v
  | .uncorrectable => w.data

/-- A word written with fresh check bits. -/
def freshWord (v : Word16) : StoreWord :=
  ⟨v, .good⟩

/-- The word at an address. -/
def cellRead : List (Nat × StoreWord) → Nat → StoreWord
  | [], _ => erasedWord
  | (a, w) :: rest, b => if a = b then w else cellRead rest b

/-- The store with the word at an address replaced. Writing the erased word removes the entry. -/
def cellWrite : List (Nat × StoreWord) → Nat → StoreWord → List (Nat × StoreWord)
  | [], b, v => if v = erasedWord then [] else [(b, v)]
  | (a, w) :: rest, b, v =>
    if b < a then
      if v = erasedWord then (a, w) :: rest else (b, v) :: (a, w) :: rest
    else if b = a then
      if v = erasedWord then rest else (b, v) :: rest
    else (a, w) :: cellWrite rest b v

/-- From address `lo` on, addresses strictly rise and no erased word is listed. -/
def cellsFrom : Nat → List (Nat × StoreWord) → Bool
  | _, [] => true
  | lo, (a, w) :: rest => decide (lo ≤ a) && decide (w ≠ erasedWord) && cellsFrom (a + 1) rest

/-- The store's contents are in canonical form. -/
def Memory.wf (cells : List (Nat × StoreWord)) : Bool :=
  cellsFrom 0 cells

/-- A word program: it can only turn ones into zeros, and writes fresh check bits (R17). It starts from the word's
value as read, the corrected value of a correctable word (log 47). -/
def cellProgram (cells : List (Nat × StoreWord)) (a : Nat) (v : Word16) : List (Nat × StoreWord) :=
  cellWrite cells a (freshWord (wordValue (cellRead cells a) &&& v))

/-- The words programmed one after another from an address on. -/
def cellProgramAll (cells : List (Nat × StoreWord)) (a : Nat) : List Word16 → List (Nat × StoreWord)
  | [] => cells
  | v :: rest => cellProgramAll (cellProgram cells a v) (a + 1) rest

/-- The words written one after another from an address on, whatever stood there (an erase has gone before). -/
def cellWriteAll (cells : List (Nat × StoreWord)) (a : Nat) : List Word16 → List (Nat × StoreWord)
  | [] => cells
  | v :: rest => cellWriteAll (cellWrite cells a (freshWord v)) (a + 1) rest

/-- The store with the addresses from `lo` to below `hi` erased. -/
def cellErase (cells : List (Nat × StoreWord)) (lo hi : Nat) : List (Nat × StoreWord) :=
  cells.filter fun c => decide (c.1 < lo) || decide (hi ≤ c.1)

/-- A correction: the word is rewritten with its corrected value, if it is correctable (R17). -/
def correctedWord (w : StoreWord) : StoreWord :=
  match w.check with
  | .correctable v => freshWord v
  | .good => w
  | .uncorrectable => w

/-- The store with the correctable words at the addresses that `p` picks out corrected in place. -/
def cellCorrectAt (p : Nat → Bool) (cells : List (Nat × StoreWord)) : List (Nat × StoreWord) :=
  cells.filterMap fun c =>
    if p c.1 then
      if correctedWord c.2 = erasedWord then none else some (c.1, correctedWord c.2)
    else some c

/-- The store with every correctable word from `lo` to below `hi` corrected in place. -/
def cellCorrect (cells : List (Nat × StoreWord)) (lo hi : Nat) : List (Nat × StoreWord) :=
  cellCorrectAt (fun a => decide (lo ≤ a) && decide (a < hi)) cells

/-! ## Regions and slots (Table 2-1) -/

/-- A region's place in the list of slots: its first slot's place. -/
def regionFirst : Region → Nat
  | .header => 0
  | .levers => 1
  | .track => 49
  | .lines => 73
  | .options => 76
  | .indication => 77

/-- The number of slots of a region. -/
def regionSlots : Region → Nat
  | .header => 1
  | .levers => 48
  | .track => 24
  | .lines => 3
  | .options => 1
  | .indication => 256

/-- The words of one slot of a region. -/
def regionWords : Region → Nat
  | .header => 32
  | .levers => 64
  | .track => 8
  | .lines => 16
  | .options => 32
  | .indication => 4

/-- The store address of a region's first word. -/
def regionBase : Region → Nat
  | .header => 0
  | .levers => 32
  | .track => 3104
  | .lines => 3296
  | .options => 3344
  | .indication => 3376

/-- The store address after a region's last word. -/
def regionEnd (r : Region) : Nat :=
  regionBase r + regionSlots r * regionWords r

/-- The number that names a region's first slot: 1 for LEVERS, TRACK and LINES, 0 for the others. -/
def regionFirstNumber : Region → Nat
  | .header => 0
  | .levers => 1
  | .track => 1
  | .lines => 1
  | .options => 0
  | .indication => 0

/-- The port time of one slot read, ms. -/
def regionReadTime : Region → Nat
  | .header => 2
  | .levers => 4
  | .track => 1
  | .lines => 1
  | .options => 2
  | .indication => 1

/-- A region's code. -/
def regionCode : Region → Nat
  | .header => 0
  | .levers => 1
  | .track => 2
  | .lines => 3
  | .options => 4
  | .indication => 5

/-- The region of a code (R8). -/
def regionOf (n : Nat) : Option Region :=
  match n with
  | 0 => some .header
  | 1 => some .levers
  | 2 => some .track
  | 3 => some .lines
  | 4 => some .options
  | 5 => some .indication
  | _ => none

/-- The region after this one in the order of a WIPE (R21). -/
def regionAfter : Region → Option Region
  | .header => some .levers
  | .levers => some .track
  | .track => some .lines
  | .lines => some .options
  | .options => some .indication
  | .indication => none

/-- A slot's region. -/
def slotRegion (i : Slot) : Region :=
  if i.val < 1 then .header
  else if i.val < 49 then .levers
  else if i.val < 73 then .track
  else if i.val < 76 then .lines
  else if i.val < 77 then .options
  else .indication

/-- A slot's number within its region. -/
def slotNumber (i : Slot) : Nat :=
  i.val - regionFirst (slotRegion i) + regionFirstNumber (slotRegion i)

/-- The store address of a slot's first word. -/
def slotBase (i : Slot) : Nat :=
  regionBase (slotRegion i) + (i.val - regionFirst (slotRegion i)) * regionWords (slotRegion i)

/-- The words of a slot. -/
def slotWords (i : Slot) : Nat :=
  regionWords (slotRegion i)

/-- The store address after a slot's last word. -/
def slotEnd (i : Slot) : Nat :=
  slotBase i + slotWords i

/-- The slot of a region with a number, when there is one (R8). -/
def slotOf (r : Region) (n : Nat) : Option Slot :=
  if h : regionFirstNumber r ≤ n ∧ n < regionFirstNumber r + regionSlots r ∧
      regionFirst r + (n - regionFirstNumber r) < 333 then
    some ⟨regionFirst r + (n - regionFirstNumber r), h.2.2⟩
  else none

/-- The header's slot. -/
def headerSlot : Slot := 0

/-- The slot of a lever's record (R35). -/
def leverSlot (l : Lever) : Slot :=
  ⟨l.val + 1, by omega⟩

/-- The slot of a track circuit's record. -/
def trackSlot (t : Tc) : Slot :=
  ⟨t.val + 49, by omega⟩

/-- The slot of a line's record. -/
def lineSlot (x : Line) : Slot :=
  ⟨x.place.val + 73, by omega⟩

/-- The slot of the OPTIONS record. -/
def optionsSlot : Slot := 76

/-- The slot of the indication record of number `i`. -/
def indicationSlot (i : Fin 256) : Slot :=
  ⟨i.val + 77, by omega⟩

/-- Every slot in scrub order. -/
def allSlots : List Slot :=
  List.finRange 333

/-- The slots of a region in increasing number. -/
def regionSlotList (r : Region) : List Slot :=
  allSlots.filter fun i => slotRegion i = r

/-- The listed words of a slot. -/
def slotCells (cells : List (Nat × StoreWord)) (i : Slot) : List (Nat × StoreWord) :=
  cells.filter fun c => decide (slotBase i ≤ c.1) && decide (c.1 < slotEnd i)

/-- A slot is erased when every one of its words reads 0xFFFF (R17). -/
def slotErased (cells : List (Nat × StoreWord)) (i : Slot) : Bool :=
  (slotCells cells i).all fun c => wordValue c.2 = 0xFFFF

/-- The values of a slot's words as read. -/
def slotValues (cells : List (Nat × StoreWord)) (i : Slot) : List Word16 :=
  let own := slotCells cells i
  (List.range (slotWords i)).map fun k => wordValue (cellRead own (slotBase i + k))

/-- A slot's bytes as read, two to a word, high byte first. -/
def slotBytes (cells : List (Nat × StoreWord)) (i : Slot) : List Byte :=
  (slotValues cells i).flatMap wordBytes

/-- Some word of the slot is uncorrectable. -/
def slotUncorrectable (cells : List (Nat × StoreWord)) (i : Slot) : Bool :=
  (slotCells cells i).any fun c => c.2.check = .uncorrectable

/-- The number of correctable words of a slot. -/
def slotCorrectables (cells : List (Nat × StoreWord)) (i : Slot) : Nat :=
  (slotCells cells i).countP fun c =>
    match c.2.check with
    | .correctable _ => true
    | .good => false
    | .uncorrectable => false

/-- A slot's share of the content sum: nothing when erased, and otherwise every word at its value as read (R19). -/
def slotSum (cells : List (Nat × StoreWord)) (i : Slot) : Nat :=
  if slotErased cells i then 0
  else
    let own := slotCells cells i
    (own.map fun c => (wordValue c.2).toNat).sum + (slotWords i - own.length) * 0xFFFF

/-- The content sum over the five scheme regions (R19). -/
def contentSum (cells : List (Nat × StoreWord)) : Word16 :=
  BitVec.ofNat 16 ((allSlots.filter fun i => slotRegion i ≠ .header).map (slotSum cells)).sum

/-- The number of programmed slots of all six regions (R28). -/
def programmedSlots (cells : List (Nat × StoreWord)) : Nat :=
  allSlots.countP fun i => !slotErased cells i

/-! ## One object of a block -/

/-- The track circuit `t`. -/
def State.track (s : State) (t : Tc) : Track :=
  s.tcr.get t

/-- The state with the track circuit `t` changed by `f`. -/
def State.modTrack (s : State) (t : Tc) (f : Track → Track) : State :=
  { s with tcr := s.tcr.modify t f }

/-- The lever `l`. -/
def State.lever (s : State) (l : Lever) : LeverRec :=
  s.lle.levers.get l

/-- The state with the lever `l` changed by `f`. -/
def State.modLever (s : State) (l : Lever) (f : LeverRec → LeverRec) : State :=
  { s with lle := { s.lle with levers := s.lle.levers.modify l f } }

/-- The signal slot `n`. -/
def State.signal (s : State) (n : SigSlot) : Signal :=
  s.src.signals.get n

/-- The state with the signal slot `n` changed by `f`. -/
def State.modSignal (s : State) (n : SigSlot) (f : Signal → Signal) : State :=
  { s with src := { s.src with signals := s.src.signals.modify n f } }

/-- The bells of line `x`. -/
def State.bell (s : State) (x : Line) : BellLine :=
  s.blc.get x.place

/-- The state with the bells of line `x` changed by `f`. -/
def State.modBell (s : State) (x : Line) (f : BellLine → BellLine) : State :=
  { s with blc := s.blc.modify x.place f }

/-- The sections of line `x`. -/
def State.block (s : State) (x : Line) : BlockLine :=
  s.bsc.lines.get x.place

/-- The state with the sections of line `x` changed by `f`. -/
def State.modBlock (s : State) (x : Line) (f : BlockLine → BlockLine) : State :=
  { s with bsc := { s.bsc with lines := s.bsc.lines.modify x.place f } }

/-- The state with the incoming section of line `x` changed by `f`. -/
def State.modInc (s : State) (x : Line) (f : Incoming → Incoming) : State :=
  s.modBlock x fun b => { b with inc := f b.inc }

/-- The state with the outgoing section of line `x` changed by `f`. -/
def State.modOut (s : State) (x : Line) (f : Outgoing → Outgoing) : State :=
  s.modBlock x fun b => { b with out := f b.out }

/-- The vital output `o`. -/
def State.output (s : State) (o : Output) : OutRec :=
  s.vod.outs.get o

/-- The state with the vital output `o` changed by `f`. -/
def State.modOutput (s : State) (o : Output) (f : OutRec → OutRec) : State :=
  { s with vod := { s.vod with outs := s.vod.outs.modify o f } }

/-- The box mode. -/
def State.mode (s : State) : Mode :=
  s.bmc.mode

/-- The state of a lever. -/
def State.leverState (s : State) (l : Lever) : LeverState :=
  (s.lever l).state

/-- The condition of a slot. -/
def State.cond (s : State) (i : Slot) : Cond :=
  s.sst.conds.get i

/-! ## Posting a report source (R13) -/

/-- A post: an entry is appended at the tail, unless the source already has one, which keeps its place. -/
def postReport (src : Source) (s : State) : State :=
  if src ∈ s.hlc.reports then s
  else { s with hlc := { s.hlc with reports := s.hlc.reports ++ [src] } }

/-- Posts of several sources, one after another. -/
def postAll (srcs : List Source) (s : State) : State :=
  srcs.foldl (fun s src => postReport src s) s

/-- A post of both sections of a line. -/
def postSections (x : Line) (s : State) : State :=
  postReport (.sect x .outgoing) (postReport (.sect x .incoming) s)

/-- The effect of doing something for each member of a list in turn. -/
def forEach {α : Type} (xs : List α) (f : α → State → State) (s : State) : State :=
  xs.foldl (fun s x => f x s) s

end Sys2Proof.Machine
end

