-- ==== Sys2Proof/Machine/Operands.lean ====
section
/-!
DEFINITION. The fields of the scheme records and of the header, as their users read them (chapter 3, R18), the terms of a
lever's lists and when they hold (R38, R39), and the layouts of the request payloads (R8).
-/

namespace Sys2Proof.Machine

/-! ## Records and soundness (R36) -/

/-- The bytes of a copy that is present. -/
def copyBytes (c : Option RecordCopy) : List Byte :=
  match c with
  | none => []
  | some r => r.bytes

/-- A copy is sound: present, not CORRUPT, and with no undefined value (`isDefined`). -/
def copySound (isDefined : List Byte → Bool) (c : Option RecordCopy) : Bool :=
  match c with
  | none => false
  | some r => decide (r.cond ≠ .corrupt) && isDefined r.bytes

/-- A copy is present and CORRUPT. -/
def copyCorrupt (c : Option RecordCopy) : Bool :=
  match c with
  | none => false
  | some r => r.cond = .corrupt

/-- A one-byte field that may be absent: absent, or in the range `lo` to `hi`. -/
def absentOrIn (lo hi n : Nat) : Bool :=
  n == 0xFF || (decide (lo ≤ n) && decide (n ≤ hi))

/-- `n` lies in the range `lo` to `hi`. -/
def inRange (lo hi n : Nat) : Bool :=
  decide (lo ≤ n) && decide (n ≤ hi)

/-! ## Terms (Table 3-3) -/

/-- The term stored at an offset. -/
def termAt (bs : List Byte) (i : Nat) : Term where
  kind := bs.getD i 0xFF
  index := bs.getD (i + 1) 0xFF
  value := bs.getD (i + 2) 0xFF
  qualifier := bs.getD (i + 3) 0xFF

/-- The term's four bytes as stored. -/
def termBytes (t : Term) : List Byte :=
  [t.kind, t.index, t.value, t.qualifier]

/-- The kinds of term. -/
inductive TermKind where
  | lever
  | track
  | sect
  | release
  | signalOff
deriving DecidableEq, Repr

/-- The kind of a term, when its code is defined. -/
def termKind (t : Term) : Option TermKind :=
  match t.kind.toNat with
  | 1 => some .lever
  | 2 => some .track
  | 3 => some .sect
  | 4 => some .release
  | 5 => some .signalOff
  | _ => none

/-- The lever that a LEVER term names. -/
def termLever (t : Term) : Option Lever :=
  if termKind t = some .lever then leverOf t.index.toNat else none

/-- The signal lever that a SIGNAL_OFF term names. -/
def termSignal (t : Term) : Option Lever :=
  if termKind t = some .signalOff then leverOf t.index.toNat else none

/-- The track circuit that a TRACK term names. -/
def termTrack (t : Term) : Option Tc :=
  if termKind t = some .track then tcOf t.index.toNat else none

/-- The section that a SECTION term names. -/
def termSection (t : Term) : Option (Line × Side) :=
  if termKind t = some .sect then sectionOf t.index.toNat else none

/-- The line that a RELEASE term names. -/
def termRelease (t : Term) : Option Line :=
  if termKind t = some .release then lineOf t.index.toNat else none

/-- A position byte: lever 0x01 to 0x30 at N, or 0x81 to 0xB0 at R. -/
def leverAtEnd (n : Nat) : Option (Lever × LeverEnd) :=
  match leverOf n with
  | some l => some (l, .n)
  | none => if 0x80 ≤ n then (leverOf (n - 0x80)).map fun l => (l, .r) else none

/-- The qualifier of a term: the lever Q and the position (R39). -/
def termQualifier (t : Term) : Option (Lever × LeverEnd) :=
  leverAtEnd t.qualifier.toNat

/-- The qualifier is absent or names a lever with a position. -/
def qualifierDefined (t : Term) : Bool :=
  t.qualifier == 0 || (termQualifier t).isSome

/-- The term's index lies in the range of its kind. -/
def termIndexInRange (t : Term) : Bool :=
  match termKind t with
  | some .lever => inRange 1 48 t.index.toNat
  | some .track => inRange 1 24 t.index.toNat
  | some .sect => inRange 1 6 t.index.toNat
  | some .release => inRange 1 3 t.index.toNat
  | some .signalOff => inRange 1 48 t.index.toNat
  | none => false

/-- The required value is the one R38 gives for the term's kind and index. Where a SECTION index is out of range,
R38 gives none, and either code is let through for the reference check to judge (log 26). -/
def termValueDefined (t : Term) : Bool :=
  match termKind t with
  | some .lever => inRange 0 1 t.value.toNat
  | some .sect =>
    match sectionOf t.index.toNat with
    | some (_, .incoming) => t.value == 0
    | some (_, .outgoing) => t.value == 1
    | none => inRange 0 1 t.value.toNat
  | some .track => t.value == 0
  | some .release => t.value == 0
  | some .signalOff => t.value == 0
  | none => false

/-- The term has no undefined value. -/
def termDefined (t : Term) : Bool :=
  (termKind t).isSome && termIndexInRange t && termValueDefined t && qualifierDefined t

/-! ## The lever record (Table 3-2) -/

/-- The kind code of a lever record: 1 SIGNAL, 2 POINTS, 3 LOCK, 4 RELEASE, 5 SPARE. -/
def leverKind (bs : List Byte) : Nat :=
  byteAt bs 0

/-- The role code: 0 NONE, 1 HOME, 2 STARTING, 3 DISTANT, 4 SHUNT. -/
def leverRole (bs : List Byte) : Nat :=
  byteAt bs 1

/-- The line field, 0xFF when absent. -/
def leverLineCode (bs : List Byte) : Nat :=
  byteAt bs 2

/-- The record is of kind SIGNAL. -/
def isSignalRecord (bs : List Byte) : Bool :=
  leverKind bs == 1

/-- The record is of kind SPARE. -/
def isSpareRecord (bs : List Byte) : Bool :=
  leverKind bs == 5

/-- The signal is a HOME or a STARTING. -/
def isHomeOrStarting (bs : List Byte) : Bool :=
  isSignalRecord bs && (leverRole bs == 1 || leverRole bs == 2)

/-- The line of a HOME or STARTING lever. -/
def leverLine (bs : List Byte) : Option Line :=
  lineOf (leverLineCode bs)

/-- The approach TC, when present. -/
def approachTc (bs : List Byte) : Option Tc :=
  tcOf (byteAt bs 3)

/-- The passing TC, when present. -/
def passingTc (bs : List Byte) : Option Tc :=
  tcOf (byteAt bs 4)

/-- The approach lock mode is ALWAYS. -/
def locksAlways (bs : List Byte) : Bool :=
  byteAt bs 5 == 1

/-- The stored time release in seconds; absent reads as 65535 (R37). -/
def timeReleaseStored (bs : List Byte) : Nat :=
  pairAt bs 6

/-- The time release T in ms, clamped to 30 to 240 s (R36, R106). -/
def timeReleaseMs (bs : List Byte) : Nat :=
  clampTo 30 240 (timeReleaseStored bs) * 1000

/-- The ToReverse count as stored. -/
def toReverseCount (bs : List Byte) : Nat :=
  byteAt bs 8

/-- The ToNormal count as stored. -/
def toNormalCount (bs : List Byte) : Nat :=
  byteAt bs 9

/-- The ToReverse list, in order. Terms beyond the count are not read; a SPARE record has no list (R37). -/
def toReverse (bs : List Byte) : List Term :=
  if isSpareRecord bs then []
  else (List.range (min (toReverseCount bs) 12)).map fun k => termAt bs (10 + 4 * k)

/-- The ToNormal list, in order. -/
def toNormal (bs : List Byte) : List Term :=
  if isSpareRecord bs then []
  else (List.range (min (toNormalCount bs) 8)).map fun k => termAt bs (58 + 4 * k)

/-- The role is one the kind allows (R37, R47). -/
def roleDefined (bs : List Byte) : Bool :=
  if isSignalRecord bs then inRange 1 4 (leverRole bs) else leverRole bs == 0

/-- The lever record holds no undefined value: no undefined kind or code, no index out of range, no required field
absent, no count above its limit (R36). Of a SPARE record only the kind is read (R37). -/
def leverDefined (bs : List Byte) : Bool :=
  isSpareRecord bs ||
    (inRange 1 4 (leverKind bs) && roleDefined bs &&
      absentOrIn 1 3 (leverLineCode bs) && absentOrIn 1 24 (byteAt bs 3) && absentOrIn 1 24 (byteAt bs 4) &&
      absentOrIn 0 1 (byteAt bs 5) &&
      decide (toReverseCount bs ≤ 12) && decide (toNormalCount bs ≤ 8) &&
      (toReverse bs).all termDefined && (toNormal bs).all termDefined &&
      (!isHomeOrStarting bs || (leverLine bs).isSome && (passingTc bs).isSome) &&
      (!isSignalRecord bs || inRange 0 1 (byteAt bs 5)))

/-- A lever copy is sound (R74). -/
def leverSound (c : Option RecordCopy) : Bool :=
  copySound leverDefined c

/-- A lever is SPARE: its slot holds no record, or a sound record of kind SPARE (R74). -/
def copySpare (c : Option RecordCopy) : Bool :=
  match c with
  | none => true
  | some r => leverSound (some r) && isSpareRecord r.bytes

/-- The held set: the levers named by LEVER terms of the ToReverse list, each once, in increasing number (R40). -/
def heldSet (bs : List Byte) : List Lever :=
  (List.finRange 48).filter fun l => (toReverse bs).any fun t => termLever t = some l

/-! ## The TRACK record (Table 3-4) -/

/-- The code identities (R54). -/
inductive TrackCode where
  | a
  | b
  | c
  | d
deriving DecidableEq, Repr

/-- The code identity, when defined. -/
def trackCode (bs : List Byte) : Option TrackCode :=
  match byteAt bs 0 with
  | 1 => some .a
  | 2 => some .b
  | 3 => some .c
  | 4 => some .d
  | _ => none

/-- The TRACK record's code identity is defined (R66). -/
def trackDefined (bs : List Byte) : Bool :=
  (trackCode bs).isSome

/-- A TRACK copy is sound (R66). -/
def trackSound (c : Option RecordCopy) : Bool :=
  copySound trackDefined c

/-- The pick-up count Npu, clamped to 2 to 15 (R42). -/
def pickUpCount (bs : List Byte) : Nat :=
  clampTo 2 15 (byteAt bs 1)

/-- The shunt hold Th in ms: stored in steps of 100 ms, a step count above 300 used as 300 (R42). -/
def shuntHold (bs : List Byte) : Nat :=
  min 300 (pairAt bs 2) * 100

/-- A 12-byte name at an offset; a text of all 0xFF bytes is absent and reads as all 0x00. -/
def nameAt (bs : List Byte) (i : Nat) : List Byte :=
  let name := fitBytes 12 0xFF (bs.drop i)
  if name.all (· = 0xFF) then padBytes 12 0 else name

/-! ## The LINES record (Table 3-5) -/

/-- The line is worked SINGLE. -/
def workedSingle (bs : List Byte) : Bool :=
  byteAt bs 0 == 1

/-- auto_entering is on. -/
def autoEntering (bs : List Byte) : Bool :=
  byteAt bs 1 == 1

/-- The home lever. -/
def homeLever (bs : List Byte) : Option Lever :=
  leverOf (byteAt bs 2)

/-- The starting lever. -/
def startingLever (bs : List Byte) : Option Lever :=
  leverOf (byteAt bs 3)

/-- The entry TC. -/
def entryTc (bs : List Byte) : Option Tc :=
  tcOf (byteAt bs 4)

/-- The berth TC. -/
def berthTc (bs : List Byte) : Option Tc :=
  tcOf (byteAt bs 5)

/-- The exit TC. -/
def exitTc (bs : List Byte) : Option Tc :=
  tcOf (byteAt bs 6)

/-- The through partner, when present. -/
def throughPartner (bs : List Byte) : Option Line :=
  lineOf (byteAt bs 7)

/-- The LINES record holds no undefined value (R36, R43). -/
def linesDefined (bs : List Byte) : Bool :=
  inRange 0 1 (byteAt bs 0) && inRange 0 1 (byteAt bs 1) &&
    (homeLever bs).isSome && (startingLever bs).isSome &&
    (entryTc bs).isSome && (berthTc bs).isSome && (exitTc bs).isSome && absentOrIn 1 3 (byteAt bs 7)

/-- A LINES copy is sound (R127). -/
def linesSound (c : Option RecordCopy) : Bool :=
  copySound linesDefined c

/-- The bytes of a LINES copy, when it is sound. -/
def soundLine (c : Option RecordCopy) : Option (List Byte) :=
  if linesSound c then some (copyBytes c) else none

/-! ## The OPTIONS record (Table 3-6) -/

/-- The stored pattern count. -/
def patternCount (bs : List Byte) : Nat :=
  byteAt bs 7

/-- The OPTIONS record holds no undefined value (R36, R44). -/
def optionsDefined (bs : List Byte) : Bool :=
  inRange 0 1 (byteAt bs 6) && decide (patternCount bs ≤ 16) &&
    (List.range (patternCount bs)).all fun k => (leverAtEnd (byteAt bs (8 + k))).isSome

/-- The OPTIONS record's bytes, when they may be used; otherwise every field takes its default (R44). -/
def soundOptions (c : Option RecordCopy) : Option (List Byte) :=
  if copySound optionsDefined c then some (copyBytes c) else none

/-- The reset hold time in ms (R44). -/
def resetHoldMs (c : Option RecordCopy) : Nat :=
  match soundOptions c with
  | none => 120000
  | some bs => clampTo 60 600 (pairAt bs 0) * 1000

/-- The section release time in ms (R44). -/
def sectionReleaseMs (c : Option RecordCopy) : Nat :=
  match soundOptions c with
  | none => 180000
  | some bs => clampTo 60 600 (pairAt bs 2) * 1000

/-- The refresh interval Tr in ms (R44). -/
def refreshInterval (c : Option RecordCopy) : Nat :=
  match soundOptions c with
  | none => 40
  | some bs => clampTo 20 80 (pairAt bs 4)

/-- The through pair of the options is A with B. -/
def hasThroughPair (c : Option RecordCopy) : Bool :=
  match soundOptions c with
  | none => false
  | some bs => byteAt bs 6 == 1

/-- The entries of a switch-out pattern as stored. -/
def patternEntries (bs : List Byte) : List (Lever × LeverEnd) :=
  (List.range (min (patternCount bs) 16)).filterMap fun k => leverAtEnd (byteAt bs (8 + k))

/-- The switch-out pattern (R44). -/
def switchOutPattern (c : Option RecordCopy) : List (Lever × LeverEnd) :=
  match soundOptions c with
  | none => []
  | some bs => patternEntries bs

/-! ## The INDICATION record (Table 3-7) -/

/-- The source kinds of a lamp (R45). -/
inductive LampSource where
  | lever
  | track
  | sectionIn
  | sectionOut
  | routeLock
  | signalOut
  | offer
  | boxMode
  | timebase
deriving DecidableEq, Repr

/-- The source kind, when its code is defined. -/
def lampSource (bs : List Byte) : Option LampSource :=
  match byteAt bs 2 with
  | 1 => some .lever
  | 2 => some .track
  | 3 => some .sectionIn
  | 4 => some .sectionOut
  | 5 => some .routeLock
  | 6 => some .signalOut
  | 7 => some .offer
  | 8 => some .boxMode
  | 9 => some .timebase
  | _ => none

/-- The number of conditions a source kind has (R45). -/
def lampConditions : LampSource → Nat
  | .lever => 5
  | .track => 2
  | .sectionIn => 3
  | .sectionOut => 4
  | .routeLock => 2
  | .signalOut => 1
  | .offer => 2
  | .boxMode => 5
  | .timebase => 1

/-- The source index lies in the range of the source kind (R45). -/
def lampIndexInRange (k : LampSource) (n : Nat) : Bool :=
  match k with
  | .lever => inRange 1 48 n
  | .track => inRange 1 24 n
  | .sectionIn => inRange 1 3 n
  | .sectionOut => inRange 1 3 n
  | .routeLock => inRange 1 48 n
  | .signalOut => inRange 1 48 n
  | .offer => inRange 1 3 n
  | .boxMode => n == 0
  | .timebase => n == 0

/-- The source kind, condition, display and fault display hold defined codes (R47). -/
def lampCodesDefined (bs : List Byte) : Bool :=
  match lampSource bs with
  | none => false
  | some k => decide (byteAt bs 4 < lampConditions k) && inRange 0 1 (byteAt bs 5) && inRange 0 1 (byteAt bs 6)

/-- The INDICATION record holds no undefined value apart from its row and column, which decide whether it places a
lamp at all (R36, R151). -/
def lampDefined (bs : List Byte) : Bool :=
  lampCodesDefined bs &&
    match lampSource bs with
    | none => false
    | some k => lampIndexInRange k (byteAt bs 3)

/-- The position (16 × row + column) at which a record places its lamp, when its row and column are in range. -/
def lampPlace (bs : List Byte) : Option (Fin 512) :=
  if h : byteAt bs 0 ≤ 31 ∧ byteAt bs 1 ≤ 15 then
    some ⟨byteAt bs 0 * 16 + byteAt bs 1, by omega⟩
  else none

/-! ## When a term holds (R38, R39, R95) -/

/-- The signal slot that a lever holds. -/
def slotOfLever (s : State) (l : Lever) : Option SigSlot :=
  (List.finRange 24).find? fun n => (s.signal n).lever = some l

/-- A signal's output demand; false for a lever that holds no slot. -/
def demandOf (s : State) (l : Lever) : Bool :=
  match slotOfLever s l with
  | none => false
  | some n => (s.signal n).demand

/-- The lever is at an end: NORMAL for N, REVERSE for R, and in no other state (R75). -/
def leverAt (s : State) (l : Lever) : LeverEnd → Bool
  | .n => s.leverState l = .normal
  | .r => s.leverState l = .reverse

/-- The lever stands settled in the position opposite `e`. -/
def leverAtOther (s : State) (l : Lever) : LeverEnd → Bool
  | .n => leverAt s l .r
  | .r => leverAt s l .n

/-- Lines A and B are through-connected for the SRC (R95). -/
def throughLine (through : Bool) (x : Line) : Bool :=
  through && decide (x ≠ .c)

/-- The section is in the state its term requires: BLOCKED incoming, LINE_CLEAR outgoing. -/
def sectionHolds (s : State) (x : Line) : Side → Bool
  | .incoming => (s.block x).inc.state = .blocked
  | .outgoing => (s.block x).out.sensed = .lineClear

/-- The condition of a term, its qualifier apart. With `through`, the terms of lines A and B count as holding. -/
def termBody (s : State) (through : Bool) (t : Term) : Bool :=
  match termKind t with
  | some .lever =>
    match leverOf t.index.toNat with
    | none => false
    | some l => leverAt s l (if t.value = 0 then .n else .r)
  | some .track =>
    match tcOf t.index.toNat with
    | none => false
    | some tc => (s.track tc).state = .clear
  | some .sect =>
    match sectionOf t.index.toNat with
    | none => false
    | some (x, side) => throughLine through x || sectionHolds s x side
  | some .release =>
    match lineOf t.index.toNat with
    | none => false
    | some x => throughLine through x || (s.block x).out.release
  | some .signalOff =>
    match leverOf t.index.toNat with
    | none => false
    | some l => demandOf s l
  | none => false

/-- The term is set aside: its qualifier's lever is settled in the opposite position (R39). -/
def termSetAside (s : State) (t : Term) : Bool :=
  match termQualifier t with
  | none => false
  | some (q, e) => leverAtOther s q e

/-- The term holds. -/
def termHolds (s : State) (through : Bool) (t : Term) : Bool :=
  termSetAside s t || termBody s through t

/-- The first failing term of a list with its place, counted from `k`. -/
def firstFailing (s : State) : Nat → List Term → Option (Nat × Term)
  | _, [] => none
  | k, t :: rest => if termHolds s false t then firstFailing s (k + 1) rest else some (k, t)

/-- Every failing term of a list with its place, in list order (R90). -/
def failingTerms (s : State) : Nat → List Term → List (Nat × Term)
  | _, [] => []
  | k, t :: rest =>
    if termHolds s false t then failingTerms s (k + 1) rest else (k, t) :: failingTerms s (k + 1) rest

/-! ## Reading a slot (R29) -/

/-- The slot gives no record: it is being programmed, or its region is being erased or stands suspended. -/
def slotWithheld (s : State) (i : Slot) : Bool :=
  (match s.sst.op with
    | none => false
    | some r =>
      match r.op with
      | .wipe reg => slotRegion i = reg
      | .erase reg => slotRegion i = reg
      | .program j _ => i = j
      | .unlock _ _ => slotRegion i = .header
      | .stampWrite _ _ _ => slotRegion i = .header
      | .stampRemoval _ => false
      | .lockSet _ => false
      | .validate _ => false) ||
  match s.sst.suspended with
  | none => false
  | some e => slotRegion i = e.region

/-- The record a read delivers, with the slot's condition: none when the slot is erased or gives no record. -/
def slotCopy (s : State) (i : Slot) : Option RecordCopy :=
  if slotWithheld s i || slotErased s.sst.cells i then none
  else some ⟨slotBytes s.sst.cells i, s.cond i⟩

/-! ## The header (Table 2-2) -/

/-- The value of a header word. -/
def headerWord (s : State) (k : Nat) : Word16 :=
  wordValue (cellRead s.sst.cells k)

/-- The header is valid: its commit word reads 0x3C96 and its condition is not CORRUPT (R18). -/
def headerValid (s : State) : Bool :=
  headerWord s 31 == 0x3C96 && decide (s.cond headerSlot ≠ .corrupt)

/-- The stored identity, 12 bytes; empty from a blank header. -/
def storedIdentity (s : State) : List Byte :=
  if headerValid s then (List.range 6).flatMap fun k => wordBytes (headerWord s k) else padBytes 12 0

/-- The issue number; 0 from a blank header. -/
def issueNumber (s : State) : Word16 :=
  if headerValid s then headerWord s 6 else 0

/-- The region's bit in the lock word: its code (R18). -/
def regionLocked (s : State) (r : Region) : Bool :=
  headerValid s && decide (r ≠ .header) && !(headerWord s 7).getLsbD (regionCode r)

/-- A validation stamp is standing (R18). -/
def stampStanding (s : State) : Bool :=
  headerValid s && headerWord s 10 == 0x0F0F

/-! ## Request payloads (Table 1-3, R8) -/

/-- A payload of exactly `len` bytes whose fields, taken in order, are in range; `fields` answers the offset of the
first field out of range. The answer is the reason byte of BAD_FIELD. -/
def layout (len : Nat) (fields : List Byte → Option Nat) (p : List Byte) : Option Nat :=
  if p.length = len then fields p else some 0xFF

/-- The first of a list of fields (offset, in range) that is out of range. -/
def firstBad : List (Nat × Bool) → Option Nat
  | [] => none
  | (offset, ok) :: rest => if ok then firstBad rest else some offset

/-- The range of an index for a QUERY source kind (Table 1-4). -/
def sourceIndexInRange (kind index : Nat) : Bool :=
  match kind with
  | 1 => inRange 1 48 index
  | 2 => inRange 1 24 index
  | 3 => inRange 1 6 index
  | 4 => inRange 1 3 index
  | 5 => inRange 1 24 index
  | 6 => inRange 1 10 index
  | 7 => index == 0
  | 8 => index == 0
  | 9 => index == 0
  | 10 => index == 0
  | _ => false

/-- The slot number lies in the region's range (R8). -/
def slotInRegion (region slot : Nat) : Bool :=
  match regionOf region with
  | none => false
  | some r => (slotOf r slot).isSome

/-- The layout of STORE_PROGRAM: an empty payload is a wrong length, then the region, then the length it calls for,
then the slot. -/
def programLayout (p : List Byte) : Option Nat :=
  if p.length = 0 then some 0xFF
  else
    match regionOf (byteAt p 0) with
    | none => some 0
    | some r =>
      if p.length ≠ 2 + 2 * regionWords r then some 0xFF
      else if (slotOf r (byteAt p 1)).isSome then none
      else some 1

/-- The assigned request kinds (Table 1-3). -/
inductive RequestKind where
  | identify
  | query
  | leverEnquiry
  | faultAck
  | timeRelease
  | allSignalsOn
  | tcTest
  | bellSend
  | commutator
  | sectionRelease
  | mode
  | restart
  | timebaseRestore
  | timebaseTest
  | lampTest
  | storeOpen
  | storeClose
  | storeErase
  | storeProgram
  | storeRead
  | storeSuspend
  | storeResume
  | storeLock
  | validate
deriving DecidableEq, Repr

/-- The request kind of a kind byte; none for every kind that is not assigned (R7). -/
def requestKind (k : Byte) : Option RequestKind :=
  match k.toNat with
  | 0x01 => some .identify
  | 0x02 => some .query
  | 0x03 => some .leverEnquiry
  | 0x10 => some .faultAck
  | 0x11 => some .timeRelease
  | 0x12 => some .allSignalsOn
  | 0x13 => some .tcTest
  | 0x20 => some .bellSend
  | 0x21 => some .commutator
  | 0x22 => some .sectionRelease
  | 0x30 => some .mode
  | 0x31 => some .restart
  | 0x32 => some .timebaseRestore
  | 0x33 => some .timebaseTest
  | 0x34 => some .lampTest
  | 0x40 => some .storeOpen
  | 0x41 => some .storeClose
  | 0x42 => some .storeErase
  | 0x43 => some .storeProgram
  | 0x44 => some .storeRead
  | 0x45 => some .storeSuspend
  | 0x46 => some .storeResume
  | 0x47 => some .storeLock
  | 0x48 => some .validate
  | _ => none

/-- What is wrong with the payload of a request of an assigned kind: the reason byte of BAD_FIELD, or none (R8). -/
def payloadFault : RequestKind → List Byte → Option Nat
  | .identify, p => layout 0 (fun _ => none) p
  | .query, p =>
    layout 2 (fun p => firstBad
      [(0, inRange 1 10 (byteAt p 0)), (1, sourceIndexInRange (byteAt p 0) (byteAt p 1))]) p
  | .leverEnquiry, p =>
    layout 2 (fun p => firstBad [(0, inRange 1 48 (byteAt p 0)), (1, inRange 0 1 (byteAt p 1))]) p
  | .faultAck, p => layout 1 (fun p => firstBad [(0, inRange 1 48 (byteAt p 0))]) p
  | .timeRelease, p => layout 1 (fun p => firstBad [(0, inRange 1 48 (byteAt p 0))]) p
  | .allSignalsOn, p => layout 0 (fun _ => none) p
  | .tcTest, p => layout 1 (fun p => firstBad [(0, inRange 1 24 (byteAt p 0))]) p
  | .bellSend, p =>
    layout 2 (fun p => firstBad [(0, inRange 1 3 (byteAt p 0)), (1, inRange 1 10 (byteAt p 1))]) p
  | .commutator, p =>
    layout 2 (fun p => firstBad [(0, inRange 1 3 (byteAt p 0)), (1, inRange 0 2 (byteAt p 1))]) p
  | .sectionRelease, p => layout 1 (fun p => firstBad [(0, inRange 1 3 (byteAt p 0))]) p
  | .mode, p => layout 1 (fun p => firstBad [(0, inRange 1 4 (byteAt p 0))]) p
  | .restart, p => layout 0 (fun _ => none) p
  | .timebaseRestore, p => layout 0 (fun _ => none) p
  | .timebaseTest, p => layout 0 (fun _ => none) p
  | .lampTest, p => layout 1 (fun _ => none) p
  | .storeOpen, p =>
    layout 13 (fun p => firstBad [(0, textValid (p.take 12)), (12, inRange 0 1 (byteAt p 12))]) p
  | .storeClose, p => layout 0 (fun _ => none) p
  | .storeErase, p => layout 1 (fun p => firstBad [(0, inRange 0 5 (byteAt p 0))]) p
  | .storeProgram, p => programLayout p
  | .storeRead, p =>
    layout 2 (fun p => firstBad [(0, inRange 0 5 (byteAt p 0)), (1, slotInRegion (byteAt p 0) (byteAt p 1))]) p
  | .storeSuspend, p => layout 0 (fun _ => none) p
  | .storeResume, p => layout 0 (fun _ => none) p
  | .storeLock, p =>
    layout 2 (fun p => firstBad [(0, inRange 1 5 (byteAt p 0)), (1, inRange 0 1 (byteAt p 1))]) p
  | .validate, p => layout 0 (fun _ => none) p

end Sys2Proof.Machine
end

