-- ==== Sys2Proof/Machine/Flags.lean ====
section
/-!
DEFINITION. The part's computed flags: what an output is commanded to, what a bell line and a section show, and the flag
bytes of the reports. A command has no flags of its own; a block keeps its flags in its state, and these are the
ones that follow from it.
-/

namespace Sys2Proof.Machine

/-- The byte whose bit `i` is the list's entry `i`. -/
def flagByte (bits : List Bool) : Byte :=
  byteOf (bits.foldr (fun b n => (if b then 1 else 0) + 2 * n) 0)

/-! ## Vital outputs -/

/-- A demand is on, of whatever polarity. -/
def isOn (d : Demand) : Bool :=
  decide (d ≠ .off)

/-- The modes in which vital outputs may be on (R143). -/
def outputsLive (m : Mode) : Bool :=
  m = .openBox || m = .switchedOut

/-- An output's commanded state: its demand while the box is OPEN or SWITCHED_OUT and its group is not cut, and
otherwise off (R143). -/
def commanded (s : State) (o : Output) : Demand :=
  if outputsLive s.mode && !s.vod.cuts.get (groupOf o) then (s.output o).demand else .off

/-- The bits of a group: bit `i` is `f` of the output at place `i`. -/
def groupBits (g : Group) (f : Output → Bool) : Byte :=
  flagByte ((List.range 8).map fun i =>
    match groupOutput g i with
    | none => false
    | some o => f o)

/-- The polarity code of an instrument command. -/
def polarityCode : Demand → Nat
  | .off => 0
  | .on => 0
  | .positive => 1
  | .negative => 2

/-- An output is draining at a moment: less than 60 ms have passed since its last pulse (R144). -/
def draining (now : Nat) (o : OutRec) : Bool :=
  match o.lastPulse with
  | none => false
  | some p => now < p + 60

/-! ## Track circuits -/

/-- The flags of a TRACK report (Table 4-3). In STARTING no copy is held, and the first two read 0 (log 48). Record CORRUPT
is the stored condition alone, not an undefined value (DEDUCED, log 59). -/
def trackFlags (t : Track) : Byte :=
  flagByte [t.copy.isSome, copyCorrupt t.copy, t.test.isSome, t.meas.isSome]

/-! ## Levers -/

/-- The lever is in the freeing queue or under evaluation. -/
def queuedOrEvaluated (s : State) (l : Lever) : Bool :=
  decide (l ∈ s.lle.queue) || decide (s.lle.eval = some l)

/-- The flags of a LEVER report (Table 5-1). -/
def leverFlags (s : State) (l : Lever) : Byte :=
  let v := s.lever l
  flagByte [v.grip.accepted, v.waiting, queuedOrEvaluated s l, v.moved, v.withdrawn, v.lockFault,
    v.normal.accepted, v.reverse.accepted]

/-- The group of a lever's lock is cut (R79). -/
def lockCut (s : State) (l : Lever) : Bool :=
  s.vod.cuts.get (groupOf (lockOutput l))

/-- The oldest entry of the route lock list whose held set names the lever (R101). -/
def holdingEntry (s : State) (l : Lever) : Option RouteLock :=
  s.src.locks.find? fun e => decide (l ∈ e.held)

/-! ## Signals -/

/-- The entry of the route lock list for a signal lever. -/
def entryOf (s : State) (l : Lever) : Option RouteLock :=
  s.src.locks.find? fun e => e.lever = l

/-- The entry of the lever assigned to a signal slot. -/
def slotEntry (s : State) (n : SigSlot) : Option RouteLock :=
  match (s.signal n).lever with
  | none => none
  | some l => entryOf s l

/-- The flags of a ROUTE_LOCK report (Table 6-1). -/
def routeLockFlags (s : State) (n : SigSlot) : Byte :=
  let g := s.signal n
  let deadline :=
    match slotEntry s n with
    | none => false
    | some e => e.deadline.isSome
  let isReverse :=
    match g.lever with
    | none => false
    | some l => leverAt s l .r
  flagByte [g.demand, g.stick, deadline, !leverSound g.copy, isReverse]

/-! ## Bells -/

/-- A beat is in progress: a high has lasted 40 ms, or the receiver is STUCK (R118). -/
def beatInProgress (now : Nat) (b : BellLine) : Bool :=
  match b.rx with
  | .stuck => true
  | .high =>
    match b.highStart with
    | none => false
    | some h => decide (h + 40 ≤ now)
  | .idle => false
  | .gap => false

/-- The flags of a BELL report (Table 7-2). -/
def bellFlags (now : Nat) (b : BellLine) : Byte :=
  flagByte [b.discarded, b.autoRefused, b.through, decide (b.rx = .stuck), b.code.isSome, beatInProgress now b]

/-- The flags of a carried code. -/
def codeFlags (c : CodeRecord) : Byte :=
  flagByte [c.invalid, c.through]

/-! ## Sections -/

/-- The line's record is sound (R127). -/
def lineSound (s : State) (x : Line) : Bool :=
  linesSound (s.block x).copy

/-- The bytes of a line's record, while it is sound. -/
def lineRecord (s : State) (x : Line) : Option (List Byte) :=
  soundLine (s.block x).copy

/-- The sensed state counts as BLOCKED: BLOCKED or SENSE_FAULT (R126). -/
def sensedBlocked (v : Sensed) : Bool :=
  v = .blocked || v = .senseFault

/-- The flags of a SECTION report (Table 8-3). -/
def sectionFlags (s : State) (x : Line) : Side → Byte
  | .incoming =>
    let b := s.block x
    flagByte [b.inc.cancel, b.inc.driveFault, b.inc.alarm, !lineSound s x, b.frozen, s.bsc.cut10, false]
  | .outgoing =>
    let b := s.block x
    flagByte [false, false, false, !lineSound s x, b.frozen, s.bsc.cut10, b.out.release]

/-- Lines A and B are quiet: no beat in progress, the last beat end at least 10 s past, and the sense filter holding
BLOCKED (R165). -/
def lineQuiet (s : State) (x : Line) : Bool :=
  !beatInProgress s.now (s.bell x) && decide ((s.bell x).lastBeatEnd + 10000 ≤ s.now) &&
    decide ((s.block x).out.reading = some .blocked)

/-- Both lines are quiet. -/
def linesQuiet (s : State) : Bool :=
  lineQuiet s .a && lineQuiet s .b

/-! ## The box and the store -/

/-- The flags of a MODE report (Table 11-2). -/
def modeFlags (s : State) : Byte :=
  flagByte [isOn (s.output relayOutput).demand, s.bmc.relayFault, s.bmc.cut10, linesQuiet s]

/-- The flags of a STORE report (Table 2-5). -/
def storeFlags (s : State) : Byte :=
  flagByte [s.sst.overrun, s.sst.optionsDefaults, stampStanding s]

/-- The lock flags of a STORE report. -/
def lockFlags (s : State) : Byte :=
  flagByte [false, regionLocked s .levers, regionLocked s .track, regionLocked s .lines, regionLocked s .options,
    regionLocked s .indication]

/-- The flags of an INDICATION report (Table 10-2). -/
def indicationFlags (i : Icc) : Byte :=
  flagByte [i.testUntil.isSome, i.testDone, decide (i.phase = some true), i.frame.isSome]

end Sys2Proof.Machine
end

