-- ==== Sys2Proof/Machine/Reports.lean ====
section
/-!
DEFINITION. The content of every report source (Tables 2-5, 4-3, 5-1, 6-1, 7-2, 8-3, 9-1, 10-2, 11-2, 11-3), read from the
state as it stands.
-/

namespace Sys2Proof.Machine

/-! ## Codes -/

/-- The mode codes of IDENTIFY (R10). -/
def modeCode : Mode → Nat
  | .starting => 0
  | .commissioning => 1
  | .openBox => 2
  | .switchedOut => 3
  | .maintenance => 4

/-- The restart cause codes. -/
def causeCode : RestartCause → Nat
  | .powerOn => 0
  | .resetPin => 1
  | .restart => 2

/-- The store state codes. -/
def storeStateCode : StoreState → Nat
  | .closed => 0
  | .openIdle => 1
  | .erasing => 2
  | .programming => 3
  | .eraseSuspended => 4
  | .validating => 5

/-- The timebase state codes. -/
def timebaseCode : TimebaseState → Nat
  | .startingTb => 0
  | .good => 1
  | .degraded => 2

/-- The condition codes (R27). -/
def condCode : Cond → Nat
  | .good => 0
  | .corrected => 1
  | .corrupt => 2

/-- The start-up check codes; 0xFF before the check. -/
def startCheckCode : Option StartCheck → Nat
  | some .isMatch => 0
  | some .noStamp => 1
  | some .sumMismatch => 2
  | none => 0xFF

/-- The bell code numbers of Table 7-1. -/
def codeNumber : BellCode → Nat
  | .call => 1
  | .offerPassenger => 2
  | .offerMixed => 3
  | .offerGoods => 4
  | .offerEngine => 5
  | .offerEngineers => 6
  | .entering => 7
  | .outOfSection => 8
  | .cancel => 9
  | .emergency => 10

/-- The number of a name; 0 for UNKNOWN. -/
def nameNumber : Option BellCode → Nat
  | none => 0
  | some c => codeNumber c

/-- The lever number 1 to 48. -/
def leverNumber (l : Lever) : Nat :=
  l.val + 1

/-- The number of an optional lever; 0 for none. -/
def leverNumberOr0 : Option Lever → Nat
  | none => 0
  | some l => leverNumber l

/-- A source's kind code and index (Table 1-4). -/
def sourceKey : Source → Nat × Nat
  | .lever l => (1, leverNumber l)
  | .track t => (2, t.val + 1)
  | .sect x side => (3, sectionIndex x side)
  | .bell x => (4, lineNumber x)
  | .routeLock n => (5, n.val + 1)
  | .group g => (6, g.val + 1)
  | .mode => (7, 0)
  | .timebase => (8, 0)
  | .store => (9, 0)
  | .indication => (10, 0)

/-- The source of a kind code and index in range (R11). -/
def sourceOf (kind index : Nat) : Option Source :=
  match kind with
  | 1 => (leverOf index).map .lever
  | 2 => (tcOf index).map .track
  | 3 => (sectionOf index).map fun p => .sect p.1 p.2
  | 4 => (lineOf index).map .bell
  | 5 => (tcOf index).map .routeLock
  | 6 => if h : 1 ≤ index ∧ index ≤ 10 then some (.group ⟨index - 1, by omega⟩) else none
  | 7 => some .mode
  | 8 => some .timebase
  | 9 => some .store
  | 10 => some .indication
  | _ => none

/-! ## TRACK (Table 4-3) -/

/-- The reason code. -/
def reasonCode : OccReason → Nat
  | .noCode => 1
  | .crossCode => 2
  | .test => 3
  | .recordFault => 4
  | .reset => 5

/-- The class code. -/
def classCode : PulseClass → Nat
  | .none => 0
  | .good => 1
  | .bad => 2
  | .cross => 3

/-- The code identity's code as reported: 0 when absent or undefined (log 27). -/
def identityCode : Option TrackCode → Nat
  | none => 0
  | some .a => 1
  | some .b => 2
  | some .c => 3
  | some .d => 4

/-- The TRACK report's content. -/
def trackContent (s : State) (t : Tc) : List Byte :=
  let v := s.track t
  [byteOf (if v.state = .clear then 0 else 1), byteOf (reasonCode v.reason),
    byteOf (match v.copy with | none => 0 | some c => identityCode (trackCode c.bytes)),
    byteOf v.good, byteOf v.npuEff, trackFlags v, byteOf v.occupations, byteOf (classCode v.lastClass)] ++
  twoBytes v.lastPeriod ++ twoBytes v.lastHigh ++ twoBytes (v.holdUntil - s.now) ++
  match v.copy with
  | none => padBytes 12 0
  | some c => nameAt c.bytes 4

/-! ## LEVER (Table 5-1) -/

/-- The lever state code. -/
def leverStateCode : LeverState → Nat
  | .normal => 0
  | .reverse => 1
  | .freed => 2
  | .transit => 3
  | .fault => 4
  | .spare => 5
  | .unformed => 6

/-- The code of an end; 0 for none. -/
def endCode : Option LeverEnd → Nat
  | none => 0
  | some .n => 1
  | some .r => 2

/-- The fault cause code. -/
def faultCauseCode : Option FaultCause → Nat
  | none => 0
  | some .bothContacts => 1
  | some .unlockedMove => 2
  | some .lockFaultMoved => 3

/-- The last event code. -/
def leverEventCode : LeverEvent → Nat
  | .none => 0
  | .freed => 1
  | .refused => 2
  | .settled => 3
  | .freeingExpired => 4
  | .freeingWithdrawn => 5
  | .lockFault => 6
  | .fault => 7
  | .faultCleared => 8

/-- The withheld reason code. -/
def withheldCode : Option Withheld → Nat
  | none => 0
  | some .wrongMode => 1
  | some .switchedOut => 2
  | some .recordFault => 3
  | some .groupCut => 4
  | some .routeHeld => 5
  | some .term => 6

/-- The LEVER report's content. Before formation the lever reads state NONE with every other field 0 or 0xFF (R92). -/
def leverContent (s : State) (l : Lever) : List Byte :=
  let v := s.lever l
  if v.state = .unformed then
    byteOf 6 :: (padBytes 7 0 ++ padBytes 4 0xFF ++ padBytes 4 0)
  else
    [byteOf (leverStateCode v.state), byteOf (endCode v.origin),
      byteOf (if v.state = .freed then endCode v.position else 0), leverFlags s l, byteOf (faultCauseCode v.cause),
      byteOf (leverEventCode v.event), byteOf (withheldCode v.withheld)] ++
    (match v.failing with
      | none => byteOf 0 :: padBytes 4 0xFF
      | some (k, t) => byteOf k :: termBytes t) ++
    [byteOf (leverNumberOr0 v.holder)] ++ twoBytes (timeLeft s.now v.deadline) ++
    [byteOf (match v.copy with | none => 0 | some c => leverKind c.bytes)]

/-! ## SECTION (Table 8-3) -/

/-- The incoming state code. -/
def inStateCode : InState → Nat
  | .blocked => 0
  | .lineClear => 1
  | .trainOnLine => 2

/-- The sensed state code. -/
def sensedCode : Sensed → Nat
  | .blocked => 0
  | .lineClear => 1
  | .trainOnLine => 2
  | .senseFault => 3

/-- The arrival step code. -/
def stepCode : ArrivalStep → Nat
  | .none => 0
  | .entryOcc => 1
  | .berthOcc => 2
  | .entryCleared => 3
  | .proven => 4

/-- The section event code (Table 8-4). -/
def sectionEventCode : SectionEvent → Nat
  | .none => 0
  | .lineClearGiven => 1
  | .trainOnLine => 2
  | .unexpectedEntry => 3
  | .obstruction => 4
  | .blocked => 5
  | .recordFault => 6
  | .releaseSet => 7
  | .releaseTaken => 8
  | .releaseLost => 9
  | .offerExpired => 10
  | .restarted => 11

/-- The code action code (Table 8-4). -/
def codeActionCode : CodeAction → Nat
  | .none => 0
  | .offerAccepted => 1
  | .offerRecorded => 2
  | .offerCancelled => 3
  | .cancelRecorded => 4
  | .outOfferCancelled => 5
  | .emergency => 6
  | .reportedOnly => 7
  | .offerRepeated => 8
  | .offerSent => 9

/-- The section release's code and deadline. -/
def releaseCode : SectionRelease → Nat × Option Nat
  | .none => (0, none)
  | .running d => (1, some d)
  | .runOut => (2, none)

/-- The code of the last code handed or told as sent; 0xFF for none. -/
def lastCodeNumber : Option (Option BellCode) → Nat
  | none => 0xFF
  | some c => nameNumber c

/-- The name from a line's LINES copy; all 0x00 when absent. -/
def neighbourName (c : Option RecordCopy) : List Byte :=
  match c with
  | none => padBytes 12 0
  | some r => nameAt r.bytes 8

/-- The instrument command of an incoming state (R125). -/
def instrumentDemand : InState → Demand
  | .blocked => .off
  | .lineClear => .positive
  | .trainOnLine => .negative

/-- The SECTION report's content. -/
def sectionContent (s : State) (x : Line) (side : Side) : List Byte :=
  let b := s.block x
  (match side with
    | .incoming =>
      [byteOf 0, byteOf (inStateCode b.inc.state), byteOf (polarityCode (instrumentDemand b.inc.state))] ++
      (match b.inc.offer with
        | none => [byteOf 0, byteOf 0] ++ twoBytes 0
        | some o =>
          [byteOf (codeNumber o.code), byteOf (if o.repeated then 2 else 1)] ++
            twoBytes (timeLeft s.now (some o.expiry))) ++
      [byteOf (nameNumber b.inc.accepted), byteOf (stepCode b.inc.step), byteOf (releaseCode b.inc.release).1] ++
      twoBytes (timeLeft s.now (releaseCode b.inc.release).2) ++
      [sectionFlags s x .incoming, byteOf (sectionEventCode b.inc.event)]
    | .outgoing =>
      [byteOf 1, byteOf (sensedCode b.out.sensed),
        byteOf (match b.out.reading with | none => 0xFF | some v => sensedCode v)] ++
      (match b.out.offer with
        | none => [byteOf 0, byteOf 0] ++ twoBytes 0
        | some o =>
          [byteOf (codeNumber o.code), byteOf (if o.accepted then 2 else 1)] ++
            twoBytes (timeLeft s.now (some o.expiry))) ++
      [byteOf 0, byteOf 0, byteOf 0] ++ twoBytes 0 ++
      [sectionFlags s x .outgoing, byteOf (sectionEventCode b.out.event)]) ++
  [byteOf (lastCodeNumber b.lastCode), byteOf (codeActionCode b.lastAction)] ++ neighbourName b.copy

/-! ## BELL (Table 7-2) -/

/-- The sender state code. -/
def senderCode : Sender → Nat
  | .idle => 0
  | .sounding => 1
  | .spacing => 2
  | .trailing => 3

/-- The BELL report's content. `removed` codes leave the receive queue with this report: 1 in a report that carries
a code, 0 in a QUERY. With no code held, its name, flags and age are 0 too (log 49). -/
def bellContent (s : State) (x : Line) (removed : Nat) : List Byte :=
  let b := s.bell x
  [bellFlags s.now b, byteOf (b.received.length - removed), byteOf b.sendQueue.length] ++
  fitBytes 4 0 (b.sendQueue.map fun c => byteOf (codeNumber c)) ++
  [byteOf (senderCode b.sender)] ++
  (match b.received with
    | [] => padBytes 10 0 ++ twoBytes 0
    | c :: _ =>
      [byteOf 1, byteOf (nameNumber c.name), codeFlags c, byteOf c.pattern.length] ++
        fitBytes 6 0 (c.pattern.map byteOf) ++ twoBytes (min 65535 ((s.now - c.completed) / 100))) ++
  twoBytes (if beatInProgress s.now b then 0 else min 65535 ((s.now - b.lastBeatEnd) / 100))

/-! ## ROUTE_LOCK (Table 6-1) -/

/-- The release state code. -/
def releaseStateCode : ReleaseState → Nat
  | .waitingTrain => 1
  | .trainPassing => 2
  | .timing => 3

/-- The removal cause code. -/
def removalCode : RemovalCause → Nat
  | .none => 0
  | .trainPassed => 1
  | .timeRelease => 2
  | .rePull => 3

/-- The ROUTE_LOCK report's content. -/
def routeLockContent (s : State) (n : SigSlot) : List Byte :=
  let g := s.signal n
  match slotEntry s n with
  | none =>
    [byteOf (leverNumberOr0 g.lever), byteOf 0, routeLockFlags s n] ++ twoBytes 0 ++
      [byteOf 0, byteOf (removalCode g.removal), byteOf 0] ++ padBytes 12 0
  | some e =>
    [byteOf (leverNumberOr0 g.lever), byteOf (releaseStateCode e.state), routeLockFlags s n] ++
      twoBytes (timeLeft s.now e.deadline) ++
      [byteOf (e.time / 1000), byteOf (removalCode g.removal), byteOf e.held.length] ++
      fitBytes 12 0 (e.held.map fun l => byteOf (leverNumber l))

/-! ## GROUP (Table 9-1) -/

/-- The GROUP report's content. -/
def groupContent (s : State) (g : Group) : List Byte :=
  [byteOf (groupSize g), byteOf (if s.vod.cuts.get g then 1 else 0),
    groupBits g fun o => isOn (commanded s o),
    groupBits g fun o => (s.output o).readBack,
    groupBits g fun o => decide ((s.output o).fault = .noCurrent),
    groupBits g fun o => decide ((s.output o).fault = .wrongSide),
    groupBits g fun o => isOn (s.output o).demand,
    byteOf (if g.val = 9 then
      polarityCode (commanded s (instrumentOutput .a)) + 4 * polarityCode (commanded s (instrumentOutput .b)) +
        16 * polarityCode (commanded s (instrumentOutput .c))
    else 0),
    byteOf s.vod.interval] ++
  twoBytes s.vod.overruns ++ twoBytes s.vod.lastLength

/-! ## MODE and TIMEBASE (Tables 11-2 and 11-3) -/

/-- The MODE report's content. -/
def modeContent (s : State) : List Byte :=
  [byteOf (modeCode s.mode), byteOf (causeCode s.bmc.cause), byteOf (startCheckCode s.bmc.startCheck)] ++
  twoBytes (timeLeft s.now s.bmc.hold) ++
  modeFlags s ::
    (match s.bmc.refused with
      | none => [byteOf 0, byteOf 0]
      | some (code, object) => [byteOf code, byteOf object])

/-- The last cause code of the TIMEBASE report. -/
def timebaseCauseCode : TimebaseCause → Nat
  | .none => 0
  | .startUp => 1
  | .windowMissed => 2
  | .test => 3
  | .restore => 4

/-- The TIMEBASE report's content. -/
def timebaseContent (s : State) : List Byte :=
  [byteOf (timebaseCode s.tbm.state), byteOf (if s.tbm.source = .oscillator then 0 else 1), byteOf s.tbm.goodCount,
    byteOf s.tbm.degrades, byteOf (timebaseCauseCode s.tbm.cause)]

/-! ## STORE (Table 2-5) -/

/-- The operation code and region of the operation in progress. With none, a suspended erase still shows its
region; the region of a lock set is the one its request names (log 25). -/
def operationCodes (s : State) : Nat × Nat :=
  match s.sst.op with
  | none =>
    match s.sst.suspended with
    | none => (0, 0xFF)
    | some e => (0, regionCode e.region)
  | some r =>
    match r.op with
    | .wipe reg => (1, regionCode reg)
    | .erase reg => (2, regionCode reg)
    | .program i _ => (3, regionCode (slotRegion i))
    | .stampRemoval _ => (4, 0)
    | .lockSet reg => (5, regionCode reg)
    | .validate _ => (6, 0xFF)
    | .unlock _ _ => (7, 0)
    | .stampWrite _ _ _ => (7, 0)

/-- The time left of the operation running, of the suspended erase, or of a validation pass still to start. For a
WIPE it is the time left of all six erases. -/
def operationLeft (s : State) : Nat :=
  match s.sst.op with
  | none =>
    match s.sst.suspended with
    | none => 0
    | some e => e.remaining
  | some r =>
    match r.op with
    | .wipe reg => r.endsAt - s.now + 300 * (5 - regionCode reg)
    | .validate false => 2 * programmedSlots s.sst.cells
    | .validate true => r.endsAt - s.now
    | .erase _ => r.endsAt - s.now
    | .program _ _ => r.endsAt - s.now
    | .stampRemoval _ => r.endsAt - s.now
    | .lockSet _ => r.endsAt - s.now
    | .unlock _ _ => r.endsAt - s.now
    | .stampWrite _ _ _ => r.endsAt - s.now

/-- The validation result's code and failure bytes. -/
def resultBytes : ValidationResult → List Byte
  | .none => byteOf 0 :: padBytes 3 0xFF
  | .passed => byteOf 1 :: padBytes 3 0xFF
  | .failed r n reason => [byteOf 2, byteOf (regionCode r), byteOf n, byteOf reason]

/-- The number of slots of a condition (R30). -/
def condCount (s : State) (c : Cond) : Nat :=
  s.sst.conds.items.countP fun d => d = c

/-- A warning's three bytes. -/
def warningBytes (w : Warning) : List Byte :=
  [byteOf (regionCode w.region), byteOf w.slot, byteOf w.code]

/-- The STORE report's content. -/
def storeContent (s : State) : List Byte :=
  [byteOf (storeStateCode s.sst.state), byteOf (operationCodes s).1, byteOf (operationCodes s).2] ++
  twoBytes (operationLeft s) ++ resultBytes s.sst.result ++ [byteOf (startCheckCode s.sst.startCheck)] ++
  twoBytes (condCount s .corrupt) ++ twoBytes (condCount s .corrected) ++
  (match s.sst.lastChange with
    | none => padBytes 3 0xFF
    | some (i, c) => [byteOf (regionCode (slotRegion i)), byteOf (slotNumber i), byteOf (condCode c)]) ++
  [storeFlags s, lockFlags s, byteOf s.sst.warnings.length] ++
  fitBytes 24 0xFF (s.sst.warnings.flatMap warningBytes)

/-! ## INDICATION (Table 10-2) -/

/-- The records that place a lamp: of two that place the same position, the one of lower slot number (R151). -/
def placements (i : Icc) : List (Fin 512 × Fin 256 × RecordCopy) :=
  ((List.finRange 256).zip i.copies.items).foldl (fun acc q =>
    match q.2 with
    | none => acc
    | some c =>
      match lampPlace c.bytes with
      | none => acc
      | some p => if acc.any fun r => r.1 = p then acc else acc ++ [(p, q.1, c)]) []

/-- A placing record is CORRUPT or holds an undefined value. -/
def lampUnsound (c : RecordCopy) : Bool :=
  !copySound lampDefined (some c)

/-- The INDICATION report's content. -/
def indicationContent (s : State) : List Byte :=
  let placed := placements s.icc
  [indicationFlags s.icc] ++ twoBytes (timeLeft s.now s.icc.testUntil) ++ twoBytes placed.length ++
  [byteOf (s.icc.dirty.items.countP id)] ++
  twoBytes (placed.countP fun q => lampUnsound q.2.2)

/-! ## Every source -/

/-- A source's content as a QUERY shows it (R11). -/
def contentOf (s : State) : Source → List Byte
  | .lever l => leverContent s l
  | .track t => trackContent s t
  | .sect x side => sectionContent s x side
  | .bell x => bellContent s x 0
  | .routeLock n => routeLockContent s n
  | .group g => groupContent s g
  | .mode => modeContent s
  | .timebase => timebaseContent s
  | .store => storeContent s
  | .indication => indicationContent s

/-- A source's content as its report carries it: a BELL report takes the oldest code with it (R15). -/
def reportContent (s : State) : Source → List Byte
  | .bell x => bellContent s x (min 1 (s.bell x).received.length)
  | .lever l => leverContent s l
  | .track t => trackContent s t
  | .sect x side => sectionContent s x side
  | .routeLock n => routeLockContent s n
  | .group g => groupContent s g
  | .mode => modeContent s
  | .timebase => timebaseContent s
  | .store => storeContent s
  | .indication => indicationContent s

/-- The source kind byte and index byte that open a report's payload and a QUERY's reply. -/
def sourceBytes (src : Source) : List Byte :=
  [byteOf (sourceKey src).1, byteOf (sourceKey src).2]

end Sys2Proof.Machine
end

