-- ==== Sys2Proof/Machine/Port.lean ====
section
/-!
DEFINITION. The store's read port (R29): who reads, for how long, and in what order.
-/

namespace Sys2Proof.Machine

/-- How long a read holds the port (Table 2-1, R31, R32): a read of the start-up pass or of the scrubber holds it
3 ms longer for each correction. The validation pass holds it 2 ms for each programmed slot (R28). -/
def readTime (s : State) : ReadUse → Nat
  | .evaluation _ _ => regionReadTime .levers
  | .host i => regionReadTime (slotRegion i)
  | .scrub i => regionReadTime (slotRegion i) + 3 * slotCorrectables s.sst.cells i
  | .startup i => regionReadTime (slotRegion i) + 3 * slotCorrectables s.sst.cells i
  | .validation => 2 * programmedSlots s.sst.cells

/-- A validation pass has been accepted and waits for the port. -/
def passWaits (s : State) : Bool :=
  match s.sst.op with
  | none => false
  | some r => r.op = .validate false

/-- The port starts serving a read. -/
def startRead (u : ReadUse) (rest : List ReadUse) (s : State) : State :=
  { s with sst := { s.sst with port := ⟨some (u, s.now + readTime s u), rest⟩ } }

/-- The free port takes its next read: none while a validation pass waits; the oldest user read; or the next slot
of the start-up pass. -/
def serveNext (s : State) : State :=
  match s.sst.port.serving with
  | some _ => s
  | none =>
    if passWaits s then s
    else
      match s.sst.port.waiting with
      | u :: rest => startRead u rest s
      | [] =>
        match s.sst.startup with
        | none => s
        | some i => startRead (.startup i) [] s

/-- A user block asks for a read. -/
def askRead (u : ReadUse) (s : State) : State :=
  serveNext { s with sst := { s.sst with port := { s.sst.port with waiting := s.sst.port.waiting ++ [u] } } }

/-- The read being served ends, and the port takes its next. -/
def freePort (s : State) : State :=
  serveNext { s with sst := { s.sst with port := { s.sst.port with serving := none } } }

/-- The port is free and no user read waits. -/
def portIdle (s : State) : Bool :=
  s.sst.port.serving.isNone && s.sst.port.waiting.isEmpty

/-- The read being served, once its time on the port is over. -/
def readEnded (s : State) : Option ReadUse :=
  match s.sst.port.serving with
  | none => none
  | some (u, d) => if d ≤ s.now then some u else none

end Sys2Proof.Machine
end

