-- ==== Sys2Proof/Machine/Link.lean ====
section
/-!
DEFINITION. The Host Link Controller's operations (chapter 1): the check of a frame, framing, the request and reply queues,
and the transmitter.
-/

namespace Sys2Proof.Machine

/-! ## The check (R3) -/

/-- The check register worked by one bit with the polynomial 0x1021. -/
def crcBit (r : Word16) : Word16 :=
  if r.msb then (r <<< 1) ^^^ 0x1021 else r <<< 1

/-- The check register worked by `n` bits. -/
def crcBits : Nat → Word16 → Word16
  | 0, r => r
  | n + 1, r => crcBits n (crcBit r)

/-- The check register after one more byte, worked most significant bit first. -/
def crcByte (r : Word16) (b : Byte) : Word16 :=
  crcBits 8 (r ^^^ (b ++ (0 : Byte)))

/-- The check register after a run of bytes. -/
def crcBytes (r : Word16) (bs : List Byte) : Word16 :=
  bs.foldl crcByte r

/-- The length byte of a payload. -/
def lengthByte (payload : List Byte) : Byte :=
  byteOf payload.length

/-- The check of a frame: over length, kind, tag and payload. -/
def checkOf (kind tag : Byte) (payload : List Byte) : Word16 :=
  crcBytes 0xFFFF (lengthByte payload :: kind :: tag :: payload)

/-- A frame's bytes on the wire (R2). -/
def frameBytes (f : Frame) : List Byte :=
  0xC3 :: lengthByte f.payload :: f.kind :: f.tag :: f.payload ++ wordBytes (checkOf f.kind f.tag f.payload)

/-! ## Line settings (R1) -/

/-- The baud code of the straps. -/
def baudCode (baud1 baud0 : Bool) : Fin 4 :=
  match baud1, baud0 with
  | false, false => 0
  | false, true => 1
  | true, false => 2
  | true, true => 3

/-- The baud rate of a code. -/
def baudRate (c : Fin 4) : Nat :=
  match c with
  | 0 => 9600
  | 1 => 19200
  | 2 => 57600
  | 3 => 115200

/-- The ticks by which `n` bytes of 10 bits have left the transmitter, counted up to a whole tick (log 8). -/
def wireTicks (c : Fin 4) (n : Nat) : Nat :=
  (n * 10000 + (baudRate c - 1)) / baudRate c

/-! ## The transmitter (R12 to R16) -/

/-- A count that saturates at 255. -/
def countUp (n : Nat) : Nat :=
  min 255 (n + 1)

/-- A frame goes on the wire. -/
def sendFrame (f : Frame) (s : State) : State :=
  { s with hlc := { s.hlc with
      wire := some ⟨f, frameBytes f, s.now + wireTicks s.hlc.baud (frameBytes f).length⟩ } }

/-- The report frame of a source (R14). -/
def reportFrame (s : State) (src : Source) : Frame :=
  ⟨0xFE, 0, sourceBytes src ++ reportContent s src⟩

/-- What sending a source's report changes at its owner (R15, R34, R158): a BELL report takes the oldest code, clears
the discarded and auto-refused flags, and posts the source again if codes remain. A STORE report clears the
scrub-overrun flag, an INDICATION report the test-completed flag. -/
def reportTaken (src : Source) (s : State) : State :=
  match src with
  | .bell x =>
    let t := s.modBell x fun b =>
      { b with received := b.received.drop 1, discarded := false, autoRefused := false }
    if (t.bell x).received.isEmpty then t else postReport (.bell x) t
  | .store => { s with sst := { s.sst with overrun := false } }
  | .indication => { s with icc := { s.icc with testDone := false } }
  | .lever _ => s
  | .track _ => s
  | .sect _ _ => s
  | .routeLock _ => s
  | .group _ => s
  | .mode => s
  | .timebase => s

/-- The transmitter takes the head report entry: the entry is removed, the content read, and the frame sent. -/
def sendReport (src : Source) (rest : List Source) (s : State) : State :=
  let t := { s with hlc := { s.hlc with reports := rest } }
  reportTaken src (sendFrame (reportFrame t src) t)

/-- The transmitter may take a frame: the line is at mark, and the reply to an accepted RESTART has not left. -/
def lineFree (s : State) : Bool :=
  s.hlc.wire.isNone && !s.hlc.restartSent

/-- The free transmitter takes its next frame: the oldest reply; else, with no restart pending, the oldest report;
else none (R12). -/
def takeFrame (s : State) : State :=
  if lineFree s then
    match s.hlc.replies with
    | f :: rest => sendFrame f { s with hlc := { s.hlc with replies := rest } }
    | [] =>
      if s.hlc.restartPending then s
      else
        match s.hlc.reports with
        | src :: rest => sendReport src rest s
        | [] => s
  else s

/-! ## Replies (R9) -/

/-- An owner's answer to a request: result code, reason byte and reply data. -/
structure Answer where
  result : Nat
  reason : Nat
  data : List Byte
deriving DecidableEq, Repr

/-- Accepted, with reply data. -/
def Answer.ok (data : List Byte) : Answer :=
  ⟨0, 0, data⟩

/-- REFUSED with a reason of Table 1-2. -/
def Answer.refused (reason : Nat) : Answer :=
  ⟨1, reason, []⟩

/-- BAD_FIELD with its reason byte. -/
def Answer.badField (offset : Nat) : Answer :=
  ⟨2, offset, []⟩

/-- WRONG_MODE. -/
def Answer.wrongMode : Answer :=
  ⟨3, 0, []⟩

/-- BUSY, the owner being busy. -/
def Answer.busy : Answer :=
  ⟨4, 0, []⟩

/-- BUSY with reason QUEUE_FULL. -/
def Answer.queueFull : Answer :=
  ⟨4, 14, []⟩

/-- UNKNOWN_KIND. -/
def Answer.unknownKind : Answer :=
  ⟨5, 0, []⟩

/-- The kind of the reply to a request kind. -/
def replyKind (k : Byte) : Byte :=
  if k = 0x7E ∨ 0x80 ≤ k.toNat then 0xFF else k + 0x80

/-- The reply frame of an answer. -/
def replyTo (f : Frame) (a : Answer) : Frame :=
  ⟨replyKind f.kind, f.tag, byteOf a.result :: byteOf a.reason :: a.data⟩

/-- A reply is appended to the reply queue. -/
def appendReply (f : Frame) (a : Answer) (s : State) : State :=
  { s with hlc := { s.hlc with replies := s.hlc.replies ++ [replyTo f a] } }

/-- The request at the head leaves the queue, answered. -/
def replyHead (f : Frame) (a : Answer) (s : State) : State :=
  appendReply f a { s with hlc := { s.hlc with requests := s.hlc.requests.drop 1, hostWait := false } }

/-! ## Receiving (R4 to R6) -/

/-- A partial or complete frame is discarded and counted (R5). -/
def discardFrame (s : State) : State :=
  { s with hlc := { s.hlc with rx := .idle, discarded := countUp s.hlc.discarded } }

/-- A well-formed frame is queued, answered BUSY, or dropped and counted (R6). -/
def queueRequest (f : Frame) (s : State) : State :=
  if s.hlc.requests.length < 4 then
    { s with hlc := { s.hlc with requests := s.hlc.requests ++ [f] } }
  else if s.hlc.replies.length < 8 then appendReply f .queueFull s
  else { s with hlc := { s.hlc with unanswered := countUp s.hlc.unanswered } }

/-- A complete frame is judged by its check, the receiver going to HUNT (R4). -/
def judgeFrame (f : Frame) (computed received : Word16) (s : State) : State :=
  let t := { s with hlc := { s.hlc with rx := .idle } }
  if computed = received then queueRequest f t else discardFrame t

/-- The receiver moves on, its gap deadline renewed (R5). -/
def moveReceiver (s : State) (f : Receiver → Receiver) : State :=
  { s with hlc := { s.hlc with rx := { f s.hlc.rx with gap := some (s.now + 21) } } }

/-- The last payload byte is followed by the check. -/
def afterPayload (got need : Nat) : Framing :=
  if need ≤ got then .checkHi else .payload

/-- A byte received with a good stop bit (R4). -/
def takeByte (b : Byte) (s : State) : State :=
  let r := s.hlc.rx
  match r.framing with
  | .hunt =>
    if b = 0xC3 then
      moveReceiver s fun _ => { Receiver.idle with framing := .length, check := 0xFFFF }
    else s
  | .length =>
    if b.toNat ≤ 240 then
      moveReceiver s fun r => { r with framing := .kind, length := b.toNat, check := crcByte r.check b }
    else discardFrame s
  | .kind => moveReceiver s fun r => { r with framing := .tag, kind := b, check := crcByte r.check b }
  | .tag =>
    moveReceiver s fun r =>
      { r with framing := afterPayload 0 r.length, tag := b, check := crcByte r.check b }
  | .payload =>
    moveReceiver s fun r =>
      { r with framing := afterPayload (r.payload.length + 1) r.length, payload := r.payload ++ [b],
               check := crcByte r.check b }
  | .checkHi => moveReceiver s fun r => { r with framing := .checkLo, checkHi := b }
  | .checkLo => judgeFrame ⟨r.kind, r.tag, r.payload⟩ r.check (wordOf r.checkHi b) s

/-- A byte received with a framing error: dropped in HUNT, and otherwise the partial frame is discarded (R5). -/
def takeBadByte (s : State) : State :=
  if s.hlc.rx.framing = .hunt then s else discardFrame s

/-! ## Serving (R7) -/

/-- The head of the request queue may be served: no reply waits, no restart is pending, and no read is waited for. -/
def mayServe (s : State) : Bool :=
  s.hlc.replies.isEmpty && !s.hlc.restartPending && !s.hlc.hostWait

/-- The request at the head of the queue, when it may be served. -/
def servable (s : State) : Option Frame :=
  if mayServe s then s.hlc.requests.head? else none

/-- The servable request, when it is of kind `k`. -/
def servableOf (s : State) (k : RequestKind) : Option Frame :=
  match servable s with
  | none => none
  | some f => if requestKind f.kind = some k then some f else none

end Sys2Proof.Machine
end

