-- ==== Sys2Proof/Machine/Drive.lean ====
section
/-!
DEFINITION. The owners' side of the Vital Output Driver (R143): placing a demand.
-/

namespace Sys2Proof.Machine

/-- An owner tells its demand for an output. A change of the commanded state posts the group's GROUP source. -/
def setDemand (o : Output) (d : Demand) (s : State) : State :=
  let t := s.modOutput o fun r => { r with demand := d }
  if commanded t o = commanded s o then t else postReport (.group (groupOf o)) t

/-- The groups with an output whose commanded state differs between two states are posted (R143, R150). -/
def postChangedGroups (before : State) (s : State) : State :=
  forEach (List.finRange 10) (fun g s =>
    if (List.range 8).any fun i =>
        match groupOutput g i with
        | none => false
        | some o => commanded before o ≠ commanded s o
    then postReport (.group g) s else s) s

end Sys2Proof.Machine
end

