-- ==== Sys2Proof/Machine/Lamps.lean ====
section
/-!
DEFINITION. The Indication Chain Controller's operations (R151 to R155): lamp values, tellings and the chain.
-/

namespace Sys2Proof.Machine

/-! ## Lamp values -/

/-- The condition of code `c` is true of the source (R45). -/
def lampTrue (s : State) (k : LampSource) (index c : Nat) : Bool :=
  match k with
  | .lever =>
    match leverOf index with
    | none => false
    | some l => leverStateCode (s.leverState l) == c
  | .track =>
    match tcOf index with
    | none => false
    | some t => (if (s.track t).state = .clear then 0 else 1) == c
  | .sectionIn =>
    match lineOf index with
    | none => false
    | some x => inStateCode (s.block x).inc.state == c
  | .sectionOut =>
    match lineOf index with
    | none => false
    | some x =>
      match c with
      | 0 => sensedBlocked (s.block x).out.sensed
      | 1 => (s.block x).out.sensed = .lineClear
      | 2 => (s.block x).out.sensed = .trainOnLine
      | _ => (s.block x).out.release
  | .routeLock =>
    match leverOf index with
    | none => false
    | some l =>
      match entryOf s l with
      | none => false
      | some e => c == 0 || e.state = .timing
  | .signalOut =>
    match leverOf index with
    | none => false
    | some l => demandOf s l
  | .offer =>
    match lineOf index with
    | none => false
    | some x => if c = 0 then (s.block x).inc.offer.isSome else (s.block x).out.offer.isSome
  | .boxMode => modeCode s.mode == c
  | .timebase => s.tbm.state = .degraded

/-- A record is present and CORRUPT, or is treated as CORRUPT for an undefined value (R36). -/
def recordCorrupt (isDefined : List Byte → Bool) (c : Option RecordCopy) : Bool :=
  c.isSome && !copySound isDefined c

/-- The lever is in FAULT or its record is CORRUPT. -/
def leverLampFault (s : State) (index : Nat) : Bool :=
  match leverOf index with
  | none => false
  | some l => decide (s.leverState l = .fault) || recordCorrupt leverDefined (s.lever l).copy

/-- The source is in a fault condition (R151). -/
def lampFault (s : State) (k : LampSource) (index : Nat) : Bool :=
  match k with
  | .lever => leverLampFault s index
  | .routeLock => leverLampFault s index
  | .signalOut => leverLampFault s index
  | .track =>
    match tcOf index with
    | none => false
    | some t => decide ((s.track t).reason = .crossCode) || recordCorrupt trackDefined (s.track t).copy
  | .sectionIn =>
    match lineOf index with
    | none => false
    | some x => (s.block x).inc.driveFault || (s.block x).inc.alarm || !lineSound s x
  | .sectionOut =>
    match lineOf index with
    | none => false
    | some x => decide ((s.block x).out.sensed = .senseFault) || !lineSound s x
  | .offer =>
    match lineOf index with
    | none => false
    | some x => !lineSound s x
  | .boxMode => false
  | .timebase => false

/-- The value of the lamp that a record places: the first case of R151 that applies. -/
def lampValue (s : State) (c : RecordCopy) : Lamp :=
  if lampUnsound c then .off
  else
    match lampSource c.bytes with
    | none => .off
    | some k =>
      if byteAt c.bytes 6 = 1 ∧ lampFault s k (byteAt c.bytes 3) then .flash
      else if lampTrue s k (byteAt c.bytes 3) (byteAt c.bytes 4) then
        if byteAt c.bytes 5 = 0 then .steady else .flash
      else .off

/-! ## The chain (R153, R155) -/

/-- The row of a lamp position. -/
def rowOf (p : Fin 512) : Fin 32 :=
  ⟨p.val / 16, by omega⟩

/-- The two bits of a lamp value. -/
def lampBits : Lamp → Nat
  | .off => 0
  | .steady => 1
  | .flash => 2

/-- Four columns to a byte, the first in the top two bits. -/
def columnBytes : List Lamp → List Byte
  | a :: b :: c :: d :: rest =>
    byteOf (lampBits a * 64 + lampBits b * 16 + lampBits c * 4 + lampBits d) :: columnBytes rest
  | _ => []

/-- The frame's bytes (Table 10-1). -/
def chainBytes (i : Icc) : ChainKind → List Byte
  | .allOn => [0x03]
  | .phase => [0x02, if i.phase = some true then 1 else 0]
  | .rows a b =>
    0x01 :: byteOf a.val :: byteOf b.val ::
      columnBytes ((i.desired.items.drop (16 * a.val)).take (16 * (b.val + 1 - a.val)))

/-- A frame starts on the chain, for the ticks its bytes take at 0.1 ms a byte. -/
def startChain (now : Nat) (k : ChainKind) (i : Icc) : Icc :=
  { i with frame := some ⟨k, chainBytes i k, now + ((chainBytes i k).length + 9) / 10⟩ }

/-- The dirty rows in order. -/
def dirtyRows (i : Icc) : List (Fin 32) :=
  (List.finRange 32).filter fun r => i.dirty.get r

/-- A ROWS frame over rows `a` to `b`: their desired values enter the sent image and they leave the dirty row set. -/
def sendRows (now : Nat) (a b : Fin 32) (i : Icc) : Icc :=
  let within := fun r => decide (a.val ≤ r) && decide (r ≤ b.val)
  { startChain now (.rows a b) i with
    sent := Table.choose (fun p => within (p / 16)) i.desired i.sent
    dirty := Table.choose within (.fill 32 false) i.dirty }

/-- The idle chain takes the first frame wanted (R155). Nothing is sent until the box has left STARTING (R157). -/
def nextChain (now : Nat) (i : Icc) : Icc :=
  if i.phase.isNone || i.frame.isSome then i
  else if i.allOnPending then { startChain now .allOn i with allOnPending := false }
  else if i.phaseDue then { startChain now .phase i with phaseDue := false }
  else if i.testUntil.isSome then i
  else
    match (dirtyRows i).head?, (dirtyRows i).getLast? with
    | some a, some b => sendRows now a b i
    | _, _ => i

/-- The chain is offered work. -/
def kickChain (s : State) : State :=
  { s with icc := nextChain s.now s.icc }

/-! ## Tellings (R152) -/

/-- A lamp's desired value; a change of it dirties the lamp's row. -/
def setLamp (p : Fin 512) (v : Lamp) (i : Icc) : Icc :=
  if i.desired.get p = v then i
  else { i with desired := i.desired.set p v, dirty := i.dirty.set (rowOf p) true }

/-- The lamps whose placing records name a source that `names` picks out are computed anew. -/
def relight (names : List Byte → Bool) (s : State) : Icc :=
  (placements s.icc).foldl (fun i q => if names q.2.2.bytes then setLamp q.1 (lampValue s q.2.2) i else i) s.icc

/-- An owner tells the ICC of a change of its source. Before the box has left STARTING there are no lamps. An idle chain
starts its frame at the telling, so of several tellings in one event the first starts it (log 50). -/
def tellIcc (names : List Byte → Bool) (s : State) : State :=
  if s.icc.phase.isNone then s
  else { s with icc := nextChain s.now (relight names s) }

/-- The record names the source of kind `k` and index `n`. -/
def namesSource (k : LampSource) (n : Nat) (bs : List Byte) : Bool :=
  decide (lampSource bs = some k) && byteAt bs 3 == n

/-- The lamps of a lever: its own, and the fault displays of its route lock and signal lamps. -/
def namesLever (l : Lever) (bs : List Byte) : Bool :=
  namesSource .lever (leverNumber l) bs || namesSource .routeLock (leverNumber l) bs ||
    namesSource .signalOut (leverNumber l) bs

/-- The lamps of a track circuit. -/
def namesTrack (t : Tc) (bs : List Byte) : Bool :=
  namesSource .track (t.val + 1) bs

/-- The lamps of a line: both sections and its offers. -/
def namesLine (x : Line) (bs : List Byte) : Bool :=
  namesSource .sectionIn (lineNumber x) bs || namesSource .sectionOut (lineNumber x) bs ||
    namesSource .offer (lineNumber x) bs

/-- Every desired value and placed position formed afresh from the record copies. -/
def relightAll (s : State) : Icc :=
  let placed := placements s.icc
  (List.finRange 512).foldl (fun i p =>
    match placed.find? fun q => q.1 = p with
    | none => setLamp p .off i
    | some q => setLamp p (lampValue s q.2.2) i) s.icc

/-- The SST tells the ICC of an INDICATION slot: the copy is taken anew, and the lamps at the positions the old and
new copies place are computed. A change of the number of lamps placed posts INDICATION (R158). An idle chain starts its
frame at the telling (log 50). -/
def tellIndication (k : Fin 256) (s : State) : State :=
  if s.icc.phase.isNone then s
  else
    let before := (placements s.icc).length
    let t := { s with icc := { s.icc with copies := s.icc.copies.set k (slotCopy s (indicationSlot k)) } }
    let u := { t with icc := nextChain t.now (relightAll t) }
    if (placements u.icc).length = before then u else postReport .indication u

end Sys2Proof.Machine
end

