-- ==== Sys2Proof/Machine/Queue.lean ====
section
/-!
DEFINITION. The freeing queue (R77, R78, R82): who joins it again, and the start of an evaluation.
-/

namespace Sys2Proof.Machine

/-- A lever is appended at the tail, unless it is queued or under evaluation already. -/
def enqueueLever (l : Lever) (s : State) : State :=
  if queuedOrEvaluated s l then s
  else { s with lle := { s.lle with queue := s.lle.queue ++ [l] } }

/-- The waiting levers that `p` picks out are appended again, in increasing number. -/
def requeue (p : LeverRec → Bool) (s : State) : State :=
  forEach (List.finRange 48) (fun l s =>
    if (s.lever l).waiting && p (s.lever l) then enqueueLever l s else s) s

/-- Every waiting lever (a change of mode, the removal of a route lock entry). -/
def requeueAll (s : State) : State :=
  requeue (fun _ => true) s

/-- The reported failing term has the property `q`. -/
def failingIs (q : Term → Bool) (v : LeverRec) : Bool :=
  match v.failing with
  | none => false
  | some (_, t) => q t

/-- The levers waiting on a lever, as the object or the qualifier of their failing term. -/
def requeueLever (l : Lever) (s : State) : State :=
  requeue (failingIs fun t =>
    decide (termLever t = some l) ||
      match termQualifier t with
      | none => false
      | some (q, _) => q = l) s

/-- The levers waiting on a track circuit. -/
def requeueTrack (tc : Tc) (s : State) : State :=
  requeue (failingIs fun t => termTrack t = some tc) s

/-- The levers waiting on a section. -/
def requeueSection (x : Line) (side : Side) (s : State) : State :=
  requeue (failingIs fun t => termSection t = some (x, side)) s

/-- The levers waiting on a line-clear release. -/
def requeueRelease (x : Line) (s : State) : State :=
  requeue (failingIs fun t => termRelease t = some x) s

/-- The levers waiting on a signal's output demand. -/
def requeueSignal (l : Lever) (s : State) : State :=
  requeue (failingIs fun t => termSignal t = some l) s

/-- With no evaluation in progress, the head lever is taken and its read asked for (R78). -/
def startEvaluation (s : State) : State :=
  match s.lle.eval with
  | some _ => s
  | none =>
    match s.lle.queue with
    | [] => s
    | l :: rest => askRead (.evaluation l true) { s with lle := { s.lle with queue := rest, eval := some l } }

end Sys2Proof.Machine
end

