-- ==== Sys2Proof/Machine/Signals.lean ====
section
/-!
DEFINITION. The Signal and Route Controller's operations (chapter 6): demands and sticks, the route lock list, and the slot
assignment.
-/

namespace Sys2Proof.Machine

/-! ## Output demand (R93 to R95) -/

/-- Everything that R93 asks of a slot's demand: the lever REVERSE, the stick clear, the box OPEN or SWITCHED_OUT, the
record sound, the group not cut and every proving term holding (R95 for the lines switched through). -/
def demandJustified (s : State) (n : SigSlot) : Bool :=
  match (s.signal n).lever with
  | none => false
  | some l =>
    leverAt s l .r && !(s.signal n).stick && outputsLive s.mode && leverSound (s.signal n).copy &&
      !s.vod.cuts.get (groupOf (aspectOutput n)) &&
      (toReverse (copyBytes (s.signal n).copy)).all (termHolds s (decide (s.mode = .switchedOut)))

/-- Every demand that is true is justified: the law of R93. -/
def demandsJustified (s : State) : Bool :=
  (List.finRange 24).all fun n => !(s.signal n).demand || demandJustified s n

/-- A demand falls, and its stick is set (R96). -/
def dropDemand (n : SigSlot) (s : State) : State :=
  s.modSignal n fun g => { g with demand := false, stick := true }

/-- A demand rises. -/
def raiseDemand (n : SigSlot) (s : State) : State :=
  s.modSignal n fun g => { g with demand := true }

/-- The first slot whose demand must fall. -/
def mustFall (s : State) : Option SigSlot :=
  (List.finRange 24).find? fun n => (s.signal n).demand && !demandJustified s n

/-- The first slot whose demand may rise. -/
def mayRise (s : State) : Option SigSlot :=
  (List.finRange 24).find? fun n => !(s.signal n).demand && demandJustified s n

/-- Demands fall one after another until none must; 24 falls are the most there can be. -/
def settleFalls : Nat → State → State
  | 0, s => s
  | k + 1, s =>
    match mustFall s with
    | none => s
    | some n => settleFalls k (dropDemand n s)

/-- Demands rise one after another until none may. A rise makes no other demand fall, so 24 suffice. -/
def settleRises : Nat → State → State
  | 0, s => s
  | k + 1, s =>
    match mayRise s with
    | none => s
    | some n => settleRises k (raiseDemand n s)

/-- The demands as they stand once no demand changes any more (R94): first the falls, then the rises. -/
def settleDemands (s : State) : State :=
  settleRises 24 (settleFalls 24 s)

/-- The BSC keeps the tick at which a line's starting signal last fell (R138). -/
def markDemandFell (l : Lever) (s : State) : State :=
  forEach allLines (fun x s =>
    match lineRecord s x with
    | none => s
    | some bs =>
      if startingLever bs = some l then s.modBlock x fun b => { b with demandFell := some s.now } else s) s

/-- A changed demand is told: to the VOD, the LLE, the BSC and the ICC, and the slot's ROUTE_LOCK is posted (R94). -/
def tellDemand (n : SigSlot) (s : State) : State :=
  let t := setDemand (aspectOutput n) (if (s.signal n).demand then .on else .off) s
  match (t.signal n).lever with
  | none => postReport (.routeLock n) t
  | some l =>
    let u := requeueSignal l t
    let v := if (u.signal n).demand then u else markDemandFell l u
    postReport (.routeLock n) (tellIcc (namesSource .signalOut (leverNumber l)) v)

/-- The SRC recomputes every demand and tells of each that changes. Made at the end of every event, so that the law
of R93 stands whenever no event is in progress (log 9). -/
def recompute (s : State) : State :=
  let t := settleDemands s
  forEach (List.finRange 24) (fun n u =>
    if (t.signal n).demand = (s.signal n).demand then u else tellDemand n u) t

/-! ## The stick (R96 to R100) -/

/-- A slot's stick is set; a change of it posts ROUTE_LOCK. -/
def setStick (n : SigSlot) (s : State) : State :=
  if (s.signal n).stick then s
  else postReport (.routeLock n) (s.modSignal n fun g => { g with stick := true })

/-- The lever of a slot is REVERSE. -/
def slotReverse (s : State) (n : SigSlot) : Bool :=
  match (s.signal n).lever with
  | none => false
  | some l => leverAt s l .r

/-- The sticks of the slots that `p` picks out, and whose levers are REVERSE, are set. -/
def setSticks (p : SigSlot → Bool) (s : State) : State :=
  forEach (List.finRange 24) (fun n s => if p n && slotReverse s n then setStick n s else s) s

/-- A signal aspect drive reads back without current: with the demand true, the stick is set (R97). -/
def aspectNoCurrent (n : SigSlot) (s : State) : State :=
  if (s.signal n).demand then setStick n s else s

/-- A lever is of EMERGENCY's first two groups for a line: it holds a slot and is HOME or STARTING of the line by its own
record, or it is named by the line's sound LINES record (R99). -/
def emergencyLever (s : State) (x : Line) (l : Lever) : Bool :=
  (match slotOfLever s l with
    | none => false
    | some n =>
      let bs := copyBytes (s.signal n).copy
      isHomeOrStarting bs && decide (leverLine bs = some x)) ||
    match soundLine (s.src.lines.get x.place) with
    | none => false
    | some line => homeLever line = some l || startingLever line = some l

/-- The slot's lever is of the first two groups. -/
def emergencyDirect (s : State) (x : Line) (n : SigSlot) : Bool :=
  match (s.signal n).lever with
  | none => false
  | some l => emergencyLever s x l

/-- The slot's lever is a DISTANT whose ToReverse list names a lever of the first two groups. -/
def emergencyDistant (s : State) (x : Line) (n : SigSlot) : Bool :=
  let bs := copyBytes (s.signal n).copy
  isSignalRecord bs && leverRole bs == 3 &&
    (toReverse bs).any fun t =>
      match termSignal t with
      | none => false
      | some l => emergencyLever s x l

/-- EMERGENCY received on a line (R99). -/
def emergency (x : Line) (s : State) : State :=
  setSticks (fun n => emergencyDirect s x n || emergencyDistant s x n) s

/-- The stick of a lever's slot is set if the lever is REVERSE (R100). -/
def stickOfLever (l : Lever) (s : State) : State :=
  match slotOfLever s l with
  | none => s
  | some n => if leverAt s l .r then setStick n s else s

/-! ## The route lock list (R101 to R104) -/

/-- The slot's ROUTE_LOCK is posted and the ICC told of the lever's entry. -/
def tellEntry (l : Lever) (s : State) : State :=
  let t := tellIcc (namesSource .routeLock (leverNumber l)) s
  match slotOfLever t l with
  | none => t
  | some n => postReport (.routeLock n) t

/-- The entry of a signal lever is removed: its cause is kept, every waiting lever is queued again (R104). -/
def removeEntry (cause : RemovalCause) (l : Lever) (s : State) : State :=
  let t := { s with src := { s.src with locks := s.src.locks.filter fun e => e.lever ≠ l } }
  let u :=
    match slotOfLever t l with
    | none => t
    | some n => t.modSignal n fun g => { g with removal := cause }
  tellEntry l (requeueAll u)

/-- A signal's approach asks for an entry at its freeing (R102). -/
def approachHolds (s : State) (bs : List Byte) : Bool :=
  locksAlways bs ||
    match approachTc bs with
    | none => true
    | some tc => (s.track tc).state = .occupied

/-- The entry that a signal's record makes. -/
def newEntry (s : State) (l : Lever) (bs : List Byte) : RouteLock where
  lever := l
  held := heldSet bs
  passing := passingTc bs
  time := timeReleaseMs bs
  state :=
    match passingTc bs with
    | none => .waitingTrain
    | some tc => if (s.track tc).state = .occupied then .trainPassing else .waitingTrain
  deadline := none
  created := s.now

/-- A signal lever holding a slot has been freed from REVERSE (R102). -/
def freedFromReverse (l : Lever) (s : State) : State :=
  match slotOfLever s l with
  | none => s
  | some n =>
    let bs := copyBytes (s.signal n).copy
    if (s.signal n).demand && approachHolds s bs then
      tellEntry l { s with src := { s.src with
        locks := (s.src.locks.filter fun e => e.lever ≠ l) ++ [newEntry s l bs] } }
    else s

/-- An entry is changed in its place. -/
def modEntry (l : Lever) (f : RouteLock → RouteLock) (s : State) : State :=
  { s with src := { s.src with locks := s.src.locks.map fun e => if e.lever = l then f e else e } }

/-- The SRC is told that a track circuit has become OCCUPIED or CLEAR (R103). -/
def srcTrack (tc : Tc) (occupied : Bool) (s : State) : State :=
  forEach s.src.locks (fun e s =>
    if e.passing ≠ some tc then s
    else if occupied then
      if e.state = .trainPassing then s
      else tellEntry e.lever (modEntry e.lever (fun e => { e with state := .trainPassing }) s)
    else if e.state = .trainPassing then removeEntry .trainPassed e.lever s
    else s) s

/-- The SRC is told of a lever's state: at NORMAL the stick is cleared (R96), at REVERSE a standing entry is removed
(R104). -/
def srcLever (l : Lever) (s : State) : State :=
  match slotOfLever s l with
  | none => s
  | some n =>
    if leverAt s l .n then
      if (s.signal n).stick then
        postReport (.routeLock n) (s.modSignal n fun g => { g with stick := false })
      else s
    else if leverAt s l .r && (entryOf s l).isSome then removeEntry .rePull l s
    else s

/-- The timebase has changed from GOOD to DEGRADED: every time deadline is rescaled (R107). -/
def srcDegraded (s : State) : State :=
  forEach s.src.locks (fun e s =>
    match e.deadline with
    | none => s
    | some d => tellEntry e.lever (modEntry e.lever (fun e => { e with deadline := some (rescaled s.now d) }) s)) s

/-! ## Slots and copies (R41, R109) -/

/-- Every ROUTE_LOCK source is posted. -/
def postRouteLocks (s : State) : State :=
  postAll ((List.finRange 24).map .routeLock) s

/-- The signal levers in increasing number, by the kinds of the records as delivered (R41). -/
def signalLevers (s : State) : List Lever :=
  (List.finRange 48).filter fun l => isSignalRecord (copyBytes (slotCopy s (leverSlot l)))

/-- The slots are assigned on entry to COMMISSIONING, with copies of the records and of the three LINES records (R41,
R109). Where CORRUPT records make more than 24 levers read as SIGNAL, which R41 leaves open, the 24 lowest-numbered take
the slots and the rest take none (DESIGN CHOICE, log 62). -/
def assignSlots (s : State) : State :=
  let levers := (signalLevers s).take 24
  postRouteLocks { s with src := { s.src with
    signals := Table.build fun n =>
      match levers[n.val]? with
      | none => { s.signal n with lever := none, copy := none }
      | some l => { s.signal n with lever := some l, copy := slotCopy s (leverSlot l) }
    lines := Table.build fun i => slotCopy s ⟨i.val + 73, by omega⟩ } }

/-- The assignment is given up on entry to MAINTENANCE. -/
def giveUpSlots (s : State) : State :=
  postRouteLocks { s with src := { s.src with
    signals := s.src.signals.map fun g => { g with lever := none, copy := none, demand := false, stick := false } } }

/-- The SRC takes its copy of a lever record anew; a change of its condition posts ROUTE_LOCK. -/
def srcRecord (l : Lever) (s : State) : State :=
  match slotOfLever s l with
  | none => s
  | some n =>
    let c := slotCopy s (leverSlot l)
    let t := s.modSignal n fun g => { g with copy := c }
    if c = (s.signal n).copy then t else postReport (.routeLock n) t

end Sys2Proof.Machine
end

