-- ==== Sys2Proof/Machine/Event.lean ====
section
/-!
DEFINITION. What every event does at its end, and how a request is served (R7).
-/

namespace Sys2Proof.Machine

/-- The end of an event: demands recomputed (R94), the freeing queue's head taken (R78), the transmitter offered its
next frame (R12). -/
def finish (s : State) : State :=
  takeFrame (startEvaluation (recompute s))

/-- An event that comes about only where `can` holds; elsewhere it cannot occur and nothing changes (log 6). -/
def event (can : Bool) (s : State) (f : State → State) : Host.Outcome State Fault Refusal :=
  .next (if can then finish (f s) else s)

/-- A request of an assigned kind is served: its payload is checked by the HLC, and a good one is passed to its owner,
which answers and acts (R7, R8). -/
def serve (k : RequestKind) (owner : List Byte → State → Answer × State) (s : State) :
    Host.Outcome State Fault Refusal :=
  match servableOf s k with
  | none => .next s
  | some f =>
    match payloadFault k f.payload with
    | some reason => .next (finish (replyHead f (.badField reason) s))
    | none => .next (finish (replyHead f (owner f.payload s).1 (owner f.payload s).2))

/-- An owner's answer that changes nothing. -/
def justAnswer (a : Answer) (s : State) : Answer × State :=
  (a, s)

end Sys2Proof.Machine
end

