-- ==== Sys2Proof/Machine/BellOps.lean ====
section
/-!
DEFINITION. The Bell Codec's operations on one line (chapter 7): patterns, the sender, and the counting of beats.
-/

namespace Sys2Proof.Machine

/-! ## The code table (R111) -/

/-- The pattern of a code (Table 7-1). -/
def codePattern : BellCode → List Nat
  | .call => [1]
  | .offerPassenger => [2, 2]
  | .offerMixed => [2, 1, 2]
  | .offerGoods => [4, 1]
  | .offerEngine => [1, 1, 3]
  | .offerEngineers => [3, 3]
  | .entering => [5]
  | .outOfSection => [1, 2]
  | .cancel => [4, 4]
  | .emergency => [9]

/-- The ten codes in order. -/
def allCodes : List BellCode :=
  [.call, .offerPassenger, .offerMixed, .offerGoods, .offerEngine, .offerEngineers, .entering, .outOfSection,
    .cancel, .emergency]

/-- The code of a number 1 to 10. -/
def codeOfNumber (n : Nat) : Option BellCode :=
  allCodes.find? fun c => codeNumber c = n

/-- The code with a pattern. -/
def codeOfPattern (p : List Nat) : Option BellCode :=
  allCodes.find? fun c => codePattern c = p

/-- The offer codes, numbers 2 to 6. -/
def isOffer (c : BellCode) : Bool :=
  inRange 2 6 (codeNumber c)

/-! ## The sender (R121) -/

/-- The sender begins a beat, with the beats that remain after it. -/
def soundBeat (now : Nat) (rest : List Nat) (b : BellLine) : BellLine :=
  { b with sender := .sounding, stepEnd := some (now + 100), place := rest }

/-- The beats of a pattern that remain after its first. -/
def afterFirst : List Nat → List Nat
  | [] => []
  | g :: rest => (g - 1) :: rest

/-- The sender starts the head code of the send queue, or goes to IDLE. -/
def startHead (now : Nat) (b : BellLine) : BellLine :=
  match b.sendQueue with
  | [] => { b with sender := .idle, stepEnd := none, place := [] }
  | c :: _ => soundBeat now (afterFirst (codePattern c)) b

/-- A code joins the send queue; an IDLE sender starts it at once (R119). -/
def queueCode (now : Nat) (c : BellCode) (b : BellLine) : BellLine :=
  let d := { b with sendQueue := b.sendQueue ++ [c] }
  if d.sender = .idle then startHead now d else d

/-- Steps 2 and 3 of R119 are passed: the line is not through-connected and its send queue not full. -/
def maySend (b : BellLine) : Bool :=
  !b.through && decide (b.sendQueue.length < 4)

/-- The BSC asks for ENTERING to be appended; a refusal sets the auto-refused flag (R120). -/
def appendEntering (x : Line) (s : State) : State :=
  postReport (.bell x)
    (s.modBell x fun b => if maySend b then queueCode s.now .entering b else { b with autoRefused := true })

/-! ## Counting beats (R114) -/

/-- A beat that continues the present group. -/
def beatInGroup (c : OpenCode) : OpenCode :=
  if 6 < c.seen then c
  else
    match c.groups.getLast? with
    | none => c
    | some g =>
      if 12 ≤ g then { c with invalid := true } else { c with groups := c.groups.dropLast ++ [g + 1] }

/-- A beat that starts a new group. -/
def beatNewGroup (c : OpenCode) : OpenCode :=
  if 6 ≤ c.seen then { c with seen := countUp c.seen, invalid := true }
  else { c with seen := c.seen + 1, groups := c.groups ++ [1] }

/-- A beat with its rise at `rise` counted into the open code, or opening one. -/
def countBeat (rise fall : Nat) (long : Bool) (code : Option OpenCode) : OpenCode :=
  match code with
  | none => ⟨[1], 1, long, fall⟩
  | some c =>
    let d := if rise - c.lastFall < 350 then beatInGroup c else beatNewGroup c
    { d with invalid := d.invalid || long, lastFall := fall }

/-- The name of a completed code: UNKNOWN when INVALID or matching nothing (R115). -/
def codeName (c : OpenCode) : Option BellCode :=
  if c.invalid then none else codeOfPattern c.groups

/-- A completed code joins the receive queue, or is discarded from a full one (R116). -/
def receiveCode (r : CodeRecord) (b : BellLine) : BellLine :=
  if b.received.length < 8 then { b with received := b.received ++ [r] } else { b with discarded := true }

/-- The end deadline of the open code. -/
def codeDeadline (b : BellLine) : Option Nat :=
  b.code.map fun c => c.lastFall + 1500

/-- When the present high began. -/
def highSince (now : Nat) (b : BellLine) : Nat :=
  match b.highStart with
  | none => now
  | some h => h

/-! ## Through-connection (R122) -/

/-- A line is through-connected: its send queue is cut back to a head that is sounding or spacing. -/
def throughConnect (b : BellLine) : BellLine :=
  { b with
    through := true
    sendQueue :=
      match b.sender with
      | .sounding => b.sendQueue.take 1
      | .spacing => b.sendQueue.take 1
      | .idle => []
      | .trailing => [] }

/-- The lines whose sound LINES record names a through partner (log 20). -/
def namesPartner (c : Option RecordCopy) : Bool :=
  match soundLine c with
  | none => false
  | some bs => (throughPartner bs).isSome

/-- The BLC is told of the box leaving SWITCHED_OUT. -/
def blcLeaveThrough (s : State) : State :=
  forEach allLines (fun x s =>
    if (s.bell x).through then postReport (.bell x) (s.modBell x fun b => { b with through := false }) else s) s

/-- Decoding begins as the box leaves STARTING: in STUCK if bell-in reads high (R123). -/
def blcBegin (s : State) : State :=
  forEach allLines (fun x s =>
    postReport (.bell x) (s.modBell x fun b => if b.filter.level then { b with rx := .stuck } else b)) s

end Sys2Proof.Machine
end

