-- ==== Sys2Proof/Machine/Sections.lean ====
section
/-!
DEFINITION. The Block Section Controller's operations (chapter 8): a change of a section record with everyone it is told
to, the codes, the track circuits, the release, freezing and the record.
-/

namespace Sys2Proof.Machine

/-! ## A change of a section record (R125, R126, R142) -/

/-- The new state of an incoming section reaches its instrument output and the LLE. -/
def tellIncoming (x : Line) (s : State) : State :=
  requeueSection x .incoming (setDemand (instrumentOutput x) (instrumentDemand (s.block x).inc.state) s)

/-- An incoming section record is changed by `f`: a change of its state is told (R125), and any change is told to the
ICC and posts the source. -/
def changeInc (x : Line) (f : Incoming → Incoming) (s : State) : State :=
  let before := (s.block x).inc
  let t := s.modInc x f
  if f before = before then t
  else
    let u := if (f before).state = before.state then t else tellIncoming x t
    postReport (.sect x .incoming) (tellIcc (namesLine x) u)

/-- An outgoing section record is changed by `f`: changes of its sensed state and release are told to the LLE
(R126, R137), a change of its offer posts both sections (R129), and any change is told to the ICC and posts the
source. -/
def changeOut (x : Line) (f : Outgoing → Outgoing) (s : State) : State :=
  let before := (s.block x).out
  let t := s.modOut x f
  if f before = before then t
  else
    let u := if (f before).sensed = before.sensed then t else requeueSection x .outgoing t
    let v := if (f before).release = before.release then u else requeueRelease x u
    let w := if (f before).offer = before.offer then v else postReport (.sect x .incoming) v
    postReport (.sect x .outgoing) (tellIcc (namesLine x) w)

/-- The line-clear release becomes unavailable, with the event that says why. -/
def loseRelease (why : SectionEvent) (o : Outgoing) : Outgoing :=
  if o.release then { o with release := false, event := why } else o

/-! ## Codes (R128, R129) -/

/-- The line's last code and last code action; both sections are posted. -/
def noteCode (x : Line) (name : Option BellCode) (action : CodeAction) (s : State) : State :=
  postSections x (s.modBlock x fun b => { b with lastCode := some name, lastAction := action })

/-- An offer code received: the effect and its action. -/
def offerReceived (x : Line) (c : BellCode) (s : State) : State × CodeAction :=
  let b := s.block x
  let record : State × CodeAction :=
    if b.inc.state = .blocked then
      (changeInc x (fun i => { i with offer := some ⟨c, s.now, false, s.now + 300000⟩ }) s, .offerRecorded)
    else (s, .reportedOnly)
  match b.out.offer with
  | none => record
  | some o =>
    if o.code ≠ c then record
    else if o.accepted then (s, .reportedOnly)
    else
      (changeOut x (fun out => { out with offer := some { o with accepted := true, expiry := s.now + 120000 } }) s,
        .offerAccepted)

/-- CANCEL received. -/
def cancelReceived (x : Line) (s : State) : State × CodeAction :=
  let b := s.block x
  if b.inc.offer.isSome then (changeInc x (fun i => { i with offer := none }) s, .offerCancelled)
  else if b.inc.state = .lineClear then (changeInc x (fun i => { i with cancel := true }) s, .cancelRecorded)
  else if b.out.offer.isSome then (changeOut x (fun o => { o with offer := none }) s, .outOfferCancelled)
  else (s, .reportedOnly)

/-- The effect of a code that is not reported only by its record. -/
def codeReceived (x : Line) (c : BellCode) (s : State) : State × CodeAction :=
  if isOffer c then offerReceived x c s
  else if c = .cancel then cancelReceived x s
  else if c = .emergency then (emergency x s, .emergency)
  else (s, .reportedOnly)

/-- The BSC takes a completed code (R128). -/
def handCode (x : Line) (r : CodeRecord) (s : State) : State :=
  let outcome :=
    if r.through || (s.block x).frozen then (s, CodeAction.reportedOnly)
    else
      match r.name with
      | none => (s, .reportedOnly)
      | some c => codeReceived x c s
  noteCode x r.name outcome.2 outcome.1

/-- The effect of a code sent on a line that is not frozen (R129). -/
def sentEffect (x : Line) (c : BellCode) (s : State) : State × CodeAction :=
  if isOffer c then
    match (s.block x).inc.offer with
    | none =>
      (changeOut x (fun o => { o with offer := some ⟨c, s.now, false, s.now + 120000⟩ }) s, .offerSent)
    | some o =>
      if o.code = c then (changeInc x (fun i => { i with offer := some { o with repeated := true } }) s, .offerRepeated)
      else (changeOut x (fun o => { o with offer := some ⟨c, s.now, false, s.now + 120000⟩ }) s, .offerSent)
  else if c = .cancel ∧ (s.block x).out.offer.isSome then
    (changeOut x (fun o => { o with offer := none }) s, .outOfferCancelled)
  else (s, .reportedOnly)

/-- The BSC takes a code told as sent (R129). -/
def codeSent (x : Line) (c : BellCode) (s : State) : State :=
  let outcome := if (s.block x).frozen then (s, CodeAction.reportedOnly) else sentEffect x c s
  noteCode x (some c) outcome.2 outcome.1

/-! ## Track circuits and the home lever (R134, R135, R138) -/

/-- The line's record, when the BSC acts on its track circuits: in OPEN, or in SWITCHED_OUT with the line not frozen,
and the record sound (R134). -/
def actingRecord (s : State) (x : Line) : Option (List Byte) :=
  if s.mode = .openBox ∨ (s.mode = .switchedOut ∧ (s.block x).frozen = false) then lineRecord s x else none

/-- The starting signal's output demand is true, or fell at this tick. -/
def startingOffNow (s : State) (x : Line) (bs : List Byte) : Bool :=
  (match startingLever bs with
    | none => false
    | some l => demandOf s l) ||
  decide ((s.block x).demandFell = some s.now)

/-- The home lever is NORMAL. -/
def homeNormal (s : State) (bs : List Byte) : Bool :=
  match homeLever bs with
  | none => false
  | some l => leverAt s l .n

/-- The starting lever is NORMAL. -/
def startingNormal (s : State) (bs : List Byte) : Bool :=
  match startingLever bs with
  | none => false
  | some l => leverAt s l .n

/-- The track circuit `tc` of a line's record is CLEAR. -/
def circuitClear (s : State) (tc : Option Tc) : Bool :=
  match tc with
  | none => false
  | some t => (s.track t).state = .clear

/-- An incoming section enters TRAIN_ON_LINE with step ENTRY_OCC by an occupation of its entry circuit (R134). -/
def entryOccupiedRecord (i : Incoming) : Incoming :=
  match i.state with
  | .lineClear => { i with state := .trainOnLine, step := .entryOcc, event := .trainOnLine }
  | .blocked =>
    { i with state := .trainOnLine, step := .entryOcc, alarm := true, event := .unexpectedEntry, offer := none }
  | .trainOnLine => { i with step := .entryOcc, release := .none }

/-- The entry circuit becomes OCCUPIED. On a SINGLE line an unexpected entry sets the starting signal's stick. -/
def entryOccupied (x : Line) (bs : List Byte) (s : State) : State :=
  let t := changeInc x entryOccupiedRecord s
  if (s.block x).inc.state = .blocked ∧ workedSingle bs = true then
    match startingLever bs with
    | none => t
    | some l => stickOfLever l t
  else t

/-- ENTRY_CLEARED, going on to PROVEN at once with the home lever NORMAL (R135). -/
def clearedStep (s : State) (bs : List Byte) : ArrivalStep :=
  if homeNormal s bs then .proven else .entryCleared

/-- The berth circuit becomes OCCUPIED: from ENTRY_OCC the step goes to BERTH_OCC, and on with the entry CLEAR. -/
def berthOccupied (x : Line) (bs : List Byte) (s : State) : State :=
  changeInc x (fun i =>
    if i.state = .trainOnLine ∧ i.step = .entryOcc then
      { i with step := if circuitClear s (entryTc bs) then clearedStep s bs else .berthOcc }
    else i) s

/-- The entry circuit becomes CLEAR: from BERTH_OCC the step goes to ENTRY_CLEARED. -/
def entryCleared (x : Line) (bs : List Byte) (s : State) : State :=
  changeInc x (fun i =>
    if i.state = .trainOnLine ∧ i.step = .berthOcc then { i with step := clearedStep s bs } else i) s

/-- The exit circuit becomes OCCUPIED: an available release is taken when the starting signal is off, or fell at this
tick, and ENTERING is asked for when the line has auto_entering on (R138). -/
def exitOccupied (x : Line) (bs : List Byte) (s : State) : State :=
  if (s.block x).out.release && startingOffNow s x bs then
    let t := changeOut x (loseRelease .releaseTaken) s
    if autoEntering bs then appendEntering x t else t
  else s

/-- The BSC is told that a track circuit has become OCCUPIED or CLEAR: entry, berth, then exit. -/
def bscTrack (tc : Tc) (occupied : Bool) (s : State) : State :=
  forEach allLines (fun x s =>
    match actingRecord s x with
    | none => s
    | some bs =>
      if occupied then
        let t := if entryTc bs = some tc then entryOccupied x bs s else s
        let u := if berthTc bs = some tc then berthOccupied x bs t else t
        if exitTc bs = some tc then exitOccupied x bs u else u
      else if entryTc bs = some tc then entryCleared x bs s
      else s) s

/-- The BSC is told of a lever's state: the home lever becoming NORMAL proves an arrival at ENTRY_CLEARED (R135). -/
def bscLever (l : Lever) (s : State) : State :=
  forEach allLines (fun x s =>
    match lineRecord s x with
    | none => s
    | some bs =>
      if homeLever bs = some l ∧ leverAt s l .n = true ∧ (s.block x).frozen = false then
        changeInc x (fun i =>
          if i.state = .trainOnLine ∧ i.step = .entryCleared then { i with step := .proven } else i) s
      else s) s

/-! ## The record (R127) -/

/-- The line's record stops being sound: LINE_CLEAR goes to TRAIN_ON_LINE and the release is lost. -/
def recordLost (x : Line) (s : State) : State :=
  changeOut x (loseRelease .releaseLost)
    (changeInc x (fun i =>
      if i.state = .lineClear then { i with state := .trainOnLine, event := .recordFault } else i) s)

/-- The BSC's copy of a line's home lever record, as the line's own copy names it. -/
def homeCopyOf (s : State) (c : Option RecordCopy) : Option RecordCopy :=
  match c with
  | none => none
  | some r =>
    match homeLever r.bytes with
    | none => none
    | some l => slotCopy s (leverSlot l)

/-- The BSC takes its copy of a LINES record anew. A change of the record is told to the ICC and posts both
sections. -/
def bscLine (x : Line) (s : State) : State :=
  let c := slotCopy s (lineSlot x)
  let t := s.modBlock x fun b => { b with copy := c, homeCopy := homeCopyOf s c }
  let u := if lineSound s x && !lineSound t x then recordLost x t else t
  if c = (s.block x).copy then u else postSections x (tellIcc (namesLine x) u)

/-- The BSC takes its copy of a home lever's record anew. -/
def bscHome (l : Lever) (s : State) : State :=
  forEach allLines (fun x s =>
    match (s.block x).copy with
    | none => s
    | some r =>
      if homeLever r.bytes = some l then s.modBlock x fun b => { b with homeCopy := slotCopy s (leverSlot l) } else s) s

/-! ## The VOD, the timebase and the mode -/

/-- An instrument drive's NO_CURRENT fault is set or cleared (R125), on a frozen line too (DEDUCED, log 60). -/
def instrumentFault (x : Line) (faulty : Bool) (s : State) : State :=
  changeInc x (fun i => { i with driveFault := faulty }) s

/-- Group 10 is cut, as told to the BSC (R125). -/
def bscCut (s : State) : State :=
  forEach allLines (fun x s => postSections x (tellIcc (namesLine x) s)) { s with bsc := { s.bsc with cut10 := true } }

/-- The timebase has changed from GOOD to DEGRADED: a running section release is rescaled (R136), one frozen by an
unsound record too (log 34). -/
def bscDegraded (s : State) : State :=
  forEach allLines (fun x s =>
    changeInc x (fun i =>
      match i.release with
      | .running d => { i with release := .running (rescaled s.now d) }
      | .none => i
      | .runOut => i) s) s

/-- The lines that name a through partner are frozen on entry to SWITCHED_OUT (R140). -/
def bscFreeze (s : State) : State :=
  forEach allLines (fun x s =>
    if namesPartner (s.block x).copy then
      postSections x (changeOut x (loseRelease .releaseLost) (s.modBlock x fun b => { b with frozen := true }))
    else s) s

/-- The incoming section of a line that restarts (R140); the drive fault follows the VOD and stays (log 60). -/
def restartedIncoming (i : Incoming) : Incoming :=
  { i with
    state := .blocked, offer := none, accepted := none, cancel := false, step := .none, release := .none, alarm := false
    event := .restarted }

/-- The outgoing section of a line that restarts: its sensed state is the filter's reading. -/
def restartedOutgoing (o : Outgoing) : Outgoing :=
  { o with
    sensed :=
      match o.reading with
      | none => o.sensed
      | some v => v
    release := false, offer := none, event := .restarted }

/-- The frozen lines restart as the box leaves SWITCHED_OUT (R140). -/
def bscRestart (s : State) : State :=
  forEach allLines (fun x s =>
    if (s.block x).frozen then
      postSections x (changeOut x restartedOutgoing (changeInc x restartedIncoming
        (s.modBlock x fun b => { b with frozen := false })))
    else s) s

/-- The BSC takes its copies as the box leaves STARTING, and posts all six sections (R141). -/
def bscBegin (s : State) : State :=
  forEach allLines (fun x s =>
    let c := slotCopy s (lineSlot x)
    postSections x (s.modBlock x fun b => { b with copy := c, homeCopy := homeCopyOf s c })) s

end Sys2Proof.Machine
end

