-- ==== Sys2Proof/Machine/Bells.lean ====
section
/-!
DEFINITION. The Bell Codec's commands: BELL_SEND, the edges and deadlines of reception, and the ends of the sender's steps.
-/

namespace Sys2Proof.Machine

/-! ## Completion (R115, R116) -/

/-- The open code completes, with the completion time given: it is handed to the BSC, then joins the receive queue, and
BELL is posted. -/
def completeCode (x : Line) (c : OpenCode) (time : Nat) (s : State) : State :=
  let r : CodeRecord := ⟨c.groups, codeName c, c.invalid, (s.bell x).through, time⟩
  let t := handCode x r (s.modBell x fun b => { b with code := none })
  postReport (.bell x) (t.modBell x (receiveCode r))

/-- The end deadline of the line's open code is reached. -/
def codeOver (s : State) (x : Line) : Bool :=
  reached s.now (codeDeadline (s.bell x))

/-! ## Edges (R112, R113) -/

/-- The BLC decodes in every mode but STARTING (R117, R123). -/
def decoding (s : State) : Bool :=
  decide (s.mode ≠ .starting)

/-- The line's filter holds a level. -/
def bellLevel (s : State) (x : Line) : Bool :=
  (s.bell x).filter.level

/-- The filter and the lead show an accepted level. -/
def acceptBell (x : Line) (v : Bool) (s : State) : State :=
  { s.modBell x (fun b => { b with filter := ⟨v, 0⟩ }) with
    leads := { s.leads with bellIn := s.leads.bellIn.set x.place v } }

/-- A rising edge in IDLE or GAP moves the receiver to HIGH. -/
def bellRise (x : Line) (s : State) : State :=
  let t := acceptBell x true s
  if decoding t then
    match (t.bell x).rx with
    | .idle => t.modBell x fun b => { b with rx := .high, highStart := some t.now }
    | .gap => t.modBell x fun b => { b with rx := .high, highStart := some t.now }
    | .high => t
    | .stuck => t
  else t

/-- BELL_RISING_EDGE (R113): an accepted rising edge. -/
def execBellRisingEdge (x : Line) (s : State) : Host.Outcome State Fault Refusal :=
  event (!bellLevel s x) s (bellRise x)

/-- A noise high ends: back to GAP with a code open, and otherwise to IDLE. A code whose deadline passed during the
high completes now (R115). -/
def noiseFall (x : Line) (s : State) : State :=
  match (s.bell x).code with
  | none => s.modBell x fun b => { b with rx := .idle, highStart := none }
  | some c =>
    if codeOver s x then completeCode x c s.now (s.modBell x fun b => { b with rx := .idle, highStart := none })
    else s.modBell x fun b => { b with rx := .gap, highStart := none }

/-- A beat or LONG beat ends and is counted. -/
def beatFall (x : Line) (long : Bool) (s : State) : State :=
  s.modBell x fun b =>
    { b with
      rx := .gap, highStart := none, lastBeatEnd := s.now
      code := some (countBeat (highSince s.now b) s.now long b.code) }

/-- The stuck limit: the high is counted as a LONG beat and the code completes at once; the receiver is STUCK. -/
def becomeStuck (x : Line) (s : State) : State :=
  let c := countBeat (highSince s.now (s.bell x)) s.now true (s.bell x).code
  postReport (.bell x) (completeCode x c s.now (s.modBell x fun b => { b with rx := .stuck }))

/-- The fall that ends STUCK: it sets the last beat end and counts nothing. -/
def stuckFall (x : Line) (s : State) : State :=
  postReport (.bell x) (s.modBell x fun b => { b with rx := .idle, highStart := none, lastBeatEnd := s.now })

/-- The falling edge of a high, judged on its length (R113). -/
def highFall (x : Line) (s : State) : State :=
  let d := s.now - highSince s.now (s.bell x)
  if d < 40 then noiseFall x s
  else if d ≤ 400 then beatFall x false s
  else if d < 5000 then beatFall x true s
  else stuckFall x (becomeStuck x s)

/-- A falling edge by the receiver's state. -/
def bellFall (x : Line) (s : State) : State :=
  let t := acceptBell x false s
  match (t.bell x).rx with
  | .high => highFall x t
  | .stuck => stuckFall x t
  | .idle => t
  | .gap => t

/-- BELL_FALLING_EDGE (R113): an accepted falling edge. -/
def execBellFallingEdge (x : Line) (s : State) : Host.Outcome State Fault Refusal :=
  event (bellLevel s x) s (bellFall x)

/-- The open code's end deadline ends it now: in GAP, or in HIGH with the high begun no earlier than the deadline
(R115). A high begun earlier makes completion wait for its fall. -/
def codeEndsNow (s : State) (x : Line) : Bool :=
  codeOver s x &&
    match (s.bell x).rx with
    | .gap => true
    | .high =>
      match codeDeadline (s.bell x) with
      | none => false
      | some d => d ≤ highSince s.now (s.bell x)
    | .idle => false
    | .stuck => false

/-- The open code completes, with the deadline as its completion time; a GAP becomes IDLE, and a high goes on as one
begun in IDLE. -/
def closeCode (x : Line) (s : State) : State :=
  match (s.bell x).code with
  | none => s
  | some c =>
    completeCode x c (c.lastFall + 1500) (s.modBell x fun b => { b with rx := if b.rx = .gap then .idle else b.rx })

/-- CODE_END_DEADLINE (R115). -/
def execCodeEndDeadline (x : Line) (s : State) : Host.Outcome State Fault Refusal :=
  event (codeEndsNow s x) s (closeCode x)

/-- A high has lasted 5000 ms. -/
def stuckDue (s : State) (x : Line) : Bool :=
  decide ((s.bell x).rx = .high) && decide (highSince s.now (s.bell x) + 5000 ≤ s.now)

/-- STUCK_LIMIT (R113). -/
def execStuckLimit (x : Line) (s : State) : Host.Outcome State Fault Refusal :=
  event (stuckDue s x) s (becomeStuck x)

/-! ## Sending (R119, R121) -/

/-- BELL_SEND's judgement by the BLC (R119). -/
def bellSend (p : List Byte) (s : State) : Answer × State :=
  match lineOf (byteAt p 0), codeOfNumber (byteAt p 1) with
  | some x, some c =>
    if s.mode = .starting then (.wrongMode, s)
    else if (s.bell x).through then (.refused 15, s)
    else if 4 ≤ (s.bell x).sendQueue.length then (.refused 14, s)
    else
      let t := postReport (.bell x) (s.modBell x (queueCode s.now c))
      (.ok [byteOf (t.bell x).sendQueue.length], t)
  | none, _ => (.badField 0, s)
  | _, none => (.badField 1, s)

/-- BELL_SEND. -/
def execBellSend (s : State) : Host.Outcome State Fault Refusal :=
  serve .bellSend bellSend s

/-- The sender's present step has run its time, in the state given. -/
def stepOver (st : Sender) (s : State) (x : Line) : Bool :=
  decide ((s.bell x).sender = st) && reached s.now (s.bell x).stepEnd

/-- The last beat of the head code ends: the BSC is told, the code leaves the queue, and TRAILING begins. -/
def codeFinished (x : Line) (s : State) : State :=
  let t :=
    match (s.bell x).sendQueue with
    | [] => s
    | c :: _ => codeSent x c s
  postReport (.bell x) (t.modBell x fun b =>
    { b with sender := .trailing, place := [], sendQueue := b.sendQueue.drop 1, stepEnd := some (t.now + 2000) })

/-- The sender waits for its next beat. -/
def spaceFor (gap : Nat) (x : Line) (s : State) : State :=
  s.modBell x fun b => { b with sender := .spacing, stepEnd := some (s.now + gap) }

/-- A beat ends: SPACING of 200 ms within a group or 800 ms between groups, or TRAILING after the last beat. -/
def beatSounded (x : Line) (s : State) : State :=
  match (s.bell x).place with
  | [] => codeFinished x s
  | 0 :: [] => codeFinished x s
  | 0 :: _ :: _ => spaceFor 800 x s
  | (_ + 1) :: _ => spaceFor 200 x s

/-- SOUNDING_END (R121). -/
def execSoundingEnd (x : Line) (s : State) : Host.Outcome State Fault Refusal :=
  event (stepOver .sounding s x) s (beatSounded x)

/-- The beats that remain after the next one. -/
def afterNext : List Nat → List Nat
  | [] => []
  | 0 :: rest => afterFirst rest
  | (k + 1) :: rest => k :: rest

/-- SPACING_END (R121): the next beat sounds. -/
def execSpacingEnd (x : Line) (s : State) : Host.Outcome State Fault Refusal :=
  event (stepOver .spacing s x) s fun s => s.modBell x fun b => soundBeat s.now (afterNext b.place) b

/-- TRAILING_END (R121): the new head code starts, or the sender goes to IDLE. -/
def execTrailingEnd (x : Line) (s : State) : Host.Outcome State Fault Refusal :=
  event (stepOver .trailing s x) s fun s => s.modBell x (startHead s.now)

end Sys2Proof.Machine
end

