-- ==== Sys2Proof/Machine/Track.lean ====
section
/-!
DEFINITION. The Track Code Receivers: the codes, measurement, occupation and clearing, the test, record faults, and the
commands of chapter 4.
-/

namespace Sys2Proof.Machine

/-! ## Codes, bands and windows (R54) -/

/-- The nominal period Pn. -/
def nominalPeriod : TrackCode → Nat
  | .a => 320
  | .b => 480
  | .c => 720
  | .d => 1080

/-- A period lies in a code's band. -/
def inBand (code : TrackCode) (p : Nat) : Bool :=
  inRange (nominalPeriod code - nominalPeriod code / 8) (nominalPeriod code + nominalPeriod code / 8) p

/-- The drop window W. -/
def dropWindow (code : TrackCode) : Nat :=
  nominalPeriod code * 5 / 2

/-- The class of a closed measurement for a circuit's own code (R56). -/
def classify (own : Option TrackCode) (p h : Nat) : PulseClass :=
  if (match own with | none => false | some code => inBand code p) then
    if p ≤ h * 4 ∧ h * 4 ≤ p * 3 then .good else .bad
  else if inBand .a p || inBand .b p || inBand .c p || inBand .d p then .cross
  else .bad

/-- Npu_eff by the timebase state (R62). -/
def effectivePickUp (tb : TimebaseState) (npu : Nat) : Nat :=
  match tb with
  | .good => npu
  | .degraded => min (2 * npu) 30
  | .startingTb => min (2 * npu) 30

/-- Npu_eff of a copy; 0 when there is none, also where a record that had been read is withdrawn (DEDUCED, log 57). -/
def pickUpOf (tb : TimebaseState) (c : Option RecordCopy) : Nat :=
  match c with
  | none => 0
  | some r => effectivePickUp tb (pickUpCount r.bytes)

/-- The code identity of a circuit's copy. -/
def codeOf (t : Track) : Option TrackCode :=
  match t.copy with
  | none => none
  | some r => trackCode r.bytes

/-- Th of a copy; none held gives no hold (log 21). -/
def holdOf (c : Option RecordCopy) : Nat :=
  match c with
  | none => 0
  | some r => shuntHold r.bytes

/-- W of a circuit's own code. -/
def windowOf (t : Track) : Nat :=
  match codeOf t with
  | none => 0
  | some code => dropWindow code

/-! ## Occupation and clearing (R57, R60, R70) -/

/-- A change between OCCUPIED and CLEAR is told to the LLE, the SRC, the BSC and the ICC, and posted. -/
def tellTrack (tc : Tc) (occupied : Bool) (s : State) : State :=
  postReport (.track tc)
    (tellIcc (namesTrack tc) (bscTrack tc occupied (srcTrack tc occupied (requeueTrack tc s))))

/-- The circuit's record after it is made OCCUPIED for a reason (R57): its occupation count rises only from CLEAR. -/
def occupiedRecord (now : Nat) (reason : OccReason) (t : Track) : Track :=
  { t with
    state := .occupied, reason := reason, good := 0, holdUntil := now + holdOf t.copy, drop := none
    occupations := if t.state = .clear then (t.occupations + 1) % 256 else t.occupations }

/-- A circuit is made OCCUPIED. From CLEAR the readers are told. A circuit OCCUPIED already is told to the ICC and
posted when its reason or its good count changes (R61, R71). -/
def occupy (tc : Tc) (reason : OccReason) (s : State) : State :=
  let before := s.track tc
  let t := s.modTrack tc (occupiedRecord s.now reason)
  if before.state = .clear then tellTrack tc true t
  else if before.reason ≠ reason then postReport (.track tc) (tellIcc (namesTrack tc) t)
  else if before.good ≠ 0 then postReport (.track tc) t
  else t

/-- The measurement that is open: one whose 4095 ticks have passed has lapsed (R55). -/
def openMeasurement (now : Nat) (t : Track) : Option Measurement :=
  match t.meas with
  | none => none
  | some m => if m.openedAt + 4095 ≤ now then none else some m

/-- A GOOD measurement of a CLEAR circuit moves the drop deadline (R58). -/
def goodWhileClear (tc : Tc) (s : State) : State :=
  s.modTrack tc fun t => { t with drop := some (s.now + windowOf t), good := min 30 (t.good + 1) }

/-- A GOOD measurement of an OCCUPIED circuit counts, and clears it when the count and the hold allow (R60). -/
def goodWhileOccupied (tc : Tc) (s : State) : State :=
  let v := s.track tc
  let count := min 30 (v.good + 1)
  let t := s.modTrack tc fun t => { t with good := count }
  if v.npuEff ≤ count ∧ v.holdUntil ≤ s.now then
    tellTrack tc false (t.modTrack tc fun t => { t with state := .clear, drop := some (s.now + windowOf t) })
  else if count = v.good then t
  else postReport (.track tc) t

/-- A BAD measurement sets the good count to 0 (R58, R59). -/
def badMeasurement (tc : Tc) (s : State) : State :=
  let t := s.modTrack tc fun t => { t with good := 0 }
  if (s.track tc).good = 0 then t else postReport (.track tc) t

/-- A closed measurement acts by its class and the circuit's state (Table 4-2). -/
def takeClass (tc : Tc) (c : PulseClass) (s : State) : State :=
  match c with
  | .good => if (s.track tc).state = .clear then goodWhileClear tc s else goodWhileOccupied tc s
  | .bad => badMeasurement tc s
  | .cross => occupy tc .crossCode s
  | .none => s

/-- A measurement closes at this tick: it becomes the last closed measurement and acts by its class. -/
def closeMeasurement (tc : Tc) (m : Measurement) (s : State) : State :=
  let p := s.now - m.openedAt
  let h :=
    match m.high with
    | none => p
    | some h => h
  let c := classify (codeOf (s.track tc)) p h
  takeClass tc c (s.modTrack tc fun t => { t with lastClass := c, lastPeriod := p, lastHigh := h, meas := none })

/-! ## Edges (R53, R55) -/

/-- The filter and the lead show an accepted level. -/
def acceptTrack (tc : Tc) (v : Bool) (s : State) : State :=
  { s.modTrack tc (fun t => { t with filter := ⟨v, 0⟩ }) with
    leads := { s.leads with tcin := s.leads.tcin.set tc v } }

/-- A rising edge closes the open measurement, if any, and opens the next one. -/
def trackRise (tc : Tc) (s : State) : State :=
  let t := acceptTrack tc true s
  if (t.track tc).reading then
    let u :=
      match openMeasurement t.now (t.track tc) with
      | none => t
      | some m => closeMeasurement tc m t
    u.modTrack tc fun v => { v with meas := some ⟨u.now, none⟩ }
  else t

/-- TRACK_RISING_EDGE (R55): an accepted rising edge. -/
def execTrackRisingEdge (tc : Tc) (s : State) : Host.Outcome State Fault Refusal :=
  event (!(s.track tc).filter.level) s (trackRise tc)

/-- A falling edge gives an open measurement its high time. -/
def trackFall (tc : Tc) (s : State) : State :=
  let t := acceptTrack tc false s
  t.modTrack tc fun v =>
    match openMeasurement t.now v with
    | none => { v with meas := none }
    | some m =>
      match m.high with
      | none => { v with meas := some ⟨m.openedAt, some (t.now - m.openedAt)⟩ }
      | some _ => v

/-- TRACK_FALLING_EDGE (R55): an accepted falling edge. -/
def execTrackFallingEdge (tc : Tc) (s : State) : Host.Outcome State Fault Refusal :=
  event (s.track tc).filter.level s (trackFall tc)

/-- The open measurement's 4095 ticks have passed. -/
def lapseDue (s : State) (tc : Tc) : Bool :=
  match (s.track tc).meas with
  | none => false
  | some m => m.openedAt + 4095 ≤ s.now

/-- MEASUREMENT_LAPSE (R55): the measurement is given up without a class. -/
def execMeasurementLapse (tc : Tc) (s : State) : Host.Outcome State Fault Refusal :=
  event (lapseDue s tc) s fun s => s.modTrack tc fun t => { t with meas := none }

/-- The drop deadline of a CLEAR circuit is reached. -/
def dropDue (s : State) (tc : Tc) : Bool :=
  decide ((s.track tc).state = .clear) && reached s.now (s.track tc).drop

/-- DROP_DEADLINE (R57): OCCUPIED with reason NO_CODE. -/
def execDropDeadline (tc : Tc) (s : State) : Host.Outcome State Fault Refusal :=
  event (dropDue s tc) s (occupy tc .noCode)

/-! ## The test (R64, R65) -/

/-- An accepted test: OCCUPIED with reason TEST, the measurement given up, the input not read for 5000 ms. -/
def startTest (tc : Tc) (s : State) : State :=
  postReport (.track tc) (occupy tc .test (s.modTrack tc fun t =>
    { t with meas := none, test := some (s.now + 5000), reading := false }))

/-- TC_TEST's judgement by the TCR. -/
def tcTest (p : List Byte) (s : State) : Answer × State :=
  match tcOf (byteAt p 0) with
  | none => (.badField 0, s)
  | some tc =>
    if s.mode = .starting then (.wrongMode, s)
    else if !trackSound (s.track tc).copy then (.badField 0, s)
    else if (s.track tc).test.isSome then (.refused 2, s)
    else (.ok [], startTest tc s)

/-- TC_TEST (R64). -/
def execTcTest (s : State) : Host.Outcome State Fault Refusal :=
  serve .tcTest tcTest s

/-- The test deadline is reached. -/
def testDue (s : State) (tc : Tc) : Bool :=
  reached s.now (s.track tc).test

/-- TEST_DEADLINE (R65): the test ends and the input is read again. -/
def execTestDeadline (tc : Tc) (s : State) : Host.Outcome State Fault Refusal :=
  event (testDue s tc) s fun s =>
    postReport (.track tc) (s.modTrack tc fun t => { t with test := none, reading := !t.inFault })

/-! ## Records (R66 to R69) -/

/-- A circuit enters record fault: OCCUPIED with reason RECORD_FAULT under the hold of the copy it held. Its Npu_eff is that
of the new copy, 0 for a record withdrawn (DEDUCED, log 57). -/
def enterFaultTrack (tc : Tc) (c : Option RecordCopy) (s : State) : State :=
  let t := occupy tc .recordFault (s.modTrack tc fun t =>
    { t with meas := none, test := none, reading := false, inFault := true })
  postReport (.track tc) (tellIcc (namesTrack tc)
    (t.modTrack tc fun v => { v with copy := c, npuEff := pickUpOf t.tbm.state c }))

/-- A circuit leaves record fault: OCCUPIED still, its hold restarted, and its input read (R68). -/
def leaveFaultTrack (tc : Tc) (c : Option RecordCopy) (s : State) : State :=
  postReport (.track tc) (tellIcc (namesTrack tc) (s.modTrack tc fun t =>
    { t with
      copy := c, npuEff := pickUpOf s.tbm.state c, good := 0, holdUntil := s.now + holdOf c, reading := true
      meas := none, inFault := false }))

/-- A record read while nothing of record fault changes: its fields are taken, and a change of Npu_eff is posted. A
withdrawn record gives 0 (DEDUCED, log 57). -/
def takeTrackCopy (tc : Tc) (c : Option RecordCopy) (s : State) : State :=
  let t := s.modTrack tc fun t => { t with copy := c, npuEff := pickUpOf s.tbm.state c }
  if (s.track tc).npuEff = pickUpOf s.tbm.state c then t else postReport (.track tc) t

/-- The TCR is told of a TRACK slot and reads its record (R66). -/
def tcrRecord (tc : Tc) (s : State) : State :=
  let c := slotCopy s (trackSlot tc)
  if trackSound c then
    if (s.track tc).inFault then leaveFaultTrack tc c s else takeTrackCopy tc c s
  else if (s.track tc).inFault then takeTrackCopy tc c s
  else enterFaultTrack tc c s

/-- Measurement begins as the box leaves STARTING (R69): a sound record is taken and its hold counts from the end of
the reset. A record that is not sound puts the circuit in record fault. -/
def beginTrack (tc : Tc) (s : State) : State :=
  let c := slotCopy s (trackSlot tc)
  if trackSound c then
    postReport (.track tc) (s.modTrack tc fun t =>
      { t with
        copy := c, npuEff := pickUpOf s.tbm.state c, holdUntil := s.resetAt + holdOf c, reading := true
        inFault := false })
  else enterFaultTrack tc c s

/-- Every circuit's measurement begins. -/
def tcrBegin (s : State) : State :=
  forEach (List.finRange 24) beginTrack s

/-- The timebase state has changed: Npu_eff is set anew for every configured circuit, and each is posted (R62). -/
def tcrTimebase (s : State) : State :=
  forEach (List.finRange 24) (fun tc s =>
    if (s.track tc).copy.isSome then
      postReport (.track tc) (s.modTrack tc fun t => { t with npuEff := pickUpOf s.tbm.state t.copy })
    else s) s

end Sys2Proof.Machine
end

