-- ==== Sys2Proof/Machine/Levers.lean ====
section
/-!
DEFINITION. The Lever Locking Engine: lever states, the scan's events, the judgement of a freeing, its end, lock faults,
formation, and the commands of chapter 5.
-/

namespace Sys2Proof.Machine

/-! ## Tellings and leaving the queue (R75, R77) -/

/-- A change of a lever's state is told to the waiting levers, the SRC, the BSC and the ICC, and posted. -/
def tellLever (l : Lever) (s : State) : State :=
  postReport (.lever l) (tellIcc (namesLever l) (bscLever l (srcLever l (requeueLever l s))))

/-- A read for an evaluation of `l` goes on, its record not to be used. -/
def deadRead (l : Lever) (u : ReadUse) : ReadUse :=
  match u with
  | .evaluation m live => .evaluation m (live && decide (m ≠ l))
  | .host i => .host i
  | .scrub i => .scrub i
  | .startup i => .startup i
  | .validation => .validation

/-- The lever's evaluation is abandoned: it frees nothing, and its read runs to its end (R77). -/
def abandonEvaluation (l : Lever) (s : State) : State :=
  if s.lle.eval = some l then
    { s with
      lle := { s.lle with eval := none }
      sst := { s.sst with port :=
        ⟨s.sst.port.serving.map fun r => (deadRead l r.1, r.2), s.sst.port.waiting.map (deadRead l)⟩ } }
  else s

/-- The lever leaves the freeing queue, and its evaluation is abandoned. -/
def leaveQueue (l : Lever) (s : State) : State :=
  abandonEvaluation l { s with lle := { s.lle with queue := s.lle.queue.filter fun m => m ≠ l } }

/-- The record of a lever that no longer waits. -/
def notWaiting (v : LeverRec) : LeverRec :=
  { v with waiting := false, withheld := none, failing := none, holder := none }

/-- The record of a lever whose freeing, if any, is over. -/
def freeingOver (v : LeverRec) : LeverRec :=
  { v with origin := none, position := none, moved := false, withdrawn := false, lockFault := false, deadline := none }

/-- The demand for a lever's lock drive (R86). -/
def setLock (l : Lever) (on : Bool) (s : State) : State :=
  setDemand (lockOutput l) (if on then .on else .off) s

/-! ## FAULT, settling and withdrawal (R76, R85, R86) -/

/-- A lever enters FAULT (R76): its waiting, its origin, position and marks, and its freeing deadline are cleared, the origin
and marks by the model's reading (log 51). -/
def enterFault (l : Lever) (cause : FaultCause) (s : State) : State :=
  tellLever l (setLock l false (leaveQueue l (s.modLever l fun v =>
    { notWaiting (freeingOver v) with state := .fault, cause := some cause, event := .fault })))

/-- A lever settles at the end its contacts show (R85). -/
def settle (l : Lever) (why : LeverEvent) (s : State) : State :=
  tellLever l (setLock l false (s.modLever l fun v =>
    { freeingOver v with state := if v.normal.accepted then .normal else .reverse, event := why }))

/-- A freeing is withdrawn (R86): FREED settles, and TRANSIT of known origin loses its lock and is marked. -/
def withdrawFreeing (l : Lever) (s : State) : State :=
  let v := s.lever l
  match v.state with
  | .freed => settle l .freeingWithdrawn s
  | .transit =>
    if v.origin.isSome && !v.withdrawn then
      postReport (.lever l) (setLock l false (s.modLever l fun v => { v with withdrawn := true }))
    else s
  | .normal => s
  | .reverse => s
  | .fault => s
  | .spare => s
  | .unformed => s

/-- Every freeing is withdrawn, as the box leaves OPEN. -/
def withdrawAll (s : State) : State :=
  forEach (List.finRange 48) withdrawFreeing s

/-- The LLE is told that a group is cut (R86). -/
def lleCut (g : Group) (s : State) : State :=
  forEach (List.finRange 48) (fun l s => if groupOf (lockOutput l) = g then withdrawFreeing l s else s) s

/-- A lock drive commanded on reads back without current (R88). -/
def lockNoCurrent (l : Lever) (s : State) : State :=
  let v := s.lever l
  match v.state with
  | .freed => if v.moved then enterFault l .lockFaultMoved s else settle l .lockFault s
  | .transit => postReport (.lever l) (s.modLever l fun v => { v with lockFault := true, event := .lockFault })
  | .normal => s
  | .reverse => s
  | .fault => s
  | .spare => s
  | .unformed => s

/-! ## Movement (R84) -/

/-- A freed lever leaves its end. -/
def departLever (l : Lever) (s : State) : State :=
  tellLever l (s.modLever l fun v =>
    { v with state := .transit, position := none, moved := true, deadline := none })

/-- A lever in TRANSIT reaches an end: the first of the arrival conditions decides. -/
def arriveLever (l : Lever) (e : LeverEnd) (s : State) : State :=
  let v := s.lever l
  if v.lockFault then enterFault l .lockFaultMoved s
  else if v.origin.isNone || v.withdrawn || !v.grip.accepted then settle l .settled s
  else tellLever l (s.modLever l fun v => { v with state := .freed, position := some e })

/-- The end whose contact alone is closed. -/
def endShown (v : LeverRec) : Option LeverEnd :=
  match v.normal.accepted, v.reverse.accepted with
  | true, false => some .n
  | false, true => some .r
  | true, true => none
  | false, false => none

/-- Both contacts are closed. -/
def bothClosed (v : LeverRec) : Bool :=
  v.normal.accepted && v.reverse.accepted

/-- A lever at rest at end `e` is judged on its contacts (R76). -/
def judgeAtRest (l : Lever) (e : LeverEnd) (s : State) : State :=
  let v := s.lever l
  if bothClosed v then enterFault l .bothContacts s
  else if endShown v = some e then s
  else enterFault l .unlockedMove s

/-- A freed lever is judged on its contacts (R84). -/
def judgeFreed (l : Lever) (s : State) : State :=
  let v := s.lever l
  if bothClosed v then enterFault l .bothContacts s
  else
    match endShown v with
    | none => departLever l s
    | some e => if v.position = some e then s else arriveLever l e (departLever l s)

/-- A lever in TRANSIT is judged on its contacts. -/
def judgeTransit (l : Lever) (s : State) : State :=
  let v := s.lever l
  if bothClosed v then enterFault l .bothContacts s
  else
    match endShown v with
    | none => s
    | some e => arriveLever l e s

/-- A lever's contacts are judged by its state. -/
def judgeContacts (l : Lever) (s : State) : State :=
  match s.leverState l with
  | .normal => judgeAtRest l .n s
  | .reverse => judgeAtRest l .r s
  | .freed => judgeFreed l s
  | .transit => judgeTransit l s
  | .fault => s
  | .spare => s
  | .unformed => s

/-! ## The catch (R77, R81) -/

/-- A catch gripped at rest appends the lever; gripped in any other state it appends nothing. -/
def gripCatch (l : Lever) (s : State) : State :=
  match s.leverState l with
  | .normal => enqueueLever l s
  | .reverse => enqueueLever l s
  | .freed => s
  | .transit => s
  | .fault => s
  | .spare => s
  | .unformed => s

/-- A catch released: at rest the lever leaves the queue and stops waiting, and FREED at an end it settles. -/
def releaseCatch (l : Lever) (s : State) : State :=
  match s.leverState l with
  | .normal => leaveQueue l (s.modLever l notWaiting)
  | .reverse => leaveQueue l (s.modLever l notWaiting)
  | .freed => settle l .settled s
  | .transit => s
  | .fault => s
  | .spare => s
  | .unformed => s

/-! ## The event of a lever (R72) -/

/-- An input takes its accepted value; a change of it sets its debounce count to 0. -/
def acceptInput (v : Bool) (i : ScanInput) : ScanInput :=
  if i.accepted = v then i else ⟨v, 0⟩

/-- A lead shows an input's accepted value where that has changed. -/
def acceptLead (l : Lever) (i : ScanInput) (v : Bool) (t : Table 48 Bool) : Table 48 Bool :=
  if i.accepted = v then t else t.set l v

/-- The three inputs are accepted. -/
def acceptLever (l : Lever) (n r g : Bool) (s : State) : State :=
  let v := s.lever l
  { s.modLever l (fun v =>
      { v with normal := acceptInput n v.normal, reverse := acceptInput r v.reverse, grip := acceptInput g v.grip }) with
    leads := { s.leads with
      normal := acceptLead l v.normal n s.leads.normal
      reverse := acceptLead l v.reverse r s.leads.reverse
      grip := acceptLead l v.grip g s.leads.grip } }

/-- Some input of the lever changes. -/
def leverChanges (v : LeverRec) (n r g : Bool) : Bool :=
  decide (v.normal.accepted ≠ n) || decide (v.reverse.accepted ≠ r) || decide (v.grip.accepted ≠ g)

/-- The lever's event: contacts first, by the state the lever is in, then a change of the catch by the state that
results. A lever not yet formed accepts its inputs only (R73), and an accepted change of its catch is posted (R92). -/
def leverEvent (l : Lever) (n r g : Bool) (s : State) : State :=
  let catchMoved := decide ((s.lever l).grip.accepted ≠ g)
  let t := acceptLever l n r g s
  if t.leverState l = .unformed then if catchMoved then postReport (.lever l) t else t
  else
    let u := judgeContacts l t
    if catchMoved then
      postReport (.lever l) (if g then gripCatch l u else releaseCatch l u)
    else u

/-- LEVER_EVENT (R72). -/
def execLeverEvent (l : Lever) (n r g : Bool) (s : State) : Host.Outcome State Fault Refusal :=
  event (leverChanges (s.lever l) n r g) s (leverEvent l n r g)

/-! ## Judging a freeing (R79 to R81) -/

/-- What a judgement finds: grant, or the withheld reason with the failing term or the holding signal. -/
inductive Judgement where
  | granted
  | withheld (why : Withheld) (failing : Option (Nat × Term)) (holder : Option Lever)
deriving DecidableEq, Repr

/-- The list judged from an end. -/
def listFrom (e : LeverEnd) (bs : List Byte) : List Term :=
  match e with
  | .n => toReverse bs
  | .r => toNormal bs

/-- The lever holds a signal slot and is judged from REVERSE: on conditions 1 and 3 alone. -/
def signalFromReverse (s : State) (l : Lever) (e : LeverEnd) : Bool :=
  (slotOfLever s l).isSome && decide (e = .r)

/-- The judgement of a freeing on the record as read (R79). -/
def judgeFreeing (s : State) (l : Lever) (e : LeverEnd) (c : Option RecordCopy) : Judgement :=
  if s.mode = .switchedOut then .withheld .switchedOut none none
  else if s.mode ≠ .openBox then .withheld .wrongMode none none
  else if !signalFromReverse s l e && !leverSound c then .withheld .recordFault none none
  else if lockCut s l then .withheld .groupCut none none
  else if signalFromReverse s l e then .granted
  else
    match holdingEntry s l with
    | some entry => .withheld .routeHeld none (some entry.lever)
    | none =>
      match firstFailing s 1 (listFrom e (copyBytes c)) with
      | some f => .withheld .term (some f) none
      | none => .granted

/-- A lever is granted (R80). The SRC takes the freeing of a lever from REVERSE before its state changes. -/
def grant (l : Lever) (e : LeverEnd) (s : State) : State :=
  let t := if e = .r then freedFromReverse l s else s
  tellLever l (setLock l true (t.modLever l fun v =>
    { notWaiting v with
      state := .freed, origin := some e, position := some e, moved := false, withdrawn := false, lockFault := false
      deadline := some (t.now + 60000), event := .freed }))

/-- A lever is refused and waits (R81). -/
def refuse (l : Lever) (why : Withheld) (failing : Option (Nat × Term)) (holder : Option Lever) (s : State) : State :=
  postReport (.lever l) (s.modLever l fun v =>
    { v with waiting := true, withheld := some why, failing := failing, holder := holder, event := .refused })

/-- The judgement made on the record as read. -/
def decideFreeing (l : Lever) (e : LeverEnd) (c : Option RecordCopy) (s : State) : State :=
  match judgeFreeing s l e c with
  | .granted => grant l e s
  | .withheld why failing holder => refuse l why failing holder s

/-- The end at which a lever is at rest. -/
def restEnd (s : State) (l : Lever) : Option LeverEnd :=
  match s.leverState l with
  | .normal => some .n
  | .reverse => some .r
  | .freed => none
  | .transit => none
  | .fault => none
  | .spare => none
  | .unformed => none

/-- The lever under evaluation is judged, and the evaluation ends. -/
def finishEvaluation (l : Lever) (c : Option RecordCopy) (s : State) : State :=
  let t := { s with lle := { s.lle with eval := none } }
  match restEnd t l with
  | none => t
  | some e => decideFreeing l e c t

/-! ## Hold expiry and FAULT_ACK (R87, R89) -/

/-- The freeing deadline of a lever still FREED at its origin is reached. -/
def freeingOverdue (s : State) (l : Lever) : Bool :=
  decide ((s.lever l).state = .freed) && reached s.now (s.lever l).deadline

/-- FREEING_EXPIRED (R87). -/
def execFreeingExpired (l : Lever) (s : State) : Host.Outcome State Fault Refusal :=
  event (freeingOverdue s l) s (settle l .freeingExpired)

/-- A lever in FAULT at an end is acknowledged there. -/
def acknowledge (l : Lever) (e : LeverEnd) (s : State) : State :=
  tellLever l (s.modLever l fun v =>
    { v with
      state := match e with | .n => .normal | .r => .reverse
      cause := none, event := .faultCleared })

/-- FAULT_ACK's judgement by the LLE. -/
def faultAck (p : List Byte) (s : State) : Answer × State :=
  match leverOf (byteAt p 0) with
  | none => (.badField 0, s)
  | some l =>
    if s.mode = .starting then (.wrongMode, s)
    else if s.leverState l ≠ .fault then (.ok [], s)
    else
      match endShown (s.lever l) with
      | none => (.refused 12, s)
      | some e => (.ok [], acknowledge l e s)

/-- FAULT_ACK (R89). -/
def execFaultAck (s : State) : Host.Outcome State Fault Refusal :=
  serve .faultAck faultAck s

/-! ## LEVER_ENQUIRY (R90) -/

/-- The list enquired, on the LLE's copy: empty for a signal lever from REVERSE and for a record not sound. -/
def enquiredTerms (s : State) (l : Lever) (e : LeverEnd) : List Term :=
  if signalFromReverse s l e || !leverSound (s.lever l).copy then []
  else listFrom e (copyBytes (s.lever l).copy)

/-- The route lock entry that holds the lever, for a lever judged on condition 4. -/
def enquiredHolder (s : State) (l : Lever) (e : LeverEnd) : Option RouteLock :=
  if signalFromReverse s l e then none else holdingEntry s l

/-- The conditions byte. Bit 4 is 0 for a signal lever from REVERSE, whatever held set names it (R79, R90; log 63). -/
def enquiryConditions (s : State) (l : Lever) (e : LeverEnd) : List Bool :=
  [decide (s.mode ≠ .openBox), decide (s.mode = .switchedOut),
    !signalFromReverse s l e && !leverSound (s.lever l).copy, lockCut s l, (enquiredHolder s l e).isSome,
    decide (restEnd s l ≠ some e), decide (s.leverState l = .spare)]

/-- One listed term: its place and its four bytes. -/
def listedTerm (f : Nat × Term) : List Byte :=
  byteOf f.1 :: termBytes f.2

/-- The reply data of LEVER_ENQUIRY. Byte 4 gives the oldest entry whose held set names the lever, as the list stands,
for a signal lever from REVERSE too, whose conditions bit 4 is 0 (DEDUCED, log 63). -/
def enquiryData (s : State) (l : Lever) (e : LeverEnd) (direction : Nat) : List Byte :=
  let failing := failingTerms s 1 (enquiredTerms s l e)
  let grantable := (enquiryConditions s l e).all (fun b => !b) && failing.isEmpty
  [byteOf (leverNumber l), byteOf direction, byteOf (if grantable then 0 else 1), flagByte (enquiryConditions s l e),
    byteOf (leverNumberOr0 ((holdingEntry s l).map fun entry => entry.lever)), byteOf failing.length,
    byteOf (min 8 failing.length)] ++ (failing.take 8).flatMap listedTerm

/-- LEVER_ENQUIRY's answer by the LLE: nothing changes. -/
def leverEnquiry (p : List Byte) (s : State) : Answer × State :=
  match leverOf (byteAt p 0) with
  | none => (.badField 0, s)
  | some l =>
    if s.mode = .starting then (.wrongMode, s)
    else (.ok (enquiryData s l (if byteAt p 1 = 0 then .n else .r) (byteAt p 1)), s)

/-- LEVER_ENQUIRY (R90). -/
def execLeverEnquiry (s : State) : Host.Outcome State Fault Refusal :=
  serve .leverEnquiry leverEnquiry s

/-! ## Formation and records (R74, R83, R91) -/

/-- The record of a lever formed from its contacts. -/
def formRecord (c : Option RecordCopy) (v : LeverRec) : LeverRec :=
  let w := { notWaiting (freeingOver v) with copy := c, cause := none }
  if copySpare c then { w with state := .spare }
  else if bothClosed v then { w with state := .fault, cause := some .bothContacts, event := .fault }
  else
    match endShown v with
    | some .n => { w with state := .normal }
    | some .r => { w with state := .reverse }
    | none => { w with state := .transit }

/-- A list holds "lever `l` at N" without a qualifier. -/
def requiresAtNormal (terms : List Term) (l : Lever) : Bool :=
  terms.any fun t => decide (termLever t = some l) && t.value == 0 && t.qualifier == 0

/-- Two levers are an unconditional mutual pair by their sound copies (R83). -/
def mutualPair (s : State) (a b : Lever) : Bool :=
  leverSound (s.lever a).copy && leverSound (s.lever b).copy &&
    requiresAtNormal (toReverse (copyBytes (s.lever a).copy)) b &&
    requiresAtNormal (toReverse (copyBytes (s.lever b).copy)) a

/-- A lever stands outside NORMAL and not in FAULT. -/
def outsideNormal (s : State) (l : Lever) : Bool :=
  match s.leverState l with
  | .reverse => true
  | .freed => true
  | .transit => true
  | .normal => false
  | .fault => false
  | .spare => false
  | .unformed => false

/-- Every unconditional pair is checked: the higher of two levers both outside NORMAL is put in FAULT (R83). -/
def checkPairs (s : State) : State :=
  forEach (List.finRange 48) (fun a s =>
    forEach (List.finRange 48) (fun b s =>
      if a.val < b.val ∧ mutualPair s a b = true ∧ outsideNormal s a = true ∧ outsideNormal s b = true then
        enterFault b .unlockedMove s
      else s) s) s

/-- A lever just formed is told and posted, and joins the queue if at rest with its catch gripped. -/
def announceLever (l : Lever) (s : State) : State :=
  let t := tellLever l s
  if (t.lever l).grip.accepted then gripCatch l t else t

/-- Every lever's state is formed, in increasing number, as the box leaves STARTING (R91). -/
def lleBegin (s : State) : State :=
  let t := forEach (List.finRange 48) (fun l s => s.modLever l (formRecord (slotCopy s (leverSlot l)))) s
  forEach (List.finRange 48) announceLever (checkPairs t)

/-- A lever becomes SPARE at a telling. -/
def becomeSpare (l : Lever) (c : Option RecordCopy) (s : State) : State :=
  tellLever l (setLock l false (leaveQueue l (s.modLever l (formRecord c))))

/-- The LLE is told of a LEVERS slot and takes its copy anew (R74, R82). A lever that stops being SPARE is formed and
told; a catch gripped while it was SPARE does not queue it (R77). -/
def lleRecord (l : Lever) (s : State) : State :=
  let c := slotCopy s (leverSlot l)
  if copySpare c then
    if s.leverState l = .spare then s.modLever l fun v => { v with copy := c } else becomeSpare l c s
  else if s.leverState l = .spare then
    tellLever l (checkPairs (s.modLever l (formRecord c)))
  else
    let t := s.modLever l fun v => { v with copy := c }
    if (t.lever l).waiting ∧ (t.lever l).withheld = some .recordFault then enqueueLever l t else t

/-- The LLE is told of a change of mode (R82, R86): freeings are withdrawn as the box leaves OPEN, and every waiting
lever is queued again. -/
def lleMode (before : Mode) (s : State) : State :=
  requeueAll (if before = .openBox then withdrawAll s else s)

end Sys2Proof.Machine
end

