-- ==== Sys2Proof/Machine/Rounds.lean ====
section
/-!
DEFINITION. The Vital Output Driver's rounds: refreshes, read-backs, verdicts and cuts, and the commands of chapter 9.
-/

namespace Sys2Proof.Machine

/-! ## Starting a round and a refresh (R145, R146) -/

/-- The fixed commanded states of a group. -/
def fixGroup (s : State) (g : Group) : Table 8 Demand :=
  Table.build fun i =>
    match groupOutput g i.val with
    | none => .off
    | some o => commanded s o

/-- The outputs fixed on are pulsed now, each pulse carrying the command fixed, an instrument's polarity in it (R144). -/
def pulse (g : Group) (fixed : Table 8 Demand) (s : State) : State :=
  forEach (List.finRange 8) (fun i s =>
    match groupOutput g i.val with
    | none => s
    | some o =>
      if isOn (fixed.get i) then
        s.modOutput o fun r => { r with lastPulse := some s.now, carried := fixed.get i }
      else s) s

/-- A group's refresh starts: states fixed, outputs pulsed, and the first read-back set at 1 ms more than 1 ms for each
output on. -/
def startGroup (g : Group) (s : State) : State :=
  let fixed := fixGroup s g
  let t := pulse g fixed s
  { t with vod := { t.vod with refresh := some ⟨g, fixed, none, t.now + fixed.items.countP isOn + 1⟩ } }

/-- A round starts: Tr is taken, its successor's due time set, and group 1's refresh started. -/
def startRound (s : State) : State :=
  let tr := refreshInterval s.vod.options
  startGroup 0 { s with vod := { s.vod with
    interval := tr, roundStart := s.now, nextDue := some (s.now + tr), owed := false } }

/-- A round falls due. -/
def roundIsDue (s : State) : Bool :=
  reached s.now s.vod.nextDue

/-- A round falls due: it starts, or an overrun of the running round is counted and posted. -/
def roundDue (s : State) : State :=
  match s.vod.refresh with
  | none => startRound s
  | some r =>
    postReport (.group r.group) { s with vod := { s.vod with
      nextDue := none, owed := true, overruns := min 65535 (s.vod.overruns + 1) } }

/-- ROUND_DUE (R145). -/
def execRoundDue (s : State) : Host.Outcome State Fault Refusal :=
  event (roundIsDue s) s roundDue

/-! ## Judging (R146) -/

/-- What an output's reading is judged to be, against its fixed state. -/
def judgeReading (now : Nat) (o : OutRec) (on reads : Bool) : Judged :=
  match on, reads with
  | true, true => .agrees
  | true, false => .noCurrent
  | false, false => .agrees
  | false, true => if draining now o then .agrees else .wrongSide

/-- The judgements of a group's readings. -/
def judgeGroup (s : State) (r : Refresh) (readings : Byte) : Table 8 Judged :=
  Table.build fun i =>
    match groupOutput r.group i.val with
    | none => .agrees
    | some o => judgeReading s.now (s.output o) (isOn (r.fixed.get i)) (readings.getLsbD i.val)

/-- The verdict of two judgements: a mismatch only when both are that mismatch. -/
def verdictOf (first second : Judged) : Judged :=
  if first = second then second else .agrees

/-! ## Verdicts (R147, R148) -/

/-- An output's fault after a verdict. -/
def faultAfter : Judged → OutFault
  | .agrees => .none
  | .noCurrent => .noCurrent
  | .wrongSide => .wrongSide

/-- An output's new reading and fault; a change of either posts the group. -/
def takeVerdict (o : Output) (v : Judged) (reads : Bool) (s : State) : State :=
  let before := s.output o
  let t := s.modOutput o fun r => { r with readBack := reads, fault := faultAfter v }
  if before.readBack = reads ∧ before.fault = faultAfter v then t else postReport (.group (groupOf o)) t

/-- The BMC is told of the through relay's fault (R164). -/
def relayFaultTold (faulty : Bool) (s : State) : State :=
  if s.bmc.relayFault = faulty then s
  else postReport .mode { s with bmc := { s.bmc with relayFault := faulty } }

/-- The owner of an output is told that its NO_CURRENT fault is set or cleared (R147). -/
def tellOwner (o : Output) (faulty : Bool) (s : State) : State :=
  if h : o.val < 48 then
    if faulty then lockNoCurrent ⟨o.val, h⟩ s else s
  else if h : o.val < 72 then
    if faulty then aspectNoCurrent ⟨o.val - 48, by omega⟩ s else s
  else if o = instrumentOutput .a then instrumentFault .a faulty s
  else if o = instrumentOutput .b then instrumentFault .b faulty s
  else if o = instrumentOutput .c then instrumentFault .c faulty s
  else relayFaultTold faulty s

/-- The owner is told of the setting of a NO_CURRENT fault, from NONE or WRONG_SIDE, and of its clearing, to either of
them (R147, log 17). -/
def tellFault (o : Output) (before : OutFault) (v : Judged) (s : State) : State :=
  if before = .noCurrent ↔ v = .noCurrent then s else tellOwner o (decide (v = .noCurrent)) s

/-- The owners of a group's outputs are told of its cut (R148). The SRC's signals fall at the event's recompute. -/
def tellCut (g : Group) (s : State) : State :=
  if g.val < 6 then lleCut g s
  else if g.val < 9 then s
  else postReport .mode { bscCut s with bmc := { s.bmc with cut10 := true } }

/-- A wrong-side verdict sets a clear latch, and the owners are told. -/
def cutGroup (g : Group) (s : State) : State :=
  if s.vod.cuts.get g then s
  else tellCut g (postReport (.group g) { s with vod := { s.vod with cuts := s.vod.cuts.set g true } })

/-- The verdicts and readings of a group are taken. -/
def takeVerdicts (g : Group) (verdicts : Table 8 Judged) (readings : Byte) (s : State) : State :=
  forEach (List.finRange 8) (fun i s =>
    match groupOutput g i.val with
    | none => s
    | some o => takeVerdict o (verdicts.get i) (readings.getLsbD i.val) s) s

/-- The owners are told of the changes of fault since `before`. -/
def tellFaults (g : Group) (verdicts : Table 8 Judged) (before : State) (s : State) : State :=
  forEach (List.finRange 8) (fun i s =>
    match groupOutput g i.val with
    | none => s
    | some o => tellFault o (before.output o).fault (verdicts.get i) s) s

/-- The next group's refresh starts, or the round ends; a round owed starts at once (R145). -/
def nextGroup (g : Group) (s : State) : State :=
  if h : g.val + 1 < 10 then startGroup ⟨g.val + 1, h⟩ s
  else
    let t := { s with vod := { s.vod with refresh := none, lastLength := s.now - s.vod.roundStart } }
    if t.vod.owed then startRound t else t

/-- A refresh ends: readings and verdicts are taken, a wrong side cuts the group, the owners are told and the signals'
demands recomputed; then the next group's refresh starts. An owner told both of a cut and of NO_CURRENT faults takes the
cut first (log 53). -/
def endRefresh (g : Group) (verdicts : Table 8 Judged) (readings : Byte) (s : State) : State :=
  let t := takeVerdicts g verdicts readings s
  let u := if verdicts.items.any fun v => v = .wrongSide then cutGroup g t else t
  nextGroup g (recompute (tellFaults g verdicts s u))

/-! ## Read-backs -/

/-- The first read-back is due, no retry having been made. -/
def firstReadDue (s : State) : Bool :=
  match s.vod.refresh with
  | none => false
  | some r => r.first.isNone && decide (r.readAt ≤ s.now)

/-- The retry read-back is due. -/
def retryReadDue (s : State) : Bool :=
  match s.vod.refresh with
  | none => false
  | some r => r.first.isSome && decide (r.readAt ≤ s.now)

/-- The first read-back: all agreeing ends the refresh, and any mismatch gets a retry 2 ms later. -/
def firstRead (readings : Byte) (s : State) : State :=
  match s.vod.refresh with
  | none => s
  | some r =>
    let judged := judgeGroup s r readings
    if judged.items.all fun v => v = .agrees then endRefresh r.group judged readings s
    else
      let t := pulse r.group r.fixed s
      { t with vod := { t.vod with refresh := some { r with first := some judged, readAt := t.now + 2 } } }

/-- FIRST_READ_BACK (R146). -/
def execFirstReadBack (readings : Byte) (s : State) : Host.Outcome State Fault Refusal :=
  event (firstReadDue s) s (firstRead readings)

/-- The retry read-back: the verdicts are formed and the refresh ends. -/
def retryRead (readings : Byte) (s : State) : State :=
  match s.vod.refresh with
  | none => s
  | some r =>
    match r.first with
    | none => s
    | some first =>
      let second := judgeGroup s r readings
      endRefresh r.group (Table.build fun i => verdictOf (first.get i) (second.get i)) readings s

/-- RETRY_READ_BACK (R146). -/
def execRetryReadBack (readings : Byte) (s : State) : Host.Outcome State Fault Refusal :=
  event (retryReadDue s) s (retryRead readings)

/-! ## Leaving STARTING (R149) -/

/-- The VOD takes its OPTIONS copy. -/
def vodRecord (s : State) : State :=
  { s with vod := { s.vod with options := slotCopy s optionsSlot } }

/-- The VOD's act as the box leaves STARTING: its copy taken, every GROUP posted. -/
def vodBegin (s : State) : State :=
  postAll ((List.finRange 10).map .group) (vodRecord s)

end Sys2Proof.Machine
end

