-- ==== Sys2Proof/Machine/Chain.lean ====
section
/-!
DEFINITION. The Indication Chain Controller's commands: the ends of frames, the flash phase, the full refresh and the lamp
test (chapter 10).
-/

namespace Sys2Proof.Machine

/-- Every row is dirty. -/
def allRowsDirty (i : Icc) : Icc :=
  { i with dirty := .fill 32 true }

/-- The frame in flight has had its time on the chain. -/
def chainFrameOver (s : State) : Bool :=
  match s.icc.frame with
  | none => false
  | some f => f.endsAt ≤ s.now

/-- CHAIN_FRAME_END (R155): the frame ends and the next wanted one starts. -/
def execChainFrameEnd (s : State) : Host.Outcome State Fault Refusal :=
  event (chainFrameOver s) s fun s => kickChain { s with icc := { s.icc with frame := none } }

/-- The flash phase's toggle is reached. -/
def toggleDue (s : State) : Bool :=
  reached s.now s.icc.toggleAt

/-- FLASH_PHASE_TOGGLE (R154). -/
def execFlashPhaseToggle (s : State) : Host.Outcome State Fault Refusal :=
  event (toggleDue s) s fun s => kickChain { s with icc := { s.icc with
    phase := s.icc.phase.map not, phaseDue := true, toggleAt := s.icc.toggleAt.map (· + 500) } }

/-- The full-refresh timer falls due. -/
def refreshDue (s : State) : Bool :=
  reached s.now s.icc.refreshAt

/-- FULL_REFRESH (R154): all 32 rows join the dirty row set. -/
def execFullRefresh (s : State) : Host.Outcome State Fault Refusal :=
  event (refreshDue s) s fun s => kickChain { s with icc :=
    { allRowsDirty s.icc with refreshAt := s.icc.refreshAt.map (· + 10000) } }

/-- The duration of a lamp test as used: 1 to 30 s. -/
def testSeconds (n : Nat) : Nat :=
  clampTo 1 30 n

/-- A lamp test starts. -/
def startLampTest (seconds : Nat) (s : State) : State :=
  postReport .indication (kickChain { s with icc := { s.icc with
    testUntil := some (s.now + seconds * 1000), allOnPending := true } })

/-- LAMP_TEST's judgement by the ICC. -/
def lampTest (p : List Byte) (s : State) : Answer × State :=
  if s.mode = .starting then (.wrongMode, s)
  else if s.icc.testUntil.isSome then (.busy, s)
  else (.ok [byteOf (testSeconds (byteAt p 0))], startLampTest (testSeconds (byteAt p 0)) s)

/-- LAMP_TEST (R156). -/
def execLampTest (s : State) : Host.Outcome State Fault Refusal :=
  serve .lampTest lampTest s

/-- The test deadline is reached. -/
def lampTestOver (s : State) : Bool :=
  reached s.now s.icc.testUntil

/-- LAMP_TEST_DEADLINE (R156): the test ends, all rows are to be sent, and the completion is posted. -/
def execLampTestDeadline (s : State) : Host.Outcome State Fault Refusal :=
  event (lampTestOver s) s fun s => postReport .indication (kickChain { s with icc :=
    { allRowsDirty s.icc with testUntil := none, testDone := true } })

/-- The ICC's act as the box leaves STARTING (R157): copies, images and timers. -/
def iccBegin (s : State) : State :=
  let t := { s with icc := { s.icc with copies := Table.build fun k => slotCopy s (indicationSlot k) } }
  postReport .indication (kickChain { t with icc := { allRowsDirty (relightAll t) with
    phase := some true, phaseDue := true, toggleAt := some (t.now + 500), refreshAt := some (t.now + 10000) } })

end Sys2Proof.Machine
end

