-- ==== Sys2Proof/Machine/Records.lean ====
section
/-!
DEFINITION. The record condition table and the tellings of the Scheme Store to the users of records (R29, R30).
-/

namespace Sys2Proof.Machine

/-- The lever of a LEVERS slot. -/
def slotLever (i : Slot) : Option Lever :=
  if slotRegion i = .levers then leverOf (slotNumber i) else none

/-- The track circuit of a TRACK slot. -/
def slotTrack (i : Slot) : Option Tc :=
  if slotRegion i = .track then tcOf (slotNumber i) else none

/-- The line of a LINES slot. -/
def slotLine (i : Slot) : Option Line :=
  if slotRegion i = .lines then lineOf (slotNumber i) else none

/-- The number of an INDICATION slot. -/
def slotLamp (i : Slot) : Option (Fin 256) :=
  if h : 77 ≤ i.val then some ⟨i.val - 77, by omega⟩ else none

/-- The BMC takes its OPTIONS copy. -/
def bmcRecord (s : State) : State :=
  { s with bmc := { s.bmc with options := slotCopy s optionsSlot } }

/-- The SRC takes its copy of a LINES record. -/
def srcLine (x : Line) (s : State) : State :=
  { s with src := { s.src with lines := s.src.lines.set x.place (slotCopy s (lineSlot x)) } }

/-- A read of the slot now would find it CORRUPT for the first time: it is readable, holds an uncorrectable word, and is
not CORRUPT yet (R29). -/
def readsCorrupt (s : State) (i : Slot) : Bool :=
  !slotWithheld s i && slotUncorrectable s.sst.cells i && decide (s.cond i ≠ .corrupt)

/-- A slot's condition is changed in the table and becomes the last condition change. OPTIONS going CORRUPT sets the
OPTIONS-defaults flag. -/
def noteCond (i : Slot) (c : Cond) (s : State) : State :=
  { s with sst := { s.sst with
    conds := s.sst.conds.set i c
    lastChange := some (i, c)
    optionsDefaults := s.sst.optionsDefaults || (decide (i = optionsSlot) && decide (c = .corrupt)) } }

/-- The users of a LEVERS slot are told of it. -/
def tellLeverUsers (l : Lever) (s : State) : State :=
  tellIcc (namesLever l) (bscHome l (srcRecord l (lleRecord l s)))

/-- The BSC reads the record of the home lever that a line's record names, as it takes that record anew. A read that
finds it CORRUPT marks its slot and is told to its users (R29, R127). -/
def readHome (x : Line) (s : State) : State :=
  match homeLever (copyBytes (slotCopy s (lineSlot x))) with
  | none => s
  | some l =>
    if readsCorrupt s (leverSlot l) then postReport .store (tellLeverUsers l (noteCond (leverSlot l) .corrupt s))
    else s

/-- The users of a slot are told of it, each taking the record anew (R29). In STARTING no block has taken a record
(R32), so no one is told. -/
def tellUsers (i : Slot) (s : State) : State :=
  if s.mode = .starting then s
  else
    match slotRegion i with
    | .header => s
    | .levers =>
      match slotLever i with
      | none => s
      | some l => tellLeverUsers l s
    | .track =>
      match slotTrack i with
      | none => s
      | some tc => tellIcc (namesTrack tc) (tcrRecord tc s)
    | .lines =>
      match slotLine i with
      | none => s
      | some x => srcLine x (bscLine x (readHome x s))
    | .options => vodRecord (bmcRecord s)
    | .indication =>
      match slotLamp i with
      | none => s
      | some k => tellIndication k s

/-- A slot's condition becomes `c` (R30): a change becomes the last condition change, the users are told, and STORE is
posted. -/
def condChange (i : Slot) (c : Cond) (s : State) : State :=
  if s.cond i = c then s
  else
    postReport .store (tellUsers i (noteCond i c s))

/-- A read delivers a slot: an uncorrectable word found in a readable slot makes it CORRUPT (R29). -/
def markRead (i : Slot) (s : State) : State :=
  if readsCorrupt s i then condChange i .corrupt s else s

/-- The users of a slot are told, by the read that the telling makes. -/
def deliver (i : Slot) (s : State) : State :=
  if readsCorrupt s i then condChange i .corrupt s else tellUsers i s

/-- The users of a region are told of each slot, in increasing number. -/
def deliverRegion (r : Region) (s : State) : State :=
  forEach (regionSlotList r) deliver s

/-- The condition that the scrubber's or the pass's read leaves a slot in. -/
def condAfter (s : State) (i : Slot) : Cond :=
  if slotUncorrectable s.sst.cells i then .corrupt
  else if s.cond i = .good ∧ 0 < slotCorrectables s.sst.cells i then .corrected
  else s.cond i

/-- A slot is read by the scrubber, the start-up pass or the validation pass: its correctable words are corrected in
place and its condition follows what was found (R31). -/
def correctSlot (i : Slot) (s : State) : State :=
  condChange i (condAfter s i)
    { s with sst := { s.sst with cells := cellCorrect s.sst.cells (slotBase i) (slotEnd i) } }

/-- A slot has been programmed: its condition is GOOD and its users are told (R24, R30). -/
def slotProgrammed (i : Slot) (s : State) : State :=
  let t := { s with sst := { s.sst with optionsDefaults := s.sst.optionsDefaults && decide (i ≠ optionsSlot) } }
  if t.cond i = .good then deliver i t else condChange i .good t

end Sys2Proof.Machine
end

