-- ==== Sys2Proof/Machine/Validation.lean ====
section
/-!
DEFINITION. The thirteen checks of the validation pass and its warnings (R46 to R52).
-/

namespace Sys2Proof.Machine

/-! ## The scheme under check -/

/-- A programmed scheme record: its region, slot number, bytes, and whether it is CORRUPT. -/
structure Entry where
  region : Region
  number : Nat
  bytes : List Byte
  corrupt : Bool
deriving DecidableEq, Repr

/-- The programmed records of the scheme regions, in the record order of R46. -/
def schemeEntries (s : State) : List Entry :=
  (allSlots.filter fun i => decide (slotRegion i ≠ .header) && !slotErased s.sst.cells i).map fun i =>
    ⟨slotRegion i, slotNumber i, slotBytes s.sst.cells i, decide (s.cond i = .corrupt)⟩

/-- The bytes of a region's slot, when it holds a record. -/
def entryBytes (es : List Entry) (r : Region) (n : Nat) : Option (List Byte) :=
  (es.find? fun e => decide (e.region = r) && e.number == n).map fun e => e.bytes

/-- A lever is configured: its slot holds a record whose kind is not SPARE. -/
def leverConfigured (es : List Entry) (n : Nat) : Bool :=
  match entryBytes es .levers n with
  | none => false
  | some bs => !isSpareRecord bs

/-- A lever is a SIGNAL lever of the scheme. -/
def signalConfigured (es : List Entry) (n : Nat) : Bool :=
  match entryBytes es .levers n with
  | none => false
  | some bs => isSignalRecord bs

/-- A track circuit is configured. -/
def trackConfigured (es : List Entry) (n : Nat) : Bool :=
  (entryBytes es .track n).isSome

/-- A line is configured. -/
def lineConfigured (es : List Entry) (n : Nat) : Bool :=
  (entryBytes es .lines n).isSome

/-- The first of a list of tests that fails, with its reason. -/
def firstReason : List (Bool × Nat) → Option Nat
  | [] => none
  | (ok, reason) :: rest => if ok then firstReason rest else some reason

/-- A record's two term lists with whether each is the ToReverse list. -/
def bothLists (bs : List Byte) : List (Bool × Term) :=
  (toReverse bs).map (fun t => (true, t)) ++ (toNormal bs).map fun t => (false, t)

/-! ## Check 1 (R47) -/

/-- RECORD_CORRUPT. -/
def check1 (_ : List Entry) (e : Entry) : Option Nat :=
  if e.corrupt then some 1 else none

/-! ## Check 2 -/

/-- A term's kind may stand in its list (R38). -/
def termAllowed (signal inReverse : Bool) (t : Term) : Bool :=
  match termKind t with
  | some .lever => true
  | some .track => true
  | some .sect => inReverse
  | some .release => inReverse
  | some .signalOff => inReverse && signal
  | none => false

/-- Check 2 on one term: BAD_VALUE, then TERM_NOT_ALLOWED, also where both apply (DEDUCED, log 58). Its index is check
3's. -/
def termTests (signal : Bool) (q : Bool × Term) : List (Bool × Nat) :=
  [((termKind q.2).isSome && termValueDefined q.2 && qualifierDefined q.2, 2), (termAllowed signal q.1 q.2, 4)]

/-- A text field that may be entirely absent. -/
def textOrAbsent (bs : List Byte) (offset : Nat) : Bool :=
  let name := fitBytes 12 0xFF (bs.drop offset)
  (name.all fun b => decide (b = 0xFF)) || textValid name

/-- A one-byte field is present. -/
def present (bs : List Byte) (i : Nat) : Bool :=
  byteAt bs i != 0xFF

/-- Field values defined: BAD_VALUE, BAD_COUNT, TERM_NOT_ALLOWED, in the order of the record's layout. -/
def check2 (_ : List Entry) (e : Entry) : Option Nat :=
  let bs := e.bytes
  match e.region with
  | .header => none
  | .levers =>
    if isSpareRecord bs then none
    else
      firstReason ([(inRange 1 5 (leverKind bs), 2), (roleDefined bs, 2), (absentOrIn 0 1 (byteAt bs 5), 2),
        (decide (toReverseCount bs ≤ 12), 3), (decide (toNormalCount bs ≤ 8), 3)] ++
        (bothLists bs).flatMap (termTests (isSignalRecord bs)))
  | .track => firstReason [(trackDefined bs, 2), (textOrAbsent bs 4, 2)]
  | .lines =>
    firstReason [(inRange 0 1 (byteAt bs 0), 2), (inRange 0 1 (byteAt bs 1), 2), (present bs 2, 2), (present bs 3, 2),
      (present bs 4, 2), (present bs 5, 2), (present bs 6, 2), (textOrAbsent bs 8, 2)]
  | .options => firstReason [(inRange 0 1 (byteAt bs 6), 2), (decide (patternCount bs ≤ 16), 3)]
  | .indication => firstReason [(lampCodesDefined bs, 2)]

/-! ## Check 3 -/

/-- An index in its range (BAD_REFERENCE), then its object configured (NOT_CONFIGURED). -/
def refTests (inside configured : Bool) : List (Bool × Nat) :=
  [(inside, 5), (configured, 6)]

/-- The same for an optional one-byte field. -/
def optionalRef (bs : List Byte) (i hi : Nat) (configured : Nat → Bool) : List (Bool × Nat) :=
  if present bs i then refTests (inRange 1 hi (byteAt bs i)) (configured (byteAt bs i)) else []

/-- The object that a term names is configured. -/
def termConfigured (es : List Entry) (t : Term) : Bool :=
  match termKind t with
  | some .lever => leverConfigured es t.index.toNat
  | some .track => trackConfigured es t.index.toNat
  | some .sect => lineConfigured es ((t.index.toNat + 1) / 2)
  | some .release => lineConfigured es t.index.toNat
  | some .signalOff => signalConfigured es t.index.toNat
  | none => false

/-- The qualifier's lever is configured, or there is no qualifier. -/
def qualifierConfigured (es : List Entry) (t : Term) : Bool :=
  match termQualifier t with
  | none => true
  | some (q, _) => leverConfigured es (leverNumber q)

/-- Check 3 on one term. -/
def termRefs (es : List Entry) (t : Term) : List (Bool × Nat) :=
  refTests (termIndexInRange t) (termConfigured es t) ++ [(qualifierConfigured es t, 6)]

/-- Check 3 on a lamp's source. -/
def sourceRefs (es : List Entry) (bs : List Byte) : List (Bool × Nat) :=
  let n := byteAt bs 3
  match lampSource bs with
  | none => []
  | some k =>
    refTests (lampIndexInRange k n)
      (match k with
        | .lever => leverConfigured es n
        | .track => trackConfigured es n
        | .sectionIn => lineConfigured es n
        | .sectionOut => lineConfigured es n
        | .routeLock => signalConfigured es n
        | .signalOut => signalConfigured es n
        | .offer => lineConfigured es n
        | .boxMode => true
        | .timebase => true)

/-- Check 3 on one pattern entry. -/
def patternRefs (es : List Entry) (n : Nat) : List (Bool × Nat) :=
  match leverAtEnd n with
  | none => [(false, 5)]
  | some (l, _) => [(leverConfigured es (leverNumber l), 6)]

/-- References in range and configured. -/
def check3 (es : List Entry) (e : Entry) : Option Nat :=
  let bs := e.bytes
  match e.region with
  | .header => none
  | .levers =>
    if isSpareRecord bs then none
    else
      firstReason (optionalRef bs 2 3 (lineConfigured es) ++
        (if isSignalRecord bs then
          optionalRef bs 3 24 (trackConfigured es) ++ optionalRef bs 4 24 (trackConfigured es)
        else []) ++
        (bothLists bs).flatMap fun q => termRefs es q.2)
  | .track => none
  | .lines =>
    firstReason (optionalRef bs 2 48 (leverConfigured es) ++ optionalRef bs 3 48 (leverConfigured es) ++
      optionalRef bs 4 24 (trackConfigured es) ++ optionalRef bs 5 24 (trackConfigured es) ++
      optionalRef bs 6 24 (trackConfigured es) ++ optionalRef bs 7 3 (lineConfigured es))
  | .options =>
    firstReason ((List.range (patternCount bs)).flatMap fun k => patternRefs es (byteAt bs (8 + k)))
  | .indication =>
    firstReason ([(decide (byteAt bs 0 ≤ 31), 5), (decide (byteAt bs 1 ≤ 15), 5)] ++ sourceRefs es bs)

/-! ## Checks 4 to 8 (R48) -/

/-- The record is a SIGNAL lever's. -/
def signalEntry (e : Entry) : Bool :=
  decide (e.region = .levers) && isSignalRecord e.bytes

/-- The record is a lever's and not SPARE. -/
def leverEntry (e : Entry) : Bool :=
  decide (e.region = .levers) && !isSpareRecord e.bytes

/-- TOO_MANY_SIGNALS at the 25th SIGNAL lever. -/
def check4 (es : List Entry) (e : Entry) : Option Nat :=
  if signalEntry e ∧ (es.countP fun d => signalEntry d && decide (d.number ≤ e.number)) = 25 then some 7 else none

/-- SIGNAL_TO_NORMAL. -/
def check5 (_ : List Entry) (e : Entry) : Option Nat :=
  if signalEntry e ∧ toNormalCount e.bytes ≠ 0 then some 8 else none

/-- SIGNAL_FIELDS and FIELD_NOT_ALLOWED, field by field in the record's layout: line, approach TC, passing TC, approach
lock mode, time release. -/
def check6 (_ : List Entry) (e : Entry) : Option Nat :=
  let bs := e.bytes
  let signal := isSignalRecord bs
  let main := isHomeOrStarting bs
  if leverEntry e then
    firstReason [(!main || present bs 2, 9), (main || !present bs 2, 10), (signal || !present bs 3, 10),
      (!main || present bs 4, 9), (signal || !present bs 4, 10), (!signal || present bs 5, 9),
      (signal || !present bs 5, 10), (signal || timeReleaseStored bs == 0xFFFF, 10)]
  else none

/-- The lever or signal lever that a term names. -/
def namedLever (t : Term) : Option Lever :=
  match termLever t with
  | some l => some l
  | none => termSignal t

/-- SELF_REFERENCE. -/
def check7 (_ : List Entry) (e : Entry) : Option Nat :=
  if leverEntry e && (bothLists e.bytes).any fun q => decide ((namedLever q.2).map leverNumber = some e.number) then
    some 11
  else none

/-- BAD_QUALIFIER: the qualifier names the list's own lever, or the lever that its LEVER term names. -/
def badQualifier (own : Nat) (t : Term) : Bool :=
  match termQualifier t with
  | none => false
  | some (q, _) => leverNumber q == own || decide (termLever t = some q)

/-- Check 8. -/
def check8 (_ : List Entry) (e : Entry) : Option Nat :=
  if leverEntry e && (bothLists e.bytes).any fun q => badQualifier e.number q.2 then some 12 else none

/-! ## Check 9 (R49) -/

/-- A list holds "lever `n` at N" with the qualifier `q`. -/
def holdsAtNormal (terms : List Term) (n : Nat) (q : Byte) : Bool :=
  terms.any fun t => decide ((termLever t).map leverNumber = some n) && t.value == 0 && decide (t.qualifier = q)

/-- A LEVER term of lever `own` has its partner. -/
def partnered (es : List Entry) (own : Nat) (t : Term) : Bool :=
  match termLever t with
  | none => true
  | some b =>
    match entryBytes es .levers (leverNumber b) with
    | none => false
    | some bs => holdsAtNormal (if t.value = 0 then toReverse bs else toNormal bs) own t.qualifier

/-- NOT_RECIPROCAL. -/
def check9 (es : List Entry) (e : Entry) : Option Nat :=
  if leverEntry e && !(toReverse e.bytes).all (partnered es e.number) then some 13 else none

/-! ## Check 10 (R50) -/

/-- The line's record names the lever in the field of its role. -/
def namedByLine (es : List Entry) (own : Nat) (bs : List Byte) : Bool :=
  match entryBytes es .lines (leverLineCode bs) with
  | none => true
  | some line => (if leverRole bs = 1 then byteAt line 2 else byteAt line 3) == own

/-- A lever is a SIGNAL of a role with a line. -/
def roleOfLine (bs : List Byte) (role line : Nat) : Bool :=
  isSignalRecord bs && leverRole bs == role && leverLineCode bs == line

/-- A line agrees with its home and starting signals. -/
def lineMatches (n : Nat) (line home starting : List Byte) : Bool :=
  roleOfLine home 1 n && roleOfLine starting 2 n && byteAt line 5 == byteAt home 4 &&
    byteAt line 6 == byteAt starting 4 && (!present home 3 || byteAt line 4 == byteAt home 3)

/-- A list holds an unqualified term of a kind, index and value. -/
def holdsTerm (terms : List Term) (kind index value : Nat) : Bool :=
  terms.any fun t =>
    t.kind.toNat == kind && t.index.toNat == index && t.value.toNat == value && t.qualifier == 0

/-- The starting signal carries the block-working terms of its line. -/
def blockTerms (n : Nat) (line starting : List Byte) : Bool :=
  let terms := toReverse starting
  holdsTerm terms 4 n 0 && holdsTerm terms 3 (2 * n) 1 && (!workedSingle line || holdsTerm terms 3 (2 * n - 1) 0)

/-- LINE_MISMATCH and BLOCK_TERM_MISSING. -/
def check10 (es : List Entry) (e : Entry) : Option Nat :=
  let bs := e.bytes
  match e.region with
  | .levers => if isHomeOrStarting bs && !namedByLine es e.number bs then some 14 else none
  | .lines =>
    match entryBytes es .levers (byteAt bs 2), entryBytes es .levers (byteAt bs 3) with
    | some home, some starting =>
      firstReason [(lineMatches e.number bs home starting, 14), (blockTerms e.number bs starting, 15)]
    | none, _ => some 14
    | _, none => some 14
  | .header => none
  | .track => none
  | .options => none
  | .indication => none

/-! ## Checks 11 to 13 (R51) -/

/-- SIGNAL_IN_HELD_SET and NO_HELD_LEVER. -/
def check11 (es : List Entry) (e : Entry) : Option Nat :=
  if signalEntry e then
    firstReason [((heldSet e.bytes).all (fun l => !signalConfigured es (leverNumber l)), 16),
      (!(heldSet e.bytes).isEmpty, 17)]
  else none

/-- The through partner stored for a line; 0xFF when absent or the line is not configured. -/
def partnerOf (es : List Entry) (n : Nat) : Nat :=
  match entryBytes es .lines n with
  | none => 0xFF
  | some bs => byteAt bs 7

/-- A line is configured and worked DOUBLE. -/
def doubleLine (es : List Entry) (n : Nat) : Bool :=
  match entryBytes es .lines n with
  | none => false
  | some bs => !workedSingle bs

/-- The options give A with B; absent options give NONE. -/
def optionsPair (es : List Entry) : Bool :=
  match entryBytes es .options 0 with
  | none => false
  | some bs => byteAt bs 6 == 1

/-- The through partner of a line fits one of the two arrangements (log 22). -/
def partnerFits (es : List Entry) (n : Nat) : Bool :=
  if n = 1 then
    partnerOf es 1 == 0xFF || (partnerOf es 1 == 2 && partnerOf es 2 == 1 && doubleLine es 1)
  else if n = 2 then
    partnerOf es 2 == 0xFF || (partnerOf es 2 == 1 && partnerOf es 1 == 2 && doubleLine es 2)
  else partnerOf es 3 == 0xFF

/-- BAD_THROUGH_PAIR: the lines first, then the options. -/
def check12 (es : List Entry) (e : Entry) : Option Nat :=
  match e.region with
  | .lines => if partnerFits es e.number then none else some 18
  | .options => if optionsPair es = decide (partnerOf es 1 = 2) then none else some 18
  | .header => none
  | .levers => none
  | .track => none
  | .indication => none

/-- LAMP_POSITION_TAKEN. -/
def check13 (es : List Entry) (e : Entry) : Option Nat :=
  if decide (e.region = .indication) && es.any fun d =>
      decide (d.region = .indication) && decide (d.number < e.number) &&
        byteAt d.bytes 0 == byteAt e.bytes 0 && byteAt d.bytes 1 == byteAt e.bytes 1 then
    some 19
  else none

/-! ## The pass's result -/

/-- The failure of one check: its first failing record, with the reason. -/
def failureOf (es : List Entry) (check : List Entry → Entry → Option Nat) : Option (Region × Nat × Nat) :=
  es.findSome? fun e => (check es e).map fun reason => (e.region, e.number, reason)

/-- An absent OPTIONS record that must name the pair: the lines give one, and the options give NONE. -/
def absentOptionsFault (es : List Entry) : Option (Region × Nat × Nat) :=
  if (entryBytes es .options 0).isNone ∧ partnerOf es 1 = 2 then some (.options, 0, 18) else none

/-- The failure of check 12, an absent OPTIONS record included. -/
def throughFailure (es : List Entry) : Option (Region × Nat × Nat) :=
  match failureOf es check12 with
  | some f => some f
  | none => absentOptionsFault es

/-- The first failure in the check order. -/
def schemeFailure (es : List Entry) : Option (Region × Nat × Nat) :=
  match ([check1, check2, check3, check4, check5, check6, check7, check8, check9, check10, check11].findSome?
      (failureOf es)) with
  | some f => some f
  | none =>
    match throughFailure es with
    | some f => some f
    | none => failureOf es check13

/-! ## Warnings (R52) -/

/-- The field codes of a record's clamped fields. -/
def clampedFields (e : Entry) : List Nat :=
  let bs := e.bytes
  let code (c : Nat) (ok : Bool) : List Nat := if ok then [] else [c]
  match e.region with
  | .header => []
  | .levers => code 1 (!isSignalRecord bs || inRange 30 240 (timeReleaseStored bs))
  | .track => code 2 (inRange 2 15 (byteAt bs 1)) ++ code 3 (decide (pairAt bs 2 ≤ 300))
  | .lines => []
  | .options =>
    code 4 (inRange 60 600 (pairAt bs 0)) ++ code 5 (inRange 60 600 (pairAt bs 2)) ++
      code 6 (inRange 20 80 (pairAt bs 4))
  | .indication => []

/-- The warnings of one record. -/
def entryWarnings (e : Entry) : List Warning :=
  if e.corrupt then [] else (clampedFields e).map fun c => ⟨e.region, e.number, c⟩

/-- The first 8 warnings in record order, an absent OPTIONS record among them (R52). INDICATION records give none, so
the OPTIONS warnings come last. -/
def schemeWarnings (es : List Entry) : List Warning :=
  ((es.flatMap entryWarnings) ++
    if (entryBytes es .options 0).isNone then [(⟨.options, 0, 7⟩ : Warning)] else []).take 8

end Sys2Proof.Machine
end

