-- ==== Sys2Proof/Machine/Timebase.lean ====
section
/-!
DEFINITION. The Timebase Monitor: windows, the start-up limit, degrading and restoring, and its commands (R167 to R169).
-/

namespace Sys2Proof.Machine

/-- A running reset hold is rescaled at a change from GOOD to DEGRADED (R161). -/
def bmcDegraded (s : State) : State :=
  { s with bmc := { s.bmc with hold := s.bmc.hold.map (rescaled s.now) } }

/-- The readers of the timebase state are told of a change of it, which is posted (R168). -/
def tellTimebase (before : TimebaseState) (s : State) : State :=
  let t := tcrTimebase s
  let u := if before = .good ∧ s.tbm.state = .degraded then bmcDegraded (bscDegraded (srcDegraded t)) else t
  postReport .timebase (tellIcc (namesSource .timebase 0) u)

/-- The timebase becomes DEGRADED from GOOD by a missed window (R168). -/
def degrade (why : TimebaseCause) (s : State) : State :=
  tellTimebase s.tbm.state { s with tbm := { s.tbm with
    source := .oscillator, state := .degraded, degrades := countUp s.tbm.degrades, cause := why } }

/-- A good window: the run and the good-window count rise; while DEGRADED a change of the count is posted. -/
def goodWindow (s : State) : State :=
  let count := min 10 (s.tbm.goodCount + 1)
  let t := { s with tbm := { s.tbm with run := min 16 (s.tbm.run + 1), goodCount := count } }
  if s.tbm.state = .degraded ∧ count ≠ s.tbm.goodCount then postReport .timebase t else t

/-- The run and the good-window count are set to 0. -/
def breakRun (s : State) : State :=
  { s with tbm := { s.tbm with run := 0, goodCount := 0 } }

/-- A missed window: the counts are set to 0, and from GOOD the timebase degrades. That the run too goes to 0 while DEGRADED
is read from R167 (DEDUCED, log 61). -/
def missedWindow (s : State) : State :=
  let t := breakRun s
  match s.tbm.state with
  | .good => degrade .windowMissed t
  | .degraded => if s.tbm.goodCount = 0 then t else postReport .timebase t
  | .startingTb => t

/-- TIMEBASE_WINDOW (R167, R168). -/
def execTimebaseWindow (good : Bool) (s : State) : Host.Outcome State Fault Refusal :=
  event true s (if good then goodWindow else missedWindow)

/-- The 512th tick has come in STARTING_TB. -/
def startUpDue (s : State) : Bool :=
  decide (s.tbm.state = .startingTb) && decide (512 ≤ s.tbm.startTicks)

/-- At the 512th tick a run of 16 good windows gives GOOD on the crystal, and anything less DEGRADED. -/
def startUpLimit (s : State) : State :=
  tellTimebase .startingTb { s with tbm :=
    if s.tbm.run = 16 then { s.tbm with source := .crystal, state := .good, cause := .startUp }
    else { s.tbm with source := .oscillator, state := .degraded, cause := .startUp } }

/-- START_UP_TICK_LIMIT (R167). -/
def execStartUpTickLimit (s : State) : Host.Outcome State Fault Refusal :=
  event (startUpDue s) s startUpLimit

/-- TIMEBASE_RESTORE's judgement by the TBM (R169). -/
def timebaseRestore (_ : List Byte) (s : State) : Answer × State :=
  if s.mode = .starting then (.wrongMode, s)
  else if s.tbm.state = .good then (.refused 2, s)
  else if s.tbm.state = .startingTb ∨ s.tbm.goodCount < 10 then (.refused 23, s)
  else
    (.ok [], tellTimebase s.tbm.state { s with tbm := { s.tbm with
      source := .crystal, state := .good, cause := .restore } })

/-- TIMEBASE_RESTORE. -/
def execTimebaseRestore (s : State) : Host.Outcome State Fault Refusal :=
  serve .timebaseRestore timebaseRestore s

/-- A test is taken as a missed window with last cause TEST, posted in each case. -/
def takeTimebaseTest (s : State) : State :=
  let t := breakRun s
  match s.tbm.state with
  | .good => degrade .test t
  | .degraded => postReport .timebase { t with tbm := { t.tbm with cause := .test } }
  | .startingTb => postReport .timebase { t with tbm := { t.tbm with cause := .test } }

/-- TIMEBASE_TEST's judgement by the TBM. -/
def timebaseTest (_ : List Byte) (s : State) : Answer × State :=
  if s.mode = .maintenance then (.ok [], takeTimebaseTest s) else (.wrongMode, s)

/-- TIMEBASE_TEST (R169). -/
def execTimebaseTest (s : State) : Host.Outcome State Fault Refusal :=
  serve .timebaseTest timebaseTest s

end Sys2Proof.Machine
end

