-- ==== Sys2Proof/Machine/Modes.lean ====
section
/-!
DEFINITION. The Box Mode Controller: the conditions of the mode changes, the change itself with its tellings, the leaving of
STARTING, and its commands (chapter 11).
-/

namespace Sys2Proof.Machine

/-! ## Conditions (R161, R162, R164, R165) -/

/-- The first lever that `p` picks out, as a refused condition of the code given. -/
def firstLever (code : Nat) (p : Lever → Bool) : Option (Nat × Nat) :=
  ((List.finRange 48).find? p).map fun l => (code, leverNumber l)

/-- The route lock list is not empty: the signal lever of its oldest entry. -/
def locksNotEmpty (s : State) : Option (Nat × Nat) :=
  s.src.locks.head?.map fun e => (7, leverNumber e.lever)

/-- The first of several conditions that fails. -/
def firstCondition : List (Option (Nat × Nat)) → Option (Nat × Nat)
  | [] => none
  | none :: rest => firstCondition rest
  | some f :: _ => some f

/-- A condition without a range of objects. -/
def condition (code object : Nat) (holds : Bool) : Option (Nat × Nat) :=
  if holds then none else some (code, object)

/-- What fails of MODE(OPEN) from COMMISSIONING. -/
def openFails (s : State) : Option (Nat × Nat) :=
  firstCondition [condition 1 0 s.bmc.hold.isNone,
    firstLever 2 fun l => (slotOfLever s l).isSome && !leverAt s l .n,
    firstLever 3 fun l => s.leverState l = .fault]

/-- What fails of MODE(MAINTENANCE) from OPEN or COMMISSIONING. -/
def maintenanceFails (s : State) : Option (Nat × Nat) :=
  firstCondition [firstLever 9 fun l => decide (s.leverState l ≠ .spare) && !leverAt s l .n,
    locksNotEmpty s,
    (allLines.find? fun x => (s.block x).inc.state ≠ .blocked).map fun x => (5, sectionIndex x .incoming),
    (allLines.find? fun x => !(s.bell x).sendQueue.isEmpty).map fun x => (10, lineNumber x)]

/-- A section of line A or B is not BLOCKED. -/
def mainSectionNotBlocked (s : State) : Option (Nat × Nat) :=
  firstCondition [condition 5 1 ((s.block .a).inc.state = .blocked), condition 5 2 (sensedBlocked (s.block .a).out.sensed),
    condition 5 3 ((s.block .b).inc.state = .blocked), condition 5 4 (sensedBlocked (s.block .b).out.sensed)]

/-- No offer is held on a line. -/
def noOffer (s : State) (x : Line) : Bool :=
  (s.block x).inc.offer.isNone && (s.block x).out.offer.isNone

/-- What fails of MODE(SWITCHED_OUT) from OPEN. -/
def switchOutFails (s : State) : Option (Nat × Nat) :=
  firstCondition [condition 4 0 (hasThroughPair s.bmc.options),
    mainSectionNotBlocked s,
    condition 6 1 (noOffer s .a), condition 6 2 (noOffer s .b),
    locksNotEmpty s,
    firstLever 8 fun l => (switchOutPattern s.bmc.options).any fun q => decide (q.1 = l) && !leverAt s l q.2,
    condition 11 10 (!s.bmc.cut10)]

/-! ## The change of mode (R163) -/

/-- The reset hold at an entry to COMMISSIONING (R161). -/
def holdFrom (s : State) : Nat :=
  s.now + effectiveTime s.tbm.state (resetHoldMs s.bmc.options)

/-- The BMC's own part: the mode, the hold, output 76 and the MODE source. -/
def enterMode (m : Mode) (s : State) : State :=
  postReport .mode (setDemand relayOutput (if m = .switchedOut then .on else .off)
    { s with bmc := { s.bmc with mode := m, hold := if m = .commissioning then some (holdFrom s) else none } })

/-- A new scrubbing pass and a fresh period begin (R31). -/
def startScrub (s : State) : State :=
  { s with sst := { s.sst with scrubPos := 0, scrubDue := some s.now, periodEnd := some (s.now + 60000) } }

/-- Scrubbing stops and the pass in progress is abandoned. -/
def stopScrub (s : State) : State :=
  { s with sst := { s.sst with scrubPos := 0, scrubDue := none, periodEnd := none } }

/-- The SST is told of a change of mode. -/
def sstMode (before : Mode) (s : State) : State :=
  if s.mode = .maintenance then stopScrub s
  else if before = .maintenance then startScrub s
  else s

/-- The BLC is told of the box entering SWITCHED_OUT: it reads each LINES record (R29) and through-connects the lines
that name a partner. -/
def blcEnterThrough (s : State) : State :=
  forEach allLines (fun x s =>
    let t := markRead (lineSlot x) s
    if namesPartner (slotCopy t (lineSlot x)) then postReport (.bell x) (t.modBell x throughConnect) else t) s

/-- The BSC and the BLC are told of a change of mode (R122, R140). The BSC freezes by the copies it holds, and the BLC's
reads follow (log 12). -/
def linesMode (before : Mode) (s : State) : State :=
  if s.mode = .switchedOut then blcEnterThrough (bscFreeze s)
  else if before = .switchedOut then blcLeaveThrough (bscRestart s)
  else s

/-- The reads of the records that the SRC takes at an assignment, each judged (R29, R41). -/
def readForSlots (s : State) : State :=
  forEach (regionSlotList .levers ++ regionSlotList .lines) markRead s

/-- The SRC is told of a change of mode (R109). Its demands are recomputed at the event's end. -/
def srcMode (s : State) : State :=
  match s.mode with
  | .commissioning => assignSlots (readForSlots s)
  | .maintenance => giveUpSlots s
  | .openBox => s
  | .switchedOut => s
  | .starting => s

/-- A change of mode between the four modes of service: the BMC's part, then every reader in turn. -/
def changeMode (m : Mode) (s : State) : State :=
  let t := srcMode (linesMode s.mode (lleMode s.mode (sstMode s.mode (enterMode m s))))
  tellIcc (namesSource .boxMode 0) (postChangedGroups s t)

/-! ## Commands -/

/-- A refusal with CONDITIONS: it becomes the last refused condition and is posted. -/
def refuseConditions (f : Nat × Nat) (s : State) : Answer × State :=
  (⟨1, 1, [byteOf f.1, byteOf f.2]⟩, postReport .mode { s with bmc := { s.bmc with refused := some f } })

/-- A change whose conditions are judged. -/
def tryMode (m : Mode) (fails : Option (Nat × Nat)) (s : State) : Answer × State :=
  match fails with
  | some f => refuseConditions f s
  | none => (.ok [], changeMode m s)

/-- A change judged by one condition with a reason of its own. -/
def tryModeIf (m : Mode) (holds : Bool) (reason : Nat) (s : State) : Answer × State :=
  if holds then (.ok [], changeMode m s) else (.refused reason, s)

/-- The mode of a MODE field. -/
def modeOf (n : Nat) : Option Mode :=
  match n with
  | 1 => some .commissioning
  | 2 => some .openBox
  | 3 => some .switchedOut
  | 4 => some .maintenance
  | _ => none

/-- MODE's judgement by the BMC (R160). -/
def modeRequest (p : List Byte) (s : State) : Answer × State :=
  match modeOf (byteAt p 0) with
  | none => (.badField 0, s)
  | some m =>
    if s.mode = .starting then (.wrongMode, s)
    else if m = s.mode then (.refused 2, s)
    else
      match s.mode, m with
      | .commissioning, .openBox => tryMode .openBox (openFails s) s
      | .commissioning, .maintenance => tryMode .maintenance (maintenanceFails s) s
      | .openBox, .switchedOut => tryMode .switchedOut (switchOutFails s) s
      | .openBox, .maintenance => tryMode .maintenance (maintenanceFails s) s
      | .switchedOut, .openBox => tryModeIf .openBox (linesQuiet s) 13 s
      | .maintenance, .commissioning =>
        tryModeIf .commissioning (decide (s.sst.state = .closed) && decide (s.sst.result = .passed)) 22 s
      | _, _ => (.wrongMode, s)

/-- MODE (R160). -/
def execMode (s : State) : Host.Outcome State Fault Refusal :=
  serve .mode modeRequest s

/-- RESTART's judgement by the BMC; the HLC sets its restart-pending flag as the OK reply is placed (R16, R162). -/
def restartRequest (_ : List Byte) (s : State) : Answer × State :=
  if s.mode = .commissioning ∨ s.mode = .maintenance then
    (.ok [], { s with hlc := { s.hlc with restartPending := true } })
  else (.wrongMode, s)

/-- RESTART (R162). -/
def execRestart (s : State) : Host.Outcome State Fault Refusal :=
  serve .restart restartRequest s

/-- The reset hold's deadline is reached. -/
def holdOver (s : State) : Bool :=
  reached s.now s.bmc.hold

/-- RESET_HOLD_RUN_OUT (R161). -/
def execResetHoldRunOut (s : State) : Host.Outcome State Fault Refusal :=
  event (holdOver s) s fun s => postReport .mode { s with bmc := { s.bmc with hold := none } }

/-! ## Leaving STARTING (R159, R163) -/

/-- The mode that a start-up check leads to. -/
def modeAfterCheck : StartCheck → Mode
  | .isMatch => .commissioning
  | .noStamp => .maintenance
  | .sumMismatch => .maintenance

/-- The SST hands on its start-up check: the BMC takes its OPTIONS copy and the mode, and every block acts as its own
chapter gives for the leaving of STARTING. Two points are the model's readings (DEDUCED): every slot is read here, the
HEADER too, though no block takes a copy of it (R29, log 55), and no scrub period starts where STARTING ends in
MAINTENANCE (R31, R32, log 56). -/
def leaveStarting (c : StartCheck) (s : State) : State :=
  let read := forEach allSlots markRead s
  let t := bmcRecord { read with bmc := { read.bmc with startCheck := some c } }
  let u := enterMode (modeAfterCheck c) t
  let v := if modeAfterCheck c = .commissioning then startScrub u else u
  let w := bscBegin (lleBegin (tcrBegin v))
  iccBegin (vodBegin (srcMode (blcBegin w)))

end Sys2Proof.Machine
end

