-- ==== Sys2Proof/Machine/Store.lean ====
section
/-!
DEFINITION. The Scheme Store's requests and timed operations (R20 to R28).
-/

namespace Sys2Proof.Machine

/-! ## Acceptance (R20) -/

/-- The refusal of a request that the store's state does not take. -/
def refusalIn : StoreState → Answer
  | .closed => .refused 21
  | .openIdle => .refused 21
  | .eraseSuspended => .refused 21
  | .erasing => .busy
  | .programming => .busy
  | .validating => .busy

/-- The state check: the request goes on in the states named. -/
def gateState (taken : List StoreState) (own : State → Answer × State) (s : State) : Answer × State :=
  if s.sst.state ∈ taken then own s else (refusalIn s.sst.state, s)

/-- Mode check, then state check. -/
def gate (taken : List StoreState) (own : State → Answer × State) (s : State) : Answer × State :=
  if s.mode = .maintenance then gateState taken own s else (.wrongMode, s)

/-! ## Running an operation -/

/-- An operation starts: it runs for `time` ms with the store in the state given, and STORE is posted. -/
def beginOp (op : StoreOp) (time : Nat) (st : StoreState) (s : State) : State :=
  postReport .store { s with sst := { s.sst with op := some ⟨op, s.now + time⟩, state := st } }

/-- The operation ends, with the store in the state given, and STORE is posted. -/
def endOp (st : StoreState) (s : State) : State :=
  postReport .store { s with sst := { s.sst with op := none, state := st } }

/-- The operation in progress, once its time is over. -/
def opOver (s : State) : Option StoreOp :=
  match s.sst.op with
  | none => none
  | some r => if r.endsAt ≤ s.now then some r.op else none

/-- The store's cells replaced. -/
def withCells (f : List (Nat × StoreWord) → List (Nat × StoreWord)) (s : State) : State :=
  { s with sst := { s.sst with cells := f s.sst.cells } }

/-- The commit word as it stands. -/
def commitWord (s : State) : StoreWord :=
  cellRead s.sst.cells 31

/-- The commit word is programmed to 0x0000 (R18). -/
def voidHeader (s : State) : State :=
  withCells (fun c => cellProgram c 31 0) s

/-- A change of contents sets the validation result to NONE (R22, R52). -/
def resultNone (s : State) : State :=
  { s with sst := { s.sst with result := .none, warnings := [] } }

/-- The store returns to this state when its operation ends. -/
def returnsTo (st : StoreState) (s : State) : State :=
  { s with sst := { s.sst with returnTo := st } }

/-! ## Erasing (R21, R23) -/

/-- The erase of one region begins: a header's commit word is voided first, and the users are told that the records are
withdrawn. -/
def beginErase (r : Region) (s : State) : State :=
  deliverRegion r (beginOp (.erase r) 300 .erasing (if r = .header then voidHeader s else s))

/-- One region of a WIPE begins to be erased. -/
def beginWipe (r : Region) (s : State) : State :=
  deliverRegion r (beginOp (.wipe r) 300 .erasing (if r = .header then voidHeader s else s))

/-- A region's words are erased. -/
def eraseRegion (r : Region) (s : State) : State :=
  withCells (fun c => cellErase c (regionBase r) (regionEnd r)) s

/-- A region's erase ends: the users are told that its slots are erased. -/
def endErase (r : Region) (s : State) : State :=
  deliverRegion r (endOp .openIdle (eraseRegion r s))

/-- A region of a WIPE has been erased: its users are told, and the next region begins, or the store is OPEN_IDLE. -/
def endWipe (r : Region) (s : State) : State :=
  match regionAfter r with
  | none => endErase r s
  | some next => beginWipe next (deliverRegion r (eraseRegion r { s with sst := { s.sst with op := none } }))

/-! ## Programming (R24) -/

/-- A slot begins to be programmed. -/
def beginProgram (i : Slot) (words : List Word16) (s : State) : State :=
  beginOp (.program i words) 3 .programming s

/-- A slot program ends: the words are written, the slot is GOOD and its users are told. -/
def endProgram (i : Slot) (words : List Word16) (s : State) : State :=
  slotProgrammed i (endOp s.sst.returnTo (withCells (fun c => cellProgramAll c (slotBase i) words) s))

/-- A change of contents begins. -/
def beginChange (c : Change) (s : State) : State :=
  match c with
  | .erase r => beginErase r s
  | .program i words => beginProgram i words s

/-- A change of contents is accepted: a standing stamp is removed first, unless the change is to the header (R22). -/
def acceptChange (r : Region) (c : Change) (s : State) : State :=
  let t := resultNone s
  if stampStanding t ∧ r ≠ .header then beginOp (.stampRemoval c) 3 .programming t else beginChange c t

/-! ## STORE_OPEN and STORE_CLOSE (R21, R27) -/

/-- An identity that is empty. -/
def emptyText : List Byte :=
  padBytes 12 0

/-- STORE_OPEN's own conditions. -/
def openStore (p : List Byte) (s : State) : Answer × State :=
  if byteAt p 12 = 1 then (.ok [], beginWipe .header (returnsTo .openIdle (resultNone s)))
  else if storedIdentity s = emptyText ∨ storedIdentity s = p.take 12 then
    (.ok [], postReport .store { s with sst := { s.sst with state := .openIdle } })
  else (.refused 18, s)

/-- STORE_OPEN (R21). -/
def execStoreOpen (s : State) : Host.Outcome State Fault Refusal :=
  serve .storeOpen (fun p => gate [.closed] (openStore p)) s

/-- STORE_CLOSE (R27). -/
def execStoreClose (s : State) : Host.Outcome State Fault Refusal :=
  serve .storeClose (fun _ => gate [.openIdle] fun s =>
    (.ok [], postReport .store { s with sst := { s.sst with state := .closed } })) s

/-! ## STORE_ERASE and STORE_PROGRAM (R23, R24) -/

/-- STORE_ERASE's own conditions. -/
def eraseRequest (p : List Byte) (s : State) : Answer × State :=
  match regionOf (byteAt p 0) with
  | none => (.badField 0, s)
  | some r =>
    if regionLocked s r then (.refused 19, s)
    else (.ok [], acceptChange r (.erase r) (returnsTo .openIdle s))

/-- STORE_ERASE (R23). -/
def execStoreErase (s : State) : Host.Outcome State Fault Refusal :=
  serve .storeErase (fun p => gate [.openIdle] (eraseRequest p)) s

/-- The words that a program of the header writes: identity and issue as given, no lock, no stamp, and the commit word
last. -/
def headerWords (record : List Byte) : List Word16 :=
  wordsOf (record.take 14) ++ List.replicate 24 0xFFFF ++ [0x3C96]

/-- The words that a program writes. -/
def programWords (r : Region) (record : List Byte) : List Word16 :=
  if r = .header then headerWords record else wordsOf record

/-- The header field out of range, as its offset in the payload (step 4 of R24). -/
def headerFault (r : Region) (record : List Byte) : Option Nat :=
  if r ≠ .header then none
  else firstBad [(2, textValid (record.take 12)), (14, decide (pairAt record 12 ≠ 0))]

/-- The region is the one whose erase is suspended. -/
def suspendedRegion (s : State) (r : Region) : Bool :=
  match s.sst.suspended with
  | none => false
  | some e => e.region = r

/-- STORE_PROGRAM's own conditions on a slot. -/
def programSlot (r : Region) (i : Slot) (record : List Byte) (s : State) : Answer × State :=
  if regionLocked s r then (.refused 19, s)
  else if suspendedRegion s r then (.refused 21, s)
  else if !slotErased s.sst.cells i then (.refused 20, s)
  else
    match headerFault r record with
    | some offset => (.badField offset, s)
    | none => (.ok [], acceptChange r (.program i (programWords r record)) (returnsTo s.sst.state s))

/-- STORE_PROGRAM's own conditions. -/
def programRequest (p : List Byte) (s : State) : Answer × State :=
  match regionOf (byteAt p 0) with
  | none => (.badField 0, s)
  | some r =>
    match slotOf r (byteAt p 1) with
    | none => (.badField 1, s)
    | some i => programSlot r i (p.drop 2) s

/-- STORE_PROGRAM (R24). -/
def execStoreProgram (s : State) : Host.Outcome State Fault Refusal :=
  serve .storeProgram (fun p => gate [.openIdle, .eraseSuspended] (programRequest p)) s

/-! ## STORE_SUSPEND and STORE_RESUME (R25) -/

/-- STORE_SUSPEND's own condition: the erase running is of a single region. -/
def suspendRequest (s : State) : Answer × State :=
  match s.sst.op with
  | none => (.busy, s)
  | some r =>
    match r.op with
    | .erase reg =>
      (.ok [], postReport .store { s with sst := { s.sst with
        op := none, state := .eraseSuspended, suspended := some ⟨reg, r.endsAt - s.now⟩ } })
    | .wipe _ => (.busy, s)
    | .program _ _ => (.busy, s)
    | .stampRemoval _ => (.busy, s)
    | .lockSet _ => (.busy, s)
    | .unlock _ _ => (.busy, s)
    | .validate _ => (.busy, s)
    | .stampWrite _ _ _ => (.busy, s)

/-- STORE_SUSPEND (R25). -/
def execStoreSuspend (s : State) : Host.Outcome State Fault Refusal :=
  serve .storeSuspend (fun _ => gate [.erasing] suspendRequest) s

/-- STORE_RESUME's act: the erase goes on for its kept time. -/
def resumeRequest (s : State) : Answer × State :=
  match s.sst.suspended with
  | none => (.refused 21, s)
  | some e =>
    (.ok [], beginOp (.erase e.region) e.remaining .erasing
      { s with sst := { s.sst with suspended := none } })

/-- STORE_RESUME (R25). -/
def execStoreResume (s : State) : Host.Outcome State Fault Refusal :=
  serve .storeResume (fun _ => gate [.eraseSuspended] resumeRequest) s

/-! ## STORE_LOCK (R26) -/

/-- The lock word with a region's flag set: its bit at 0. -/
def lockWord (old : Word16) (r : Region) : Word16 :=
  old &&& ~~~((1 : Word16) <<< regionCode r)

/-- The lock word with a region's flag cleared: its bit at 1. -/
def unlockWord (old : Word16) (r : Region) : Word16 :=
  old ||| ((1 : Word16) <<< regionCode r)

/-- STORE_LOCK's own conditions. -/
def lockRequest (p : List Byte) (s : State) : Answer × State :=
  match regionOf (byteAt p 0) with
  | none => (.badField 0, s)
  | some r =>
    let wanted := decide (byteAt p 1 = 1)
    if !headerValid s then (.refused 21, s)
    else if regionLocked s r = wanted then (.ok [], s)
    else if wanted then (.ok [], beginOp (.lockSet r) 3 .programming (returnsTo .openIdle s))
    else (.ok [], beginOp (.unlock r (commitWord s)) 303 .programming (voidHeader (returnsTo .openIdle s)))

/-- STORE_LOCK (R26). -/
def execStoreLock (s : State) : Host.Outcome State Fault Refusal :=
  serve .storeLock (fun p => gate [.openIdle] (lockRequest p)) s

/-- The header's kept words, 0 to 10. -/
def keptWords (s : State) : List Word16 :=
  (List.range 11).map (headerWord s)

/-- A header rewrite's write: region HEADER is erased, then programmed with the words given, the commit word last. -/
def rewriteHeader (words : List Word16) (s : State) : State :=
  withCells (fun c => cellWriteAll (cellErase c (regionBase .header) (regionEnd .header)) 0
    (words ++ List.replicate 20 0xFFFF ++ [0x3C96])) s

/-- The kept words with a region's lock flag cleared. -/
def unlockedWords (s : State) (r : Region) : List Word16 :=
  (keptWords s).set 7 (unlockWord (headerWord s 7) r)

/-- The kept words with the stamp for the issue number and a content sum. -/
def stampedWords (s : State) (sum : Word16) : List Word16 :=
  (((keptWords s).set 8 (headerWord s 6)).set 9 sum).set 10 0x0F0F

/-! ## STORE_READ (R27) and the host's reads -/

/-- STORE_READ's refusal, if any. -/
def readRefusal (s : State) (r : Region) : Option Answer :=
  if s.sst.state ∈ [StoreState.closed, .openIdle, .eraseSuspended] then
    if suspendedRegion s r then some (.refused 21) else none
  else some (refusalIn s.sst.state)

/-- The head request waits for a read of a slot (R7). -/
def askHostRead (i : Slot) (s : State) : State :=
  askRead (.host i) { s with hlc := { s.hlc with hostWait := true } }

/-- STORE_READ's service: an accepted one asks for the read and stays at the head. -/
def readRequest (f : Frame) (s : State) : State :=
  match regionOf (byteAt f.payload 0) with
  | none => replyHead f (.badField 0) s
  | some r =>
    match slotOf r (byteAt f.payload 1) with
    | none => replyHead f (.badField 1) s
    | some i =>
      match readRefusal s r with
      | some a => replyHead f a s
      | none => askHostRead i s

/-- STORE_READ (R27). -/
def execStoreRead (s : State) : Host.Outcome State Fault Refusal :=
  match servableOf s .storeRead with
  | none => .next s
  | some f =>
    match payloadFault .storeRead f.payload with
    | some reason => .next (finish (replyHead f (.badField reason) s))
    | none => .next (finish (readRequest f s))

/-! ## VALIDATE (R28) -/

/-- The pass takes the free port, and its time runs from now. -/
def startPass (s : State) : State :=
  let time := readTime s .validation
  { s with sst := { s.sst with
    op := some ⟨.validate true, s.now + time⟩
    port := { s.sst.port with serving := some (.validation, s.now + time) } } }

/-- VALIDATE's own condition: the header is valid. The pass starts at once if no read is being served. -/
def validateRequest (s : State) : Answer × State :=
  if headerValid s then
    let t := beginOp (.validate false) 0 .validating (returnsTo s.sst.state s)
    (.ok [], if t.sst.port.serving.isNone then startPass t else t)
  else (.refused 21, s)

/-- VALIDATE (R28). -/
def execValidate (s : State) : Host.Outcome State Fault Refusal :=
  serve .validate (fun _ => gate [.closed, .openIdle] validateRequest) s

/-- A pass waits for the port, and the port is free. -/
def passMayStart (s : State) : Bool :=
  passWaits s && s.sst.port.serving.isNone

/-- VALIDATION_PASS_START (R29). -/
def execValidationPassStart (s : State) : Host.Outcome State Fault Refusal :=
  event (passMayStart s) s startPass

/-- The pass's own reading: every programmed slot is corrected and judged. -/
def passReads (s : State) : State :=
  forEach (allSlots.filter fun i => !slotErased s.sst.cells i) correctSlot s

/-- The pass ends with a result that writes nothing: the store returns. -/
def endPass (r : ValidationResult) (warnings : List Warning) (s : State) : State :=
  endOp s.sst.returnTo { s with sst := { s.sst with result := r, warnings := warnings } }

/-- The stamp standing is of the header's issue and of the sum given. -/
def stampMatches (s : State) (sum : Word16) : Bool :=
  stampStanding s && headerWord s 8 == headerWord s 6 && headerWord s 9 == sum

/-- The first failure of the checks on the scheme as the pass has read it. The header is read and not checked (R46, log
23). -/
def passFailure (s : State) : Option (Region × Nat × Nat) :=
  schemeFailure (schemeEntries s)

/-- The end of the pass, its reading done: FAILED; PASSED with the stamp standing; or the stamp's rewrite. -/
def judgePass (s : State) : State :=
  let warnings := schemeWarnings (schemeEntries s)
  let sum := contentSum s.sst.cells
  match passFailure s with
  | some (r, n, reason) => endPass (.failed r n reason) warnings s
  | none =>
    if stampMatches s sum then endPass .passed warnings s
    else beginOp (.stampWrite sum warnings (commitWord s)) 303 .validating (voidHeader s)

/-- The end of a validation pass: its reads, its result, and the port given back. -/
def passEnd (s : State) : State :=
  freePort (judgePass (passReads s))

/-- The pass has run its time. -/
def passOver (s : State) : Bool :=
  decide (opOver s = some (.validate true))

/-- VALIDATION_PASS_END (R28). -/
def execValidationPassEnd (s : State) : Host.Outcome State Fault Refusal :=
  event (passOver s) s passEnd

/-! ## The ends of the timed operations -/

/-- STAMP_REMOVAL_END (R22): the stamp state is removed, and the change that waited begins. -/
def execStampRemovalEnd (s : State) : Host.Outcome State Fault Refusal :=
  match opOver s with
  | some (.stampRemoval c) =>
    event true s fun s => beginChange c (withCells (fun cells => cellProgram cells 10 0) s)
  | _ => .next s

/-- REGION_ERASE_END (R23). -/
def execRegionEraseEnd (s : State) : Host.Outcome State Fault Refusal :=
  match opOver s with
  | some (.erase r) => event true s (endErase r)
  | _ => .next s

/-- WIPE_REGION_END (R21). -/
def execWipeRegionEnd (s : State) : Host.Outcome State Fault Refusal :=
  match opOver s with
  | some (.wipe r) => event true s (endWipe r)
  | _ => .next s

/-- SLOT_PROGRAM_END (R24). -/
def execSlotProgramEnd (s : State) : Host.Outcome State Fault Refusal :=
  match opOver s with
  | some (.program i words) => event true s (endProgram i words)
  | _ => .next s

/-- LOCK_SET_END (R26): the region's bit of the lock word is programmed to 0 in place. -/
def execLockSetEnd (s : State) : Host.Outcome State Fault Refusal :=
  match opOver s with
  | some (.lockSet r) =>
    event true s fun s => endOp s.sst.returnTo (withCells (fun c => cellProgram c 7 (lockWord 0xFFFF r)) s)
  | _ => .next s

/-- The end of a header rewrite (R26, R28). -/
def endRewrite (op : StoreOp) (s : State) : State :=
  match op with
  | .unlock r _ => endOp s.sst.returnTo (rewriteHeader (unlockedWords s r) s)
  | .stampWrite sum warnings _ => endPass .passed warnings (rewriteHeader (stampedWords s sum) s)
  | .wipe _ => s
  | .erase _ => s
  | .program _ _ => s
  | .stampRemoval _ => s
  | .lockSet _ => s
  | .validate _ => s

/-- The operation is a header rewrite. -/
def isRewrite : StoreOp → Bool
  | .unlock _ _ => true
  | .stampWrite _ _ _ => true
  | .wipe _ => false
  | .erase _ => false
  | .program _ _ => false
  | .stampRemoval _ => false
  | .lockSet _ => false
  | .validate _ => false

/-- HEADER_REWRITE_END (R26). -/
def execHeaderRewriteEnd (s : State) : Host.Outcome State Fault Refusal :=
  match opOver s with
  | none => .next s
  | some op => event (isRewrite op) s (endRewrite op)

end Sys2Proof.Machine
end

