-- ==== Sys2Proof/Machine/Scrub.lean ====
section
/-!
DEFINITION. The reads that run of themselves: scrubbing (R31), the start-up pass (R32), and the LLE's evaluation reads (R78).
-/

namespace Sys2Proof.Machine

/-! ## Scrubbing -/

/-- The modes in which the scrubber runs. -/
def scrubbing (m : Mode) : Bool :=
  m = .commissioning || m = .openBox || m = .switchedOut

/-- The slot at the scrub position. -/
def scrubSlot (s : State) : Option Slot :=
  if h : s.sst.scrubPos < 333 then some ⟨s.sst.scrubPos, h⟩ else none

/-- A scrub step may start: it is due, the port is free, and no read waits. -/
def scrubMayStart (s : State) : Bool :=
  scrubbing s.mode && (scrubSlot s).isSome && reached s.now s.sst.scrubDue && portIdle s && !passWaits s

/-- A scrub step starts: its slot's read takes the port, the position moves, and the next step is due 20 ms on. -/
def startScrubStep (s : State) : State :=
  match scrubSlot s with
  | none => s
  | some i =>
    startRead (.scrub i) s.sst.port.waiting
      { s with sst := { s.sst with scrubPos := s.sst.scrubPos + 1, scrubDue := some (s.now + 20) } }

/-- SCRUB_STEP (R31). -/
def execScrubStep (s : State) : Host.Outcome State Fault Refusal :=
  event (scrubMayStart s) s startScrubStep

/-- SCRUB_STEP_END (R31): the slot's words are corrected or marked, and the port is free. -/
def execScrubStepEnd (s : State) : Host.Outcome State Fault Refusal :=
  match readEnded s with
  | some (.scrub i) => event true s fun s => freePort (correctSlot i s)
  | _ => .next s

/-- The port is reading for the scrubber. -/
def scrubOnPort (s : State) : Bool :=
  match s.sst.port.serving with
  | some (.scrub _, _) => true
  | _ => false

/-- The running pass is finished: every slot has been visited. -/
def passFinished (s : State) : Bool :=
  decide (333 ≤ s.sst.scrubPos) && !scrubOnPort s

/-- When the first step of a new pass is due: now, or when the last step's 20 ms are over. -/
def firstStepDue (s : State) : Nat :=
  match s.sst.scrubDue with
  | none => s.now
  | some d => max s.now d

/-- The scrub period ends: a finished pass gives way to a new one, and an unfinished one is an overrun. -/
def endPeriod (s : State) : State :=
  let t := { s with sst := { s.sst with periodEnd := s.sst.periodEnd.map (· + 60000) } }
  if passFinished s then { t with sst := { t.sst with scrubPos := 0, scrubDue := some (firstStepDue s) } }
  else postReport .store { t with sst := { t.sst with overrun := true } }

/-- The running period is over. -/
def periodOver (s : State) : Bool :=
  reached s.now s.sst.periodEnd

/-- SCRUB_PERIOD_END (R31). -/
def execScrubPeriodEnd (s : State) : Host.Outcome State Fault Refusal :=
  event (periodOver s) s endPeriod

/-! ## The start-up pass -/

/-- The start-up check (R32). -/
def startCheckOf (s : State) : StartCheck :=
  if !stampStanding s then .noStamp
  else if stampMatches s (contentSum s.sst.cells) then .isMatch
  else .sumMismatch

/-- The pass is over: the check is made, the result posted and handed on. -/
def endStartUp (s : State) : State :=
  let c := startCheckOf s
  leaveStarting c (postReport .store { s with sst := { s.sst with
    startCheck := some c, result := if c = .isMatch then .passed else s.sst.result } })

/-- The OPTIONS-defaults flag once the start-up pass has read a slot. -/
def defaultsAfter (i : Slot) (s : State) : State :=
  { s with sst := { s.sst with optionsDefaults :=
    if i = optionsSlot then decide (s.cond i = .corrupt) else s.sst.optionsDefaults } }

/-- The slot after this one in scrub order. -/
def slotAfter (i : Slot) : Option Slot :=
  if h : i.val + 1 < 333 then some ⟨i.val + 1, h⟩ else none

/-- A slot read of the start-up pass ends, and the next read starts; after the last the check is made. -/
def startupRead (i : Slot) (s : State) : State :=
  let t := defaultsAfter i (correctSlot i s)
  let u := freePort { t with sst := { t.sst with startup := slotAfter i } }
  if (slotAfter i).isNone then endStartUp u else u

/-- STARTUP_SLOT_READ (R32). -/
def execStartupSlotRead (s : State) : Host.Outcome State Fault Refusal :=
  match readEnded s with
  | some (.startup i) => event true s (startupRead i)
  | _ => .next s

/-! ## Evaluation reads -/

/-- A lever's record is read for an evaluation. A record that the read makes CORRUPT is told to its users, and the
demands fall that rest on it, before the lever is judged (R29, R94, R96). -/
def readForEvaluation (l : Lever) (s : State) : State :=
  let t := markRead (leverSlot l) s
  if t.cond (leverSlot l) = s.cond (leverSlot l) then t else recompute t

/-- The read of an evaluation ends: the record is delivered, the port is free, and a live evaluation is judged. -/
def evaluationRead (l : Lever) (live : Bool) (s : State) : State :=
  let t := freePort (readForEvaluation l s)
  if live && decide (t.lle.eval = some l) then finishEvaluation l (slotCopy t (leverSlot l)) t else t

/-- EVALUATION_READ_COMPLETE (R78). -/
def execEvaluationReadComplete (s : State) : Host.Outcome State Fault Refusal :=
  match readEnded s with
  | some (.evaluation l live) => event true s (evaluationRead l live)
  | _ => .next s

end Sys2Proof.Machine
end

