-- ==== Sys2Proof/Machine/Releases.lean ====
section
/-!
DEFINITION. The Signal and Route Controller's commands: TIME_RELEASE, ALL_SIGNALS_ON and the time deadline (R98, R105, R108).
-/

namespace Sys2Proof.Machine

/-- A duration in units of 100 ms, two bytes. -/
def unitsBytes (ms : Nat) : List Byte :=
  twoBytes (ms / 100)

/-- The release state after the acceptance of a time release (R103). -/
def timed : ReleaseState → ReleaseState
  | .waitingTrain => .timing
  | .trainPassing => .trainPassing
  | .timing => .timing

/-- The slot number of a lever's signal slot; 0 when it holds none. -/
def slotNumberOf (s : State) (l : Lever) : Nat :=
  match slotOfLever s l with
  | none => 0
  | some n => n.val + 1

/-- TIME_RELEASE's judgement by the SRC. -/
def timeRelease (p : List Byte) (s : State) : Answer × State :=
  match leverOf (byteAt p 0) with
  | none => (.badField 0, s)
  | some l =>
    if s.mode = .starting then (.wrongMode, s)
    else
      match entryOf s l with
      | none => (.refused 11, s)
      | some e =>
        if e.deadline.isSome then (.refused 10, s)
        else
          let t := effectiveTime s.tbm.state e.time
          (.ok (byteOf (slotNumberOf s l) :: unitsBytes t),
            tellEntry l (modEntry l (fun e => { e with deadline := some (s.now + t), state := timed e.state }) s))

/-- TIME_RELEASE (R105). -/
def execTimeRelease (s : State) : Host.Outcome State Fault Refusal :=
  serve .timeRelease timeRelease s

/-- The entry's time deadline is reached. -/
def releaseOver (s : State) (l : Lever) : Bool :=
  match entryOf s l with
  | none => false
  | some e => reached s.now e.deadline

/-- TIME_DEADLINE (R108). -/
def execTimeDeadline (l : Lever) (s : State) : Host.Outcome State Fault Refusal :=
  event (releaseOver s l) s (removeEntry .timeRelease l)

/-- The signals whose sticks ALL_SIGNALS_ON sets. -/
def sticksToSet (s : State) : Nat :=
  (List.finRange 24).countP fun n => slotReverse s n && !(s.signal n).stick

/-- ALL_SIGNALS_ON's judgement by the SRC. The demands fall at the event's end. -/
def allSignalsOn (_ : List Byte) (s : State) : Answer × State :=
  if s.mode = .starting then (.wrongMode, s)
  else (.ok [byteOf (sticksToSet s)], setSticks (fun _ => true) s)

/-- ALL_SIGNALS_ON (R98). -/
def execAllSignalsOn (s : State) : Host.Outcome State Fault Refusal :=
  serve .allSignalsOn allSignalsOn s

end Sys2Proof.Machine
end

