-- ==== Sys2Proof/Machine/Block.lean ====
section
/-!
DEFINITION. The Block Section Controller's commands: COMMUTATOR, SECTION_RELEASE, the sense filter and the deadlines
(chapter 8).
-/

namespace Sys2Proof.Machine

/-! ## COMMUTATOR (R131 to R133) -/

/-- The home lever copy's clearing point is CLEAR: every circuit of its ToReverse TRACK terms. -/
def clearingPoint (s : State) (home : List Byte) : Bool :=
  (toReverse home).all fun t =>
    match termTrack t with
    | none => true
    | some tc => (s.track tc).state = .clear

/-- On a SINGLE line nothing of this box's opposes a train coming towards it. -/
def singleUnopposed (s : State) (x : Line) (bs : List Byte) : Bool :=
  !workedSingle bs ||
    (startingNormal s bs && sensedBlocked (s.block x).out.sensed && (s.block x).out.offer.isNone)

/-- The offer held REPEATED, ready to be given line clear. -/
def repeatedOffer (i : Incoming) : Option BellCode :=
  match i.offer with
  | none => none
  | some o => if o.repeated then some o.code else none

/-- The conditions of LINE_CLEAR that need the line's record, passed over while it is not sound; those that need the
home lever copy likewise. The answer is the reason of the first that fails. -/
def lineClearRecord (s : State) (x : Line) : Option Nat :=
  match lineRecord s x with
  | none => some 16
  | some bs =>
    let home := (s.block x).homeCopy
    if !homeNormal s bs then some 7
    else if leverSound home && !clearingPoint s (copyBytes home) then some 8
    else if !singleUnopposed s x bs then some 9
    else if !leverSound home then some 16
    else none

/-- The first failing condition of COMMUTATOR to LINE_CLEAR, as its reason. -/
def lineClearFails (s : State) (x : Line) : Option Nat :=
  if (s.block x).inc.state ≠ .blocked then some 6
  else if (repeatedOffer (s.block x).inc).isNone then some 3
  else
    match lineClearRecord s x with
    | some reason => some reason
    | none => if s.bsc.cut10 then some 17 else none

/-- Line clear is given. -/
def giveLineClear (i : Incoming) : Incoming :=
  { i with
    state := .lineClear, accepted := repeatedOffer i, offer := none, cancel := false, step := .none
    event := .lineClearGiven }

/-- The line's record is sound and group 10 not cut: the last two conditions of each move. -/
def recordAndDrive (s : State) (x : Line) : Option Nat :=
  if !lineSound s x then some 16 else if s.bsc.cut10 then some 17 else none

/-- The first failing condition of COMMUTATOR to TRAIN_ON_LINE. -/
def onLineFails (s : State) (x : Line) : Option Nat :=
  match lineRecord s x with
  | none => some 16
  | some bs =>
    if (s.block x).inc.state = .blocked ∧ workedSingle bs = true ∧ startingNormal s bs = false then some 9
    else recordAndDrive s x

/-- The section is placed at TRAIN_ON_LINE, from LINE_CLEAR or as an obstruction from BLOCKED. -/
def placeOnLine (entryClear : Bool) (i : Incoming) : Incoming :=
  { i with
    state := .trainOnLine, step := if entryClear then .none else .entryOcc, offer := none
    event := if i.state = .blocked then .obstruction else .trainOnLine }

/-- The entry circuit of the line's sound record is CLEAR. -/
def entryClear (s : State) (x : Line) : Bool :=
  match lineRecord s x with
  | none => false
  | some bs => circuitClear s (entryTc bs)

/-- The section's own condition for being blocked back (R133). -/
def blockBackFails (i : Incoming) : Option Nat :=
  match i.state with
  | .lineClear => if i.cancel then none else some 5
  | .trainOnLine => if i.step = .proven ∨ i.release = .runOut then none else some 4
  | .blocked => none

/-- The first failing condition of COMMUTATOR to BLOCKED. -/
def blockedFails (s : State) (x : Line) : Option Nat :=
  match blockBackFails (s.block x).inc with
  | some reason => some reason
  | none => recordAndDrive s x

/-- The section is blocked back. -/
def blockBack (i : Incoming) : Incoming :=
  { i with
    state := .blocked, accepted := none, cancel := false, step := .none, release := .none, alarm := false
    event := .blocked }

/-- A move of the commutator by its judgement. -/
def moveCommutator (x : Line) (fails : Option Nat) (f : Incoming → Incoming) (s : State) : Answer × State :=
  match fails with
  | some reason => (.refused reason, s)
  | none => (.ok [], changeInc x f s)

/-- The position of a COMMUTATOR field. -/
def positionOf (n : Nat) : Option InState :=
  match n with
  | 0 => some .blocked
  | 1 => some .lineClear
  | 2 => some .trainOnLine
  | _ => none

/-- COMMUTATOR's judgement by the BSC (R131). -/
def commutator (p : List Byte) (s : State) : Answer × State :=
  match lineOf (byteAt p 0), positionOf (byteAt p 1) with
  | some x, some pos =>
    if s.mode ≠ .openBox then (.wrongMode, s)
    else if pos = (s.block x).inc.state then (.ok [], s)
    else
      match pos with
      | .lineClear => moveCommutator x (lineClearFails s x) giveLineClear s
      | .trainOnLine => moveCommutator x (onLineFails s x) (placeOnLine (entryClear s x)) s
      | .blocked => moveCommutator x (blockedFails s x) blockBack s
  | none, _ => (.badField 0, s)
  | _, none => (.badField 1, s)

/-- COMMUTATOR (R131). -/
def execCommutator (s : State) : Host.Outcome State Fault Refusal :=
  serve .commutator commutator s

/-! ## SECTION_RELEASE (R136) -/

/-- The entry circuit of the line's sound record is OCCUPIED; with no sound record it is passed over (log 54). -/
def entryOccupiedNow (s : State) (x : Line) : Bool :=
  match lineRecord s x with
  | none => false
  | some bs => !circuitClear s (entryTc bs)

/-- T_eff of a section release asked for now, from the OPTIONS record as read at the request (R44, R106). -/
def releaseTime (s : State) : Nat :=
  effectiveTime s.tbm.state (sectionReleaseMs (slotCopy s optionsSlot))

/-- SECTION_RELEASE's judgement by the BSC, its OPTIONS read already judged. -/
def judgeSectionRelease (x : Line) (s : State) : Answer × State :=
  let i := (s.block x).inc
  if s.mode ≠ .openBox ∧ s.mode ≠ .switchedOut then (.wrongMode, s)
  else if (s.block x).frozen = true ∨ i.state ≠ .trainOnLine ∨ entryOccupiedNow s x = true then (.refused 11, s)
  else if !lineSound s x then (.refused 16, s)
  else if i.release ≠ .none then (.refused 10, s)
  else if i.step = .proven then (.refused 6, s)
  else
    let t := markRead optionsSlot s
    (.ok (unitsBytes (releaseTime t)),
      changeInc x (fun i => { i with release := .running (t.now + releaseTime t) }) t)

/-- SECTION_RELEASE's judgement on its line. -/
def sectionRelease (p : List Byte) (s : State) : Answer × State :=
  match lineOf (byteAt p 0) with
  | none => (.badField 0, s)
  | some x => judgeSectionRelease x s

/-- SECTION_RELEASE (R136). -/
def execSectionRelease (s : State) : Host.Outcome State Fault Refusal :=
  serve .sectionRelease sectionRelease s

/-- A running section release's deadline is reached; it stands still while the record is not sound (R127). -/
def sectionReleaseOver (s : State) (x : Line) : Bool :=
  match (s.block x).inc.release with
  | .none => false
  | .runOut => false
  | .running d => decide (d ≤ s.now) && lineSound s x

/-- SECTION_RELEASE_RUN_OUT (R136). -/
def execSectionReleaseRunOut (x : Line) (s : State) : Host.Outcome State Fault Refusal :=
  event (sectionReleaseOver s x) s (changeInc x fun i => { i with release := .runOut })

/-! ## Offers (R130) -/

/-- The expiry deadline of the offer held on a side. -/
def offerDeadline (s : State) (x : Line) : Side → Option Nat
  | .incoming => (s.block x).inc.offer.map fun o => o.expiry
  | .outgoing => (s.block x).out.offer.map fun o => o.expiry

/-- The offer of a side expires. -/
def expireOffer (x : Line) (side : Side) (s : State) : State :=
  match side with
  | .incoming => changeInc x (fun i => { i with offer := none, event := .offerExpired }) s
  | .outgoing => changeOut x (fun o => { o with offer := none, event := .offerExpired }) s

/-- The offer's deadline is reached. -/
def offerOver (s : State) (x : Line) (side : Side) : Bool :=
  reached s.now (offerDeadline s x side)

/-- OFFER_EXPIRY (R130). -/
def execOfferExpiry (x : Line) (side : Side) (s : State) : Host.Outcome State Fault Refusal :=
  event (offerOver s x side) s (expireOffer x side)

/-! ## Sensing (R126, R137) -/

/-- The reading of a sense pair. -/
def pairReading (p n : Bool) : Sensed :=
  match p, n with
  | false, false => .blocked
  | true, false => .lineClear
  | false, true => .trainOnLine
  | true, true => .senseFault

/-- The outgoing record after the sensed state takes a reading: the release is made available by BLOCKED going to
LINE_CLEAR on a sound record, which removes the outgoing offer, and lost by leaving LINE_CLEAR. -/
def takeReading (sound : Bool) (v : Sensed) (o : Outgoing) : Outgoing :=
  if v = o.sensed then o
  else if o.sensed = .blocked ∧ v = .lineClear then
    let w := { o with sensed := v, offer := none }
    if sound then { w with release := true, event := .releaseSet } else w
  else if o.sensed = .lineClear then loseRelease .releaseLost { o with sensed := v }
  else { o with sensed := v }

/-- The filter, and the leads, show an accepted pair. -/
def acceptPair (x : Line) (p n : Bool) (s : State) : State :=
  { s.modOut x (fun o => { o with candidate := pairReading p n, count := 0 }) with
    leads := { s.leads with
      senseP := s.leads.senseP.set x.place p
      senseN := s.leads.senseN.set x.place n } }

/-- A new reading is accepted: on a frozen line it is held by the filter only, and elsewhere the sensed state
follows. -/
def senseAccepted (x : Line) (p n : Bool) (s : State) : State :=
  let v := pairReading p n
  changeOut x (fun o =>
    let r := { o with reading := some v }
    if (s.block x).frozen then r else takeReading (lineSound s x) v r) (acceptPair x p n s)

/-- SENSE_READING_ACCEPTED (R126): a reading other than the one the filter holds. -/
def execSenseReadingAccepted (x : Line) (p n : Bool) (s : State) : Host.Outcome State Fault Refusal :=
  event (decide ((s.block x).out.reading ≠ some (pairReading p n))) s (senseAccepted x p n)

end Sys2Proof.Machine
end

