-- ==== Sys2Proof/Machine/HostLink.lean ====
section
/-!
DEFINITION. The Host Link Controller's own commands: bytes and frames received, the gap deadline, the requests that the HLC
answers itself, the completion of a host read, and the end of a frame sent (chapter 1).
-/

namespace Sys2Proof.Machine

/-! ## Receiving (R4, R5) -/

/-- A complete frame, given whole (log 10): the receiver judges it as it would on taking its last byte. A payload of more
than 240 bytes has a length byte that the receiver discards. -/
def receiveFrame (kind tag : Byte) (payload : List Byte) (check : Word16) (s : State) : State :=
  if payload.length ≤ 240 then judgeFrame ⟨kind, tag, payload⟩ (checkOf kind tag payload) check s
  else discardFrame s

/-- FRAME_RECEIVED (R4). -/
def execFrameReceived (kind tag : Byte) (payload : List Byte) (check : Word16) (s : State) :
    Host.Outcome State Fault Refusal :=
  event true s (receiveFrame kind tag payload check)

/-- BYTE_RECEIVED (R4), or a byte with a framing error (R5). -/
def execByteReceived (byte : Byte) (stopGood : Bool) (s : State) : Host.Outcome State Fault Refusal :=
  event true s (if stopGood then takeByte byte else takeBadByte)

/-- A partial frame's gap deadline is reached. -/
def gapOver (s : State) : Bool :=
  decide (s.hlc.rx.framing ≠ .hunt) && reached s.now s.hlc.rx.gap

/-- GAP_DEADLINE (R5). -/
def execGapDeadline (s : State) : Host.Outcome State Fault Refusal :=
  event (gapOver s) s discardFrame

/-! ## Requests that the HLC answers (R7, R10, R11) -/

/-- The servable request, when its kind is not assigned. -/
def servableUnknown (s : State) : Option Frame :=
  match servable s with
  | none => none
  | some f => if requestKind f.kind = none then some f else none

/-- UNKNOWN_KIND (R7). -/
def execUnknownKind (s : State) : Host.Outcome State Fault Refusal :=
  match servableUnknown s with
  | none => .next s
  | some f => .next (finish (replyHead f .unknownKind s))

/-- IDENTIFY (R10): a good request asks for a read of the header and stays at the head. -/
def execIdentify (s : State) : Host.Outcome State Fault Refusal :=
  match servableOf s .identify with
  | none => .next s
  | some f =>
    match payloadFault .identify f.payload with
    | some reason => .next (finish (replyHead f (.badField reason) s))
    | none => .next (finish (askHostRead headerSlot s))

/-- QUERY's answer: the content of the source as a report would carry it. -/
def queryRequest (p : List Byte) (s : State) : Answer × State :=
  match sourceOf (byteAt p 0) (byteAt p 1) with
  | none => (.badField 1, s)
  | some src => (.ok (sourceBytes src ++ contentOf s src), s)

/-- QUERY (R11). -/
def execQuery (s : State) : Host.Outcome State Fault Refusal :=
  serve .query queryRequest s

/-! ## The completion of a host read (R7, R10, R27) -/

/-- IDENTIFY's 20 bytes of data. -/
def identityData (s : State) : List Byte :=
  storedIdentity s ++ wordBytes (issueNumber s) ++
  [byteOf (modeCode s.mode), byteOf (causeCode s.bmc.cause), byteOf (storeStateCode s.sst.state),
    byteOf (timebaseCode s.tbm.state), byteOf (s.hlc.baud.val * 16),
    byteOf (min 15 s.hlc.discarded * 16 + min 15 s.hlc.unanswered)]

/-- Forming the IDENTIFY reply sets both link counts to 0. -/
def clearCounts (s : State) : State :=
  { s with hlc := { s.hlc with discarded := 0, unanswered := 0 } }

/-- STORE_READ's data: region, slot, condition, and the slot's bytes as read. -/
def readData (i : Slot) (s : State) : List Byte :=
  [byteOf (regionCode (slotRegion i)), byteOf (slotNumber i), byteOf (condCode (s.cond i))] ++
    slotBytes s.sst.cells i

/-- The reply of the request that waited for a read of slot `i`. -/
def answerRead (i : Slot) (f : Frame) (s : State) : State :=
  if requestKind f.kind = some .identify then clearCounts (replyHead f (.ok (identityData s)) s)
  else replyHead f (.ok (readData i s)) s

/-- A host read ends: the slot is judged, as every read is (R29; for IDENTIFY against R10, log 46), the port freed, and the
waiting request answered, behind whatever replies wait (log 45). -/
def hostRead (i : Slot) (s : State) : State :=
  let t := freePort (markRead i s)
  match t.hlc.requests with
  | [] => { t with hlc := { t.hlc with hostWait := false } }
  | f :: _ => answerRead i f t

/-- HOST_READ_COMPLETE (R7). -/
def execHostReadComplete (s : State) : Host.Outcome State Fault Refusal :=
  match readEnded s with
  | some (.host i) => event true s (hostRead i)
  | _ => .next s

/-! ## Sending (R12, R16) -/

/-- The frame is the reply to an accepted RESTART. -/
def isRestartReply (f : Frame) : Bool :=
  f.kind == 0xB1 && f.payload.head? == some 0

/-- The frame on the wire has left: the line is at mark. After the reply to an accepted RESTART, the restart takes
effect and no other frame is taken (R16). -/
def frameSent (w : WireFrame) (s : State) : State :=
  { s with hlc := { s.hlc with
      wire := none
      restartSent := s.hlc.restartSent || (s.hlc.restartPending && isRestartReply w.frame) } }

/-- TRANSMIT_FRAME_END (R12). -/
def execTransmitFrameEnd (s : State) : Host.Outcome State Fault Refusal :=
  match s.hlc.wire with
  | none => .next s
  | some w => event true s (frameSent w)

end Sys2Proof.Machine
end

