-- ==== Sys2Proof/Machine/Reset.lean ====
section
/-!
DEFINITION. The three kinds of reset (R159): what each block holds afterwards, and what the store keeps of an operation that
the reset cut short (R33).
-/

namespace Sys2Proof.Machine

/-! ## What the store keeps (R33) -/

/-- Of the words from `lo` to below `hi`, those that the free value picks out are erased; the others are unchanged
(log 3). -/
def partlyErased (reach : Nat → Nat) (lo hi : Nat) (cells : List (Nat × StoreWord)) : List (Nat × StoreWord) :=
  cells.filter fun c => decide (c.1 < lo) || decide (hi ≤ c.1) || decide (reach c.1 % 2 = 0)

/-- Of the words to be programmed from an address on, those that `done` picks out have been written. -/
def partlyProgrammed (done : Nat → Bool) (cells : List (Nat × StoreWord)) (a : Nat) :
    List Word16 → List (Nat × StoreWord)
  | [] => cells
  | v :: rest => partlyProgrammed done (if done a then cellProgram cells a v else cells) (a + 1) rest

/-- The words of a slot program that a reset finds written. The commit word of a header is written last (R18), so with
it every other word of the header is written too. -/
def programDone (reach : Nat → Nat) (i : Slot) (a : Nat) : Bool :=
  if slotRegion i = .header then
    if reach 31 % 2 = 1 then true else decide (a ≠ 31) && decide (reach a % 2 = 1)
  else reach a % 2 = 1

/-- A header word after a rewrite that a reset cut short: unchanged, erased, or as written. -/
def rewriteWord (reach : Nat → Nat) (cells : List (Nat × StoreWord)) (words : List Word16) (a : Nat) : StoreWord :=
  match reach a % 3 with
  | 0 => cellRead cells a
  | 1 => erasedWord
  | _ => freshWord (words.getD a 0xFFFF)

/-- A header after a rewrite that a reset cut short: the old header, its commit word `commit` not yet voided; or a header
that is not valid, its commit word voided or erased. -/
def partlyRewritten (reach : Nat → Nat) (words : List Word16) (commit : StoreWord) (cells : List (Nat × StoreWord)) :
    List (Nat × StoreWord) :=
  if reach 31 % 4 = 0 then cellWrite cells 31 commit
  else
    (List.range 31).foldl (fun c a => cellWrite c a (rewriteWord reach cells words a))
      (if reach 31 % 2 = 0 then cells else cellWrite cells 31 erasedWord)

/-- The address lies in a programmed slot, which a validation pass reads. -/
def inProgrammed (cells : List (Nat × StoreWord)) (a : Nat) : Bool :=
  allSlots.any fun i => decide (slotBase i ≤ a) && decide (a < slotEnd i) && !slotErased cells i

/-- After a validation pass that a reset cut short: of the correctable words the pass reads, those that the free value
picks out have been corrected in place. -/
def partlyCorrected (reach : Nat → Nat) (cells : List (Nat × StoreWord)) : List (Nat × StoreWord) :=
  cellCorrectAt (fun a => decide (reach a % 2 = 1) && inProgrammed cells a) cells

/-- What the operation running leaves. A pass that still waits for the port has read nothing. -/
def opRemains (reach : Nat → Nat) (s : State) (op : StoreOp) (cells : List (Nat × StoreWord)) :
    List (Nat × StoreWord) :=
  match op with
  | .wipe r => partlyErased reach (regionBase r) (regionEnd r) cells
  | .erase r => partlyErased reach (regionBase r) (regionEnd r) cells
  | .program i words => partlyProgrammed (programDone reach i) cells (slotBase i) words
  | .stampRemoval _ => if reach 10 % 2 = 1 then cellProgram cells 10 0 else cells
  | .lockSet r => if reach 7 % 2 = 1 then cellProgram cells 7 (lockWord 0xFFFF r) else cells
  | .unlock r commit => partlyRewritten reach (unlockedWords s r) commit cells
  | .stampWrite sum _ commit => partlyRewritten reach (stampedWords s sum) commit cells
  | .validate true => partlyCorrected reach cells
  | .validate false => cells

/-- The store's contents after a reset: what the operation running leaves, and a suspended erase its region. A scrub step
or start-up read that the reset cut short leaves the words of its slot uncorrected (log 52). -/
def survivingCells (s : State) : List (Nat × StoreWord) :=
  let reach := Config.resetReach s.resets
  let cells :=
    match s.sst.op with
    | none => s.sst.cells
    | some r => opRemains reach s r.op s.sst.cells
  match s.sst.suspended with
  | none => cells
  | some e => partlyErased reach (regionBase e.region) (regionEnd e.region) cells

/-! ## The blocks after a reset -/

/-- The SST: its contents kept, and the start-up pass reading the header (R32). -/
def sstAfter (now : Nat) (cells : List (Nat × StoreWord)) : Sst :=
  { Sst.afterReset with
    cells := cells
    port := ⟨some (.startup headerSlot, now + regionReadTime .header + 3 * slotCorrectables cells headerSlot), []⟩ }

/-- The TCR: each filter at the level its input reads (R53, R69). -/
def tcrAfter (leads : Leads) : Table 24 Track :=
  leads.tcin.map fun v => { Track.afterReset with filter := ⟨v, 0⟩ }

/-- The BLC: each filter at the level bell-in reads, the last beat end at the reset's end (R123). -/
def blcAfter (now : Nat) (leads : Leads) : Table 3 BellLine :=
  leads.bellIn.map fun v => { BellLine.afterReset with filter := ⟨v, 0⟩, lastBeatEnd := now }

/-- The BSC: each sense filter begins from the pair it reads, with no reading accepted (R126, R141). -/
def bscAfter (leads : Leads) : Bsc where
  lines := Table.build fun x => { BlockLine.afterReset with out :=
    { Outgoing.afterReset with candidate := pairReading (leads.senseP.get x) (leads.senseN.get x) } }
  cut10 := false

/-- The VOD: every output draining from the reset's end, and the first round begun (R149). -/
def vodAfter (now : Nat) : Vod :=
  { Vod.afterReset with
    outs := .fill 76 ⟨.off, false, .none, some now, .off⟩
    roundStart := now
    nextDue := some (now + 40)
    refresh := some ⟨0, .fill 8 .off, none, now + 1⟩ }

/-- The part as a reset of the given cause ends. The tick count runs on, the leads read what they read, and the
commands still waiting wait on (log 11). -/
def resetPart (cause : RestartCause) (s : State) : State where
  now := s.now
  resetAt := s.now
  resets := s.resets + 1
  leads := s.leads
  hlc := { Hlc.afterReset with baud := baudCode s.leads.baud1 s.leads.baud0 }
  sst := sstAfter s.now (survivingCells s)
  tcr := tcrAfter s.leads
  lle := ⟨.fill 48 .afterReset, [], none⟩
  src := ⟨.fill 24 .afterReset, [], .fill 3 none⟩
  blc := blcAfter s.now s.leads
  bsc := bscAfter s.leads
  vod := vodAfter s.now
  icc := .afterReset
  bmc := { Bmc.afterReset with cause := cause }
  tbm := .afterReset
  pending := s.pending

/-! ## Commands -/

/-- POWER_ON (R159). -/
def execPowerOn (s : State) : Host.Outcome State Fault Refusal :=
  .next (resetPart .powerOn s)

/-- RESET_PIN (R159). -/
def execResetPin (s : State) : Host.Outcome State Fault Refusal :=
  .next (resetPart .resetPin s)

/-- The reply to an accepted RESTART is the frame on the wire. -/
def restartReplyOnWire (s : State) : Bool :=
  match s.hlc.wire with
  | none => false
  | some w => isRestartReply w.frame

/-- A restart is pending, and its reply has left the transmitter or leaves it now. -/
def restartDue (s : State) : Bool :=
  s.hlc.restartPending && (s.hlc.restartSent || restartReplyOnWire s)

/-- RESTART_EFFECT (R16): the effect of the reset pin, with restart cause RESTART. -/
def execRestartEffect (s : State) : Host.Outcome State Fault Refusal :=
  .next (if restartDue s then resetPart .restart s else s)

end Sys2Proof.Machine
end

