-- ==== Sys2Proof/Machine/Tick.lean ====
section
/-!
DEFINITION. What the part does with no command waiting (log 4): the transmitter takes its next frame; or every event now due
is queued as a command; or one tick passes, in which the filters and the scan chain sample their inputs.

A timed event is due exactly where its command's own guard holds, so each command queued here has its effect, and the
time does not advance while an event is due.
-/

namespace Sys2Proof.Machine

/-! ## Events due -/

/-- A command that is due where `b` holds. -/
def dueIf (b : Bool) (c : Instr) : List Instr :=
  if b then [c] else []

/-- The command that serves a request of each kind. -/
def serving : Option RequestKind → Instr
  | none => .unknownKind
  | some .identify => .identify
  | some .query => .query
  | some .leverEnquiry => .leverEnquiry
  | some .faultAck => .faultAck
  | some .timeRelease => .timeRelease
  | some .allSignalsOn => .allSignalsOn
  | some .tcTest => .tcTest
  | some .bellSend => .bellSend
  | some .commutator => .commutator
  | some .sectionRelease => .sectionRelease
  | some .mode => .mode
  | some .restart => .restart
  | some .timebaseRestore => .timebaseRestore
  | some .timebaseTest => .timebaseTest
  | some .lampTest => .lampTest
  | some .storeOpen => .storeOpen
  | some .storeClose => .storeClose
  | some .storeErase => .storeErase
  | some .storeProgram => .storeProgram
  | some .storeRead => .storeRead
  | some .storeSuspend => .storeSuspend
  | some .storeResume => .storeResume
  | some .storeLock => .storeLock
  | some .validate => .validate

/-- The link's events: a frame sent, a restart, a gap, and the request at the head. -/
def dueLink (s : State) : List Instr :=
  dueIf (reached s.now (s.hlc.wire.map fun w => w.endsAt)) .transmitFrameEnd ++
  dueIf (s.hlc.restartPending && s.hlc.restartSent) .restartEffect ++
  dueIf (gapOver s) .gapDeadline ++
  match servable s with
  | none => []
  | some f => [serving (requestKind f.kind)]

/-- The end of the read on the port; a validation pass ends as a store operation. -/
def dueRead (s : State) : List Instr :=
  match readEnded s with
  | none => []
  | some (.evaluation _ _) => [.evaluationReadComplete]
  | some (.host _) => [.hostReadComplete]
  | some (.scrub _) => [.scrubStepEnd]
  | some (.startup _) => [.startupSlotRead]
  | some .validation => []

/-- The end of the store operation running. -/
def dueOp (s : State) : List Instr :=
  match opOver s with
  | none => []
  | some (.wipe _) => [.wipeRegionEnd]
  | some (.erase _) => [.regionEraseEnd]
  | some (.program _ _) => [.slotProgramEnd]
  | some (.stampRemoval _) => [.stampRemovalEnd]
  | some (.lockSet _) => [.lockSetEnd]
  | some (.unlock _ _) => [.headerRewriteEnd]
  | some (.stampWrite _ _ _) => [.headerRewriteEnd]
  | some (.validate true) => [.validationPassEnd]
  | some (.validate false) => []

/-- The store's other events. -/
def dueStore (s : State) : List Instr :=
  dueRead s ++ dueOp s ++ dueIf (passMayStart s) .validationPassStart ++ dueIf (scrubMayStart s) .scrubStep ++
    dueIf (periodOver s) .scrubPeriodEnd

/-- The deadlines of a track circuit. -/
def dueTrack (s : State) (tc : Tc) : List Instr :=
  dueIf (lapseDue s tc) (.measurementLapse tc) ++ dueIf (dropDue s tc) (.dropDeadline tc) ++
    dueIf (testDue s tc) (.testDeadline tc)

/-- The deadlines of a lever and of its route lock entry. -/
def dueLever (s : State) (l : Lever) : List Instr :=
  dueIf (freeingOverdue s l) (.freeingExpired l) ++ dueIf (releaseOver s l) (.timeDeadline l)

/-- The deadlines of a line. -/
def dueLine (s : State) (x : Line) : List Instr :=
  dueIf (codeEndsNow s x) (.codeEndDeadline x) ++ dueIf (stuckDue s x) (.stuckLimit x) ++
  dueIf (stepOver .sounding s x) (.soundingEnd x) ++ dueIf (stepOver .spacing s x) (.spacingEnd x) ++
  dueIf (stepOver .trailing s x) (.trailingEnd x) ++ dueIf (offerOver s x .incoming) (.offerExpiry x .incoming) ++
  dueIf (offerOver s x .outgoing) (.offerExpiry x .outgoing) ++
  dueIf (sectionReleaseOver s x) (.sectionReleaseRunOut x)

/-- What ODRB reads of a group. -/
def groupReadings (s : State) (g : Group) : Byte :=
  groupBits g fun o => s.leads.odrb.get o

/-- The readings of the group under refresh. -/
def readingsNow (s : State) : Byte :=
  match s.vod.refresh with
  | none => 0
  | some r => groupReadings s r.group

/-- The events of the vital outputs, the indication chain, the mode and the timebase. -/
def dueBox (s : State) : List Instr :=
  dueIf (firstReadDue s) (.firstReadBack (readingsNow s)) ++ dueIf (retryReadDue s) (.retryReadBack (readingsNow s)) ++
  dueIf (roundIsDue s) .roundDue ++ dueIf (chainFrameOver s) .chainFrameEnd ++
  dueIf (toggleDue s) .flashPhaseToggle ++ dueIf (refreshDue s) .fullRefresh ++
  dueIf (lampTestOver s) .lampTestDeadline ++ dueIf (holdOver s) .resetHoldRunOut ++
  dueIf (startUpDue s) .startUpTickLimit

/-- Every event due now. -/
def due (s : State) : List Instr :=
  dueLink s ++ dueStore s ++ (List.finRange 24).flatMap (dueTrack s) ++ (List.finRange 48).flatMap (dueLever s) ++
    allLines.flatMap (dueLine s) ++ dueBox s

/-! ## Sampling -/

/-- A level filter's next reading (R53, R112). -/
def sampleLevel (lead : Bool) (f : LevelFilter) : LevelFilter :=
  if lead = f.level then ⟨f.level, 0⟩ else ⟨f.level, f.count + 1⟩

/-- The filter accepts a change of level at its `need`-th equal reading. -/
def levelAccepted (need : Nat) (f : LevelFilter) : Bool :=
  need ≤ f.count

/-- Each track code input is read, and an edge accepted at the tenth reading (R53). -/
def sampleTracks (s : State) : State :=
  { s with tcr := Table.build fun tc =>
      { s.track tc with filter := sampleLevel (s.leads.tcin.get tc) (s.track tc).filter } }

/-- The accepted edges of the track code inputs. -/
def trackEdges (s : State) : List Instr :=
  (List.finRange 24).flatMap fun tc =>
    dueIf (levelAccepted 10 (s.track tc).filter)
      (if (s.track tc).filter.level then .trackFallingEdge tc else .trackRisingEdge tc)

/-- Each bell-in is read, and an edge accepted at the fifth reading (R112). -/
def sampleBells (s : State) : State :=
  { s with blc := Table.build fun x =>
      let b := s.blc.get x
      { b with filter := sampleLevel (s.leads.bellIn.get x) b.filter } }

/-- The accepted edges of the bell-ins. -/
def bellEdges (s : State) : List Instr :=
  allLines.flatMap fun x =>
    dueIf (levelAccepted 5 (s.bell x).filter)
      (if (s.bell x).filter.level then .bellFallingEdge x else .bellRisingEdge x)

/-- A sense filter's next reading (R126): its count of equal readings, up to 200. -/
def samplePair (v : Sensed) (o : Outgoing) : Outgoing :=
  if v = o.candidate then { o with count := min 200 (o.count + 1) } else { o with candidate := v, count := 1 }

/-- Each sense pair is read. -/
def sampleSenses (s : State) : State :=
  { s with bsc := { s.bsc with lines := Table.build fun x =>
      let b := s.bsc.lines.get x
      { b with out := samplePair (pairReading (s.leads.senseP.get x) (s.leads.senseN.get x)) b.out } } }

/-- The readings accepted at the 200th equal one. -/
def senseEdges (s : State) : List Instr :=
  allLines.flatMap fun x =>
    let o := (s.block x).out
    dueIf (decide (200 ≤ o.count) && decide (o.reading ≠ some o.candidate))
      (.senseReadingAccepted x (s.leads.senseP.get x.place) (s.leads.senseN.get x.place))

/-- An input's next scan (R72). -/
def scanInput (lead : Bool) (i : ScanInput) : ScanInput :=
  if lead = i.accepted then ⟨i.accepted, 0⟩ else ⟨i.accepted, i.count + 1⟩

/-- A change is accepted at the fourth equal scan. -/
def scanAccepted (i : ScanInput) : Bool :=
  4 ≤ i.count

/-- The value an input has after the scan. -/
def scanValue (i : ScanInput) : Bool :=
  i.accepted != scanAccepted i

/-- The lever scan chain is read every 5 ms from the end of the reset. -/
def scanNow (s : State) : Bool :=
  (s.now - s.resetAt) % 5 == 0

/-- Every lever's inputs are scanned. -/
def scanLevers (s : State) : State :=
  { s with lle := { s.lle with levers := Table.build fun l =>
      let v := s.lle.levers.get l
      { v with
        normal := scanInput (s.leads.normal.get l) v.normal
        reverse := scanInput (s.leads.reverse.get l) v.reverse
        grip := scanInput (s.leads.grip.get l) v.grip } } }

/-- The events of the levers with a change accepted. -/
def leverEdges (s : State) : List Instr :=
  (List.finRange 48).flatMap fun l =>
    let v := s.lever l
    dueIf (scanAccepted v.normal || scanAccepted v.reverse || scanAccepted v.grip)
      (.leverEvent l (scanValue v.normal) (scanValue v.reverse) (scanValue v.grip))

/-! ## The tick -/

/-- The tick count rises, and in STARTING_TB the start-up tick count with it (R167). -/
def countTick (s : State) : State :=
  { s with
    now := s.now + 1
    tbm := if s.tbm.state = .startingTb then { s.tbm with startTicks := s.tbm.startTicks + 1 } else s.tbm }

/-- One tick passes: every input is sampled, and the edges accepted wait as commands. -/
def tick (s : State) : State :=
  let t := sampleSenses (sampleBells (sampleTracks (countTick s)))
  let u := if scanNow t then scanLevers t else t
  { u with pending :=
      trackEdges u ++ bellEdges u ++ senseEdges u ++ if scanNow t then leverEdges u else [] }

/-- The transmitter is free and has a frame to take. -/
def transmitterDue (s : State) : Bool :=
  lineFree s && (!s.hlc.replies.isEmpty || (!s.hlc.restartPending && !s.hlc.reports.isEmpty))

/-- The step of the part with no command waiting. -/
def idle (s : State) : State :=
  if transmitterDue s then takeFrame s
  else
    match due s with
    | [] => tick s
    | c :: rest => { s with pending := c :: rest }

end Sys2Proof.Machine
end

