-- ==== Sys2Proof/Machine/Dispatch.lean ====
section
/-!
DEFINITION. The meaning of each command: one direct call an arm.
-/

namespace Sys2Proof.Machine

/-- The command's effect on everything but the queue of waiting commands. -/
def exec (i : Instr) (s : State) : Host.Outcome State Fault Refusal :=
  match i with
  | .powerOn => Sys2Proof.Machine.execPowerOn s
  | .resetPin => Sys2Proof.Machine.execResetPin s
  | .restartEffect => Sys2Proof.Machine.execRestartEffect s
  | .frameReceived kind tag payload check => Sys2Proof.Machine.execFrameReceived kind tag payload check s
  | .gapDeadline => Sys2Proof.Machine.execGapDeadline s
  | .unknownKind => Sys2Proof.Machine.execUnknownKind s
  | .identify => Sys2Proof.Machine.execIdentify s
  | .hostReadComplete => Sys2Proof.Machine.execHostReadComplete s
  | .query => Sys2Proof.Machine.execQuery s
  | .leverEnquiry => Sys2Proof.Machine.execLeverEnquiry s
  | .faultAck => Sys2Proof.Machine.execFaultAck s
  | .timeRelease => Sys2Proof.Machine.execTimeRelease s
  | .allSignalsOn => Sys2Proof.Machine.execAllSignalsOn s
  | .tcTest => Sys2Proof.Machine.execTcTest s
  | .bellSend => Sys2Proof.Machine.execBellSend s
  | .commutator => Sys2Proof.Machine.execCommutator s
  | .sectionRelease => Sys2Proof.Machine.execSectionRelease s
  | .mode => Sys2Proof.Machine.execMode s
  | .restart => Sys2Proof.Machine.execRestart s
  | .timebaseRestore => Sys2Proof.Machine.execTimebaseRestore s
  | .timebaseTest => Sys2Proof.Machine.execTimebaseTest s
  | .lampTest => Sys2Proof.Machine.execLampTest s
  | .storeOpen => Sys2Proof.Machine.execStoreOpen s
  | .storeClose => Sys2Proof.Machine.execStoreClose s
  | .storeErase => Sys2Proof.Machine.execStoreErase s
  | .storeProgram => Sys2Proof.Machine.execStoreProgram s
  | .storeRead => Sys2Proof.Machine.execStoreRead s
  | .storeSuspend => Sys2Proof.Machine.execStoreSuspend s
  | .storeResume => Sys2Proof.Machine.execStoreResume s
  | .storeLock => Sys2Proof.Machine.execStoreLock s
  | .validate => Sys2Proof.Machine.execValidate s
  | .stampRemovalEnd => Sys2Proof.Machine.execStampRemovalEnd s
  | .regionEraseEnd => Sys2Proof.Machine.execRegionEraseEnd s
  | .wipeRegionEnd => Sys2Proof.Machine.execWipeRegionEnd s
  | .slotProgramEnd => Sys2Proof.Machine.execSlotProgramEnd s
  | .lockSetEnd => Sys2Proof.Machine.execLockSetEnd s
  | .headerRewriteEnd => Sys2Proof.Machine.execHeaderRewriteEnd s
  | .validationPassStart => Sys2Proof.Machine.execValidationPassStart s
  | .validationPassEnd => Sys2Proof.Machine.execValidationPassEnd s
  | .scrubStep => Sys2Proof.Machine.execScrubStep s
  | .scrubPeriodEnd => Sys2Proof.Machine.execScrubPeriodEnd s
  | .startupSlotRead => Sys2Proof.Machine.execStartupSlotRead s
  | .trackRisingEdge tc => Sys2Proof.Machine.execTrackRisingEdge tc s
  | .trackFallingEdge tc => Sys2Proof.Machine.execTrackFallingEdge tc s
  | .measurementLapse tc => Sys2Proof.Machine.execMeasurementLapse tc s
  | .dropDeadline tc => Sys2Proof.Machine.execDropDeadline tc s
  | .testDeadline tc => Sys2Proof.Machine.execTestDeadline tc s
  | .leverEvent l n r g => Sys2Proof.Machine.execLeverEvent l n r g s
  | .evaluationReadComplete => Sys2Proof.Machine.execEvaluationReadComplete s
  | .freeingExpired l => Sys2Proof.Machine.execFreeingExpired l s
  | .timeDeadline l => Sys2Proof.Machine.execTimeDeadline l s
  | .bellRisingEdge x => Sys2Proof.Machine.execBellRisingEdge x s
  | .bellFallingEdge x => Sys2Proof.Machine.execBellFallingEdge x s
  | .codeEndDeadline x => Sys2Proof.Machine.execCodeEndDeadline x s
  | .stuckLimit x => Sys2Proof.Machine.execStuckLimit x s
  | .soundingEnd x => Sys2Proof.Machine.execSoundingEnd x s
  | .spacingEnd x => Sys2Proof.Machine.execSpacingEnd x s
  | .trailingEnd x => Sys2Proof.Machine.execTrailingEnd x s
  | .offerExpiry x side => Sys2Proof.Machine.execOfferExpiry x side s
  | .senseReadingAccepted x p n => Sys2Proof.Machine.execSenseReadingAccepted x p n s
  | .sectionReleaseRunOut x => Sys2Proof.Machine.execSectionReleaseRunOut x s
  | .roundDue => Sys2Proof.Machine.execRoundDue s
  | .firstReadBack readings => Sys2Proof.Machine.execFirstReadBack readings s
  | .retryReadBack readings => Sys2Proof.Machine.execRetryReadBack readings s
  | .chainFrameEnd => Sys2Proof.Machine.execChainFrameEnd s
  | .flashPhaseToggle => Sys2Proof.Machine.execFlashPhaseToggle s
  | .fullRefresh => Sys2Proof.Machine.execFullRefresh s
  | .lampTestDeadline => Sys2Proof.Machine.execLampTestDeadline s
  | .resetHoldRunOut => Sys2Proof.Machine.execResetHoldRunOut s
  | .timebaseWindow good => Sys2Proof.Machine.execTimebaseWindow good s
  | .startUpTickLimit => Sys2Proof.Machine.execStartUpTickLimit s
  | .transmitFrameEnd => Sys2Proof.Machine.execTransmitFrameEnd s
  | .byteReceived b stopGood => Sys2Proof.Machine.execByteReceived b stopGood s
  | .scrubStepEnd => Sys2Proof.Machine.execScrubStepEnd s

end Sys2Proof.Machine
end

