-- ==== Sys2Proof/Safety.lean ====
section
/-!
DEFINITION. The terms in which claims speak: the properties the part's manual promises at all times, what a command
leaves unchanged, and what a request's answer and a posted report look like.
-/

namespace Sys2Proof

open Sys2Proof.Machine

/-! ## Sound states -/

/-- The step gives a next state: the part neither faults nor refuses. -/
def Runs (s : State) : Prop :=
  ∃ t, step s = .next t

/-- No signal's output demand stands without everything that R93 asks of it. -/
def SignalsProved (s : State) : Prop :=
  demandsJustified s = true

/-- Every signal's output demand is true just when all that R93 asks of it holds. -/
def DemandsSettled (s : State) : Prop :=
  ∀ n, (s.signal n).demand = demandJustified s n

/-- The store's contents are in canonical form. -/
def StoreCanonical (s : State) : Prop :=
  Memory.wf s.sst.cells = true

/-- The request queue keeps its limit of 4 (R6). -/
def RequestsBounded (s : State) : Prop :=
  s.hlc.requests.length ≤ 4

/-- The report queue holds each source at most once (R13). -/
def ReportsOnce (s : State) : Prop :=
  s.hlc.reports.Nodup

/-- The freeing queue holds each lever at most once, and not the lever under evaluation (R77, R78). -/
def FreeingOnce (s : State) : Prop :=
  s.lle.queue.Nodup ∧ ∀ l, s.lle.eval = some l → l ∉ s.lle.queue

/-- The route lock list holds at most one entry of each signal lever (R101). -/
def RouteLocksOnce (s : State) : Prop :=
  (s.src.locks.map fun e => e.lever).Nodup

/-! ## What a command leaves unchanged

An aspect is a part of the state that changes as a whole in a claim's view. Together the aspects are the whole state. -/

/-- The aspects of the state, block by block. -/
inductive Aspect where
  /-- The tick count. -/
  | clock
  /-- The tick of the last reset and the count of resets. -/
  | resets
  | leads
  /-- The frame being received. -/
  | receiver
  /-- The request queue, and whether its head waits for a read. -/
  | requests
  /-- The reply queue and the frame on the wire. -/
  | replies
  | reports
  /-- The restart-pending flag, and whether its reply has been sent. -/
  | restart
  /-- The discarded-frame and unanswered-request counts. -/
  | counts
  | baud
  /-- The words of the store. -/
  | cells
  /-- The store's state and operations. -/
  | storeOp
  /-- The validation result with its warnings, and the start-up check. -/
  | result
  /-- The record condition table, the last change of it, and the OPTIONS-defaults flag. -/
  | conds
  | port
  | startup
  | scrub
  | overrun
  | track (tc : Tc)
  | lever (l : Lever)
  /-- The freeing queue and the lever under evaluation. -/
  | freeing
  /-- Which lever each signal slot is assigned to, with its record. -/
  | slots
  /-- The output demands and sticks of the signals. -/
  | demands
  /-- The removal causes of the signals. -/
  | removals
  | locks
  | srcLines
  /-- A bell line but for its receive queue. -/
  | bell (x : Line)
  /-- A bell line's receive queue, with its discarded and auto-refused flags. -/
  | received (x : Line)
  | incoming (x : Line)
  | outgoing (x : Line)
  /-- A line's record copies. -/
  | lineRecords (x : Line)
  /-- A line's last code and last code action. -/
  | lastCode (x : Line)
  | frozen (x : Line)
  /-- The tick of the last fall of a line's starting signal. -/
  | demandFell (x : Line)
  | bscCut
  /-- The demands told to the vital output driver. -/
  | outputDemands
  /-- The outputs' read-backs, faults and last pulses, with what the pulses carried. -/
  | drives
  | cuts
  | vodOptions
  /-- The refresh round, its timing and its overruns. -/
  | round
  /-- The images of the indication chain and the frames wanted and in flight. -/
  | lamps
  /-- The flash phase and the deadlines of the indication chain. -/
  | lampTimers
  | testDone
  | lampRecords
  | mode
  | hold
  /-- The rest of the Box Mode Controller. -/
  | box
  | timebase
  | pending
deriving DecidableEq, Repr

/-- An aspect is the same in two states. -/
def same (s t : State) : Aspect → Prop
  | .clock => t.now = s.now
  | .resets => t.resetAt = s.resetAt ∧ t.resets = s.resets
  | .leads => t.leads = s.leads
  | .receiver => t.hlc.rx = s.hlc.rx
  | .requests => t.hlc.requests = s.hlc.requests ∧ t.hlc.hostWait = s.hlc.hostWait
  | .replies => t.hlc.replies = s.hlc.replies ∧ t.hlc.wire = s.hlc.wire
  | .reports => t.hlc.reports = s.hlc.reports
  | .restart => t.hlc.restartPending = s.hlc.restartPending ∧ t.hlc.restartSent = s.hlc.restartSent
  | .counts => t.hlc.discarded = s.hlc.discarded ∧ t.hlc.unanswered = s.hlc.unanswered
  | .baud => t.hlc.baud = s.hlc.baud
  | .cells => t.sst.cells = s.sst.cells
  | .storeOp => t.sst.state = s.sst.state ∧ t.sst.op = s.sst.op ∧ t.sst.returnTo = s.sst.returnTo ∧
      t.sst.suspended = s.sst.suspended
  | .result => t.sst.result = s.sst.result ∧ t.sst.warnings = s.sst.warnings ∧ t.sst.startCheck = s.sst.startCheck
  | .conds => t.sst.conds = s.sst.conds ∧ t.sst.lastChange = s.sst.lastChange ∧
      t.sst.optionsDefaults = s.sst.optionsDefaults
  | .port => t.sst.port = s.sst.port
  | .startup => t.sst.startup = s.sst.startup
  | .scrub => t.sst.scrubPos = s.sst.scrubPos ∧ t.sst.scrubDue = s.sst.scrubDue ∧ t.sst.periodEnd = s.sst.periodEnd
  | .overrun => t.sst.overrun = s.sst.overrun
  | .track tc => t.track tc = s.track tc
  | .lever l => t.lever l = s.lever l
  | .freeing => t.lle.queue = s.lle.queue ∧ t.lle.eval = s.lle.eval
  | .slots => ∀ n, (t.signal n).lever = (s.signal n).lever ∧ (t.signal n).copy = (s.signal n).copy
  | .demands => ∀ n, (t.signal n).demand = (s.signal n).demand ∧ (t.signal n).stick = (s.signal n).stick
  | .removals => ∀ n, (t.signal n).removal = (s.signal n).removal
  | .locks => t.src.locks = s.src.locks
  | .srcLines => t.src.lines = s.src.lines
  | .bell x => t.bell x = { s.bell x with
      received := (t.bell x).received, discarded := (t.bell x).discarded, autoRefused := (t.bell x).autoRefused }
  | .received x => (t.bell x).received = (s.bell x).received ∧ (t.bell x).discarded = (s.bell x).discarded ∧
      (t.bell x).autoRefused = (s.bell x).autoRefused
  | .incoming x => (t.block x).inc = (s.block x).inc
  | .outgoing x => (t.block x).out = (s.block x).out
  | .lineRecords x => (t.block x).copy = (s.block x).copy ∧ (t.block x).homeCopy = (s.block x).homeCopy
  | .lastCode x => (t.block x).lastCode = (s.block x).lastCode ∧ (t.block x).lastAction = (s.block x).lastAction
  | .frozen x => (t.block x).frozen = (s.block x).frozen
  | .demandFell x => (t.block x).demandFell = (s.block x).demandFell
  | .bscCut => t.bsc.cut10 = s.bsc.cut10
  | .outputDemands => ∀ o, (t.output o).demand = (s.output o).demand
  | .drives => ∀ o, (t.output o).readBack = (s.output o).readBack ∧ (t.output o).fault = (s.output o).fault ∧
      (t.output o).lastPulse = (s.output o).lastPulse ∧ (t.output o).carried = (s.output o).carried
  | .cuts => t.vod.cuts = s.vod.cuts
  | .vodOptions => t.vod.options = s.vod.options
  | .round => t.vod = { s.vod with outs := t.vod.outs, cuts := t.vod.cuts, options := t.vod.options }
  | .lamps => t.icc.desired = s.icc.desired ∧ t.icc.sent = s.icc.sent ∧ t.icc.dirty = s.icc.dirty ∧
      t.icc.phaseDue = s.icc.phaseDue ∧ t.icc.frame = s.icc.frame ∧ t.icc.allOnPending = s.icc.allOnPending
  | .lampTimers => t.icc.phase = s.icc.phase ∧ t.icc.toggleAt = s.icc.toggleAt ∧
      t.icc.refreshAt = s.icc.refreshAt ∧ t.icc.testUntil = s.icc.testUntil
  | .testDone => t.icc.testDone = s.icc.testDone
  | .lampRecords => t.icc.copies = s.icc.copies
  | .mode => t.mode = s.mode
  | .hold => t.bmc.hold = s.bmc.hold
  | .box => t.bmc = { s.bmc with mode := t.bmc.mode, hold := t.bmc.hold }
  | .timebase => t.tbm = s.tbm
  | .pending => t.pending = s.pending

/-- Between two states only the aspects listed may differ. -/
def Changes (as : List Aspect) (s t : State) : Prop :=
  ∀ a, a ∉ as → same s t a

/-- What the end of any event may change: the demands are recomputed and told (R94), the freeing queue's head taken
(R78), and a reply or report taken by the transmitter (R12, R15). -/
def endOfEvent : List Aspect :=
  [.replies, .reports, .port, .overrun, .freeing, .demands, .received .a, .received .b, .received .c,
    .demandFell .a, .demandFell .b, .demandFell .c, .outputDemands, .lamps, .testDone]

/-- What changes of a lever, a track circuit or a section record may change at the blocks told of them: the freeing
queue, the route locks and sticks, the sections and the ENTERING they ask for, the lamps, and the reports. -/
def tellings : List Aspect :=
  [.locks, .removals, .incoming .a, .incoming .b, .incoming .c, .outgoing .a, .outgoing .b, .outgoing .c,
    .bell .a, .bell .b, .bell .c, .received .a, .received .b, .received .c,
    .freeing, .port, .demands, .outputDemands, .lamps, .reports]

/-- What a change of an incoming section record may change. -/
def incomingTold (x : Line) : List Aspect :=
  [.incoming x, .freeing, .outputDemands, .lamps, .reports]

/-- What a change of an outgoing section record may change. -/
def outgoingTold (x : Line) : List Aspect :=
  [.outgoing x, .freeing, .lamps, .reports]

/-- All three lines' sections. -/
def sectionsTold : List Aspect :=
  incomingTold .a ++ incomingTold .b ++ incomingTold .c ++ outgoingTold .a ++ outgoingTold .b ++ outgoingTold .c

/-- Every track circuit. -/
def allTracks : List Aspect :=
  (List.finRange 24).map .track

/-- What a change of the timebase state may change at the blocks told of it. -/
def timebaseTold : List Aspect :=
  [.timebase, .hold, .locks] ++ sectionsTold ++ allTracks

/-- Every lever. -/
def allLevers : List Aspect :=
  (List.finRange 48).map .lever

/-- What the end of a refresh may change at the owners told. -/
def ownersTold : List Aspect :=
  [.box, .bscCut] ++ tellings ++ allLevers

/-- What the end of a group's refresh may change. -/
def refreshEnded : List Aspect :=
  [.drives, .round, .cuts, .demandFell .a, .demandFell .b, .demandFell .c] ++ ownersTold

/-- What the telling of a record may change at its users. -/
def usersTold : List Aspect :=
  [.slots, .srcLines, .lineRecords .a, .lineRecords .b, .lineRecords .c, .vodOptions, .lampRecords] ++ ownersTold ++
    allTracks

/-- What a read of a slot may change by what it finds. -/
def recordRead : List Aspect :=
  .conds :: usersTold

/-- What a change of the store's contents may change. -/
def contentsChanged : List Aspect :=
  [.cells, .storeOp, .result] ++ recordRead

/-- What switching out and in may change of the lines. -/
def throughChanged : List Aspect :=
  [.frozen .a, .frozen .b, .frozen .c, .bell .a, .bell .b, .bell .c] ++ sectionsTold

/-- What a change of mode may change. -/
def modeChanged : List Aspect :=
  [.mode, .hold, .scrub] ++ throughChanged ++ recordRead

/-- What a code completed or sent on a line may change: its bells, its sections and its last code. -/
def codeHeard (x : Line) : List Aspect :=
  [.bell x, .received x, .lastCode x, .incoming x, .outgoing x]

/-- The three incoming sections. -/
def incomings : List Aspect :=
  [.incoming .a, .incoming .b, .incoming .c]

/-- What a command other than a reset may change, beside what the end of its event may: the widest of its outcomes. -/
def touches : Instr → List Aspect
  | .powerOn => []
  | .resetPin => []
  | .restartEffect => []
  | .frameReceived _ _ _ _ => [.receiver, .requests, .counts]
  | .gapDeadline => [.receiver, .counts]
  | .unknownKind => [.requests]
  | .identify => [.requests]
  | .hostReadComplete => [.requests, .counts] ++ recordRead
  | .query => [.requests]
  | .leverEnquiry => [.requests]
  | .faultAck => .requests :: allLevers ++ tellings
  | .timeRelease => [.requests, .locks]
  | .allSignalsOn => [.requests]
  | .tcTest => .requests :: allTracks ++ tellings
  | .bellSend => [.requests, .bell .a, .bell .b, .bell .c]
  | .commutator => .requests :: incomings
  | .sectionRelease => .requests :: incomings ++ recordRead
  | .mode => .requests :: modeChanged
  | .restart => [.requests, .restart]
  | .timebaseRestore => .requests :: timebaseTold
  | .timebaseTest => .requests :: timebaseTold
  | .lampTest => [.requests, .lampTimers]
  | .storeOpen => .requests :: contentsChanged
  | .storeClose => [.requests, .storeOp]
  | .storeErase => .requests :: contentsChanged
  | .storeProgram => [.requests, .storeOp, .result]
  | .storeRead => [.requests]
  | .storeSuspend => [.requests, .storeOp]
  | .storeResume => [.requests, .storeOp]
  | .storeLock => [.requests, .storeOp, .cells]
  | .validate => [.requests, .storeOp]
  | .stampRemovalEnd => contentsChanged
  | .regionEraseEnd => contentsChanged
  | .wipeRegionEnd => contentsChanged
  | .slotProgramEnd => contentsChanged
  | .lockSetEnd => [.storeOp, .cells]
  | .headerRewriteEnd => [.storeOp, .cells, .result]
  | .validationPassStart => [.storeOp]
  | .validationPassEnd => contentsChanged
  | .scrubStep => [.scrub]
  | .scrubPeriodEnd => [.scrub]
  | .startupSlotRead => [.cells, .startup, .result, .lampTimers] ++ modeChanged
  | .trackRisingEdge tc => .leads :: .track tc :: tellings
  | .trackFallingEdge tc => [.leads, .track tc]
  | .measurementLapse tc => [.track tc]
  | .dropDeadline tc => .track tc :: tellings
  | .testDeadline tc => [.track tc]
  | .leverEvent l _ _ _ => .leads :: .lever l :: tellings
  | .evaluationReadComplete => recordRead
  | .freeingExpired l => .lever l :: tellings
  | .timeDeadline _ => [.locks, .removals]
  | .bellRisingEdge x => [.leads, .bell x]
  | .bellFallingEdge x => .leads :: codeHeard x
  | .codeEndDeadline x => codeHeard x
  | .stuckLimit x => codeHeard x
  | .soundingEnd x => codeHeard x
  | .spacingEnd x => [.bell x]
  | .trailingEnd x => [.bell x]
  | .offerExpiry x .incoming => [.incoming x]
  | .offerExpiry x .outgoing => [.outgoing x]
  | .senseReadingAccepted x _ _ => [.leads, .outgoing x]
  | .sectionReleaseRunOut x => [.incoming x]
  | .roundDue => [.drives, .round]
  | .firstReadBack _ => refreshEnded
  | .retryReadBack _ => refreshEnded
  | .chainFrameEnd => []
  | .flashPhaseToggle => [.lampTimers]
  | .fullRefresh => [.lampTimers]
  | .lampTestDeadline => [.lampTimers]
  | .resetHoldRunOut => [.hold]
  | .timebaseWindow _ => timebaseTold
  | .startUpTickLimit => timebaseTold
  | .transmitFrameEnd => [.restart]
  | .byteReceived _ _ => [.receiver, .requests, .counts]
  | .scrubStepEnd => .cells :: recordRead

/-! ## Resets -/

/-- The command `c` is a reset that takes place, of the cause given: a power-on, the reset pin, or a pending restart
whose reply has left the transmitter or leaves it now (R16, R159). -/
def ResetBy (cause : RestartCause) (c : Instr) (s : State) : Prop :=
  (c = .powerOn ∧ cause = .powerOn) ∨ (c = .resetPin ∧ cause = .resetPin) ∨
    (c = .restartEffect ∧ cause = .restart ∧ restartDue s = true)

/-! ## Requests and reports -/

/-- The request `f` is at the head of the queue and is to be served: no reply waits, no restart is pending, and no
read is waited for (R7). -/
def AtHead (s : State) (f : Frame) (rest : List Frame) : Prop :=
  s.hlc.requests = f :: rest ∧ s.hlc.replies = [] ∧ s.hlc.restartPending = false ∧ s.hlc.hostWait = false

/-- The request `f` has left the queue, and its reply has been placed: on the wire when the line was free, with the
tick at which it will have left, and otherwise in the reply queue (R7, R9, R12). That tick is rounded up, the model's
reading (log 8), in every statement that speaks of a reply. -/
def Replied (f : Frame) (rest : List Frame) (reply : Frame) (s t : State) : Prop :=
  t.hlc.requests = rest ∧ t.hlc.hostWait = false ∧ reply.tag = f.tag ∧
  (if s.hlc.wire = none ∧ s.hlc.restartSent = false then
    t.hlc.replies = [] ∧ t.hlc.wire =
      some ⟨reply, frameBytes reply, s.now + wireTicks s.hlc.baud (frameBytes reply).length⟩
  else t.hlc.replies = [reply] ∧ t.hlc.wire = s.hlc.wire)

/-- The reply of a result code, a reason byte and reply data to a request of an assigned kind (R9). -/
def reply (f : Frame) (result reason : Nat) (data : List Byte) : Frame :=
  ⟨f.kind + 0x80, f.tag, byteOf result :: byteOf reason :: data⟩

/-- The request `f` is answered by `c` with a result and a reason, and without reply data; nothing else changes but by the
event's end. -/
def AnswersOnly (c : Instr) (f : Frame) (rest : List Frame) (result reason : Nat) (s : State) : Prop :=
  ∃ t, exec c s = .next t ∧ Replied f rest (reply f result reason []) s t ∧ Changes (.requests :: endOfEvent) s t

/-- The store turns a request away: outside MAINTENANCE with WRONG_MODE, and there in every state but those that take it,
BUSY while an operation or a pass runs and STORE_STATE else (R20). -/
def StoreTurnsAway (c : Instr) (f : Frame) (rest : List Frame) (taken : List StoreState) (s : State) : Prop :=
  (s.mode ≠ .maintenance → AnswersOnly c f rest 3 0 s) ∧
  (s.mode = .maintenance → s.sst.state ∉ taken →
    (s.sst.state ∈ [StoreState.erasing, .programming, .validating] → AnswersOnly c f rest 4 0 s) ∧
    (s.sst.state ∈ [StoreState.closed, .openIdle, .eraseSuspended] → AnswersOnly c f rest 1 21 s))

/-- The command changes nothing at all: its event cannot occur now (log 6). -/
def NoEffect (c : Instr) (s : State) : Prop :=
  exec c s = .next s

/-- The deadline is absent, or still to come. -/
def NotYet (deadline : Option Nat) (s : State) : Prop :=
  ∀ d, deadline = some d → s.now < d

/-- A source has been posted: its entry is in the report queue, or its report is the frame on the wire (R13, R14). -/
def Posted (src : Source) (t : State) : Prop :=
  src ∈ t.hlc.reports ∨ ∃ w, t.hlc.wire = some w ∧ w.frame.kind = 0xFE ∧ w.frame.payload.take 2 = sourceBytes src

/-- The BELL report of a line goes out between the two states: the wire was free with no reply waiting, and carries it now
(R12, R15). -/
def BellReported (x : Line) (s t : State) : Prop :=
  s.hlc.wire = none ∧ s.hlc.replies = [] ∧
    ∃ w, t.hlc.wire = some w ∧ w.frame.kind = 0xFE ∧ w.frame.payload.take 2 = sourceBytes (.bell x)

/-- A completed code has been taken: it has joined a receive queue of fewer than 8, or is lost from a full one with the
discarded flag set (R116). A BELL report that goes out with it takes the oldest code and carries and clears the flag (R15). -/
def CodeTaken (x : Line) (r : CodeRecord) (s t : State) : Prop :=
  ((s.bell x).received.length < 8 →
    (¬BellReported x s t → (t.bell x).received = (s.bell x).received ++ [r] ∧ (t.bell x).discarded = (s.bell x).discarded) ∧
    (BellReported x s t → (t.bell x).received = ((s.bell x).received ++ [r]).drop 1)) ∧
  (8 ≤ (s.bell x).received.length →
    (¬BellReported x s t → (t.bell x).received = (s.bell x).received ∧ (t.bell x).discarded = true) ∧
    (BellReported x s t → (t.bell x).received = (s.bell x).received.drop 1 ∧ (t.bell x).discarded = false ∧
      ∀ w, t.hlc.wire = some w → (w.frame.payload.getD 2 0).getLsbD 0 = true))

/-- MODE is refused with CONDITIONS, the code and the object of a condition that fails, which the box keeps and posts; the
mode stays (R160, R163). -/
def RefusedFor (f : Frame) (rest : List Frame) (code object : Nat) (s : State) : Prop :=
  ∃ t, exec .mode s = .next t ∧ Replied f rest (reply f 1 1 [byteOf code, byteOf object]) s t ∧
    t.bmc = { s.bmc with refused := some (code, object) } ∧ Posted .mode t ∧
    Changes ([.requests, .box] ++ endOfEvent) s t

/-- Neither section record of the line differs. -/
def SectionsStand (x : Line) (s t : State) : Prop :=
  (t.block x).inc = (s.block x).inc ∧ (t.block x).out = (s.block x).out

/-! ## Circuits that change -/

/-- The drop deadline of a CLEAR circuit is reached: it becomes OCCUPIED (R57). -/
def DropsNow (s : State) (tc : Tc) : Prop :=
  (s.track tc).state = .clear ∧ ∃ d, (s.track tc).drop = some d ∧ d ≤ s.now

/-- A rising edge now closes a GOOD measurement of an OCCUPIED circuit, its count and its hold allowing it to become CLEAR
(R55, R56, R60). -/
def ClearsNow (s : State) (tc : Tc) : Prop :=
  (s.track tc).state = .occupied ∧ (s.track tc).filter.level = false ∧ (s.track tc).reading = true ∧
    (s.track tc).npuEff ≤ min 30 ((s.track tc).good + 1) ∧ (s.track tc).holdUntil ≤ s.now ∧
    ∃ opened high code, (s.track tc).meas = some ⟨opened, some high⟩ ∧ s.now < opened + 4095 ∧
      codeOf (s.track tc) = some code ∧ inBand code (s.now - opened) = true ∧
      s.now - opened ≤ high * 4 ∧ high * 4 ≤ (s.now - opened) * 3

/-! ## The checks on a scheme -/

/-- The thirteen checks of the validation pass, in their order (R46). -/
def schemeChecks : List (List Entry → Entry → Option Nat) :=
  [check1, check2, check3, check4, check5, check6, check7, check8, check9, check10, check11, check12, check13]

/-! ## Records as a command leaves them -/

/-- Two records of a bell line agree but for the receive queue and its two flags, which the sending of a BELL report at
the event's end may change (R15). -/
def BellAs (b c : BellLine) : Prop :=
  c = { b with received := c.received, discarded := c.discarded, autoRefused := c.autoRefused }

/-- A lever's input after a scan that reads the lead so (R72). -/
def scanned (lead : Bool) (i : ScanInput) : ScanInput :=
  ⟨i.accepted, if lead = i.accepted then 0 else i.count + 1⟩

/-- The value an input has after a scan that reads the lead so: it changes at the fourth equal scan (R72). -/
def valueScanned (lead : Bool) (i : ScanInput) : Bool :=
  if 3 ≤ i.count then lead else i.accepted

/-- A lever's record with the three inputs of a scan accepted (R72). -/
def accepted (v : LeverRec) (n r g : Bool) : LeverRec :=
  { v with normal := acceptInput n v.normal, reverse := acceptInput r v.reverse, grip := acceptInput g v.grip }

/-- A lever's record in FAULT of a cause (R76). -/
def faulted (why : FaultCause) (v : LeverRec) : LeverRec :=
  { notWaiting (freeingOver v) with state := .fault, cause := some why, event := .fault }

/-- A lever's record settled at the end its contacts show (R85). -/
def settled (why : LeverEvent) (v : LeverRec) : LeverRec :=
  { freeingOver v with state := if v.normal.accepted then .normal else .reverse, event := why }

/-- The state that a lever not SPARE is formed in, from its contacts (R91). -/
def contactState (v : LeverRec) : LeverState :=
  match v.normal.accepted, v.reverse.accepted with
  | true, true => .fault
  | true, false => .normal
  | false, true => .reverse
  | false, false => .transit

/-- A track circuit's record as it enters record fault with the copy `c` (R67). -/
def trackFaulted (now : Nat) (tb : TimebaseState) (c : Option RecordCopy) (v : Track) : Track :=
  { v with
    state := .occupied, reason := .recordFault, good := 0, holdUntil := now + holdOf v.copy, drop := none, meas := none
    test := none, reading := false, inFault := true, copy := c, npuEff := pickUpOf tb c
    occupations := if v.state = .clear then (v.occupations + 1) % 256 else v.occupations }

/-- The contacts show the end `e` and no other. -/
def shows (n r : Bool) : LeverEnd → Prop
  | .n => n = true ∧ r = false
  | .r => n = false ∧ r = true

/-! ## What a change tells

Between two states of one event, what a change of a lever's state or of a record does at the blocks told of it. -/

/-- The levers waiting on a lever, as the object or the qualifier of their failing term, are queued again (R82). -/
def WaitersQueued (l : Lever) (s t : State) : Prop :=
  ∀ m k x, m ≠ l → (s.lever m).waiting = true → (s.lever m).failing = some (k, x) →
    termLever x = some l ∨ (∃ e, termQualifier x = some (l, e)) → queuedOrEvaluated t m = true

/-- What a change of a lever's state tells (R75): the levers waiting on it are queued; at NORMAL its signal's stick is clear
(R96), and an arrival at ENTRY_CLEARED whose home lever it is goes to PROVEN (R135); at REVERSE its route lock entry is
removed with cause RE_PULL and every waiting lever queued (R104). -/
def LeverTold (l : Lever) (s t : State) : Prop :=
  WaitersQueued l s t ∧
  (∀ n, slotOfLever s l = some n →
    (t.leverState l = .normal → (s.signal n).demand = false → (t.signal n).stick = false) ∧
    (t.leverState l = .reverse → (entryOf s l).isSome = true → (t.signal n).removal = .rePull ∧
      Posted (.routeLock n) t ∧ ∀ m, m ≠ l → (s.lever m).waiting = true → queuedOrEvaluated t m = true)) ∧
  t.src.locks = (if t.leverState l = .reverse ∧ (slotOfLever s l).isSome = true then
    s.src.locks.filter (fun e => e.lever ≠ l) else s.src.locks) ∧
  (∀ x, lineRecord s x = none → (t.block x).inc = (s.block x).inc) ∧
  (∀ x bs, lineRecord s x = some bs → (t.block x).inc =
    if homeLever bs = some l ∧ t.leverState l = .normal ∧ (s.block x).frozen = false ∧
        (s.block x).inc.state = .trainOnLine ∧ (s.block x).inc.step = .entryCleared then
      { (s.block x).inc with step := .proven }
    else (s.block x).inc)

/-- A track circuit has taken its record as its slot now gives it: it enters record fault where the record is not sound,
leaves it OCCUPIED with its hold restarted where it is sound again, and else takes the record's fields alone (R66 to R68). -/
def TrackTold (tc : Tc) (s t : State) : Prop :=
  (∀ c, c = slotCopy t (trackSlot tc) → t.track tc =
    if trackSound c = true then
      if (s.track tc).inFault = true then { s.track tc with
        copy := c, npuEff := pickUpOf s.tbm.state c, good := 0, holdUntil := s.now + holdOf c, reading := true
        meas := none, inFault := false }
      else { s.track tc with copy := c, npuEff := pickUpOf s.tbm.state c }
    else if (s.track tc).inFault = true then { s.track tc with copy := c, npuEff := pickUpOf s.tbm.state c }
    else trackFaulted s.now s.tbm.state c (s.track tc)) ∧
  ((t.track tc).inFault ≠ (s.track tc).inFault → Posted (.track tc) t)

/-- A line's record has been taken as its slot now gives it: where it stops being sound LINE_CLEAR goes to TRAIN_ON_LINE and
the line-clear release is lost, and else both sections stand (R127). -/
def LineTold (x : Line) (s t : State) : Prop :=
  (t.block x).copy = slotCopy t (lineSlot x) ∧ t.src.lines.get x.place = slotCopy t (lineSlot x) ∧
  (lineSound s x = true ∧ lineSound t x = false →
    (t.block x).inc = (if (s.block x).inc.state = .lineClear then
      { (s.block x).inc with state := .trainOnLine, event := .recordFault } else (s.block x).inc) ∧
    (t.block x).out = (if (s.block x).out.release = true then
      { (s.block x).out with release := false, event := .releaseLost } else (s.block x).out)) ∧
  (lineSound s x = false ∨ lineSound t x = true → SectionsStand x s t) ∧
  ((t.block x).copy ≠ (s.block x).copy → Posted (.sect x .incoming) t ∧ Posted (.sect x .outgoing) t)

/-- A lever's record has been taken as its slot now gives it: an absent or SPARE record makes the lever SPARE with its lock
off, one that ends that forms the lever from its contacts (or in FAULT, R83), and any other is taken alone (R74). A lever
waiting for RECORD_FAULT is queued again (R82), and a signal has no demand under a record not sound (R93). -/
def LeverRecordTold (l : Lever) (s t : State) : Prop :=
  (∀ c, c = slotCopy t (leverSlot l) → (t.lever l).copy = c ∧
    (copySpare c = true → t.leverState l = .spare ∧ (s.leverState l ≠ .spare →
      (t.output (lockOutput l)).demand = .off ∧ queuedOrEvaluated t l = false ∧ Posted (.lever l) t)) ∧
    (copySpare c = false → s.leverState l = .spare → Posted (.lever l) t ∧
      (t.leverState l = contactState (s.lever l) ∨ t.leverState l = .fault)) ∧
    (copySpare c = false → s.leverState l ≠ .spare → t.lever l = { s.lever l with copy := c } ∧
      ((s.lever l).waiting = true → (s.lever l).withheld = some .recordFault → queuedOrEvaluated t l = true)) ∧
    (∀ n, slotOfLever s l = some n → (t.signal n).copy = c ∧ (leverSound c = false → (t.signal n).demand = false)))

/-! ## Rounds, read-backs and the chain -/

/-- A round has started: Tr is taken, its successor's due time set, and group 1's refresh begun (R145). -/
def RoundStarted (s t : State) : Prop :=
  (∃ q, t.vod.refresh = some q ∧ q.group = 0 ∧ q.first = none ∧ q.readAt = s.now + q.fixed.items.countP isOn + 1 ∧
    ∀ i o, groupOutput 0 i.val = some o → q.fixed.get i = commanded t o) ∧
  t.vod.interval = refreshInterval s.vod.options ∧ t.vod.roundStart = s.now ∧
  t.vod.nextDue = some (s.now + refreshInterval s.vod.options) ∧ t.vod.owed = false

/-- A verdict of NO_CURRENT on an output that was not at fault so before (R147). -/
def NewNoCurrent (s : State) (o : Output) (v : Judged) : Prop :=
  v = .noCurrent ∧ (s.output o).fault ≠ .noCurrent

/-- What the end of a refresh tells the lever of a lock output: the group's new cut withdraws its freeing (R86), and then a
new NO_CURRENT fault settles a lever FREED and not moved, faults one moved, and marks one in TRANSIT (R88). -/
def LockTold (l : Lever) (v : Judged) (newCut : Prop) (s t : State) : Prop :=
  (s.leverState l = .freed → newCut → t.lever l = settled .freeingWithdrawn (s.lever l)) ∧
  (s.leverState l = .freed → ¬newCut → NewNoCurrent s (lockOutput l) v →
    t.lever l = if (s.lever l).moved = true then faulted .lockFaultMoved (s.lever l)
      else settled .lockFault (s.lever l)) ∧
  (s.leverState l = .transit → ¬newCut → NewNoCurrent s (lockOutput l) v →
    t.lever l = { s.lever l with lockFault := true, event := .lockFault }) ∧
  (s.leverState l = .transit → newCut → ¬NewNoCurrent s (lockOutput l) v →
    t.lever l = { s.lever l with withdrawn := (s.lever l).withdrawn || (s.lever l).origin.isSome }) ∧
  (s.leverState l = .transit → newCut → NewNoCurrent s (lockOutput l) v →
    t.lever l = { s.lever l with
      withdrawn := (s.lever l).withdrawn || (s.lever l).origin.isSome, lockFault := true, event := .lockFault }) ∧
  (¬newCut → ¬NewNoCurrent s (lockOutput l) v → t.lever l = s.lever l) ∧
  (s.leverState l ≠ .freed → s.leverState l ≠ .transit → t.lever l = s.lever l) ∧
  (t.lever l ≠ s.lever l → Posted (.lever l) t) ∧
  (s.leverState l = .freed → t.leverState l ≠ .freed → (t.output (lockOutput l)).demand = .off)

/-- A ROWS frame over rows `a` to `b` is on the chain: two bits a lamp, four columns a byte, of the desired image as it
stood; its rows have entered the sent image, and it ends at the first tick after its bytes (R153). -/
def RowsSent (a b : Fin 32) (now : Nat) (before : Icc) (t : State) : Prop :=
  (∃ g, t.icc.frame = some g ∧ g.kind = .rows a b ∧ g.bytes.take 3 = [0x01, byteOf a.val, byteOf b.val] ∧
    g.bytes.length = 3 + 4 * (b.val + 1 - a.val) ∧ g.endsAt = now + (3 + 4 * (b.val + 1 - a.val) + 9) / 10 ∧
    ∀ (p : Fin 512), a.val ≤ p.val / 16 → p.val / 16 ≤ b.val → ∃ byte : Byte,
      g.bytes[3 + (p.val - 16 * a.val) / 4]? = some byte ∧
      byte.toNat / 4 ^ (3 - p.val % 4) % 4 = lampBits (before.desired.get p)) ∧
  (∀ p : Fin 512, t.icc.sent.get p =
    if a.val ≤ p.val / 16 ∧ p.val / 16 ≤ b.val then before.desired.get p else before.sent.get p)

/-- The chain, idle with the images and wants of `before`, has taken the first frame wanted: ALL_ON, then PHASE, then the
dirty rows, which no frame carries while a lamp test runs (R155). -/
def TakesNextFrame (now : Nat) (before : Icc) (t : State) : Prop :=
  (before.allOnPending = true → t.icc.allOnPending = false ∧ t.icc.frame = some ⟨.allOn, [0x03], now + 1⟩ ∧
    t.icc.phaseDue = before.phaseDue) ∧
  (before.allOnPending = false → before.phaseDue = true → t.icc.phaseDue = false ∧
    t.icc.frame = some ⟨.phase, [0x02, if before.phase = some true then 1 else 0], now + 1⟩) ∧
  (before.allOnPending = false → before.phaseDue = false → before.testUntil.isSome = true → t.icc.frame = none) ∧
  (∀ a b, before.allOnPending = false → before.phaseDue = false → before.testUntil = none →
    (dirtyRows before).head? = some a → (dirtyRows before).getLast? = some b → RowsSent a b now before t)

end Sys2Proof
end

