-- ==== Sys2Proof/Certificates/Slice0/Obligations.lean ====
section
/-!
DEFINITION. The statements for the provers: what each command does and leaves, chapter by chapter, and the properties that
every step keeps.
-/

open Sys2Proof Sys2Proof.Machine

/-! ## The step -/

/-- The command at the front of the queue is taken out and run on the rest of the state. The queue is the model's own
(log 4). -/
def Obligations.StepRunsTheFrontCommand : Prop :=
  ∀ (s : State) (c : Instr) (rest : List Instr), s.pending = c :: rest →
    step s = exec c { s with pending := rest }

/-- A command whose event cannot occur leaves the state exactly as it is: a request that is not the servable one of its
kind; a deadline absent or still to come; a read or an operation of another kind, or not at its end; an edge or a value
that the input holds already. A command put in from outside may be any at any time, and this is the model's choice for
those that cannot occur (log 6). -/
def Obligations.CommandThatCannotOccurChangesNothing : Prop :=
  (∀ (s : State) (k : Option RequestKind), (∀ f rest, AtHead s f rest → requestKind f.kind ≠ k) →
     NoEffect (serving k) s) ∧
  (∀ s : State,
     (s.hlc.wire = none → NoEffect .transmitFrameEnd s) ∧
     (restartDue s = false → NoEffect .restartEffect s) ∧
     (s.hlc.rx.framing = .hunt ∨ NotYet s.hlc.rx.gap s → NoEffect .gapDeadline s)) ∧
  (∀ s : State,
     ((∀ i d, s.sst.port.serving = some (.host i, d) → s.now < d) → NoEffect .hostReadComplete s) ∧
     ((∀ l live d, s.sst.port.serving = some (.evaluation l live, d) → s.now < d) →
       NoEffect .evaluationReadComplete s) ∧
     ((∀ i d, s.sst.port.serving = some (.scrub i, d) → s.now < d) → NoEffect .scrubStepEnd s) ∧
     ((∀ i d, s.sst.port.serving = some (.startup i, d) → s.now < d) → NoEffect .startupSlotRead s) ∧
     (scrubbing s.mode = false ∨ 333 ≤ s.sst.scrubPos ∨ s.sst.scrubDue = none ∨ NotYet s.sst.scrubDue s ∨
       portIdle s = false ∨ passWaits s = true → NoEffect .scrubStep s) ∧
     (NotYet s.sst.periodEnd s → NoEffect .scrubPeriodEnd s)) ∧
  (∀ s : State,
     ((∀ c d, s.sst.op = some ⟨.stampRemoval c, d⟩ → s.now < d) → NoEffect .stampRemovalEnd s) ∧
     ((∀ r d, s.sst.op = some ⟨.erase r, d⟩ → s.now < d) → NoEffect .regionEraseEnd s) ∧
     ((∀ r d, s.sst.op = some ⟨.wipe r, d⟩ → s.now < d) → NoEffect .wipeRegionEnd s) ∧
     ((∀ i words d, s.sst.op = some ⟨.program i words, d⟩ → s.now < d) → NoEffect .slotProgramEnd s) ∧
     ((∀ r d, s.sst.op = some ⟨.lockSet r, d⟩ → s.now < d) → NoEffect .lockSetEnd s) ∧
     ((∀ r commit d, s.sst.op = some ⟨.unlock r commit, d⟩ → s.now < d) →
       (∀ sum ws commit d, s.sst.op = some ⟨.stampWrite sum ws commit, d⟩ → s.now < d) →
       NoEffect .headerRewriteEnd s) ∧
     ((∀ d, s.sst.op = some ⟨.validate true, d⟩ → s.now < d) → NoEffect .validationPassEnd s) ∧
     (s.sst.port.serving.isSome = true ∨ (∀ d, s.sst.op ≠ some ⟨.validate false, d⟩) →
       NoEffect .validationPassStart s)) ∧
  (∀ (s : State) (tc : Tc),
     ((s.track tc).filter.level = true → NoEffect (.trackRisingEdge tc) s) ∧
     ((s.track tc).filter.level = false → NoEffect (.trackFallingEdge tc) s) ∧
     ((∀ m, (s.track tc).meas = some m → s.now < m.openedAt + 4095) → NoEffect (.measurementLapse tc) s) ∧
     ((s.track tc).state ≠ .clear ∨ NotYet (s.track tc).drop s → NoEffect (.dropDeadline tc) s) ∧
     (NotYet (s.track tc).test s → NoEffect (.testDeadline tc) s)) ∧
  (∀ (s : State) (l : Lever),
     NoEffect (.leverEvent l (s.lever l).normal.accepted (s.lever l).reverse.accepted (s.lever l).grip.accepted) s ∧
     (s.leverState l ≠ .freed ∨ NotYet (s.lever l).deadline s → NoEffect (.freeingExpired l) s) ∧
     ((∀ e, entryOf s l = some e → NotYet e.deadline s) → NoEffect (.timeDeadline l) s)) ∧
  (∀ (s : State) (x : Line),
     ((s.bell x).filter.level = true → NoEffect (.bellRisingEdge x) s) ∧
     ((s.bell x).filter.level = false → NoEffect (.bellFallingEdge x) s) ∧
     ((∀ c, (s.bell x).code = some c → s.now < c.lastFall + 1500) ∨ (s.bell x).rx = .idle ∨ (s.bell x).rx = .stuck ∨
       ((s.bell x).rx = .high ∧ ∃ h, (s.bell x).highStart = some h ∧
         ∀ c, (s.bell x).code = some c → h < c.lastFall + 1500) → NoEffect (.codeEndDeadline x) s) ∧
     ((s.bell x).rx ≠ .high ∨ (∃ h, (s.bell x).highStart = some h ∧ s.now < h + 5000) → NoEffect (.stuckLimit x) s) ∧
     ((s.bell x).sender ≠ .sounding ∨ NotYet (s.bell x).stepEnd s → NoEffect (.soundingEnd x) s) ∧
     ((s.bell x).sender ≠ .spacing ∨ NotYet (s.bell x).stepEnd s → NoEffect (.spacingEnd x) s) ∧
     ((s.bell x).sender ≠ .trailing ∨ NotYet (s.bell x).stepEnd s → NoEffect (.trailingEnd x) s) ∧
     ((∀ o, (s.block x).inc.offer = some o → s.now < o.expiry) → NoEffect (.offerExpiry x .incoming) s) ∧
     ((∀ o, (s.block x).out.offer = some o → s.now < o.expiry) → NoEffect (.offerExpiry x .outgoing) s) ∧
     ((∀ d, (s.block x).inc.release = .running d → s.now < d) ∨ lineSound s x = false →
       NoEffect (.sectionReleaseRunOut x) s) ∧
     (∀ p n, (s.block x).out.reading = some (pairReading p n) → NoEffect (.senseReadingAccepted x p n) s)) ∧
  (∀ s : State,
     (NotYet s.vod.nextDue s → NoEffect .roundDue s) ∧
     (∀ readings, (∀ r, s.vod.refresh = some r → r.first.isSome = true ∨ s.now < r.readAt) →
       NoEffect (.firstReadBack readings) s) ∧
     (∀ readings, (∀ r, s.vod.refresh = some r → r.first = none ∨ s.now < r.readAt) →
       NoEffect (.retryReadBack readings) s) ∧
     ((∀ fr, s.icc.frame = some fr → s.now < fr.endsAt) → NoEffect .chainFrameEnd s) ∧
     (NotYet s.icc.toggleAt s → NoEffect .flashPhaseToggle s) ∧ (NotYet s.icc.refreshAt s → NoEffect .fullRefresh s) ∧
     (NotYet s.icc.testUntil s → NoEffect .lampTestDeadline s) ∧ (NotYet s.bmc.hold s → NoEffect .resetHoldRunOut s) ∧
     (s.tbm.state ≠ .startingTb ∨ s.tbm.startTicks < 512 → NoEffect .startUpTickLimit s))

/-- The model's own step with an empty queue (log 4): a frame is taken by a free transmitter; else everything due now is
queued as commands; else one tick passes. It changes nothing but the count of ticks, the start-up tick count while the
timebase starts, the filters and the scan counts, and it queues only edges and readings accepted. Each input is sampled
as its rule says: a track code input's edge is accepted at the tenth equal reading (R53) and a bell-in's at the fifth
(R112), a sense pair's new reading at the 200th (R126), and at every fifth tick a lever's input at the fourth equal scan
(R72). -/
def Obligations.EmptyQueueLetsTimePass : Prop :=
  (∀ s : State, s.pending = [] →
     (transmitterDue s = true → step s = .next (takeFrame s)) ∧
     (∀ c rest, transmitterDue s = false → due s = c :: rest →
       ∃ t, step s = .next t ∧ t.pending = c :: rest ∧ Changes [.pending] s t) ∧
     (transmitterDue s = false → due s = [] →
       ∃ t, step s = .next t ∧ t.now = s.now + 1 ∧
         t.tbm = (if s.tbm.state = .startingTb then { s.tbm with startTicks := s.tbm.startTicks + 1 } else s.tbm) ∧
         (∀ tc, t.track tc = { s.track tc with filter := (t.track tc).filter }) ∧
         (∀ l, t.lever l = { s.lever l with
           normal := (t.lever l).normal, reverse := (t.lever l).reverse, grip := (t.lever l).grip }) ∧
         (∀ x, t.bell x = { s.bell x with filter := (t.bell x).filter }) ∧
         (∀ x, t.block x = { s.block x with out := { (s.block x).out with
           candidate := (t.block x).out.candidate, count := (t.block x).out.count } }) ∧
         t.lle.queue = s.lle.queue ∧ t.lle.eval = s.lle.eval ∧ t.bsc.cut10 = s.bsc.cut10 ∧
         t.leads = s.leads ∧ t.hlc = s.hlc ∧ t.sst = s.sst ∧ t.src = s.src ∧ t.vod = s.vod ∧ t.icc = s.icc ∧
         t.bmc = s.bmc ∧ t.resetAt = s.resetAt ∧ t.resets = s.resets ∧
         (∀ c ∈ t.pending, (∃ tc, c = .trackRisingEdge tc ∨ c = .trackFallingEdge tc) ∨
           (∃ x, c = .bellRisingEdge x ∨ c = .bellFallingEdge x) ∨ (∃ x p n, c = .senseReadingAccepted x p n) ∨
           ∃ l n r g, c = .leverEvent l n r g))) ∧
  (∀ (s : State) (tc : Tc), s.pending = [] → transmitterDue s = false → due s = [] →
     ∃ t, step s = .next t ∧
       (t.track tc).filter.level = (s.track tc).filter.level ∧
       ((t.track tc).filter.count = if s.leads.tcin.get tc = (s.track tc).filter.level then 0
         else (s.track tc).filter.count + 1) ∧
       (Instr.trackRisingEdge tc ∈ t.pending ↔
         s.leads.tcin.get tc = true ∧ (s.track tc).filter.level = false ∧ 9 ≤ (s.track tc).filter.count) ∧
       (Instr.trackFallingEdge tc ∈ t.pending ↔
         s.leads.tcin.get tc = false ∧ (s.track tc).filter.level = true ∧ 9 ≤ (s.track tc).filter.count)) ∧
  (∀ (s : State) (x : Line), s.pending = [] → transmitterDue s = false → due s = [] →
     ∃ t, step s = .next t ∧
       (t.bell x).filter.level = (s.bell x).filter.level ∧
       ((t.bell x).filter.count = if s.leads.bellIn.get x.place = (s.bell x).filter.level then 0
         else (s.bell x).filter.count + 1) ∧
       (Instr.bellRisingEdge x ∈ t.pending ↔
         s.leads.bellIn.get x.place = true ∧ (s.bell x).filter.level = false ∧ 4 ≤ (s.bell x).filter.count) ∧
       (Instr.bellFallingEdge x ∈ t.pending ↔
         s.leads.bellIn.get x.place = false ∧ (s.bell x).filter.level = true ∧ 4 ≤ (s.bell x).filter.count)) ∧
  (∀ (s : State) (x : Line) (v : Sensed), s.pending = [] → transmitterDue s = false → due s = [] →
     v = pairReading (s.leads.senseP.get x.place) (s.leads.senseN.get x.place) →
     ∃ t, step s = .next t ∧ (t.block x).out.candidate = v ∧
       ((t.block x).out.count = if v = (s.block x).out.candidate then min 200 ((s.block x).out.count + 1) else 1) ∧
       (∀ p n, Instr.senseReadingAccepted x p n ∈ t.pending ↔
         p = s.leads.senseP.get x.place ∧ n = s.leads.senseN.get x.place ∧ v = (s.block x).out.candidate ∧
           199 ≤ (s.block x).out.count ∧ (s.block x).out.reading ≠ some v)) ∧
  (∀ (s : State) (l : Lever), s.pending = [] → transmitterDue s = false → due s = [] →
     ∃ t, step s = .next t ∧
       ((s.now + 1 - s.resetAt) % 5 ≠ 0 → t.lever l = s.lever l ∧ ∀ n r g, Instr.leverEvent l n r g ∉ t.pending) ∧
       ((s.now + 1 - s.resetAt) % 5 = 0 →
         (t.lever l).normal = scanned (s.leads.normal.get l) (s.lever l).normal ∧
         (t.lever l).reverse = scanned (s.leads.reverse.get l) (s.lever l).reverse ∧
         (t.lever l).grip = scanned (s.leads.grip.get l) (s.lever l).grip ∧
         ∀ n r g, Instr.leverEvent l n r g ∈ t.pending ↔
           n = valueScanned (s.leads.normal.get l) (s.lever l).normal ∧
           r = valueScanned (s.leads.reverse.get l) (s.lever l).reverse ∧
           g = valueScanned (s.leads.grip.get l) (s.lever l).grip ∧ leverChanges (s.lever l) n r g = true))

/-- A command other than a reset that takes place changes nothing but what `touches` lists for it and what the
end of an event may change, whatever its outcome. -/
def Obligations.EveryCommandKeepsItsFrame : Prop :=
  ∀ (c : Instr) (s t : State), exec c s = .next t → (∀ cause, ¬ResetBy cause c s) →
    Changes (touches c ++ endOfEvent) s t

/-! ## Resets -/

/-- Every reset leaves the box STARTING with its cause kept, the timebase starting on the oscillator (R159, R167), and the
link as R16 says, with the baud code of the straps (R1). That MODE alone stands in the report queue, with the line at mark,
is read from R16 and R159 together (log 42). A restart takes effect also while its reply leaves (log 14), and the tick
count, the leads and the queue stand through a reset (log 11): both are the model's choice. -/
def Obligations.ResetLeavesTheBoxStarting : Prop :=
  (∀ (s : State) (c : Instr) (cause : RestartCause), ResetBy cause c s →
     ∃ t, exec c s = .next t ∧ t.mode = .starting ∧ t.bmc.cause = cause ∧ t.bmc.startCheck = none ∧
       t.bmc.refused = none ∧ t.bmc.hold = none ∧ t.bmc.options = none ∧ t.bmc.relayFault = false ∧
       t.bmc.cut10 = false ∧ (t.output relayOutput).demand = .off ∧ Posted .mode t ∧
       t.tbm.source = .oscillator ∧ t.tbm.state = .startingTb ∧ t.tbm.goodCount = 0 ∧ t.tbm.run = 0 ∧
       t.tbm.degrades = 0 ∧ t.tbm.cause = .none ∧ t.tbm.startTicks = 0 ∧
       t.now = s.now ∧ t.leads = s.leads ∧ t.pending = s.pending) ∧
  (∀ (s : State) (c : Instr) (cause : RestartCause), ResetBy cause c s →
     ∃ t, exec c s = .next t ∧ t.hlc.rx.framing = .hunt ∧ t.hlc.rx.payload = [] ∧ t.hlc.rx.gap = none ∧
       t.hlc.requests = [] ∧ t.hlc.replies = [] ∧ t.hlc.reports = [.mode] ∧ t.hlc.wire = none ∧
       t.hlc.restartPending = false ∧ t.hlc.restartSent = false ∧ t.hlc.hostWait = false ∧ t.hlc.discarded = 0 ∧
       t.hlc.unanswered = 0 ∧ t.hlc.baud.val = (if s.leads.baud1 then 2 else 0) + (if s.leads.baud0 then 1 else 0))

/-- Every reset leaves every track circuit OCCUPIED, unmeasured and unread (R69), its filter at the level it reads; empties
the freeing queue and the route lock list; and leaves every lever unformed and every signal at danger with its lock and
aspect outputs demanded off (R91, R109). -/
def Obligations.ResetLeavesTracksAndLeversSafe : Prop :=
  (∀ (s : State) (c : Instr) (cause : RestartCause) (tc : Tc), ResetBy cause c s →
     ∃ t, exec c s = .next t ∧
       (t.track tc).state = .occupied ∧ (t.track tc).reason = .reset ∧ (t.track tc).good = 0 ∧
       (t.track tc).occupations = 0 ∧ (t.track tc).meas = none ∧ (t.track tc).drop = none ∧
       (t.track tc).test = none ∧ (t.track tc).lastClass = .none ∧ (t.track tc).lastPeriod = 0 ∧
       (t.track tc).lastHigh = 0 ∧ (t.track tc).reading = false ∧
       (t.track tc).filter = ⟨s.leads.tcin.get tc, 0⟩) ∧
  (∀ (s : State) (c : Instr) (cause : RestartCause), ResetBy cause c s →
     ∃ t, exec c s = .next t ∧ t.lle.queue = [] ∧ t.lle.eval = none ∧ t.src.locks = [] ∧
       (∀ l, t.leverState l = .unformed ∧ (t.lever l).normal = ⟨false, 0⟩ ∧ (t.lever l).reverse = ⟨false, 0⟩ ∧
         (t.lever l).grip = ⟨false, 0⟩ ∧ (t.lever l).waiting = false ∧ (t.lever l).deadline = none ∧
         (t.lever l).withdrawn = false ∧ (t.lever l).lockFault = false ∧ (t.lever l).copy = none ∧
         (t.lever l).event = .none ∧ (t.output (lockOutput l)).demand = .off) ∧
       (∀ n, (t.signal n).lever = none ∧ (t.signal n).copy = none ∧ (t.signal n).demand = false ∧
         (t.signal n).stick = false ∧ (t.signal n).removal = .none ∧ (t.output (aspectOutput n)).demand = .off))

/-- Every reset leaves each line's bells silent and empty and its sections blocked and unread (R123, R141); every output
demanded and read off, draining and free of faults, no group cut and the first round started with Tr of 40 ms; and the
indication chain dark and idle (R149, R157). -/
def Obligations.ResetLeavesLinesAndOutputsSafe : Prop :=
  (∀ (s : State) (c : Instr) (cause : RestartCause) (x : Line), ResetBy cause c s →
     ∃ t, exec c s = .next t ∧
       (t.bell x).sender = .idle ∧ (t.bell x).sendQueue = [] ∧ (t.bell x).received = [] ∧ (t.bell x).code = none ∧
       (t.bell x).discarded = false ∧ (t.bell x).autoRefused = false ∧ (t.bell x).through = false ∧
       (t.bell x).lastBeatEnd = s.now ∧ (t.bell x).filter = ⟨s.leads.bellIn.get x.place, 0⟩ ∧
       (t.block x).inc = ⟨.blocked, none, none, false, .none, .none, false, false, .none⟩ ∧
       (t.output (instrumentOutput x)).demand = .off ∧
       (t.block x).out.sensed = .senseFault ∧ (t.block x).out.reading = none ∧ (t.block x).out.release = false ∧
       (t.block x).out.offer = none ∧ (t.block x).out.event = .none ∧ (t.block x).copy = none ∧
       (t.block x).homeCopy = none ∧ (t.block x).frozen = false ∧ (t.block x).lastAction = .none ∧ t.bsc.cut10 = false) ∧
  (∀ (s : State) (c : Instr) (cause : RestartCause), ResetBy cause c s →
     ∃ t, exec c s = .next t ∧
       (∀ o, (t.output o).demand = .off ∧ commanded t o = .off ∧ (t.output o).readBack = false ∧
         (t.output o).fault = .none ∧ (t.output o).lastPulse = some s.now ∧ (t.output o).carried = .off) ∧
       (∀ g, t.vod.cuts.get g = false) ∧ t.vod.overruns = 0 ∧ t.vod.lastLength = 0 ∧ t.vod.interval = 40 ∧
       t.vod.roundStart = s.now ∧ t.vod.nextDue = some (s.now + 40) ∧ t.vod.owed = false ∧
       t.vod.refresh = some ⟨0, .fill 8 .off, none, s.now + 1⟩ ∧ t.vod.options = none ∧
       t.icc.frame = none ∧ t.icc.phase = none ∧ t.icc.phaseDue = false ∧ t.icc.refreshAt = none ∧ t.icc.toggleAt = none ∧
       t.icc.testUntil = none ∧ t.icc.testDone = false ∧ t.icc.allOnPending = false ∧
       (∀ p, t.icc.desired.get p = .off ∧ t.icc.sent.get p = .off) ∧ (∀ r, t.icc.dirty.get r = false) ∧
       (∀ k, t.icc.copies.get k = none))

/-- A reset closes the store, its result NONE, its conditions GOOD, and starts the start-up pass at the header (R32,
R33). It keeps the store's words, but for those of an operation it cuts short: a region erase or a WIPE leaves each word
of its region erased or as it was; a slot program each word as it was or as written, with a header's commit word the
last; a stamp removal or a lock set its one word changed or not; a header rewrite the old header with its commit word
back as it stood, or one that is not valid; a validation pass each word as it was or corrected in place; and a suspended
erase each word of its region erased, or as it would be without it (R33). Which words a cut operation had reached is a
free value (log 3), and the old header restored is the model's reading of the first moment of a rewrite (log 38). That a
program starts from the corrected value of a correctable word is the model's reading (log 47), and that a scrub step or
start-up read cut short has corrected nothing is its choice (log 52). -/
def Obligations.ResetKeepsTheStore : Prop :=
  (∀ (s : State) (c : Instr) (cause : RestartCause), ResetBy cause c s →
     ∃ t, exec c s = .next t ∧ t.sst.state = .closed ∧ t.sst.op = none ∧ t.sst.suspended = none ∧
       t.sst.result = .none ∧ t.sst.warnings = [] ∧ t.sst.startCheck = none ∧ t.sst.startup = some headerSlot ∧
       (∃ d, t.sst.port.serving = some (.startup headerSlot, d)) ∧ (∀ i, t.cond i = .good) ∧
       (s.sst.op = none → s.sst.suspended = none → t.sst.cells = s.sst.cells)) ∧
  (∀ (s : State) (c : Instr) (cause : RestartCause) (op : StoreOp) (d : Nat), ResetBy cause c s →
     s.sst.suspended = none → s.sst.op = some ⟨op, d⟩ → StoreCanonical s →
     ∃ t, exec c s = .next t ∧
       (∀ r, op = .erase r ∨ op = .wipe r → ∀ a,
         (a < regionBase r ∨ regionEnd r ≤ a → cellRead t.sst.cells a = cellRead s.sst.cells a) ∧
         (cellRead t.sst.cells a = cellRead s.sst.cells a ∨ cellRead t.sst.cells a = erasedWord)) ∧
       (∀ i words, op = .program i words → words.length = slotWords i →
         (∀ a, a < slotBase i ∨ slotEnd i ≤ a → cellRead t.sst.cells a = cellRead s.sst.cells a) ∧
         (∀ k w, words[k]? = some w →
           cellRead t.sst.cells (slotBase i + k) = cellRead s.sst.cells (slotBase i + k) ∨
           cellRead t.sst.cells (slotBase i + k) =
             freshWord (wordValue (cellRead s.sst.cells (slotBase i + k)) &&& w)) ∧
         (i = headerSlot → cellRead t.sst.cells 31 ≠ cellRead s.sst.cells 31 → ∀ k w, words[k]? = some w →
           cellRead t.sst.cells k = freshWord (wordValue (cellRead s.sst.cells k) &&& w))) ∧
       (∀ change, op = .stampRemoval change →
         t.sst.cells = s.sst.cells ∨ t.sst.cells = cellProgram s.sst.cells 10 0) ∧
       (∀ r, op = .lockSet r →
         t.sst.cells = s.sst.cells ∨ t.sst.cells = cellProgram s.sst.cells 7 (lockWord 0xFFFF r)) ∧
       (∀ commit, (∃ r, op = .unlock r commit) ∨ (∃ sum ws, op = .stampWrite sum ws commit) →
         (∀ a, 32 ≤ a → cellRead t.sst.cells a = cellRead s.sst.cells a) ∧
         (t.sst.cells = cellWrite s.sst.cells 31 commit ∨
           cellRead t.sst.cells 31 = cellRead s.sst.cells 31 ∨ cellRead t.sst.cells 31 = erasedWord)) ∧
       (op = .validate true → ∀ a, cellRead t.sst.cells a = cellRead s.sst.cells a ∨
         cellRead t.sst.cells a = correctedWord (cellRead s.sst.cells a)) ∧
       (op = .validate false → t.sst.cells = s.sst.cells)) ∧
  (∀ (s : State) (c : Instr) (cause : RestartCause) (e : SuspendedErase), ResetBy cause c s →
     s.sst.suspended = some e →
     ∃ t u, exec c s = .next t ∧ exec c { s with sst := { s.sst with suspended := none } } = .next u ∧ ∀ a,
       (a < regionBase e.region ∨ regionEnd e.region ≤ a → cellRead t.sst.cells a = cellRead u.sst.cells a) ∧
       (cellRead t.sst.cells a = cellRead u.sst.cells a ∨ cellRead t.sst.cells a = erasedWord))

/-! ## The host link -/

/-- A complete frame with a good check joins the request queue while it has room (R4, R6); one whose check field is not the
check computed is discarded and counted, the count saturating at 255 (R3, R5); and a good one that finds the request
queue full is answered BUSY with QUEUE_FULL at the tail of the reply queue, or, with 8 replies waiting, dropped and
counted as unanswered (R6). That a frame given whole leaves the receiver at HUNT is the model's choice (log 10). -/
def Obligations.FramesAreCheckedAndQueued : Prop :=
  (∀ (s : State) (kind tag : Byte) (payload : List Byte), payload.length ≤ 240 → s.hlc.requests.length < 4 →
     ∃ t, exec (.frameReceived kind tag payload (checkOf kind tag payload)) s = .next t ∧
       t.hlc.requests = s.hlc.requests ++ [⟨kind, tag, payload⟩] ∧ t.hlc.hostWait = s.hlc.hostWait ∧
       t.hlc.rx = .idle ∧ Changes ([.receiver, .requests] ++ endOfEvent) s t) ∧
  (∀ (s : State) (kind tag : Byte) (payload : List Byte) (check : Word16), payload.length ≤ 240 →
     check ≠ checkOf kind tag payload →
     ∃ t, exec (.frameReceived kind tag payload check) s = .next t ∧ t.hlc.rx = .idle ∧
       t.hlc.discarded = min 255 (s.hlc.discarded + 1) ∧ t.hlc.unanswered = s.hlc.unanswered ∧
       Changes ([.receiver, .counts] ++ endOfEvent) s t) ∧
  (∀ (s : State) (kind tag : Byte) (payload : List Byte), payload.length ≤ 240 → 4 ≤ s.hlc.requests.length →
     ∃ t, exec (.frameReceived kind tag payload (checkOf kind tag payload)) s = .next t ∧
       t.hlc.rx = .idle ∧ Changes ([.receiver, .counts] ++ endOfEvent) s t ∧
       (s.hlc.replies.length < 8 → t.hlc.unanswered = s.hlc.unanswered ∧
         if s.hlc.wire = none ∧ s.hlc.restartSent = false then
           ∃ w, t.hlc.wire = some w ∧ w.frame :: t.hlc.replies =
             s.hlc.replies ++ [⟨if kind = 0x7E ∨ 0x80 ≤ kind.toNat then 0xFF else kind + 0x80, tag, [4, 14]⟩]
         else t.hlc.replies =
           s.hlc.replies ++ [⟨if kind = 0x7E ∨ 0x80 ≤ kind.toNat then 0xFF else kind + 0x80, tag, [4, 14]⟩]) ∧
       (8 ≤ s.hlc.replies.length → t.hlc.unanswered = min 255 (s.hlc.unanswered + 1)))

/-- A byte with a good stop bit moves the receiver as the table of R4 says, and renews the gap deadline (R5). A byte with a
framing error is dropped in HUNT, and elsewhere the partial frame is discarded and counted; so is one whose gap
deadline is reached (R5). -/
def Obligations.BytesMoveTheReceiver : Prop :=
  (∀ (s : State) (b : Byte),
     ∃ t, exec (.byteReceived b true) s = .next t ∧
       Changes ([.receiver, .requests, .counts] ++ endOfEvent) s t ∧
       match s.hlc.rx.framing with
       | .hunt =>
         t.hlc.rx = (if b = 0xC3 then ⟨.length, 0, 0, 0, [], 0, 0xFFFF, some (s.now + 21)⟩ else s.hlc.rx)
       | .length =>
         if b.toNat ≤ 240 then
           t.hlc.rx = { s.hlc.rx with
             framing := .kind, length := b.toNat, check := crcByte s.hlc.rx.check b, gap := some (s.now + 21) }
         else t.hlc.rx = .idle ∧ t.hlc.discarded = min 255 (s.hlc.discarded + 1)
       | .kind =>
         t.hlc.rx = { s.hlc.rx with
           framing := .tag, kind := b, check := crcByte s.hlc.rx.check b, gap := some (s.now + 21) }
       | .tag =>
         t.hlc.rx = { s.hlc.rx with
           framing := if s.hlc.rx.length = 0 then .checkHi else .payload, tag := b, check := crcByte s.hlc.rx.check b
           gap := some (s.now + 21) }
       | .payload =>
         t.hlc.rx = { s.hlc.rx with
           framing := if s.hlc.rx.length ≤ s.hlc.rx.payload.length + 1 then .checkHi else .payload
           payload := s.hlc.rx.payload ++ [b], check := crcByte s.hlc.rx.check b, gap := some (s.now + 21) }
       | .checkHi => t.hlc.rx = { s.hlc.rx with framing := .checkLo, checkHi := b, gap := some (s.now + 21) }
       | .checkLo =>
         t.hlc.rx = .idle ∧
           (s.hlc.rx.check ≠ s.hlc.rx.checkHi ++ b →
             t.hlc.discarded = min 255 (s.hlc.discarded + 1) ∧ t.hlc.requests = s.hlc.requests) ∧
           (s.hlc.rx.check = s.hlc.rx.checkHi ++ b → s.hlc.requests.length < 4 →
             t.hlc.requests = s.hlc.requests ++ [⟨s.hlc.rx.kind, s.hlc.rx.tag, s.hlc.rx.payload⟩])) ∧
  (∀ (s : State) (b : Byte),
     (s.hlc.rx.framing = .hunt → ∃ t, exec (.byteReceived b false) s = .next t ∧ Changes endOfEvent s t) ∧
     (s.hlc.rx.framing ≠ .hunt → ∃ t, exec (.byteReceived b false) s = .next t ∧ t.hlc.rx = .idle ∧
       t.hlc.discarded = min 255 (s.hlc.discarded + 1) ∧ t.hlc.unanswered = s.hlc.unanswered ∧
       Changes ([.receiver, .counts] ++ endOfEvent) s t) ∧
     (∀ d, s.hlc.rx.framing ≠ .hunt → s.hlc.rx.gap = some d → d ≤ s.now →
       ∃ t, exec .gapDeadline s = .next t ∧ t.hlc.rx = .idle ∧
         t.hlc.discarded = min 255 (s.hlc.discarded + 1) ∧ t.hlc.unanswered = s.hlc.unanswered ∧
         Changes ([.receiver, .counts] ++ endOfEvent) s t))

/-- The receiver reads back every frame that can be sent. From HUNT, the bytes that the part's own framing puts
on the wire for a frame of up to 240 payload bytes, taken one by one, leave exactly the state that the whole frame with
its check does: a frame given whole is the model's own command (log 10). -/
def Obligations.FrameBytesSpellTheFrame : Prop :=
  ∀ (s : State) (f : Frame), f.payload.length ≤ 240 → s.hlc.rx.framing = .hunt →
    (frameBytes f).foldl (fun t b => takeByte b t) s =
      receiveFrame f.kind f.tag f.payload (checkOf f.kind f.tag f.payload) s

/-- A servable request of a kind that is not assigned is answered UNKNOWN_KIND (R7, R9). One of an assigned kind whose
payload does not fit its layout is answered BAD_FIELD with the offset of the first bad field, or 0xFF for a wrong
length, and no owner sees it (R8). The 24 kinds, their lengths and the ranges of their fields are those of Table 1-3. -/
def Obligations.BadRequestsAreAnswered : Prop :=
  (∀ (s : State) (f : Frame) (rest : List Frame), AtHead s f rest → requestKind f.kind = none →
     ∃ t, exec .unknownKind s = .next t ∧
       Replied f rest ⟨if f.kind = 0x7E ∨ 0x80 ≤ f.kind.toNat then 0xFF else f.kind + 0x80, f.tag, [5, 0]⟩ s t ∧
       Changes (.requests :: endOfEvent) s t) ∧
  (∀ (s : State) (f : Frame) (rest : List Frame) (k : RequestKind) (offset : Nat), AtHead s f rest →
     requestKind f.kind = some k → payloadFault k f.payload = some offset →
     ∃ t, exec (serving (some k)) s = .next t ∧ Replied f rest (reply f 2 offset []) s t ∧
       Changes (.requests :: endOfEvent) s t) ∧
  (∀ (b : Byte) (k : RequestKind), requestKind b = some k ↔ (b.toNat, k) ∈
     [(0x01, RequestKind.identify), (0x02, .query), (0x03, .leverEnquiry), (0x10, .faultAck), (0x11, .timeRelease),
      (0x12, .allSignalsOn), (0x13, .tcTest), (0x20, .bellSend), (0x21, .commutator), (0x22, .sectionRelease),
      (0x30, .mode), (0x31, .restart), (0x32, .timebaseRestore), (0x33, .timebaseTest), (0x34, .lampTest),
      (0x40, .storeOpen), (0x41, .storeClose), (0x42, .storeErase), (0x43, .storeProgram), (0x44, .storeRead),
      (0x45, .storeSuspend), (0x46, .storeResume), (0x47, .storeLock), (0x48, .validate)]) ∧
  (∀ (k : RequestKind) (ranges : List (Nat × Nat)), (k, ranges) ∈
     [(RequestKind.identify, []), (.allSignalsOn, []), (.restart, []), (.timebaseRestore, []), (.timebaseTest, []),
      (.storeClose, []), (.storeSuspend, []), (.storeResume, []), (.validate, []), (.leverEnquiry, [(1, 48), (0, 1)]),
      (.faultAck, [(1, 48)]), (.timeRelease, [(1, 48)]), (.tcTest, [(1, 24)]), (.bellSend, [(1, 3), (1, 10)]),
      (.commutator, [(1, 3), (0, 2)]), (.sectionRelease, [(1, 3)]), (.mode, [(1, 4)]), (.lampTest, [(0, 255)]),
      (.storeErase, [(0, 5)]), (.storeLock, [(1, 5), (0, 1)])] → ∀ p : List Byte,
     (p.length ≠ ranges.length → payloadFault k p = some 0xFF) ∧
     (p.length = ranges.length → ∀ i : Nat, payloadFault k p = some i ↔
       ∃ r, ranges[i]? = some r ∧ (byteAt p i < r.1 ∨ r.2 < byteAt p i) ∧
         ∀ j q, j < i → ranges[j]? = some q → q.1 ≤ byteAt p j ∧ byteAt p j ≤ q.2)) ∧
  (∀ p : List Byte, p.length ≠ 2 → payloadFault .query p = some 0xFF ∧ payloadFault .storeRead p = some 0xFF) ∧
  (∀ a b : Byte,
     (a.toNat = 0 ∨ 10 < a.toNat → payloadFault .query [a, b] = some 0) ∧
     (∀ r : Nat × Nat, 1 ≤ a.toNat →
       [(1, 48), (1, 24), (1, 6), (1, 3), (1, 24), (1, 10), (0, 0), (0, 0), (0, 0), (0, 0)][a.toNat - 1]? = some r →
       payloadFault .query [a, b] = if r.1 ≤ b.toNat ∧ b.toNat ≤ r.2 then none else some 1) ∧
     (5 < a.toNat → payloadFault .storeRead [a, b] = some 0) ∧
     (∀ r : Nat × Nat, [(0, 0), (1, 48), (1, 24), (1, 3), (0, 0), (0, 255)][a.toNat]? = some r →
       payloadFault .storeRead [a, b] = if r.1 ≤ b.toNat ∧ b.toNat ≤ r.2 then none else some 1)) ∧
  (∀ p : List Byte,
     (p.length ≠ 13 → payloadFault .storeOpen p = some 0xFF) ∧
     (p.length = 13 →
       (payloadFault .storeOpen p ≠ some 0 ↔ ∃ n, n ≤ 12 ∧ ∀ i, i < 12 →
         if i < n then 0x20 ≤ byteAt p i ∧ byteAt p i ≤ 0x7E else byteAt p i = 0) ∧
       (payloadFault .storeOpen p ≠ some 0 →
         payloadFault .storeOpen p = if byteAt p 12 ≤ 1 then none else some 12))) ∧
  payloadFault .storeProgram [] = some 0xFF ∧
  (∀ (a : Byte) (p : List Byte),
     (5 < a.toNat → payloadFault .storeProgram (a :: p) = some 0) ∧
     (∀ r : Nat × Nat × Nat,
       [(66, 0, 0), (130, 1, 48), (18, 1, 24), (34, 1, 3), (66, 0, 0), (10, 0, 255)][a.toNat]? = some r →
       payloadFault .storeProgram (a :: p) =
         if p.length + 1 ≠ r.1 then some 0xFF
         else if r.2.1 ≤ byteAt p 0 ∧ byteAt p 0 ≤ r.2.2 then none else some 1))

/-- IDENTIFY asks for a read of the header and STORE_READ for a read of its slot; the request stays at the head, waiting
(R7, R10, R27). A free port takes the read at once for its slot's time. Its end answers the request that waited:
IDENTIFY with its 20 bytes, both link counts set to 0, and STORE_READ with the slot as read. While an operation runs
STORE_READ is BUSY, and of a suspended region refused with STORE_STATE (R20, R25). -/
def Obligations.HostReadsAreAskedForAndAnswered : Prop :=
  (∀ (s : State) (f : Frame) (rest : List Frame), AtHead s f rest →
     (f.kind = 0x01 → f.payload = [] →
       ∃ t, exec .identify s = .next t ∧ t.hlc.requests = s.hlc.requests ∧ t.hlc.hostWait = true ∧
         (.host headerSlot ∈ t.sst.port.waiting ∨ ∃ d, t.sst.port.serving = some (.host headerSlot, d)) ∧
         (portIdle s = true → passWaits s = false → t.sst.port.serving = some (.host headerSlot, s.now + 2)) ∧
         Changes (.requests :: endOfEvent) s t) ∧
     (∀ r n i, f.kind = 0x44 → f.payload = [byteOf (regionCode r), n] → slotOf r n.toNat = some i →
       s.sst.state ∈ [StoreState.closed, .openIdle, .eraseSuspended] → suspendedRegion s r = false →
       ∃ t, exec .storeRead s = .next t ∧ t.hlc.requests = s.hlc.requests ∧ t.hlc.hostWait = true ∧
         (.host i ∈ t.sst.port.waiting ∨ ∃ d, t.sst.port.serving = some (.host i, d)) ∧
         (portIdle s = true → passWaits s = false →
           t.sst.port.serving = some (.host i, s.now + regionReadTime (slotRegion i))) ∧
         Changes (.requests :: endOfEvent) s t) ∧
     (∀ r n i, f.kind = 0x44 → f.payload = [byteOf (regionCode r), n] → slotOf r n.toNat = some i →
       (s.sst.state ∈ [StoreState.erasing, .programming, .validating] → AnswersOnly .storeRead f rest 4 0 s) ∧
       (s.sst.state ∈ [StoreState.closed, .openIdle, .eraseSuspended] → suspendedRegion s r = true →
         AnswersOnly .storeRead f rest 1 21 s))) ∧
  (∀ (s : State) (f : Frame) (rest : List Frame) (i : Slot) (d : Nat),
     s.sst.port.serving = some (.host i, d) → d ≤ s.now → s.hlc.requests = f :: rest → s.hlc.replies = [] →
     slotUncorrectable s.sst.cells i = false →
     (f.kind = 0x01 →
       ∃ t, exec .hostReadComplete s = .next t ∧
         Replied f rest (reply f 0 0 (storedIdentity s ++ wordBytes (issueNumber s) ++
           [byteOf (modeCode s.mode), byteOf (causeCode s.bmc.cause), byteOf (storeStateCode s.sst.state),
             byteOf (timebaseCode s.tbm.state), byteOf (s.hlc.baud.val * 16),
             byteOf (min 15 s.hlc.discarded * 16 + min 15 s.hlc.unanswered)])) s t ∧
         t.hlc.discarded = 0 ∧ t.hlc.unanswered = 0 ∧ Changes ([.requests, .counts] ++ endOfEvent) s t) ∧
     (f.kind = 0x44 →
       ∃ t, exec .hostReadComplete s = .next t ∧
         Replied f rest (reply f 0 0 ([byteOf (regionCode (slotRegion i)), byteOf (slotNumber i),
           byteOf (condCode (s.cond i))] ++ slotBytes s.sst.cells i)) s t ∧
         Changes (.requests :: endOfEvent) s t))

/-- QUERY is answered in every mode with the source's bytes and its content as it stands. It takes and clears nothing: the
receive queue of each line with its flags, the scrub-overrun flag and the test-completed flag stay, and no entry of the
report queue moves or leaves. It adds none: where no signal demand is to change, the report queue is the same (R11). -/
def Obligations.QueryShowsTheSource : Prop :=
  ∀ (s : State) (f : Frame) (rest : List Frame) (src : Source), AtHead s f rest → f.kind = 0x02 →
    f.payload = sourceBytes src →
    ∃ t, exec .query s = .next t ∧ Replied f rest (reply f 0 0 (sourceBytes src ++ contentOf s src)) s t ∧
      (∀ x, (t.bell x).received = (s.bell x).received ∧ (t.bell x).discarded = (s.bell x).discarded ∧
        (t.bell x).autoRefused = (s.bell x).autoRefused) ∧
      t.sst.overrun = s.sst.overrun ∧ t.icc.testDone = s.icc.testDone ∧ s.hlc.reports <+: t.hlc.reports ∧
      (mustFall s = none → mayRise s = none → t.hlc.reports = s.hlc.reports) ∧ Changes (.requests :: endOfEvent) s t

/-- When a frame has left, the transmitter takes the oldest reply; with none and no restart pending, the oldest report;
with a restart pending, none. A report carries its source's bytes and content, its entry has left the report queue, and
a BELL report takes the oldest code, clears its two flags, and is posted again while codes remain; a STORE or an
INDICATION report clears its flag (R14, R15, R34, R158). After the reply to an accepted RESTART it takes nothing (R12,
R14, R16), and that it waits so for the restart's effect is read from R16 (log 14). The time on the wire is rounded up
to a tick, and the command ends the frame whenever it is given; both are the model's choice (logs 8 and 13). -/
def Obligations.TransmitterTakesTheNextFrame : Prop :=
  ∀ (s : State) (w : WireFrame), s.hlc.wire = some w → s.hlc.restartSent = false →
    ∃ t, exec .transmitFrameEnd s = .next t ∧ Changes (.restart :: endOfEvent) s t ∧
      t.hlc.restartPending = s.hlc.restartPending ∧
      (t.hlc.restartSent = true ↔ s.hlc.restartPending = true ∧ w.frame.kind = 0xB1 ∧ w.frame.payload.head? = some 0) ∧
      (t.hlc.restartSent = true → t.hlc.wire = none ∧ t.hlc.replies = s.hlc.replies) ∧
      (∀ f q, t.hlc.restartSent = false → s.hlc.replies = f :: q → t.hlc.replies = q ∧
        t.hlc.wire = some ⟨f, frameBytes f, s.now + wireTicks s.hlc.baud (frameBytes f).length⟩) ∧
      (t.hlc.restartSent = false → s.hlc.replies = [] → s.hlc.restartPending = true → t.hlc.wire = none) ∧
      (∀ src q, s.hlc.replies = [] → s.hlc.restartPending = false → s.hlc.reports = src :: q →
        ∃ v, t.hlc.wire = some v ∧ v.frame.kind = 0xFE ∧ v.frame.tag = 0 ∧ v.bytes = frameBytes v.frame ∧
          v.endsAt = s.now + wireTicks s.hlc.baud (frameBytes v.frame).length ∧
          v.frame.payload.take 2 = sourceBytes src ∧ q <+: t.hlc.reports ∧
          (∀ x, (t.bell x).received = (if src = .bell x then (s.bell x).received.drop 1 else (s.bell x).received) ∧
            (t.bell x).discarded = (if src = .bell x then false else (s.bell x).discarded) ∧
            (t.bell x).autoRefused = (if src = .bell x then false else (s.bell x).autoRefused) ∧
            (src = .bell x → 1 < (s.bell x).received.length → src ∈ t.hlc.reports)) ∧
          t.sst.overrun = (if src = .store then false else s.sst.overrun) ∧
          t.icc.testDone = (if src = .indication then false else s.icc.testDone) ∧
          (mustFall s = none → mayRise s = none →
            (∀ x, src = .bell x →
              v.frame.payload = sourceBytes src ++ bellContent s x (min 1 (s.bell x).received.length) ∧
              t.hlc.reports = q ++ if 1 < (s.bell x).received.length ∧ src ∉ q then [src] else []) ∧
            ((∀ x, src ≠ .bell x) → v.frame.payload = sourceBytes src ++ contentOf s src ∧ t.hlc.reports = q)))

/-- The check is the 16-bit register of R3, worked bit by bit; every frame sent carries it; a complete frame is queued
only with it; and the receiver opens no frame on another byte than the sync byte. -/
def Obligations.CheckIsTheRegisterOverTheFrame : Prop :=
  (∀ (r : Word16) (bs : List Byte), crcBytes r bs =
    (bs.flatMap fun b => (List.range 8).map fun i => b.getLsbD (7 - i)).foldl
      (fun (r : Word16) bit => if r.msb != bit then (r <<< 1) ^^^ 0x1021 else r <<< 1) r) ∧
  (∀ (kind tag : Byte) (payload : List Byte),
    checkOf kind tag payload = crcBytes 0xFFFF (lengthByte payload :: kind :: tag :: payload)) ∧
  crcBytes 0xFFFF [0x31, 0x32, 0x33, 0x34, 0x35, 0x36, 0x37, 0x38, 0x39] = 0x29B1 ∧
  (∀ f : Frame, ∃ hi lo : Byte, hi ++ lo = checkOf f.kind f.tag f.payload ∧
    frameBytes f = 0xC3 :: lengthByte f.payload :: f.kind :: f.tag :: f.payload ++ [hi, lo]) ∧
  (∀ (s : State) (w : WireFrame), (takeFrame s).hlc.wire = some w → s.hlc.wire = some w ∨ w.bytes = frameBytes w.frame) ∧
  (∀ (s t : State) (kind tag : Byte) (payload : List Byte) (check : Word16),
    exec (.frameReceived kind tag payload check) s = .next t → t.hlc.requests ≠ s.hlc.requests →
      check = checkOf kind tag payload) ∧
  (∀ (s : State) (b : Byte), s.hlc.rx.framing = .hunt → b ≠ 0xC3 → takeByte b s = s)

/-- Headline: the queues hold each entry once, through every step. A post appends an entry only for a source without one,
and otherwise leaves the queue as it is (R13), so that the report queue holds each source at most once, and at most 119
entries. The freeing queue holds each lever at most once, and not the lever under evaluation (R77, R78). The route lock
list holds at most one entry of each signal lever (R101). -/
def Obligations.QueuesHoldEachEntryOnce : Prop :=
  (∀ (src : Source) (s : State), src ∉ s.hlc.reports →
    (postReport src s).hlc.reports = s.hlc.reports ++ [src] ∧ Changes [.reports] s (postReport src s)) ∧
  (∀ (src : Source) (s : State), src ∈ s.hlc.reports → postReport src s = s) ∧
  (∀ (src : Source) (s : State), ReportsOnce s → ReportsOnce (postReport src s) ∧ ReportsOnce (takeFrame s)) ∧
  (∀ s t : State, ReportsOnce s → step s = .next t → ReportsOnce t ∧ t.hlc.reports.length ≤ 119) ∧
  (∀ s t : State, FreeingOnce s → step s = .next t → FreeingOnce t) ∧
  (∀ s t : State, RouteLocksOnce s → step s = .next t → RouteLocksOnce t)

/-! ## What every step keeps -/

/-- Headline, the law of R93: no signal's output demand stands after a step without its lever REVERSE, its stick clear,
the box OPEN or SWITCHED_OUT, its record sound, its group not cut and every proving term holding. And where demands stand
just when all of that holds, they do so after every step: a demand rises by itself as the last of it comes to hold (R94).
Every fall of a demand outside a reset sets the stick, which is clear again as the lever has become NORMAL (R96). -/
def Obligations.SignalsStayProved : Prop :=
  (∀ s t : State, SignalsProved s → step s = .next t → SignalsProved t) ∧
  (∀ s t : State, DemandsSettled s → step s = .next t → DemandsSettled t) ∧
  (∀ (c : Instr) (s t : State) (n : SigSlot), (∀ cause, ¬ResetBy cause c s) → SignalsProved s → exec c s = .next t →
    (s.signal n).demand = true → (t.signal n).demand = false → (t.signal n).stick = true) ∧
  (∀ (c : Instr) (s t : State) (l : Lever) (n : SigSlot), (∀ cause, ¬ResetBy cause c s) → SignalsProved s →
    s.mode ≠ .starting → exec c s = .next t → slotOfLever s l = some n → s.leverState l ≠ .normal →
    t.leverState l = .normal → (t.signal n).stick = false)

/-- Headline: every step keeps the store's words in their canonical form, addresses strictly rising and no erased word
listed. The form is the model's own (log 2). -/
def Obligations.StoreStaysCanonical : Prop :=
  ∀ s t : State, StoreCanonical s → step s = .next t → StoreCanonical t

/-- Every step keeps the request queue within its limit of 4 (R6). -/
def Obligations.RequestsStayBounded : Prop :=
  ∀ s t : State, RequestsBounded s → step s = .next t → RequestsBounded t

/-- The state after reset meets what every step keeps: the law of the signals and of their rise (R93, R94), the
canonical form of the store, which is the model's own (log 2), the request queue's limit (R6), and the report queue, the
freeing queue and the route lock list holding each entry once (R13, R77, R101). -/
def Obligations.ResetMeetsTheInvariants : Prop :=
  SignalsProved .reset ∧ DemandsSettled .reset ∧ StoreCanonical .reset ∧ RequestsBounded .reset ∧ ReportsOnce .reset ∧
    FreeingOnce .reset ∧ RouteLocksOnce .reset

/-- A cut latch, once set, stands until a reset (R148): no command but a reset clears it. -/
def Obligations.OnlyAResetClearsACut : Prop :=
  ∀ (c : Instr) (s t : State) (g : Group), (∀ cause, ¬ResetBy cause c s) → exec c s = .next t →
    s.vod.cuts.get g = true → t.vod.cuts.get g = true

/-! ## Track code receivers -/

/-- The four codes have the bands and drop windows of Table 4-1, and no period lies in two bands (R54). A circuit's code
is that of its TRACK record. The functions take no timebase state. -/
def Obligations.TrackCodesHaveTheirBands : Prop :=
  (∀ k p, inBand k p = true ↔ nominalPeriod k - nominalPeriod k / 8 ≤ p ∧ p ≤ nominalPeriod k + nominalPeriod k / 8) ∧
  (∀ k, dropWindow k = nominalPeriod k * 5 / 2) ∧
  nominalPeriod .a = 320 ∧ nominalPeriod .b = 480 ∧ nominalPeriod .c = 720 ∧ nominalPeriod .d = 1080 ∧
  (∀ p, (inBand .a p = true ↔ 280 ≤ p ∧ p ≤ 360) ∧ (inBand .b p = true ↔ 420 ≤ p ∧ p ≤ 540) ∧
    (inBand .c p = true ↔ 630 ≤ p ∧ p ≤ 810) ∧ (inBand .d p = true ↔ 945 ≤ p ∧ p ≤ 1215)) ∧
  dropWindow .a = 800 ∧ dropWindow .b = 1200 ∧ dropWindow .c = 1800 ∧ dropWindow .d = 2700 ∧
  (∀ p j k, inBand j p = true → inBand k p = true → j = k) ∧
  (∀ (s : State) (tc : Tc) (r : RecordCopy), (s.track tc).copy = some r →
    codeOf (s.track tc) = trackCode r.bytes ∧
    (trackCode r.bytes = some .a ↔ byteAt r.bytes 0 = 1) ∧ (trackCode r.bytes = some .b ↔ byteAt r.bytes 0 = 2) ∧
    (trackCode r.bytes = some .c ↔ byteAt r.bytes 0 = 3) ∧ (trackCode r.bytes = some .d ↔ byteAt r.bytes 0 = 4))

/-- A rising edge on an input being read opens a measurement; a falling edge gives it its high time; after 4095 ticks it
lapses without a class (R55). An input that is not read opens none (R65, R67). That an accepted edge put in from outside
sets the lead is the model's choice (log 5). -/
def Obligations.EdgesOpenAndTimeAMeasurement : Prop :=
  ∀ (s : State) (tc : Tc),
    ((s.track tc).filter.level = false → (s.track tc).reading = true → (s.track tc).meas = none →
      ∃ t, exec (.trackRisingEdge tc) s = .next t ∧ t.leads.tcin.get tc = true ∧
        t.track tc = { s.track tc with filter := ⟨true, 0⟩, meas := some ⟨s.now, none⟩ } ∧
        Changes ([.leads, .track tc] ++ endOfEvent) s t) ∧
    ((s.track tc).filter.level = false → (s.track tc).reading = false →
      ∃ t, exec (.trackRisingEdge tc) s = .next t ∧ t.leads.tcin.get tc = true ∧
        t.track tc = { s.track tc with filter := ⟨true, 0⟩ } ∧
        Changes ([.leads, .track tc] ++ endOfEvent) s t) ∧
    (∀ m, (s.track tc).filter.level = true → (s.track tc).meas = some m → m.high = none → s.now < m.openedAt + 4095 →
      ∃ t, exec (.trackFallingEdge tc) s = .next t ∧ t.leads.tcin.get tc = false ∧
        t.track tc = { s.track tc with
          filter := ⟨false, 0⟩, meas := some ⟨m.openedAt, some (s.now - m.openedAt)⟩ } ∧
        Changes ([.leads, .track tc] ++ endOfEvent) s t) ∧
    (∀ m, (s.track tc).meas = some m → m.openedAt + 4095 ≤ s.now →
      ∃ t, exec (.measurementLapse tc) s = .next t ∧ t.track tc = { s.track tc with meas := none } ∧
        Changes (.track tc :: endOfEvent) s t)

/-- A measurement closed as GOOD, its period in the own band and its duty between 25% and 75%, moves the drop deadline of a
CLEAR circuit, and counts on an OCCUPIED one, which becomes CLEAR once Npu_eff are counted and its hold is over
(R56, R58, R60). One closed as BAD sets the good count to 0; one closed as CROSS, its period in the band of another code,
makes the circuit OCCUPIED with reason CROSS_CODE, whatever its state (R56 to R59). -/
def Obligations.MeasurementsAreJudged : Prop :=
  (∀ (s : State) (tc : Tc) (m : Measurement) (h p : Nat) (code : TrackCode),
     (s.track tc).filter.level = false → (s.track tc).reading = true → (s.track tc).meas = some m → m.high = some h →
     s.now < m.openedAt + 4095 → codeOf (s.track tc) = some code → p = s.now - m.openedAt → inBand code p = true →
     p ≤ h * 4 → h * 4 ≤ p * 3 →
     ∃ t, exec (.trackRisingEdge tc) s = .next t ∧ Changes (.leads :: .track tc :: tellings ++ endOfEvent) s t ∧
       ((s.track tc).state = .clear → t.track tc = { s.track tc with
         filter := ⟨true, 0⟩, meas := some ⟨s.now, none⟩, lastClass := .good, lastPeriod := p, lastHigh := h
         good := min 30 ((s.track tc).good + 1), drop := some (s.now + dropWindow code) }) ∧
       ((s.track tc).state = .occupied →
         ((s.track tc).npuEff ≤ min 30 ((s.track tc).good + 1) ∧ (s.track tc).holdUntil ≤ s.now →
           Posted (.track tc) t ∧ t.track tc = { s.track tc with
             filter := ⟨true, 0⟩, meas := some ⟨s.now, none⟩, lastClass := .good, lastPeriod := p, lastHigh := h
             good := min 30 ((s.track tc).good + 1), drop := some (s.now + dropWindow code), state := .clear }) ∧
         (¬((s.track tc).npuEff ≤ min 30 ((s.track tc).good + 1) ∧ (s.track tc).holdUntil ≤ s.now) →
           t.track tc = { s.track tc with
             filter := ⟨true, 0⟩, meas := some ⟨s.now, none⟩, lastClass := .good, lastPeriod := p, lastHigh := h
             good := min 30 ((s.track tc).good + 1) }))) ∧
  (∀ (s : State) (tc : Tc) (m : Measurement) (h p : Nat) (code : TrackCode),
     (s.track tc).filter.level = false → (s.track tc).reading = true → (s.track tc).meas = some m → m.high = some h →
     s.now < m.openedAt + 4095 → codeOf (s.track tc) = some code → p = s.now - m.openedAt →
     ((∀ k, inBand k p = false) ∨ (inBand code p = true ∧ ¬(p ≤ h * 4 ∧ h * 4 ≤ p * 3)) →
       ∃ t, exec (.trackRisingEdge tc) s = .next t ∧ Changes ([.leads, .track tc] ++ endOfEvent) s t ∧
         t.track tc = { s.track tc with
           filter := ⟨true, 0⟩, meas := some ⟨s.now, none⟩, lastClass := .bad, lastPeriod := p, lastHigh := h
           good := 0 }) ∧
     (∀ k, k ≠ code → inBand k p = true →
       ∃ t, exec (.trackRisingEdge tc) s = .next t ∧ Changes (.leads :: .track tc :: tellings ++ endOfEvent) s t ∧
         ((s.track tc).state = .clear ∨ (s.track tc).reason ≠ .crossCode → Posted (.track tc) t) ∧
         t.track tc = { s.track tc with
           filter := ⟨true, 0⟩, meas := some ⟨s.now, none⟩, lastClass := .cross, lastPeriod := p, lastHigh := h
           state := .occupied, reason := .crossCode, good := 0, holdUntil := s.now + holdOf (s.track tc).copy
           drop := none
           occupations := if (s.track tc).state = .clear then ((s.track tc).occupations + 1) % 256
             else (s.track tc).occupations }))

/-- TC_TEST is judged in the order of R64: refused with WRONG_MODE in STARTING, with BAD_FIELD and reason byte 0 for a
circuit that has no sound record, with ALREADY while its test runs, each with the circuit's state as it was; and otherwise
accepted, in every mode but STARTING, with OK. -/
def Obligations.TrackTestsAreJudgedInOrder : Prop :=
  ∀ (s : State) (f : Frame) (rest : List Frame) (tc : Tc), AtHead s f rest → f.kind = 0x13 →
    f.payload = [byteOf (tc.val + 1)] →
    (s.mode = .starting →
      ∃ t, exec .tcTest s = .next t ∧ Replied f rest (reply f 3 0 []) s t ∧ t.track tc = s.track tc ∧
        Changes (.requests :: endOfEvent) s t) ∧
    (s.mode ≠ .starting →
      ((s.track tc).copy = none ∨
          (∃ r, (s.track tc).copy = some r ∧ (r.cond = .corrupt ∨ trackCode r.bytes = none)) →
        ∃ t, exec .tcTest s = .next t ∧ Replied f rest (reply f 2 0 []) s t ∧ t.track tc = s.track tc ∧
          Changes (.requests :: endOfEvent) s t) ∧
      (∀ r, (s.track tc).copy = some r → r.cond ≠ .corrupt → trackCode r.bytes ≠ none →
        ((s.track tc).test.isSome = true →
          ∃ t, exec .tcTest s = .next t ∧ Replied f rest (reply f 1 2 []) s t ∧ t.track tc = s.track tc ∧
            Changes (.requests :: endOfEvent) s t) ∧
        ((s.track tc).test = none →
          ∃ t, exec .tcTest s = .next t ∧ Replied f rest (reply f 0 0 []) s t ∧
            (t.track tc).test = some (s.now + 5000))))

/-- A CLEAR circuit whose drop deadline is reached becomes OCCUPIED with reason NO_CODE (R57). An accepted TC_TEST makes
a circuit OCCUPIED with reason TEST and stops the reading of its input for 5000 ms (R64, R65). A circuit without a record
copy has no hold, the model's reading (log 21). -/
def Obligations.CircuitIsMadeOccupied : Prop :=
  ∀ (s : State) (tc : Tc),
    (∀ d, (s.track tc).state = .clear → (s.track tc).drop = some d → d ≤ s.now →
      ∃ t, exec (.dropDeadline tc) s = .next t ∧ Posted (.track tc) t ∧ Changes (.track tc :: tellings ++ endOfEvent) s t ∧
        t.track tc = { s.track tc with
          state := .occupied, reason := .noCode, good := 0, holdUntil := s.now + holdOf (s.track tc).copy
          drop := none, occupations := ((s.track tc).occupations + 1) % 256 }) ∧
    (∀ f rest, AtHead s f rest → f.kind = 0x13 → f.payload = [byteOf (tc.val + 1)] → s.mode ≠ .starting →
      trackSound (s.track tc).copy = true → (s.track tc).test = none →
      ∃ t, exec .tcTest s = .next t ∧ Replied f rest (reply f 0 0 []) s t ∧ Posted (.track tc) t ∧
        Changes (.requests :: .track tc :: tellings ++ endOfEvent) s t ∧
        t.track tc = { s.track tc with
          state := .occupied, reason := .test, good := 0, holdUntil := s.now + holdOf (s.track tc).copy
          drop := none, meas := none, test := some (s.now + 5000), reading := false
          occupations := if (s.track tc).state = .clear then ((s.track tc).occupations + 1) % 256
            else (s.track tc).occupations }) ∧
    (∀ d, (s.track tc).test = some d → d ≤ s.now → (s.track tc).inFault = false →
      ∃ t, exec (.testDeadline tc) s = .next t ∧ Posted (.track tc) t ∧ Changes (.track tc :: endOfEvent) s t ∧
        t.track tc = { s.track tc with test := none, reading := true })

/-! ## Levers -/

/-- A lever at rest whose contacts leave its end without its being freed goes to FAULT; one that stays at its end joins
the freeing queue when its catch is gripped, and leaves it, waiting no more, when the catch is released (R72, R76, R77,
R81). A change into FAULT is told (R75, R82). That an entry into FAULT clears the origin and the marks is the model's
reading (log 51). -/
def Obligations.LeverAtRestIsWatched : Prop :=
  ∀ (s : State) (l : Lever) (n r g : Bool) (e : LeverEnd), restEnd s l = some e →
    leverChanges (s.lever l) n r g = true →
    (n = true → r = true →
      ∃ t, exec (.leverEvent l n r g) s = .next t ∧ Posted (.lever l) t ∧
        t.lever l = faulted .bothContacts (accepted (s.lever l) n r g) ∧ LeverTold l s t ∧
        (t.output (lockOutput l)).demand = .off ∧ Changes (.leads :: .lever l :: tellings ++ endOfEvent) s t) ∧
    (¬(n = true ∧ r = true) → ¬shows n r e →
      ∃ t, exec (.leverEvent l n r g) s = .next t ∧ Posted (.lever l) t ∧
        t.lever l = faulted .unlockedMove (accepted (s.lever l) n r g) ∧ LeverTold l s t ∧
        (t.output (lockOutput l)).demand = .off ∧ Changes (.leads :: .lever l :: tellings ++ endOfEvent) s t) ∧
    (shows n r e → g = true → (s.lever l).grip.accepted = false →
      ∃ t, exec (.leverEvent l n r g) s = .next t ∧ Posted (.lever l) t ∧
        t.lever l = accepted (s.lever l) n r g ∧ queuedOrEvaluated t l = true ∧
        Changes ([.leads, .lever l] ++ endOfEvent) s t) ∧
    (shows n r e → g = false → (s.lever l).grip.accepted = true →
      ∃ t, exec (.leverEvent l n r g) s = .next t ∧ Posted (.lever l) t ∧
        t.lever l = notWaiting (accepted (s.lever l) n r g) ∧ queuedOrEvaluated t l = false ∧
        Changes ([.leads, .lever l] ++ endOfEvent) s t)

/-- A lever freed or in TRANSIT follows its contacts: both closed is FAULT; a freed lever with both open is in TRANSIT;
a freed lever whose catch is released at its end settles there; and a lever that reaches an end goes to FAULT after a
lock fault, settles where its origin is not known, its freeing withdrawn or its catch released, and else is FREED there
(R81, R84, R85). Each change of state is told: to the levers waiting on it, to its signal's stick and its route lock
entry, and to the arrival of which it is the home lever (R75, R82, R96, R104, R135). That an entry into FAULT clears the
origin and the marks is the model's reading (log 51). -/
def Obligations.LeverOffItsEndIsFollowed : Prop :=
  ∀ (s : State) (l : Lever) (n r g : Bool), leverChanges (s.lever l) n r g = true →
    (n = true → r = true → s.leverState l = .freed ∨ s.leverState l = .transit →
      ∃ t, exec (.leverEvent l n r g) s = .next t ∧ Posted (.lever l) t ∧
        t.lever l = faulted .bothContacts (accepted (s.lever l) n r g) ∧ LeverTold l s t ∧
        (t.output (lockOutput l)).demand = .off ∧ Changes (.leads :: .lever l :: tellings ++ endOfEvent) s t) ∧
    (n = false → r = false → s.leverState l = .freed →
      ∃ t, exec (.leverEvent l n r g) s = .next t ∧ Posted (.lever l) t ∧
        t.lever l = { accepted (s.lever l) n r g with
          state := .transit, position := none, moved := true, deadline := none } ∧ LeverTold l s t ∧
        Changes (.leads :: .lever l :: tellings ++ endOfEvent) s t) ∧
    (∀ e, s.leverState l = .freed → (s.lever l).position = some e → shows n r e → g = false →
      (s.lever l).grip.accepted = true →
      ∃ t, exec (.leverEvent l n r g) s = .next t ∧ Posted (.lever l) t ∧
        t.lever l = settled .settled (accepted (s.lever l) n r g) ∧ LeverTold l s t ∧
        (t.output (lockOutput l)).demand = .off ∧ Changes (.leads :: .lever l :: tellings ++ endOfEvent) s t) ∧
    (∀ e, s.leverState l = .transit → shows n r e →
      ∃ t, exec (.leverEvent l n r g) s = .next t ∧ Posted (.lever l) t ∧ LeverTold l s t ∧
        Changes (.leads :: .lever l :: tellings ++ endOfEvent) s t ∧
        if (s.lever l).lockFault = true then
          t.lever l = faulted .lockFaultMoved (accepted (s.lever l) n r g) ∧ (t.output (lockOutput l)).demand = .off
        else if (s.lever l).origin = none ∨ (s.lever l).withdrawn = true ∨ g = false then
          (t.output (lockOutput l)).demand = .off ∧
          t.lever l = if g = false ∧ (s.lever l).grip.accepted = true then
              notWaiting (settled .settled (accepted (s.lever l) n r g))
            else settled .settled (accepted (s.lever l) n r g)
        else t.lever l = { accepted (s.lever l) n r g with state := .freed, position := some e })

/-- The conditions of a freeing are taken in order: the mode, the record, the group, the routes held, the terms; the first
that fails gives the withheld reason, with the signal that holds the lever or the first failing term and its place. A
freeing is granted just when all hold; a signal lever from REVERSE is judged on the mode and the group alone. The answer
to LEVER_ENQUIRY, which is refused in STARTING, says grantable just when the lever is at rest at the end asked of and its
freeing would be granted on the copy held (R79, R81, R90). -/
def Obligations.FreeingIsJudgedInOrder : Prop :=
  ∀ (s : State) (l : Lever) (e : LeverEnd) (c : Option RecordCopy),
    (judgeFreeing s l e c = .granted ↔
      s.mode = .openBox ∧ lockCut s l = false ∧ (signalFromReverse s l e = true ∨
        leverSound c = true ∧ holdingEntry s l = none ∧
          ∀ x ∈ listFrom e (copyBytes c), termHolds s false x = true)) ∧
    (s.mode = .switchedOut → judgeFreeing s l e c = .withheld .switchedOut none none) ∧
    (s.mode ≠ .openBox → s.mode ≠ .switchedOut → judgeFreeing s l e c = .withheld .wrongMode none none) ∧
    (s.mode = .openBox → signalFromReverse s l e = false → leverSound c = false →
      judgeFreeing s l e c = .withheld .recordFault none none) ∧
    (s.mode = .openBox → signalFromReverse s l e = true ∨ leverSound c = true → lockCut s l = true →
      judgeFreeing s l e c = .withheld .groupCut none none) ∧
    (∀ r, s.mode = .openBox → signalFromReverse s l e = false → leverSound c = true → lockCut s l = false →
      holdingEntry s l = some r → judgeFreeing s l e c = .withheld .routeHeld none (some r.lever)) ∧
    (∀ before x after, s.mode = .openBox → signalFromReverse s l e = false → leverSound c = true →
      lockCut s l = false → holdingEntry s l = none → listFrom e (copyBytes c) = before ++ x :: after →
      (∀ y ∈ before, termHolds s false y = true) → termHolds s false x = false →
      judgeFreeing s l e c = .withheld .term (some (before.length + 1, x)) none) ∧
    (∀ k x, judgeFreeing s l e c = .withheld .term (some (k, x)) none →
      termHolds s false x = false ∧ ∃ before after, listFrom e (copyBytes c) = before ++ x :: after ∧
        k = before.length + 1 ∧ ∀ y ∈ before, termHolds s false y = true) ∧
    (∀ f rest, AtHead s f rest → f.kind = 0x03 → f.payload = [byteOf (leverNumber l), if e = .n then 0 else 1] →
      (s.mode = .starting → AnswersOnly .leverEnquiry f rest 3 0 s) ∧
      (s.mode ≠ .starting →
        ∃ t data, exec .leverEnquiry s = .next t ∧ Replied f rest (reply f 0 0 data) s t ∧
          Changes (.requests :: endOfEvent) s t ∧
          data.take 2 = f.payload ∧
          (data[2]? = some 0 ↔ restEnd s l = some e ∧ judgeFreeing s l e (s.lever l).copy = .granted)))

/-- When an evaluation's read ends, the lever still at rest at an end is judged on the record read. Granted, it is FREED
there for 60 s with its lock demanded on, and the levers waiting on it are queued (R82); refused, it waits with the
reason, the term and the holder found (R78, R80, R81). A signal lever freed from REVERSE with its demand true makes an
entry of the route lock list with the held set, the passing circuit and the time release of its record, unless its
approach is clear and not locked always: WAITING_TRAIN, or TRAIN_PASSING with the passing circuit OCCUPIED. No other
freeing changes the list (R101, R102). -/
def Obligations.EvaluationFreesOrRefuses : Prop :=
  ∀ (s : State) (l : Lever) (e : LeverEnd) (d : Nat), s.sst.port.serving = some (.evaluation l true, d) → d ≤ s.now →
    s.lle.eval = some l → restEnd s l = some e → slotUncorrectable s.sst.cells (leverSlot l) = false →
    (judgeFreeing s l e (slotCopy s (leverSlot l)) = .granted →
      ∃ t, exec .evaluationReadComplete s = .next t ∧ Posted (.lever l) t ∧
        t.lever l = { notWaiting (s.lever l) with
          state := .freed, origin := some e, position := some e, moved := false, withdrawn := false
          lockFault := false, deadline := some (s.now + 60000), event := .freed } ∧
        (t.output (lockOutput l)).demand = .on ∧ WaitersQueued l s t ∧
        Changes (.lever l :: tellings ++ endOfEvent) s t ∧
        (e = .n ∨ slotOfLever s l = none → t.src.locks = s.src.locks) ∧
        (∀ n bs, e = .r → slotOfLever s l = some n → bs = copyBytes (s.signal n).copy →
          if (s.signal n).demand = true ∧ (locksAlways bs = true ∨ ∀ tc, approachTc bs = some tc →
              (s.track tc).state = .occupied) then
            Posted (.routeLock n) t ∧
            t.src.locks = s.src.locks.filter (fun y => y.lever ≠ l) ++ [{
              lever := l, held := heldSet bs, passing := passingTc bs, time := timeReleaseMs bs
              state := if ∃ tc, passingTc bs = some tc ∧ (s.track tc).state = .occupied then .trainPassing
                else .waitingTrain
              deadline := none, created := s.now }]
          else t.src.locks = s.src.locks)) ∧
    (∀ why failing holder, judgeFreeing s l e (slotCopy s (leverSlot l)) = .withheld why failing holder →
      ∃ t, exec .evaluationReadComplete s = .next t ∧ Posted (.lever l) t ∧
        t.lever l = { s.lever l with
          waiting := true, withheld := some why, failing := failing, holder := holder, event := .refused } ∧
        Changes (.lever l :: endOfEvent) s t)

/-- A freeing unused for its hold of 60 s settles with its lock off (R87). FAULT_ACK takes a lever in FAULT at one end
to rest there, which is told as every change of state is (R75, R82, R96, R104, R135), changes nothing of a lever not in
FAULT, and is refused with NOT_AT_END elsewhere and with WRONG_MODE in STARTING (R89). -/
def Obligations.FreeingExpiresAndFaultIsAcknowledged : Prop :=
  ∀ (s : State) (l : Lever),
    (∀ d, s.leverState l = .freed → (s.lever l).deadline = some d → d ≤ s.now →
      ∃ t, exec (.freeingExpired l) s = .next t ∧ Posted (.lever l) t ∧
        t.lever l = settled .freeingExpired (s.lever l) ∧ LeverTold l s t ∧ (t.output (lockOutput l)).demand = .off ∧
        Changes (.lever l :: tellings ++ endOfEvent) s t) ∧
    (∀ f rest, AtHead s f rest → f.kind = 0x10 → f.payload = [byteOf (leverNumber l)] →
      (∀ e, s.mode ≠ .starting → s.leverState l = .fault →
        shows (s.lever l).normal.accepted (s.lever l).reverse.accepted e →
        ∃ t, exec .faultAck s = .next t ∧ Replied f rest (reply f 0 0 []) s t ∧ Posted (.lever l) t ∧
          t.lever l = { s.lever l with
            state := (match e with | .n => .normal | .r => .reverse), cause := none, event := .faultCleared } ∧
          LeverTold l s t ∧
          Changes (.requests :: .lever l :: tellings ++ endOfEvent) s t) ∧
      (s.mode ≠ .starting → s.leverState l ≠ .fault →
        ∃ t, exec .faultAck s = .next t ∧ Replied f rest (reply f 0 0 []) s t ∧ Changes (.requests :: endOfEvent) s t) ∧
      (s.mode ≠ .starting → s.leverState l = .fault →
        (s.lever l).normal.accepted = (s.lever l).reverse.accepted →
        ∃ t, exec .faultAck s = .next t ∧ Replied f rest (reply f 1 12 []) s t ∧ Changes (.requests :: endOfEvent) s t) ∧
      (s.mode = .starting →
        ∃ t, exec .faultAck s = .next t ∧ Replied f rest (reply f 3 0 []) s t ∧ Changes (.requests :: endOfEvent) s t))

/-! ## Signals and route holding -/

/-- TIME_RELEASE on an entry without a deadline sets it at now + T_eff, a WAITING_TRAIN entry going to TIMING, and answers
the slot and the time; with no entry, or one timed already, it is refused, and in STARTING with WRONG_MODE (R103, R105,
R106). -/
def Obligations.TimeReleaseIsTimed : Prop :=
  ∀ (s : State) (l : Lever) (f : Frame) (rest : List Frame), AtHead s f rest → f.kind = 0x11 →
    f.payload = [byteOf (leverNumber l)] →
    (s.mode = .starting → AnswersOnly .timeRelease f rest 3 0 s) ∧
    (∀ e, s.mode ≠ .starting → entryOf s l = some e → e.deadline = none →
      ∃ t time, exec .timeRelease s = .next t ∧
        time = (if s.tbm.state = .good then e.time else (e.time * 5 / 4 + 99) / 100 * 100) ∧
        Replied f rest (reply f 0 0 (byteOf (slotNumberOf s l) :: twoBytes (time / 100))) s t ∧
        t.src.locks = s.src.locks.map (fun x => if x.lever = l then
          { x with deadline := some (s.now + time), state := if x.state = .waitingTrain then .timing else x.state }
          else x) ∧
        (∀ n, slotOfLever s l = some n → Posted (.routeLock n) t) ∧ Changes ([.requests, .locks] ++ endOfEvent) s t) ∧
    (∀ e, s.mode ≠ .starting → entryOf s l = some e → e.deadline.isSome = true →
      AnswersOnly .timeRelease f rest 1 10 s) ∧
    (s.mode ≠ .starting → entryOf s l = none → AnswersOnly .timeRelease f rest 1 11 s)

/-- When an entry's time deadline is reached the command comes due, and it removes the entry with cause TIME_RELEASE,
whatever the mode and the entry's release state; every waiting lever is queued again (R82, R104, R108). That the deadline
comes as a queued command is the model's own (log 4). -/
def Obligations.TimeDeadlineRemovesTheEntry : Prop :=
  ∀ (s : State) (l : Lever) (e : RouteLock) (d : Nat), entryOf s l = some e → e.deadline = some d → d ≤ s.now →
    Instr.timeDeadline l ∈ due s ∧
    ∃ t, exec (.timeDeadline l) s = .next t ∧ t.src.locks = s.src.locks.filter (fun x => x.lever ≠ l) ∧
      (∀ n, slotOfLever s l = some n → (t.signal n).removal = .timeRelease ∧ Posted (.routeLock n) t) ∧
      (∀ n, slotOfLever s l ≠ some n → (t.signal n).removal = (s.signal n).removal) ∧
      (∀ m, (s.lever m).waiting = true → queuedOrEvaluated t m = true) ∧
      Changes ([.locks, .removals] ++ endOfEvent) s t

/-- ALL_SIGNALS_ON is refused with WRONG_MODE in STARTING and accepted in every other mode: the stick of every signal lever
that is REVERSE is set, every demand falls and its output is demanded off, the reply counts the sticks newly set, and
a signal lever elsewhere with its demand false keeps its stick (R98). -/
def Obligations.AllSignalsGoOn : Prop :=
  ∀ (s : State) (f : Frame) (rest : List Frame), AtHead s f rest → f.kind = 0x12 → f.payload = [] →
    (s.mode = .starting →
      ∃ t, exec .allSignalsOn s = .next t ∧ Replied f rest (reply f 3 0 []) s t ∧ Changes (.requests :: endOfEvent) s t) ∧
    (s.mode ≠ .starting →
      ∃ t, exec .allSignalsOn s = .next t ∧
        Replied f rest (reply f 0 0 [byteOf ((List.finRange 24).countP fun n =>
          slotReverse s n && !(s.signal n).stick && (t.signal n).stick)]) s t ∧
        (∀ n, slotReverse s n = true → (t.signal n).stick = true) ∧
        (∀ n, (t.signal n).demand = false) ∧
        (∀ n, (s.signal n).demand = true → (t.output (aspectOutput n)).demand = .off ∧ commanded t (aspectOutput n) = .off) ∧
        (∀ n, slotReverse s n = false → (s.signal n).demand = false → (t.signal n).stick = (s.signal n).stick) ∧
        (∀ n, SignalsProved s → slotReverse s n = false → (s.signal n).demand = false) ∧
        Changes (.requests :: endOfEvent) s t)

/-! ## Block bells -/

/-- A high on bell-in is judged on its length when it falls: under 40 ms it is noise, to 400 ms a beat, and from there to
below 5000 ms a LONG beat, counted into the open code; after STUCK the fall counts nothing (R112, R113). A code whose end
deadline passed under the noise completes at its fall (R115). In STARTING a rise moves the filter only (R117, R123). A
fall that finds a high of 5000 ms or more not yet stuck counts it as the stuck limit would, and ends it: the model's
reading (log 28). That an accepted edge put in from outside sets the lead is the model's choice (log 5). -/
def Obligations.HighsAreJudgedOnTheirLength : Prop :=
  ∀ (s : State) (x : Line),
    ((s.bell x).filter.level = false → s.mode ≠ .starting → (s.bell x).rx = .idle ∨ (s.bell x).rx = .gap →
      ∃ t, exec (.bellRisingEdge x) s = .next t ∧ t.leads.bellIn.get x.place = true ∧
        BellAs { s.bell x with filter := ⟨true, 0⟩, rx := .high, highStart := some s.now } (t.bell x) ∧
        Changes ([.leads, .bell x] ++ endOfEvent) s t) ∧
    ((s.bell x).filter.level = false → s.mode = .starting ∨ (s.bell x).rx = .high ∨ (s.bell x).rx = .stuck →
      ∃ t, exec (.bellRisingEdge x) s = .next t ∧ t.leads.bellIn.get x.place = true ∧
        BellAs { s.bell x with filter := ⟨true, 0⟩ } (t.bell x) ∧ Changes ([.leads, .bell x] ++ endOfEvent) s t) ∧
    (∀ h, (s.bell x).filter.level = true → (s.bell x).rx = .high → (s.bell x).highStart = some h → s.now < h + 40 →
      (s.bell x).code = none →
      ∃ t, exec (.bellFallingEdge x) s = .next t ∧
        BellAs { s.bell x with filter := ⟨false, 0⟩, rx := .idle, highStart := none } (t.bell x) ∧
        Changes ([.leads, .bell x] ++ endOfEvent) s t) ∧
    (∀ h c, (s.bell x).filter.level = true → (s.bell x).rx = .high → (s.bell x).highStart = some h → s.now < h + 40 →
      (s.bell x).code = some c → s.now < c.lastFall + 1500 →
      ∃ t, exec (.bellFallingEdge x) s = .next t ∧
        BellAs { s.bell x with filter := ⟨false, 0⟩, rx := .gap, highStart := none } (t.bell x) ∧
        Changes ([.leads, .bell x] ++ endOfEvent) s t) ∧
    (∀ h c, (s.bell x).filter.level = true → (s.bell x).rx = .high → (s.bell x).highStart = some h → s.now < h + 40 →
      (s.bell x).code = some c → c.lastFall + 1500 ≤ s.now →
      ∃ t, exec (.bellFallingEdge x) s = .next t ∧ Posted (.bell x) t ∧ (t.bell x).code = none ∧
        (t.bell x).rx = .idle ∧ (t.bell x).highStart = none ∧ (t.block x).lastCode = some (codeName c) ∧
        Changes (.leads :: codeHeard x ++ endOfEvent) s t) ∧
    (∀ h, (s.bell x).filter.level = true → (s.bell x).rx = .high → (s.bell x).highStart = some h → h + 40 ≤ s.now →
      s.now < h + 5000 →
      ∃ t, exec (.bellFallingEdge x) s = .next t ∧ t.leads.bellIn.get x.place = false ∧
        BellAs { s.bell x with
          filter := ⟨false, 0⟩, rx := .gap, highStart := none, lastBeatEnd := s.now
          code := some (countBeat h s.now (decide (h + 400 < s.now)) (s.bell x).code) } (t.bell x) ∧
        Changes ([.leads, .bell x] ++ endOfEvent) s t) ∧
    (∀ h, (s.bell x).filter.level = true → (s.bell x).rx = .high → (s.bell x).highStart = some h → h + 5000 ≤ s.now →
      ∃ t, exec (.bellFallingEdge x) s = .next t ∧ Posted (.bell x) t ∧ (t.bell x).code = none ∧
        (t.bell x).rx = .idle ∧ (t.bell x).highStart = none ∧ (t.bell x).lastBeatEnd = s.now ∧
        (t.block x).lastCode = some none ∧ Changes (.leads :: codeHeard x ++ endOfEvent) s t) ∧
    ((s.bell x).filter.level = true → (s.bell x).rx = .stuck →
      ∃ t, exec (.bellFallingEdge x) s = .next t ∧ Posted (.bell x) t ∧
        BellAs { s.bell x with filter := ⟨false, 0⟩, rx := .idle, highStart := none, lastBeatEnd := s.now } (t.bell x) ∧
        Changes ([.leads, .bell x] ++ endOfEvent) s t)

/-- Beats make codes: the first opens a code; one less than 350 ms after the last beat's end joins its group, up to 12;
any other begins a new group, up to 6; a beat past either limit, or LONG, makes the code INVALID, and of the seventh and
later groups only the number seen is kept (R113, R114). A code
is known by its pattern alone, and an INVALID one is UNKNOWN (R111, R115). -/
def Obligations.BeatsMakeCodes : Prop :=
  (∀ rise fall long, countBeat rise fall long none = ⟨[1], 1, long, fall⟩) ∧
  (∀ (c : OpenCode) (gs : List Nat) (g rise fall : Nat) (long : Bool), c.groups = gs ++ [g] → c.seen ≤ 6 →
    c.seen = c.groups.length → c.lastFall ≤ rise →
    countBeat rise fall long (some c) =
      if rise < c.lastFall + 350 then
        if g < 12 then ⟨gs ++ [g + 1], c.seen, c.invalid || long, fall⟩ else ⟨c.groups, c.seen, true, fall⟩
      else if c.seen < 6 then ⟨c.groups ++ [1], c.seen + 1, c.invalid || long, fall⟩
      else ⟨c.groups, 7, true, fall⟩) ∧
  (∀ (c : OpenCode) (rise fall : Nat) (long : Bool), 6 < c.seen → c.lastFall ≤ rise →
    countBeat rise fall long (some c) =
      if rise < c.lastFall + 350 then ⟨c.groups, c.seen, c.invalid || long, fall⟩
      else ⟨c.groups, min 255 (c.seen + 1), true, fall⟩) ∧
  (∀ c : OpenCode, c.invalid = true → codeName c = none) ∧
  (∀ (c : OpenCode) (k : BellCode), c.invalid = false → (codeName c = some k ↔ c.groups = codePattern k)) ∧
  allCodes.map codePattern = [[1], [2, 2], [2, 1, 2], [4, 1], [1, 1, 3], [3, 3], [5], [1, 2], [4, 4], [9]] ∧
  allCodes.map codeNumber = [1, 2, 3, 4, 5, 6, 7, 8, 9, 10]

/-- A code completes 1500 ms after its last beat, in GAP or under a high begun later, and at the stuck limit of a high. It
is handed to the sections, joins the receive queue while that holds fewer than 8, and else is lost with the discarded flag
set, and posts BELL (R113, R115, R116). Only a BELL report that goes out in the event takes a code from the queue. -/
def Obligations.CodesComplete : Prop :=
  ∀ (s : State) (x : Line),
    (∀ c, (s.bell x).code = some c → c.lastFall + 1500 ≤ s.now →
      (s.bell x).rx = .gap ∨
        ((s.bell x).rx = .high ∧ ∃ h, (s.bell x).highStart = some h ∧ c.lastFall + 1500 ≤ h) →
      ∃ t, exec (.codeEndDeadline x) s = .next t ∧ Posted (.bell x) t ∧
        (t.bell x).code = none ∧ (t.bell x).rx = (if (s.bell x).rx = .gap then .idle else .high) ∧
        (t.bell x).sendQueue = (s.bell x).sendQueue ∧ (t.bell x).sender = (s.bell x).sender ∧
        (t.block x).lastCode = some (codeName c) ∧
        CodeTaken x ⟨c.groups, codeName c, c.invalid, (s.bell x).through, c.lastFall + 1500⟩ s t ∧
        Changes (codeHeard x ++ endOfEvent) s t) ∧
    (∀ h, (s.bell x).rx = .high → (s.bell x).highStart = some h → h + 5000 ≤ s.now →
      ∃ t, exec (.stuckLimit x) s = .next t ∧ Posted (.bell x) t ∧ (t.bell x).rx = .stuck ∧ (t.bell x).code = none ∧
        (t.bell x).highStart = some h ∧ (t.block x).lastCode = some none ∧
        CodeTaken x ⟨(countBeat h s.now true (s.bell x).code).groups, none, true, (s.bell x).through, s.now⟩ s t ∧
        Changes (codeHeard x ++ endOfEvent) s t)

/-- BELL_SEND appends a code while the line is not through-connected and its queue not full, is refused elsewhere, and in
STARTING with WRONG_MODE. An IDLE sender starts at once; a beat sounds 100 ms, with 200 ms to the next of its group,
800 ms to the next group, and 2000 ms after the code, which is then told as sent (R119, R121). A code told as sent on a
line not frozen repeats the incoming offer with its code, which keeps its time and expiry; an offer with another code
becomes the outgoing offer; CANCEL takes away the outgoing offer; and any other code, like every code on a frozen line,
changes no section (R129, R130). -/
def Obligations.SenderSoundsTheQueue : Prop :=
  ∀ (s : State) (x : Line),
    (∀ f rest c, AtHead s f rest → f.kind = 0x20 → f.payload = [byteOf (lineNumber x), byteOf (codeNumber c)] →
      (s.mode = .starting → AnswersOnly .bellSend f rest 3 0 s) ∧
      (s.mode ≠ .starting → (s.bell x).through = false → (s.bell x).sendQueue.length < 4 →
        ∃ t, exec .bellSend s = .next t ∧
          Replied f rest (reply f 0 0 [byteOf ((s.bell x).sendQueue.length + 1)]) s t ∧ Posted (.bell x) t ∧
          (t.bell x).sendQueue = (s.bell x).sendQueue ++ [c] ∧
          ((s.bell x).sender ≠ .idle → BellAs { s.bell x with sendQueue := (s.bell x).sendQueue ++ [c] } (t.bell x)) ∧
          ((s.bell x).sender = .idle → (s.bell x).sendQueue = [] → BellAs { s.bell x with
            sendQueue := [c], sender := .sounding, stepEnd := some (s.now + 100)
            place := afterFirst (codePattern c) } (t.bell x)) ∧
          Changes ([.requests, .bell x] ++ endOfEvent) s t) ∧
      (s.mode ≠ .starting → (s.bell x).through = true → AnswersOnly .bellSend f rest 1 15 s) ∧
      (s.mode ≠ .starting → (s.bell x).through = false → 4 ≤ (s.bell x).sendQueue.length →
        AnswersOnly .bellSend f rest 1 14 s)) ∧
    (∀ d, (s.bell x).stepEnd = some d → d ≤ s.now →
      (∀ k gs, (s.bell x).sender = .sounding → (s.bell x).place = (k + 1) :: gs →
        ∃ t, exec (.soundingEnd x) s = .next t ∧ Changes (.bell x :: endOfEvent) s t ∧
          BellAs { s.bell x with sender := .spacing, stepEnd := some (s.now + 200) } (t.bell x)) ∧
      (∀ g gs, (s.bell x).sender = .sounding → (s.bell x).place = 0 :: g :: gs →
        ∃ t, exec (.soundingEnd x) s = .next t ∧ Changes (.bell x :: endOfEvent) s t ∧
          BellAs { s.bell x with sender := .spacing, stepEnd := some (s.now + 800) } (t.bell x)) ∧
      (∀ c q, (s.bell x).sender = .sounding → (s.bell x).place = [0] → (s.bell x).sendQueue = c :: q →
        ∃ t, exec (.soundingEnd x) s = .next t ∧ Posted (.bell x) t ∧ (t.block x).lastCode = some (some c) ∧
          BellAs { s.bell x with
            sender := .trailing, stepEnd := some (s.now + 2000), place := [], sendQueue := q } (t.bell x) ∧
          Posted (.sect x .incoming) t ∧ Posted (.sect x .outgoing) t ∧
          ((s.block x).frozen = true → SectionsStand x s t ∧ (t.block x).lastAction = .reportedOnly) ∧
          ((s.block x).frozen = false →
            (∀ o, isOffer c = true → (s.block x).inc.offer = some o → o.code = c →
              (t.block x).inc = { (s.block x).inc with offer := some { o with repeated := true } } ∧
              (t.block x).out = (s.block x).out ∧ (t.block x).lastAction = .offerRepeated) ∧
            (isOffer c = true → (∀ o, (s.block x).inc.offer = some o → o.code ≠ c) →
              (t.block x).out = { (s.block x).out with offer := some ⟨c, s.now, false, s.now + 120000⟩ } ∧
              (t.block x).inc = (s.block x).inc ∧ (t.block x).lastAction = .offerSent) ∧
            (c = .cancel → (s.block x).out.offer.isSome = true →
              (t.block x).out = { (s.block x).out with offer := none } ∧
              (t.block x).inc = (s.block x).inc ∧ (t.block x).lastAction = .outOfferCancelled) ∧
            (isOffer c = false → (c = .cancel → (s.block x).out.offer = none) →
              SectionsStand x s t ∧ (t.block x).lastAction = .reportedOnly)) ∧
          Changes (codeHeard x ++ endOfEvent) s t) ∧
      ((s.bell x).sender = .spacing →
        ∃ t, exec (.spacingEnd x) s = .next t ∧ Changes (.bell x :: endOfEvent) s t ∧
          BellAs { s.bell x with
            sender := .sounding, stepEnd := some (s.now + 100), place := afterNext (s.bell x).place } (t.bell x)) ∧
      ((s.bell x).sender = .trailing → (s.bell x).sendQueue = [] →
        ∃ t, exec (.trailingEnd x) s = .next t ∧ Changes (.bell x :: endOfEvent) s t ∧
          BellAs { s.bell x with sender := .idle, stepEnd := none, place := [] } (t.bell x)) ∧
      (∀ c q, (s.bell x).sender = .trailing → (s.bell x).sendQueue = c :: q →
        ∃ t, exec (.trailingEnd x) s = .next t ∧ Changes (.bell x :: endOfEvent) s t ∧
          BellAs { s.bell x with
            sender := .sounding, stepEnd := some (s.now + 100), place := afterFirst (codePattern c) } (t.bell x)))

/-- A completed code acts on its line's sections by the first row of R128 that applies. An offer is matched with the
outgoing offer SENT, found ACCEPTED already, recorded while the section is BLOCKED, or else reported only; CANCEL takes
away the incoming offer, is recorded at LINE_CLEAR, takes away the outgoing offer, or else is reported only; EMERGENCY
sets the sticks of the line's own signals and their distants that are REVERSE (R99); the rest are reported only, and so
is every code UNKNOWN or heard on a line through-connected or frozen. That EMERGENCY reads the copies of the lever
records whatever their condition is the model's reading (log 33). -/
def Obligations.CodesReachTheSections : Prop :=
  ∀ (s : State) (x : Line) (c : OpenCode), (s.bell x).code = some c → c.lastFall + 1500 ≤ s.now →
    (s.bell x).rx = .gap ∨
      ((s.bell x).rx = .high ∧ ∃ h, (s.bell x).highStart = some h ∧ c.lastFall + 1500 ≤ h) →
    ∃ t, exec (.codeEndDeadline x) s = .next t ∧ (t.block x).lastCode = some (codeName c) ∧
      Posted (.sect x .incoming) t ∧ Posted (.sect x .outgoing) t ∧
      (codeName c = none ∨ (s.bell x).through = true ∨ (s.block x).frozen = true →
        SectionsStand x s t ∧ (t.block x).lastAction = .reportedOnly) ∧
      (∀ k, codeName c = some k → (s.bell x).through = false → (s.block x).frozen = false →
        (∀ o, isOffer k = true → (s.block x).out.offer = some o → o.code = k → o.accepted = false →
          (t.block x).out = { (s.block x).out with
            offer := some { o with accepted := true, expiry := s.now + 120000 } } ∧
          (t.block x).inc = (s.block x).inc ∧ (t.block x).lastAction = .offerAccepted) ∧
        (∀ o, isOffer k = true → (s.block x).out.offer = some o → o.code = k → o.accepted = true →
          SectionsStand x s t ∧ (t.block x).lastAction = .reportedOnly) ∧
        (isOffer k = true → (∀ o, (s.block x).out.offer = some o → o.code ≠ k) →
          ((s.block x).inc.state = .blocked →
            (t.block x).inc = { (s.block x).inc with offer := some ⟨k, s.now, false, s.now + 300000⟩ } ∧
            (t.block x).out = (s.block x).out ∧ (t.block x).lastAction = .offerRecorded) ∧
          ((s.block x).inc.state ≠ .blocked →
            SectionsStand x s t ∧ (t.block x).lastAction = .reportedOnly)) ∧
        (k = .cancel →
          ((s.block x).inc.offer.isSome = true →
            (t.block x).inc = { (s.block x).inc with offer := none } ∧
            (t.block x).out = (s.block x).out ∧ (t.block x).lastAction = .offerCancelled) ∧
          ((s.block x).inc.offer = none → (s.block x).inc.state = .lineClear →
            (t.block x).inc = { (s.block x).inc with cancel := true } ∧
            (t.block x).out = (s.block x).out ∧ (t.block x).lastAction = .cancelRecorded) ∧
          ((s.block x).inc.offer = none → (s.block x).inc.state ≠ .lineClear →
            (s.block x).out.offer.isSome = true →
            (t.block x).out = { (s.block x).out with offer := none } ∧
            (t.block x).inc = (s.block x).inc ∧ (t.block x).lastAction = .outOfferCancelled) ∧
          ((s.block x).inc.offer = none → (s.block x).inc.state ≠ .lineClear → (s.block x).out.offer = none →
            SectionsStand x s t ∧ (t.block x).lastAction = .reportedOnly)) ∧
        (k = .emergency →
          (∀ n, emergencyDirect s x n = true ∨ emergencyDistant s x n = true → slotReverse s n = true →
            (t.signal n).stick = true) ∧
          SectionsStand x s t ∧ (t.block x).lastAction = .emergency) ∧
        (k ∈ [BellCode.call, .entering, .outOfSection] →
          SectionsStand x s t ∧ (t.block x).lastAction = .reportedOnly))

/-! ## Block sections -/

/-- COMMUTATOR in OPEN moves an incoming section: to LINE_CLEAR from BLOCKED with its offer repeated and the road proved; to
TRAIN_ON_LINE; and back to BLOCKED from a cancelled line clear or a proven or released arrival; each with its
instrument command. A move to the position held changes nothing, whatever the record
and the group. Outside OPEN it is refused with WRONG_MODE, and in OPEN
with the reason of the first condition that fails (R125, R131 to R133); the order of the conditions with a record that is
not sound is the model's reading (log 30). -/
def Obligations.CommutatorMovesTheSection : Prop :=
  (∀ (s : State) (x : Line) (f : Frame) (rest : List Frame) (bs : List Byte), AtHead s f rest → f.kind = 0x21 →
    s.mode = .openBox → lineRecord s x = some bs → s.bsc.cut10 = false →
    (∀ o, f.payload = [byteOf (lineNumber x), 1] → (s.block x).inc.state = .blocked →
      (s.block x).inc.offer = some o → o.repeated = true → homeNormal s bs = true →
      leverSound (s.block x).homeCopy = true → clearingPoint s (copyBytes (s.block x).homeCopy) = true →
      (workedSingle bs = true → startingNormal s bs = true ∧ sensedBlocked (s.block x).out.sensed = true ∧
        (s.block x).out.offer = none) →
      ∃ t, exec .commutator s = .next t ∧ Replied f rest (reply f 0 0 []) s t ∧ Posted (.sect x .incoming) t ∧
        (t.block x).inc = { (s.block x).inc with
          state := .lineClear, accepted := some o.code, offer := none, cancel := false, step := .none
          event := .lineClearGiven } ∧
        (t.output (instrumentOutput x)).demand = .positive ∧ Changes ([.requests, .incoming x] ++ endOfEvent) s t) ∧
    (f.payload = [byteOf (lineNumber x), 2] → (s.block x).inc.state ≠ .trainOnLine →
      ((s.block x).inc.state = .blocked → workedSingle bs = true → startingNormal s bs = true) →
      ∃ t, exec .commutator s = .next t ∧ Replied f rest (reply f 0 0 []) s t ∧ Posted (.sect x .incoming) t ∧
        (t.block x).inc = { (s.block x).inc with
          state := .trainOnLine, offer := none
          step := if circuitClear s (entryTc bs) then .none else .entryOcc
          event := if (s.block x).inc.state = .blocked then .obstruction else .trainOnLine } ∧
        (t.output (instrumentOutput x)).demand = .negative ∧ Changes ([.requests, .incoming x] ++ endOfEvent) s t) ∧
    (f.payload = [byteOf (lineNumber x), 0] →
      ((s.block x).inc.state = .lineClear ∧ (s.block x).inc.cancel = true) ∨
        ((s.block x).inc.state = .trainOnLine ∧
          ((s.block x).inc.step = .proven ∨ (s.block x).inc.release = .runOut)) →
      ∃ t, exec .commutator s = .next t ∧ Replied f rest (reply f 0 0 []) s t ∧ Posted (.sect x .incoming) t ∧
        (t.block x).inc = { (s.block x).inc with
          state := .blocked, accepted := none, cancel := false, step := .none, release := .none, alarm := false
          event := .blocked } ∧
        (t.output (instrumentOutput x)).demand = .off ∧ Changes ([.requests, .incoming x] ++ endOfEvent) s t)) ∧
  (∀ (s : State) (x : Line) (f : Frame) (rest : List Frame), AtHead s f rest → f.kind = 0x21 →
    (∀ p : Byte, f.payload = [byteOf (lineNumber x), p] → p.toNat ≤ 2 → s.mode ≠ .openBox →
      AnswersOnly .commutator f rest 3 0 s) ∧
    (f.payload = [byteOf (lineNumber x), byteOf (inStateCode (s.block x).inc.state)] → s.mode = .openBox →
      AnswersOnly .commutator f rest 0 0 s) ∧
    (f.payload = [byteOf (lineNumber x), 1] → s.mode = .openBox →
      ((s.block x).inc.state = .trainOnLine → AnswersOnly .commutator f rest 1 6 s) ∧
      ((s.block x).inc.state = .blocked → (∀ o, (s.block x).inc.offer = some o → o.repeated = false) →
        AnswersOnly .commutator f rest 1 3 s) ∧
      (∀ o, (s.block x).inc.state = .blocked → (s.block x).inc.offer = some o → o.repeated = true →
        (lineRecord s x = none → AnswersOnly .commutator f rest 1 16 s) ∧
        (∀ bs, lineRecord s x = some bs →
          (homeNormal s bs = false → AnswersOnly .commutator f rest 1 7 s) ∧
          (homeNormal s bs = true → leverSound (s.block x).homeCopy = true →
            clearingPoint s (copyBytes (s.block x).homeCopy) = false → AnswersOnly .commutator f rest 1 8 s) ∧
          (homeNormal s bs = true → (leverSound (s.block x).homeCopy = true →
              clearingPoint s (copyBytes (s.block x).homeCopy) = true) →
            (workedSingle bs = true → ¬(startingNormal s bs = true ∧ sensedBlocked (s.block x).out.sensed = true ∧
              (s.block x).out.offer = none) → AnswersOnly .commutator f rest 1 9 s) ∧
            ((workedSingle bs = true → startingNormal s bs = true ∧ sensedBlocked (s.block x).out.sensed = true ∧
                (s.block x).out.offer = none) →
              (leverSound (s.block x).homeCopy = false → AnswersOnly .commutator f rest 1 16 s) ∧
              (leverSound (s.block x).homeCopy = true → s.bsc.cut10 = true →
                AnswersOnly .commutator f rest 1 17 s)))))) ∧
    (f.payload = [byteOf (lineNumber x), 2] → s.mode = .openBox → (s.block x).inc.state ≠ .trainOnLine →
      (lineRecord s x = none → AnswersOnly .commutator f rest 1 16 s) ∧
      (∀ bs, lineRecord s x = some bs →
        ((s.block x).inc.state = .blocked → workedSingle bs = true → startingNormal s bs = false →
          AnswersOnly .commutator f rest 1 9 s) ∧
        (((s.block x).inc.state = .blocked → workedSingle bs = true → startingNormal s bs = true) →
          s.bsc.cut10 = true → AnswersOnly .commutator f rest 1 17 s))) ∧
    (f.payload = [byteOf (lineNumber x), 0] → s.mode = .openBox →
      ((s.block x).inc.state = .lineClear → (s.block x).inc.cancel = false → AnswersOnly .commutator f rest 1 5 s) ∧
      ((s.block x).inc.state = .trainOnLine → (s.block x).inc.step ≠ .proven → (s.block x).inc.release ≠ .runOut →
        AnswersOnly .commutator f rest 1 4 s) ∧
      (((s.block x).inc.state = .lineClear ∧ (s.block x).inc.cancel = true) ∨
          ((s.block x).inc.state = .trainOnLine ∧
            ((s.block x).inc.step = .proven ∨ (s.block x).inc.release = .runOut)) →
        (lineSound s x = false → AnswersOnly .commutator f rest 1 16 s) ∧
        (lineSound s x = true → s.bsc.cut10 = true → AnswersOnly .commutator f rest 1 17 s))))

/-- SECTION_RELEASE on a section at TRAIN_ON_LINE runs for T_eff of the section release time, and runs out at its
deadline (R106, R136). It is refused outside OPEN and SWITCHED_OUT, and for the first of its conditions that fails, the
order of a frozen line's being the model's reading (log 29), and so that a record not sound passes over the entry
circuit's condition (log 54). An offer held expires at its own deadline (R130). -/
def Obligations.ReleasesAndOffersRunOut : Prop :=
  ∀ (s : State) (x : Line),
    (∀ f rest bs, AtHead s f rest → f.kind = 0x22 → f.payload = [byteOf (lineNumber x)] →
      s.mode = .openBox ∨ s.mode = .switchedOut → (s.block x).frozen = false → (s.block x).inc.state = .trainOnLine →
      lineRecord s x = some bs → circuitClear s (entryTc bs) = true → (s.block x).inc.release = .none →
      (s.block x).inc.step ≠ .proven → slotUncorrectable s.sst.cells optionsSlot = false →
      ∃ t time, exec .sectionRelease s = .next t ∧
        time = effectiveTime s.tbm.state (sectionReleaseMs (slotCopy s optionsSlot)) ∧
        Replied f rest (reply f 0 0 (twoBytes (time / 100))) s t ∧ Posted (.sect x .incoming) t ∧
        (t.block x).inc = { (s.block x).inc with release := .running (s.now + time) } ∧
        Changes ([.requests, .incoming x] ++ endOfEvent) s t) ∧
    (∀ f rest, AtHead s f rest → f.kind = 0x22 → f.payload = [byteOf (lineNumber x)] →
      (s.mode ≠ .openBox → s.mode ≠ .switchedOut → AnswersOnly .sectionRelease f rest 3 0 s) ∧
      (s.mode = .openBox ∨ s.mode = .switchedOut →
        ((s.block x).frozen = true ∨ (s.block x).inc.state ≠ .trainOnLine ∨
            (∃ bs, lineRecord s x = some bs ∧ circuitClear s (entryTc bs) = false) →
          AnswersOnly .sectionRelease f rest 1 11 s) ∧
        ((s.block x).frozen = false → (s.block x).inc.state = .trainOnLine → lineRecord s x = none →
          AnswersOnly .sectionRelease f rest 1 16 s) ∧
        (∀ bs, (s.block x).frozen = false → (s.block x).inc.state = .trainOnLine → lineRecord s x = some bs →
          circuitClear s (entryTc bs) = true →
          ((s.block x).inc.release ≠ .none → AnswersOnly .sectionRelease f rest 1 10 s) ∧
          ((s.block x).inc.release = .none → (s.block x).inc.step = .proven →
            AnswersOnly .sectionRelease f rest 1 6 s)))) ∧
    (∀ d, (s.block x).inc.release = .running d → d ≤ s.now → lineSound s x = true →
      ∃ t, exec (.sectionReleaseRunOut x) s = .next t ∧ Posted (.sect x .incoming) t ∧
        (t.block x).inc = { (s.block x).inc with release := .runOut } ∧ Changes (.incoming x :: endOfEvent) s t) ∧
    (∀ o, (s.block x).inc.offer = some o → o.expiry ≤ s.now →
      ∃ t, exec (.offerExpiry x .incoming) s = .next t ∧ Posted (.sect x .incoming) t ∧
        (t.block x).inc = { (s.block x).inc with offer := none, event := .offerExpired } ∧
        Changes (.incoming x :: endOfEvent) s t) ∧
    (∀ o, (s.block x).out.offer = some o → o.expiry ≤ s.now →
      ∃ t, exec (.offerExpiry x .outgoing) s = .next t ∧ Posted (.sect x .outgoing) t ∧
        (t.block x).out = { (s.block x).out with offer := none, event := .offerExpired } ∧
        Changes (.outgoing x :: endOfEvent) s t)

/-- A new reading of a sense pair is held by the filter, and on a line not frozen becomes the sensed state: BLOCKED going to
LINE_CLEAR takes away the offer and, the record being sound, gives the line-clear release, which is lost as LINE_CLEAR
is left (R126, R137, R140). That an accepted reading put in from outside sets the leads is the model's choice (log 5). -/
def Obligations.SensedStateFollowsTheReading : Prop :=
  ∀ (s : State) (x : Line) (p n : Bool) (v : Sensed), v = pairReading p n → (s.block x).out.reading ≠ some v →
    ∃ t, exec (.senseReadingAccepted x p n) s = .next t ∧ Posted (.sect x .outgoing) t ∧
      t.leads.senseP.get x.place = p ∧ t.leads.senseN.get x.place = n ∧
      Changes ([.leads, .outgoing x] ++ endOfEvent) s t ∧
      if (s.block x).frozen = true ∨ v = (s.block x).out.sensed then
        (t.block x).out = { (s.block x).out with candidate := v, count := 0, reading := some v }
      else if (s.block x).out.sensed = .blocked ∧ v = .lineClear then
        (t.block x).out = if lineSound s x = true then
          { (s.block x).out with candidate := v, count := 0, reading := some v, sensed := v, offer := none
                                 release := true, event := .releaseSet }
        else { (s.block x).out with candidate := v, count := 0, reading := some v, sensed := v, offer := none }
      else if (s.block x).out.sensed = .lineClear ∧ (s.block x).out.release = true then
        (t.block x).out = { (s.block x).out with
          candidate := v, count := 0, reading := some v, sensed := v, release := false, event := .releaseLost }
      else (t.block x).out = { (s.block x).out with candidate := v, count := 0, reading := some v, sensed := v }

/-- A track circuit that becomes OCCUPIED or CLEAR moves the route locks and the sections. In the route lock list an entry
with it as passing circuit goes to TRAIN_PASSING, and as it clears is removed with cause TRAIN_PASSED (R103, R104). In a
line whose record is acted on, a circuit in one of the three places moves that place's part alone: the entry occupied
puts the section at TRAIN_ON_LINE, with the alarm and, worked SINGLE, the starting signal's stick where no line clear was
given (R100, R134); the entry cleared and the berth occupied move the arrival step (R135); and the exit occupied with the
starting signal off takes the release and asks for ENTERING (R138). A circuit named in two places is log 31's. -/
def Obligations.TrainsMoveTheSectionsAndTheRouteLocks : Prop :=
  (∀ (s : State) (tc : Tc), RouteLocksOnce s → DropsNow s tc →
    ∃ t, exec (.dropDeadline tc) s = .next t ∧ (t.track tc).state = .occupied ∧
      t.src.locks = s.src.locks.map (fun e => if e.passing = some tc then { e with state := .trainPassing } else e) ∧
      (∀ e ∈ s.src.locks, ∀ n, e.passing = some tc → e.state ≠ .trainPassing → slotOfLever s e.lever = some n →
        Posted (.routeLock n) t)) ∧
  (∀ (s : State) (tc : Tc), RouteLocksOnce s → ClearsNow s tc →
    ∃ t, exec (.trackRisingEdge tc) s = .next t ∧ (t.track tc).state = .clear ∧
      t.src.locks = s.src.locks.filter (fun e => ¬(e.passing = some tc ∧ e.state = .trainPassing)) ∧
      (∀ e ∈ s.src.locks, ∀ n, e.passing = some tc → e.state = .trainPassing → slotOfLever s e.lever = some n →
        (t.signal n).removal = .trainPassed ∧ Posted (.routeLock n) t)) ∧
  (∀ (s : State) (tc : Tc) (x : Line) (bs : List Byte), DropsNow s tc → actingRecord s x = some bs →
    ∃ t, exec (.dropDeadline tc) s = .next t ∧
      ((t.block x).inc ≠ (s.block x).inc → Posted (.sect x .incoming) t) ∧
      ((t.block x).out ≠ (s.block x).out → Posted (.sect x .outgoing) t) ∧
      (entryTc bs = some tc → berthTc bs ≠ some tc →
        (s.block x).inc.state = .lineClear → (t.block x).inc = { (s.block x).inc with
          state := .trainOnLine, step := .entryOcc, event := .trainOnLine } ∧
          (t.output (instrumentOutput x)).demand = .negative) ∧
      (entryTc bs = some tc → berthTc bs ≠ some tc →
        (s.block x).inc.state = .blocked → (t.block x).inc = { (s.block x).inc with
          state := .trainOnLine, step := .entryOcc, alarm := true, event := .unexpectedEntry, offer := none } ∧
          (t.output (instrumentOutput x)).demand = .negative ∧
          ∀ l n, workedSingle bs = true → startingLever bs = some l → slotOfLever s l = some n →
            leverAt s l .r = true → (t.signal n).stick = true) ∧
      (entryTc bs = some tc → berthTc bs ≠ some tc →
        (s.block x).inc.state = .trainOnLine → (t.block x).inc = { (s.block x).inc with
          step := .entryOcc, release := .none }) ∧
      (berthTc bs = some tc → entryTc bs ≠ some tc →
        (t.block x).inc = if (s.block x).inc.state = .trainOnLine ∧ (s.block x).inc.step = .entryOcc then
          { (s.block x).inc with
            step := if circuitClear s (entryTc bs) = false then .berthOcc
              else if homeNormal s bs = true then .proven else .entryCleared }
        else (s.block x).inc) ∧
      (entryTc bs ≠ some tc → berthTc bs ≠ some tc → (t.block x).inc = (s.block x).inc) ∧
      (exitTc bs = some tc → (s.block x).out.release = true → startingOffNow s x bs = true →
        (t.block x).out = { (s.block x).out with release := false, event := .releaseTaken } ∧
        (autoEntering bs = true → (s.bell x).through = false → (s.bell x).sendQueue.length < 4 →
          (t.bell x).sendQueue = (s.bell x).sendQueue ++ [.entering])) ∧
      (exitTc bs ≠ some tc ∨ (s.block x).out.release = false ∨ startingOffNow s x bs = false →
        (t.block x).out = (s.block x).out)) ∧
  (∀ (s : State) (tc : Tc) (x : Line) (bs : List Byte), ClearsNow s tc → actingRecord s x = some bs →
    ∃ t, exec (.trackRisingEdge tc) s = .next t ∧ (t.block x).out = (s.block x).out ∧
      ((t.block x).inc ≠ (s.block x).inc → Posted (.sect x .incoming) t) ∧
      (t.block x).inc = if entryTc bs = some tc ∧ (s.block x).inc.state = .trainOnLine ∧
          (s.block x).inc.step = .berthOcc then
        { (s.block x).inc with step := if homeNormal s bs = true then .proven else .entryCleared }
      else (s.block x).inc) ∧
  (∀ (s : State) (tc : Tc) (x : Line), actingRecord s x = none →
    (DropsNow s tc → ∃ t, exec (.dropDeadline tc) s = .next t ∧ (t.block x).inc = (s.block x).inc ∧
      (t.block x).out = (s.block x).out) ∧
    (ClearsNow s tc → ∃ t, exec (.trackRisingEdge tc) s = .next t ∧ (t.block x).inc = (s.block x).inc ∧
      (t.block x).out = (s.block x).out))

/-! ## Vital outputs -/

/-- A round falling due starts when none runs: Tr is taken, group 1's states are fixed and its outputs on are pulsed. When
one runs, it is counted as an overrun and owed (R144 to R146). -/
def Obligations.RoundsFallDue : Prop :=
  ∀ (s : State) (d : Nat), s.vod.nextDue = some d → d ≤ s.now →
    (s.vod.refresh = none →
      ∃ t r, exec .roundDue s = .next t ∧ t.vod.refresh = some r ∧ r.group = 0 ∧ r.first = none ∧
        (∀ i o, groupOutput 0 i.val = some o → r.fixed.get i = commanded s o ∧
          (t.output o).lastPulse = (if isOn (commanded s o) then some s.now else (s.output o).lastPulse) ∧
          (t.output o).carried = if isOn (commanded s o) then commanded s o else (s.output o).carried) ∧
        r.readAt = s.now + r.fixed.items.countP isOn + 1 ∧
        t.vod.interval = refreshInterval s.vod.options ∧ t.vod.roundStart = s.now ∧
        t.vod.nextDue = some (s.now + refreshInterval s.vod.options) ∧ Changes ([.drives, .round] ++ endOfEvent) s t) ∧
    (∀ r, s.vod.refresh = some r →
      ∃ t, exec .roundDue s = .next t ∧ Posted (.group r.group) t ∧ t.vod.owed = true ∧ t.vod.nextDue = none ∧
        t.vod.overruns = min 65535 (s.vod.overruns + 1) ∧ t.vod.refresh = some r ∧
        Changes (.round :: endOfEvent) s t)

/-- A first read-back that agrees on every output of the group ends its refresh, and the next group's begins or the
round ends; one with a mismatch pulses again and is repeated 2 ms later (R145, R146). The retry read-back gives the
verdicts: a mismatch seen twice alike is the output's fault, and a wrong side cuts the group, all of whose outputs are
then commanded off (R146 to R148). The owners are told: the freeings of a lock group cut are withdrawn and a lever
without lock current settles or faults (R86, R88), a signal without current or cut falls with its stick set (R97), and
an instrument, the relay and a cut of group 10 reach the sections and the mode (R125, R164). Where one event brings a
cut and a NO_CURRENT the cut is taken first, the model's reading (log 53); an instrument or relay is told of each setting
and clearing of NO_CURRENT (log 17), and the drive fault follows it on a frozen line too (log 60), both its readings. -/
def Obligations.ReadBacksAreJudged : Prop :=
  (∀ (s : State) (r : Refresh) (readings : Byte), s.vod.refresh = some r → r.first = none → r.readAt ≤ s.now →
     ((∀ i o, groupOutput r.group i.val = some o →
         judgeReading s.now (s.output o) (isOn (r.fixed.get i)) (readings.getLsbD i.val) = .agrees) →
       ∃ t, exec (.firstReadBack readings) s = .next t ∧ t.vod.cuts = s.vod.cuts ∧
         (∀ (i : Fin 8) o, groupOutput r.group i.val = some o →
           (t.output o).readBack = readings.getLsbD i.val ∧ (t.output o).fault = .none) ∧
         (∀ l, t.lever l = s.lever l) ∧
         (∀ x, (t.block x).inc = if r.group = 9 ∧ (s.output (instrumentOutput x)).fault = .noCurrent then
           { (s.block x).inc with driveFault := false } else (s.block x).inc) ∧
         t.bmc.relayFault = (if r.group = 9 ∧ (s.output relayOutput).fault = .noCurrent then false
           else s.bmc.relayFault) ∧
         (r.group = 9 → t.vod.lastLength = s.now - s.vod.roundStart ∧ (s.vod.owed = true → RoundStarted s t)) ∧
         (∀ h : r.group.val + 1 < 10, ∃ q, t.vod.refresh = some q ∧ q.group = ⟨r.group.val + 1, h⟩ ∧ q.first = none) ∧
         (r.group = 9 → s.vod.owed = false → t.vod.refresh = none)) ∧
     ((∃ i o, groupOutput r.group i.val = some o ∧
         judgeReading s.now (s.output o) (isOn (r.fixed.get i)) (readings.getLsbD i.val) ≠ .agrees) →
       ∃ t q, exec (.firstReadBack readings) s = .next t ∧ t.vod.refresh = some q ∧ q.group = r.group ∧
         q.fixed = r.fixed ∧ q.readAt = s.now + 2 ∧
         (∃ first, q.first = some first ∧ ∀ i o, groupOutput r.group i.val = some o → first.get i =
           judgeReading s.now (s.output o) (isOn (r.fixed.get i)) (readings.getLsbD i.val)) ∧
         (∀ i o, groupOutput r.group i.val = some o → isOn (r.fixed.get i) = true →
           (t.output o).lastPulse = some s.now ∧ (t.output o).carried = r.fixed.get i) ∧
         (∀ o, (t.output o).fault = (s.output o).fault ∧ (t.output o).readBack = (s.output o).readBack) ∧
         Changes ([.drives, .round] ++ endOfEvent) s t)) ∧
  (∀ (s : State) (r : Refresh) (first : Table 8 Judged) (readings : Byte), s.vod.refresh = some r →
     r.first = some first → r.readAt ≤ s.now →
     ∃ t, exec (.retryReadBack readings) s = .next t ∧
       (∀ i o, groupOutput r.group i.val = some o →
         (t.output o).readBack = readings.getLsbD i.val ∧
         (t.output o).fault =
           match first.get i, judgeReading s.now (s.output o) (isOn (r.fixed.get i)) (readings.getLsbD i.val) with
           | .noCurrent, .noCurrent => .noCurrent
           | .wrongSide, .wrongSide => .wrongSide
           | _, _ => .none) ∧
       (∀ g, t.vod.cuts.get g = true ↔ s.vod.cuts.get g = true ∨ (g = r.group ∧ ∃ i o,
         groupOutput r.group i.val = some o ∧ first.get i = .wrongSide ∧
         judgeReading s.now (s.output o) (isOn (r.fixed.get i)) (readings.getLsbD i.val) = .wrongSide)) ∧
       (∀ o, t.vod.cuts.get (groupOf o) = true → commanded t o = .off) ∧
       (∀ h : r.group.val + 1 < 10, ∃ q, t.vod.refresh = some q ∧ q.group = ⟨r.group.val + 1, h⟩ ∧ q.first = none) ∧
       (r.group = 9 → t.vod.lastLength = s.now - s.vod.roundStart ∧ (s.vod.owed = false → t.vod.refresh = none) ∧
         (s.vod.owed = true → RoundStarted s t)) ∧
       (∀ (i : Fin 8) (o : Output) (v : Judged) (newCut : Prop), groupOutput r.group i.val = some o →
         (v = if first.get i = judgeReading s.now (s.output o) (isOn (r.fixed.get i)) (readings.getLsbD i.val) then
           first.get i else .agrees) →
         (newCut ↔ s.vod.cuts.get r.group = false ∧ t.vod.cuts.get r.group = true) →
         (∀ l, o = lockOutput l → LockTold l v newCut s t) ∧
         (∀ n, o = aspectOutput n → (s.signal n).demand = true → NewNoCurrent s o v ∨ t.vod.cuts.get r.group = true →
           (t.signal n).demand = false ∧ (t.signal n).stick = true) ∧
         (∀ x, o = instrumentOutput x → (t.block x).inc =
           if (s.output o).fault = .noCurrent ↔ v = .noCurrent then (s.block x).inc
           else { (s.block x).inc with driveFault := decide (v = .noCurrent) }) ∧
         (o = relayOutput → t.bmc.relayFault =
           if (s.output o).fault = .noCurrent ↔ v = .noCurrent then s.bmc.relayFault else decide (v = .noCurrent)) ∧
         (newCut → Posted (.group r.group) t ∧ (r.group = 9 → t.bsc.cut10 = true ∧ t.bmc.cut10 = true ∧
           Posted .mode t ∧ ∀ x, Posted (.sect x .incoming) t ∧ Posted (.sect x .outgoing) t))) ∧
       (∀ l, groupOf (lockOutput l) ≠ r.group → t.lever l = s.lever l) ∧
       (r.group ≠ 9 → t.bsc.cut10 = s.bsc.cut10 ∧ t.bmc = s.bmc))

/-! ## Indication chain -/

/-- The end of a chain frame gives way to the next wanted: an ALL_ON first, then a PHASE, then the dirty rows, which no
frame carries while a lamp test runs (R153, R155, R156). The flash phase toggles every 500 ms, and every row is sent
again every 10 s (R154); an idle chain takes its frame at once. A telling computes the lamps that name its source, and
each that changes makes its row dirty (R152); an idle chain sends at the telling, the model's reading (log 50). A lamp's
value is that of the first case of R151 that applies, with the conditions of R45. -/
def Obligations.ChainSendsWhatIsWanted : Prop :=
  (∀ s : State,
    (∀ fr, s.icc.frame = some fr → fr.endsAt ≤ s.now → s.icc.phase.isSome = true →
      ∃ t, exec .chainFrameEnd s = .next t ∧ Changes endOfEvent s t ∧ TakesNextFrame s.now s.icc t ∧
        (∀ g, t.icc.frame = some g → s.now < g.endsAt) ∧
        (mustFall s = none → mayRise s = none →
          (∀ i j, t.icc.frame.map (fun g => g.kind) = some (.rows i j) → ∀ r, t.icc.dirty.get r = false) ∧
          ((∀ r, s.icc.dirty.get r = false) → s.icc.allOnPending = false → s.icc.phaseDue = false →
            t.icc.frame = none))) ∧
    (∀ d p, s.icc.toggleAt = some d → d ≤ s.now → s.icc.phase = some p →
      ∃ t, exec .flashPhaseToggle s = .next t ∧ t.icc.phase = some (!p) ∧ t.icc.toggleAt = some (d + 500) ∧
        t.icc.refreshAt = s.icc.refreshAt ∧ t.icc.testUntil = s.icc.testUntil ∧
        (s.icc.frame.isSome = true → t.icc.phaseDue = true) ∧
        (s.icc.frame = none → TakesNextFrame s.now { s.icc with phase := some (!p), phaseDue := true } t) ∧
        Changes (.lampTimers :: endOfEvent) s t) ∧
    (∀ d, s.icc.refreshAt = some d → d ≤ s.now → s.icc.phase.isSome = true →
      ∃ t, exec .fullRefresh s = .next t ∧ t.icc.refreshAt = some (d + 10000) ∧ t.icc.toggleAt = s.icc.toggleAt ∧
        t.icc.phase = s.icc.phase ∧ t.icc.testUntil = s.icc.testUntil ∧
        (s.icc.frame.isSome = true → ∀ r, t.icc.dirty.get r = true) ∧
        (s.icc.frame = none → TakesNextFrame s.now { s.icc with dirty := .fill 32 true } t) ∧
        Changes (.lampTimers :: endOfEvent) s t)) ∧
  (∀ (names : List Byte → Bool) (s t : State), t = tellIcc names s → s.icc.phase.isSome = true →
    (∀ q ∈ placements s.icc, t.icc.desired.get q.1 =
      if names q.2.2.bytes = true then lampValue s q.2.2 else s.icc.desired.get q.1) ∧
    (∀ p, (∀ q ∈ placements s.icc, q.1 ≠ p) → t.icc.desired.get p = s.icc.desired.get p) ∧
    (∀ r, s.icc.frame.isSome = true → (t.icc.dirty.get r = true ↔ s.icc.dirty.get r = true ∨
      ∃ p, rowOf p = r ∧ t.icc.desired.get p ≠ s.icc.desired.get p)) ∧
    (∀ r, s.icc.dirty.get r = true ∨ (∃ p, rowOf p = r ∧ t.icc.desired.get p ≠ s.icc.desired.get p) →
      t.icc.dirty.get r = true ∨ ∃ a b, t.icc.frame.map (fun g => g.kind) = some (.rows a b) ∧ a ≤ r ∧ r ≤ b)) ∧
  (∀ (s : State) (tc : Tc), DropsNow s tc → s.icc.phase.isSome = true →
    ∃ t, exec (.dropDeadline tc) s = .next t ∧ ∀ q ∈ placements s.icc, lampSource q.2.2.bytes = some .track →
      byteAt q.2.2.bytes 3 = tc.val + 1 → t.icc.desired.get q.1 = lampValue t q.2.2) ∧
  (∀ (s : State) (c : RecordCopy) (k : LampSource) (n : Nat),
    (lampUnsound c = true ↔ c.cond = .corrupt ∨ lampDefined c.bytes = false) ∧
    (lampUnsound c = true → lampValue s c = .off) ∧
    (lampUnsound c = false → lampSource c.bytes = some k → n = byteAt c.bytes 3 →
      (byteAt c.bytes 6 = 1 → lampFault s k n = true → lampValue s c = .flash) ∧
      (byteAt c.bytes 6 ≠ 1 ∨ lampFault s k n = false →
        (lampTrue s k n (byteAt c.bytes 4) = true → byteAt c.bytes 5 = 0 → lampValue s c = .steady) ∧
        (lampTrue s k n (byteAt c.bytes 4) = true → byteAt c.bytes 5 ≠ 0 → lampValue s c = .flash) ∧
        (lampTrue s k n (byteAt c.bytes 4) = false → lampValue s c = .off)))) ∧
  (∀ (s : State) (c : Nat),
    (∀ l : Lever,
      (lampTrue s .lever (leverNumber l) c = true ↔ (s.leverState l, c) ∈ [(LeverState.normal, 0), (.reverse, 1), (.freed, 2),
        (.transit, 3), (.fault, 4), (.spare, 5), (.unformed, 6)]) ∧
      (lampTrue s .routeLock (leverNumber l) 0 = true ↔ (entryOf s l).isSome = true) ∧
      (lampTrue s .routeLock (leverNumber l) 1 = true ↔ ∃ e, entryOf s l = some e ∧ e.state = .timing) ∧
      (lampTrue s .signalOut (leverNumber l) 0 = true ↔ ∃ n, slotOfLever s l = some n ∧ (s.signal n).demand = true) ∧
      ∀ k, k = .lever ∨ k = .routeLock ∨ k = .signalOut → (lampFault s k (leverNumber l) = true ↔
        s.leverState l = .fault ∨ ∃ r, (s.lever l).copy = some r ∧ (r.cond = .corrupt ∨ leverDefined r.bytes = false))) ∧
    (∀ tc : Tc,
      (lampTrue s .track (tc.val + 1) c = true ↔ (c = 0 ∧ (s.track tc).state = .clear) ∨
        (c = 1 ∧ (s.track tc).state = .occupied)) ∧
      (lampFault s .track (tc.val + 1) = true ↔ (s.track tc).reason = .crossCode ∨
        ∃ r, (s.track tc).copy = some r ∧ (r.cond = .corrupt ∨ trackDefined r.bytes = false))) ∧
    (∀ x : Line,
      (lampTrue s .sectionIn (lineNumber x) c = true ↔ ((s.block x).inc.state, c) ∈
        [(InState.blocked, 0), (.lineClear, 1), (.trainOnLine, 2)]) ∧
      (lampTrue s .sectionOut (lineNumber x) c = true ↔ ((s.block x).out.sensed, c) ∈ [(Sensed.blocked, 0),
        (.senseFault, 0), (.lineClear, 1), (.trainOnLine, 2)] ∨ (3 ≤ c ∧ (s.block x).out.release = true)) ∧
      (lampTrue s .offer (lineNumber x) 0 = (s.block x).inc.offer.isSome) ∧
      (lampTrue s .offer (lineNumber x) 1 = (s.block x).out.offer.isSome) ∧
      (lampFault s .sectionIn (lineNumber x) = true ↔ (s.block x).inc.driveFault = true ∨
        (s.block x).inc.alarm = true ∨ lineSound s x = false) ∧
      (lampFault s .sectionOut (lineNumber x) = true ↔ (s.block x).out.sensed = .senseFault ∨ lineSound s x = false) ∧
      (lampFault s .offer (lineNumber x) = true ↔ lineSound s x = false)) ∧
    (lampTrue s .boxMode 0 c = true ↔ modeCode s.mode = c) ∧ (lampTrue s .timebase 0 0 = true ↔ s.tbm.state = .degraded) ∧
    lampFault s .boxMode 0 = false ∧ lampFault s .timebase 0 = false)

/-- LAMP_TEST lights every lamp for its seconds, clamped to 1 to 30; it is answered BUSY while one runs, and
WRONG_MODE in STARTING. At its deadline it ends, with every row dirty again (R156). -/
def Obligations.LampTestRunsItsTime : Prop :=
  ∀ s : State,
    (∀ (f : Frame) (rest : List Frame) (b : Byte), AtHead s f rest → f.kind = 0x34 → f.payload = [b] →
      (s.mode ≠ .starting → s.icc.testUntil = none →
        ∃ t seconds, exec .lampTest s = .next t ∧ seconds = max 1 (min 30 b.toNat) ∧
          Replied f rest (reply f 0 0 [byteOf seconds]) s t ∧ Posted .indication t ∧
          t.icc.testUntil = some (s.now + seconds * 1000) ∧
          (t.icc.allOnPending = true ∨ ∃ g, t.icc.frame = some g ∧ g.kind = .allOn) ∧
          Changes ([.requests, .lampTimers] ++ endOfEvent) s t) ∧
      (s.mode ≠ .starting → s.icc.testUntil.isSome = true →
        ∃ t, exec .lampTest s = .next t ∧ Replied f rest (reply f 4 0 []) s t ∧ Changes (.requests :: endOfEvent) s t) ∧
      (s.mode = .starting →
        ∃ t, exec .lampTest s = .next t ∧ Replied f rest (reply f 3 0 []) s t ∧ Changes (.requests :: endOfEvent) s t)) ∧
    (∀ d, s.icc.testUntil = some d → d ≤ s.now →
      ∃ t, exec .lampTestDeadline s = .next t ∧ t.icc.testUntil = none ∧ Posted .indication t ∧
        (lineFree s = false → t.icc.testDone = true) ∧
        (s.icc.frame.isSome = true → ∀ r, t.icc.dirty.get r = true) ∧ Changes (.lampTimers :: endOfEvent) s t)

/-! ## Box modes and timebase -/

/-- MODE changes the box's mode where the conditions of the change hold: COMMISSIONING to OPEN, OPEN to SWITCHED_OUT and
back, OPEN or COMMISSIONING to MAINTENANCE, and MAINTENANCE to COMMISSIONING (R160 to R165). On entry to SWITCHED_OUT each
line whose LINES record names a through partner is frozen by the copy held (R140) and through-connected by the record
read, its send queue cut back to a code being sounded, and one read uncorrectable is CORRUPT from then on (R29, R122). That
only a sound record names a partner (log 20), that the freezing goes by the copies held before those reads (log 12), and
that the period too ends on entry to MAINTENANCE (log 19) are the model's readings. -/
def Obligations.ModeChangesWhereItsConditionsHold : Prop :=
  ∀ (s : State) (f : Frame) (rest : List Frame), AtHead s f rest → f.kind = 0x30 →
    (f.payload = [2] → s.mode = .commissioning → s.bmc.hold = none →
      (∀ l, (slotOfLever s l).isSome = true → leverAt s l .n = true) → (∀ l, s.leverState l ≠ .fault) →
      ∃ t, exec .mode s = .next t ∧ Replied f rest (reply f 0 0 []) s t ∧ t.mode = .openBox ∧ t.bmc.hold = none ∧
        Changes (.requests :: modeChanged ++ endOfEvent) s t) ∧
    (f.payload = [3] → s.mode = .openBox → hasThroughPair s.bmc.options = true →
      (∀ x, x ≠ .c → (s.block x).inc.state = .blocked ∧ sensedBlocked (s.block x).out.sensed = true ∧
        noOffer s x = true) →
      s.src.locks = [] → (∀ q ∈ switchOutPattern s.bmc.options, leverAt s q.1 q.2 = true) → s.bmc.cut10 = false →
      ∃ t, exec .mode s = .next t ∧ Replied f rest (reply f 0 0 []) s t ∧ t.mode = .switchedOut ∧
        (t.output relayOutput).demand = .on ∧
        (∀ x, namesPartner (s.block x).copy = true → (t.block x).frozen = true) ∧
        ((∀ x, slotUncorrectable s.sst.cells (lineSlot x) = false) → ∀ x,
          (namesPartner (slotCopy s (lineSlot x)) = true → Posted (.bell x) t ∧ (t.bell x).through = true ∧
            (t.bell x).sendQueue = if (s.bell x).sender = .sounding ∨ (s.bell x).sender = .spacing then
              (s.bell x).sendQueue.take 1 else []) ∧
          (namesPartner (slotCopy s (lineSlot x)) = false → (t.bell x).through = (s.bell x).through ∧
            (t.bell x).sendQueue = (s.bell x).sendQueue)) ∧
        (∀ x, slotWithheld s (lineSlot x) = false → slotUncorrectable s.sst.cells (lineSlot x) = true →
          t.cond (lineSlot x) = .corrupt) ∧
        Changes (.requests :: modeChanged ++ endOfEvent) s t) ∧
    (f.payload = [2] → s.mode = .switchedOut → linesQuiet s = true →
      ∃ t, exec .mode s = .next t ∧ Replied f rest (reply f 0 0 []) s t ∧ t.mode = .openBox ∧
        (t.output relayOutput).demand = .off ∧ (∀ x, (t.block x).frozen = false ∧ (t.bell x).through = false) ∧
        (∀ x, (s.block x).frozen = true → (t.block x).inc.state = .blocked ∧ (t.block x).inc.offer = none ∧
          (t.block x).out.release = false ∧ (t.block x).out.offer = none) ∧
        Changes (.requests :: modeChanged ++ endOfEvent) s t) ∧
    (f.payload = [4] → s.mode = .openBox ∨ s.mode = .commissioning →
      (∀ l, s.leverState l ≠ .spare → leverAt s l .n = true) → s.src.locks = [] →
      (∀ x, (s.block x).inc.state = .blocked ∧ (s.bell x).sendQueue = []) →
      ∃ t, exec .mode s = .next t ∧ Replied f rest (reply f 0 0 []) s t ∧ t.mode = .maintenance ∧ t.bmc.hold = none ∧
        (∀ n, (t.signal n).lever = none ∧ (t.signal n).demand = false) ∧ t.sst.scrubDue = none ∧
        t.sst.periodEnd = none ∧ Changes (.requests :: modeChanged ++ endOfEvent) s t) ∧
    (f.payload = [1] → s.mode = .maintenance → s.sst.state = .closed → s.sst.result = .passed →
      ∃ t, exec .mode s = .next t ∧ Replied f rest (reply f 0 0 []) s t ∧ t.mode = .commissioning ∧
        t.bmc.hold = some (s.now + effectiveTime s.tbm.state (resetHoldMs s.bmc.options)) ∧ t.sst.scrubPos = 0 ∧
        t.sst.periodEnd = some (s.now + 60000) ∧ Changes (.requests :: modeChanged ++ endOfEvent) s t)

/-- MODE is refused with WRONG_MODE in STARTING and for a pair of modes without a change, with ALREADY for the mode
held, with NOT_QUIET and NOT_VALIDATED, and else with CONDITIONS for the first condition of its change that fails, with
its code and object, which is kept (R160 to R165). RESTART in COMMISSIONING or MAINTENANCE sets the restart-pending
flag, and is refused elsewhere (R16, R162). The reset hold runs out at its deadline (R161). -/
def Obligations.ModeIsRefusedAndRestartIsPending : Prop :=
  (∀ (s : State) (f : Frame) (rest : List Frame), AtHead s f rest → f.kind = 0x30 →
     (∀ b : Byte, f.payload = [b] → 1 ≤ b.toNat → b.toNat ≤ 4 → s.mode = .starting → AnswersOnly .mode f rest 3 0 s) ∧
     (f.payload = [byteOf (modeCode s.mode)] → s.mode ≠ .starting → AnswersOnly .mode f rest 1 2 s) ∧
     (∀ b : Byte, f.payload = [b] → (b, s.mode) ∈ [((3 : Byte), Mode.commissioning), (1, .openBox), (1, .switchedOut),
       (4, .switchedOut), (2, .maintenance), (3, .maintenance)] → AnswersOnly .mode f rest 3 0 s) ∧
     (f.payload = [2] → s.mode = .switchedOut → linesQuiet s = false → AnswersOnly .mode f rest 1 13 s) ∧
     (f.payload = [1] → s.mode = .maintenance → s.sst.state ≠ .closed ∨ s.sst.result ≠ .passed →
       AnswersOnly .mode f rest 1 22 s)) ∧
  (∀ (s : State) (f : Frame) (rest : List Frame), AtHead s f rest → f.kind = 0x30 → f.payload = [2] →
     s.mode = .commissioning →
     (s.bmc.hold.isSome = true → RefusedFor f rest 1 0 s) ∧
     (s.bmc.hold = none →
       (∀ l, (slotOfLever s l).isSome = true → leverAt s l .n = false →
         (∀ m, m < l → (slotOfLever s m).isSome = true → leverAt s m .n = true) →
         RefusedFor f rest 2 (leverNumber l) s) ∧
       ((∀ m, (slotOfLever s m).isSome = true → leverAt s m .n = true) → ∀ l, s.leverState l = .fault →
         (∀ m, m < l → s.leverState m ≠ .fault) → RefusedFor f rest 3 (leverNumber l) s))) ∧
  (∀ (s : State) (f : Frame) (rest : List Frame), AtHead s f rest → f.kind = 0x30 → f.payload = [3] →
     s.mode = .openBox →
     (hasThroughPair s.bmc.options = false → RefusedFor f rest 4 0 s) ∧
     (hasThroughPair s.bmc.options = true →
       ((s.block .a).inc.state ≠ .blocked → RefusedFor f rest 5 1 s) ∧
       ((s.block .a).inc.state = .blocked → sensedBlocked (s.block .a).out.sensed = false → RefusedFor f rest 5 2 s) ∧
       ((s.block .a).inc.state = .blocked → sensedBlocked (s.block .a).out.sensed = true →
         ((s.block .b).inc.state ≠ .blocked → RefusedFor f rest 5 3 s) ∧
         ((s.block .b).inc.state = .blocked → sensedBlocked (s.block .b).out.sensed = false → RefusedFor f rest 5 4 s) ∧
         ((s.block .b).inc.state = .blocked → sensedBlocked (s.block .b).out.sensed = true →
           (noOffer s .a = false → RefusedFor f rest 6 1 s) ∧
           (noOffer s .a = true → noOffer s .b = false → RefusedFor f rest 6 2 s) ∧
           (noOffer s .a = true → noOffer s .b = true →
             (∀ e q, s.src.locks = e :: q → RefusedFor f rest 7 (leverNumber e.lever) s) ∧
             (s.src.locks = [] →
               (∀ l e, (l, e) ∈ switchOutPattern s.bmc.options → leverAt s l e = false →
                 (∀ m i, m < l → (m, i) ∈ switchOutPattern s.bmc.options → leverAt s m i = true) →
                 RefusedFor f rest 8 (leverNumber l) s) ∧
               ((∀ q ∈ switchOutPattern s.bmc.options, leverAt s q.1 q.2 = true) → s.bmc.cut10 = true →
                 RefusedFor f rest 11 10 s))))))) ∧
  (∀ (s : State) (f : Frame) (rest : List Frame), AtHead s f rest → f.kind = 0x30 → f.payload = [4] →
     s.mode = .openBox ∨ s.mode = .commissioning →
     (∀ l, s.leverState l ≠ .spare → leverAt s l .n = false →
       (∀ m, m < l → s.leverState m ≠ .spare → leverAt s m .n = true) → RefusedFor f rest 9 (leverNumber l) s) ∧
     ((∀ l, s.leverState l ≠ .spare → leverAt s l .n = true) →
       (∀ e q, s.src.locks = e :: q → RefusedFor f rest 7 (leverNumber e.lever) s) ∧
       (s.src.locks = [] →
         (∀ x, (s.block x).inc.state ≠ .blocked →
           (∀ y, lineNumber y < lineNumber x → (s.block y).inc.state = .blocked) →
           RefusedFor f rest 5 (2 * lineNumber x - 1) s) ∧
         ((∀ x, (s.block x).inc.state = .blocked) → ∀ x, (s.bell x).sendQueue ≠ [] →
           (∀ y, lineNumber y < lineNumber x → (s.bell y).sendQueue = []) →
           RefusedFor f rest 10 (lineNumber x) s)))) ∧
  (∀ s : State,
     (∀ (f : Frame) (rest : List Frame), AtHead s f rest → f.kind = 0x31 → f.payload = [] →
       (s.mode = .commissioning ∨ s.mode = .maintenance →
         ∃ t, exec .restart s = .next t ∧ Replied f rest (reply f 0 0 []) s t ∧ t.hlc.restartPending = true ∧
           t.hlc.restartSent = s.hlc.restartSent ∧ Changes ([.requests, .restart] ++ endOfEvent) s t) ∧
       (s.mode ≠ .commissioning → s.mode ≠ .maintenance → AnswersOnly .restart f rest 3 0 s)) ∧
     (∀ d, s.bmc.hold = some d → d ≤ s.now →
       ∃ t, exec .resetHoldRunOut s = .next t ∧ t.bmc.hold = none ∧ Posted .mode t ∧ Changes (.hold :: endOfEvent) s t))

/-- A good window counts; a missed one breaks the run, and takes the timebase from GOOD to DEGRADED on the oscillator,
with the running times stretched. At the 512th tick of STARTING_TB a run of 16 gives GOOD on the crystal and anything
less DEGRADED (R62, R107, R136, R161, R167, R168). That a section release frozen by a record not sound is stretched too is
the model's reading (log 34), and so is the run's going to 0 at a window missed while DEGRADED (log 61). -/
def Obligations.WindowsMoveTheTimebase : Prop :=
  ∀ s : State,
    (∃ t, exec (.timebaseWindow true) s = .next t ∧ Changes (.timebase :: endOfEvent) s t ∧
      t.tbm = { s.tbm with run := min 16 (s.tbm.run + 1), goodCount := min 10 (s.tbm.goodCount + 1) }) ∧
    (s.tbm.state ≠ .good →
      ∃ t, exec (.timebaseWindow false) s = .next t ∧ Changes (.timebase :: endOfEvent) s t ∧
        t.tbm = { s.tbm with run := 0, goodCount := 0 }) ∧
    (s.tbm.state = .good →
      ∃ t, exec (.timebaseWindow false) s = .next t ∧ Posted .timebase t ∧ Changes (timebaseTold ++ endOfEvent) s t ∧
        t.tbm = ⟨.oscillator, .degraded, 0, 0, s.tbm.startTicks, min 255 (s.tbm.degrades + 1), .windowMissed⟩ ∧
        t.bmc.hold = s.bmc.hold.map (fun d => s.now + ((d - s.now) * 5 + 399) / 400 * 100) ∧
        (∀ x d, (s.block x).inc.release = .running d →
          (t.block x).inc.release = .running (s.now + ((d - s.now) * 5 + 399) / 400 * 100)) ∧
        (∀ l e d, s.src.locks.filter (fun y => y.lever = l) = [e] → e.deadline = some d →
          entryOf t l = some { e with deadline := some (s.now + ((d - s.now) * 5 + 399) / 400 * 100) }) ∧
        (∀ tc r, (s.track tc).copy = some r →
          t.track tc = { s.track tc with npuEff := min (2 * pickUpCount r.bytes) 30 })) ∧
    (s.tbm.state = .startingTb → 512 ≤ s.tbm.startTicks →
      ∃ t, exec .startUpTickLimit s = .next t ∧ Posted .timebase t ∧ Changes (timebaseTold ++ endOfEvent) s t ∧
        t.bmc.hold = s.bmc.hold ∧ t.src.locks = s.src.locks ∧
        t.tbm = if s.tbm.run = 16 then { s.tbm with source := .crystal, state := .good, cause := .startUp }
          else { s.tbm with source := .oscillator, state := .degraded, cause := .startUp })

/-- TIMEBASE_RESTORE from DEGRADED with 10 good windows gives GOOD on the crystal, and is refused with ALREADY when GOOD,
with CRYSTAL_NOT_STABLE with fewer, and with WRONG_MODE in STARTING. TIMEBASE_TEST in MAINTENANCE is taken as a missed
window, and refused elsewhere (R169). -/
def Obligations.TimebaseIsRestoredAndTested : Prop :=
  ∀ (s : State) (f : Frame) (rest : List Frame), AtHead s f rest → f.payload = [] →
    (f.kind = 0x32 → s.mode ≠ .starting → s.tbm.state = .degraded → 10 ≤ s.tbm.goodCount →
      ∃ t, exec .timebaseRestore s = .next t ∧ Replied f rest (reply f 0 0 []) s t ∧ Posted .timebase t ∧
        t.tbm = { s.tbm with source := .crystal, state := .good, cause := .restore } ∧
        (∀ tc r, (s.track tc).copy = some r → t.track tc = { s.track tc with npuEff := pickUpCount r.bytes }) ∧
        Changes (.requests :: .timebase :: allTracks ++ endOfEvent) s t) ∧
    (f.kind = 0x32 → s.mode ≠ .starting → s.tbm.state = .good →
      ∃ t, exec .timebaseRestore s = .next t ∧ Replied f rest (reply f 1 2 []) s t ∧
        Changes (.requests :: endOfEvent) s t) ∧
    (f.kind = 0x32 → s.mode ≠ .starting → s.tbm.state = .startingTb ∨ (s.tbm.state = .degraded ∧ s.tbm.goodCount < 10) →
      ∃ t, exec .timebaseRestore s = .next t ∧ Replied f rest (reply f 1 23 []) s t ∧
        Changes (.requests :: endOfEvent) s t) ∧
    (f.kind = 0x32 → s.mode = .starting → AnswersOnly .timebaseRestore f rest 3 0 s) ∧
    (f.kind = 0x33 → s.mode = .maintenance →
      ∃ t, exec .timebaseTest s = .next t ∧ Replied f rest (reply f 0 0 []) s t ∧ Posted .timebase t ∧
        Changes (.requests :: timebaseTold ++ endOfEvent) s t ∧
        t.tbm = if s.tbm.state = .good then
            ⟨.oscillator, .degraded, 0, 0, s.tbm.startTicks, min 255 (s.tbm.degrades + 1), .test⟩
          else { s.tbm with run := 0, goodCount := 0, cause := .test }) ∧
    (f.kind = 0x33 → s.mode ≠ .maintenance →
      ∃ t, exec .timebaseTest s = .next t ∧ Replied f rest (reply f 3 0 []) s t ∧ Changes (.requests :: endOfEvent) s t)

/-! ## The scheme store -/

/-- STORE_OPEN in MAINTENANCE with the store CLOSED opens it for a matching or empty identity, is refused with WRONG_BOX for
another, and with intent WIPE begins to erase the header, its commit word voided first; STORE_CLOSE closes it. Outside
MAINTENANCE both are refused with WRONG_MODE, and there in every other state with BUSY or STORE_STATE (R18, R20 to R22,
R27). -/
def Obligations.StoreOpensAndCloses : Prop :=
  ∀ (s : State) (f : Frame) (rest : List Frame), AtHead s f rest →
    (∀ ident intent, f.kind = 0x40 → f.payload = ident ++ [intent] → ident.length = 12 → textValid ident = true →
      (intent = 0 ∨ intent = 1 → StoreTurnsAway .storeOpen f rest [.closed] s) ∧
      (s.mode = .maintenance → s.sst.state = .closed →
        (intent = 0 → storedIdentity s = padBytes 12 0 ∨ storedIdentity s = ident →
          ∃ t, exec .storeOpen s = .next t ∧ Replied f rest (reply f 0 0 []) s t ∧ Posted .store t ∧
            t.sst.state = .openIdle ∧ t.sst.op = s.sst.op ∧ t.sst.suspended = s.sst.suspended ∧
            Changes ([.requests, .storeOp] ++ endOfEvent) s t) ∧
        (intent = 0 → storedIdentity s ≠ padBytes 12 0 → storedIdentity s ≠ ident →
          ∃ t, exec .storeOpen s = .next t ∧ Replied f rest (reply f 1 18 []) s t ∧
            Changes (.requests :: endOfEvent) s t) ∧
        (intent = 1 →
          ∃ t, exec .storeOpen s = .next t ∧ Replied f rest (reply f 0 0 []) s t ∧ t.sst.state = .erasing ∧
            t.sst.op = some ⟨.wipe .header, s.now + 300⟩ ∧ t.sst.result = .none ∧ t.sst.warnings = [] ∧
            t.sst.cells = cellProgram s.sst.cells 31 0 ∧ Changes (.requests :: contentsChanged ++ endOfEvent) s t))) ∧
    (f.kind = 0x41 → f.payload = [] →
      StoreTurnsAway .storeClose f rest [.openIdle] s ∧
      (s.mode = .maintenance → s.sst.state = .openIdle →
        ∃ t, exec .storeClose s = .next t ∧ Replied f rest (reply f 0 0 []) s t ∧ Posted .store t ∧
          t.sst.state = .closed ∧ t.sst.op = s.sst.op ∧ t.sst.suspended = s.sst.suspended ∧
          Changes ([.requests, .storeOp] ++ endOfEvent) s t))

/-- STORE_ERASE of a region not locked begins its erase of 300 ms, with its records withdrawn, or first the removal of a
standing stamp; a locked region is refused (R22, R23). The users of the records withdrawn are told: a circuit enters record
fault, a line's sections give up what its record bore, a lever becomes SPARE (R29, R67, R74, R127), and a withdrawn record's
Npu_eff goes to 0, the model's reading (log 57). STORE_SUSPEND stops the erase of a region with its remaining time
kept, and is answered BUSY in a WIPE; STORE_RESUME runs it on (R25). In the other modes and states each is refused (R20). -/
def Obligations.ErasesAreBegunSuspendedAndResumed : Prop :=
  (∀ (s : State) (f : Frame) (rest : List Frame), AtHead s f rest →
     (∀ r : Region, f.kind = 0x42 → f.payload = [byteOf (regionCode r)] →
       StoreTurnsAway .storeErase f rest [.openIdle] s) ∧
     (f.kind = 0x45 → f.payload = [] → StoreTurnsAway .storeSuspend f rest [.erasing] s) ∧
     (f.kind = 0x46 → f.payload = [] → StoreTurnsAway .storeResume f rest [.eraseSuspended] s)) ∧
  (∀ (s : State) (f : Frame) (rest : List Frame) (r : Region), AtHead s f rest → f.kind = 0x42 →
     f.payload = [byteOf (regionCode r)] → s.mode = .maintenance → s.sst.state = .openIdle →
     (regionLocked s r = true →
       ∃ t, exec .storeErase s = .next t ∧ Replied f rest (reply f 1 19 []) s t ∧ Changes (.requests :: endOfEvent) s t) ∧
     (regionLocked s r = false → stampStanding s = true → r ≠ .header →
       ∃ t, exec .storeErase s = .next t ∧ Replied f rest (reply f 0 0 []) s t ∧ Posted .store t ∧
         t.sst.op = some ⟨.stampRemoval (.erase r), s.now + 3⟩ ∧ t.sst.state = .programming ∧ t.sst.result = .none ∧
         Changes ([.requests, .storeOp, .result] ++ endOfEvent) s t) ∧
     (regionLocked s r = false → stampStanding s = false ∨ r = .header →
       ∃ t, exec .storeErase s = .next t ∧ Replied f rest (reply f 0 0 []) s t ∧
         t.sst.op = some ⟨.erase r, s.now + 300⟩ ∧ t.sst.state = .erasing ∧ t.sst.result = .none ∧
         t.sst.cells = (if r = .header then cellProgram s.sst.cells 31 0 else s.sst.cells) ∧
         (∀ i, slotRegion i = r → slotCopy t i = none) ∧ (r = .track → ∀ tc, TrackTold tc s t) ∧
         (r = .levers → ∀ l, LeverRecordTold l s t) ∧ (r = .lines → ∀ x, LineTold x s t) ∧
         Changes (.requests :: contentsChanged ++ endOfEvent) s t)) ∧
  (∀ (s : State) (f : Frame) (rest : List Frame), AtHead s f rest → f.payload = [] → s.mode = .maintenance →
     (∀ r d, f.kind = 0x45 → s.sst.state = .erasing → s.sst.op = some ⟨.erase r, d⟩ →
       ∃ t, exec .storeSuspend s = .next t ∧ Replied f rest (reply f 0 0 []) s t ∧ Posted .store t ∧
         t.sst.state = .eraseSuspended ∧ t.sst.op = none ∧ t.sst.suspended = some ⟨r, d - s.now⟩ ∧
         Changes ([.requests, .storeOp] ++ endOfEvent) s t) ∧
     (∀ r d, f.kind = 0x45 → s.sst.state = .erasing → s.sst.op = some ⟨.wipe r, d⟩ →
       ∃ t, exec .storeSuspend s = .next t ∧ Replied f rest (reply f 4 0 []) s t ∧
         Changes (.requests :: endOfEvent) s t) ∧
     (∀ e, f.kind = 0x46 → s.sst.state = .eraseSuspended → s.sst.suspended = some e →
       ∃ t, exec .storeResume s = .next t ∧ Replied f rest (reply f 0 0 []) s t ∧ Posted .store t ∧
         t.sst.state = .erasing ∧ t.sst.op = some ⟨.erase e.region, s.now + e.remaining⟩ ∧ t.sst.suspended = none ∧
         Changes ([.requests, .storeOp] ++ endOfEvent) s t))

/-- The end of a stamp removal voids the stamp and begins the change that waited; the end of an erase leaves every word of
its region erased and every other word as it was; a WIPE goes on to the next region, and after the last the store is
OPEN_IDLE (R21 to R23). -/
def Obligations.ErasesEnd : Prop :=
  ∀ (s : State) (d : Nat), d ≤ s.now →
    (∀ r, s.sst.op = some ⟨.stampRemoval (.erase r), d⟩ → r ≠ .header →
      ∃ t, exec .stampRemovalEnd s = .next t ∧ t.sst.cells = cellProgram s.sst.cells 10 0 ∧
        t.sst.op = some ⟨.erase r, s.now + 300⟩ ∧ t.sst.state = .erasing ∧
        Changes (contentsChanged ++ endOfEvent) s t) ∧
    (∀ i words, s.sst.op = some ⟨.stampRemoval (.program i words), d⟩ →
      ∃ t, exec .stampRemovalEnd s = .next t ∧ t.sst.cells = cellProgram s.sst.cells 10 0 ∧ Posted .store t ∧
        t.sst.op = some ⟨.program i words, s.now + 3⟩ ∧ t.sst.state = .programming ∧
        t.sst.returnTo = s.sst.returnTo ∧ Changes ([.cells, .storeOp] ++ endOfEvent) s t) ∧
    (∀ r, s.sst.op = some ⟨.erase r, d⟩ →
      ∃ t, exec .regionEraseEnd s = .next t ∧ t.sst.op = none ∧ t.sst.state = .openIdle ∧
        (∀ a, regionBase r ≤ a → a < regionEnd r → cellRead t.sst.cells a = erasedWord) ∧
        (∀ a, a < regionBase r ∨ regionEnd r ≤ a → cellRead t.sst.cells a = cellRead s.sst.cells a) ∧
        Changes (contentsChanged ++ endOfEvent) s t) ∧
    (∀ r, s.sst.op = some ⟨.wipe r, d⟩ →
      ∃ t, exec .wipeRegionEnd s = .next t ∧
        (∀ q, regionAfter r = some q → t.sst.op = some ⟨.wipe q, s.now + 300⟩ ∧ t.sst.state = .erasing) ∧
        (regionAfter r = none → t.sst.op = none ∧ t.sst.state = .openIdle) ∧
        (∀ a, regionBase r ≤ a → a < regionEnd r → cellRead t.sst.cells a = erasedWord) ∧
        (∀ a, a < regionBase r ∨ regionEnd r ≤ a → cellRead t.sst.cells a = cellRead s.sst.cells a) ∧
        Changes (contentsChanged ++ endOfEvent) s t)

/-- STORE_PROGRAM of an erased slot, of a region neither locked nor suspended, begins its 3 ms, or first the removal of a
standing stamp; a slot not erased, a locked or suspended region, a header with a bad field, and the other modes and states
are refused (R20, R24). At its end each word of the slot holds its bits and the new ones at one
where both are, every other word stands, the slot's condition is GOOD, and its users take the record anew, a circuit, a
line or a lever (R17, R22, R24, R29, R30, R68, R74, R127). That a correctable word
starts from its corrected value is the model's reading (log 47). -/
def Obligations.SlotsAreProgrammed : Prop :=
  ∀ s : State,
    (∀ (f : Frame) (rest : List Frame) (r : Region) (n : Byte) (record : List Byte) (i : Slot), AtHead s f rest →
      f.kind = 0x43 → f.payload = byteOf (regionCode r) :: n :: record → record.length = 2 * regionWords r →
      slotOf r n.toNat = some i → StoreTurnsAway .storeProgram f rest [.openIdle, .eraseSuspended] s ∧
      (s.mode = .maintenance → s.sst.state = .openIdle ∨ s.sst.state = .eraseSuspended →
        (regionLocked s r = true → AnswersOnly .storeProgram f rest 1 19 s) ∧
        (regionLocked s r = false → suspendedRegion s r = true → AnswersOnly .storeProgram f rest 1 21 s) ∧
        (regionLocked s r = false → suspendedRegion s r = false → slotErased s.sst.cells i = false →
          AnswersOnly .storeProgram f rest 1 20 s) ∧
        (r = .header → suspendedRegion s r = false → slotErased s.sst.cells i = true →
          (textValid (record.take 12) = false → AnswersOnly .storeProgram f rest 2 2 s) ∧
          (textValid (record.take 12) = true → pairAt record 12 = 0 → AnswersOnly .storeProgram f rest 2 14 s))) ∧
      (s.mode = .maintenance → s.sst.state = .openIdle ∨ s.sst.state = .eraseSuspended →
        regionLocked s r = false → suspendedRegion s r = false → slotErased s.sst.cells i = true →
        (r = .header → textValid (record.take 12) = true ∧ pairAt record 12 ≠ 0) →
        ∃ t, exec .storeProgram s = .next t ∧ Replied f rest (reply f 0 0 []) s t ∧ Posted .store t ∧
          t.sst.op = some ⟨if stampStanding s = true ∧ r ≠ .header then
              .stampRemoval (.program i (programWords r record))
            else .program i (programWords r record), s.now + 3⟩ ∧
          t.sst.state = .programming ∧ t.sst.returnTo = s.sst.state ∧ t.sst.suspended = s.sst.suspended ∧
          t.sst.result = .none ∧ Changes ([.requests, .storeOp, .result] ++ endOfEvent) s t)) ∧
    (∀ i words d, StoreCanonical s → s.sst.op = some ⟨.program i words, d⟩ → d ≤ s.now → words.length = slotWords i →
      ∃ t, exec .slotProgramEnd s = .next t ∧ t.sst.op = none ∧ t.sst.state = s.sst.returnTo ∧ t.cond i = .good ∧
        (∀ k w, words[k]? = some w → cellRead t.sst.cells (slotBase i + k) =
          freshWord (wordValue (cellRead s.sst.cells (slotBase i + k)) &&& w)) ∧
        (∀ a, a < slotBase i ∨ slotEnd i ≤ a → cellRead t.sst.cells a = cellRead s.sst.cells a) ∧
        (s.mode ≠ .starting → (∀ tc, i = trackSlot tc → TrackTold tc s t) ∧
          (∀ l, i = leverSlot l → LeverRecordTold l s t) ∧
          (∀ x, i = lineSlot x → (∀ l, slotUncorrectable s.sst.cells (leverSlot l) = false) → LineTold x s t)) ∧
        Changes (contentsChanged ++ endOfEvent) s t)

/-- STORE_LOCK sets a region's lock flag in place in 3 ms, or clears it by a header rewrite of 303 ms with the commit word
voided first; a flag that stands already as asked changes nothing, and a header not valid, and the other modes and states,
are refused (R18, R20, R26). That a lock word found correctable starts from its corrected value is the model's reading
(log 47). -/
def Obligations.LocksAreSetAndCleared : Prop :=
  ∀ s : State,
    (∀ (f : Frame) (rest : List Frame) (r : Region) (flag : Bool), AtHead s f rest → f.kind = 0x47 → r ≠ .header →
      f.payload = [byteOf (regionCode r), if flag then 1 else 0] →
      StoreTurnsAway .storeLock f rest [.openIdle] s) ∧
    (∀ (f : Frame) (rest : List Frame) (r : Region) (flag : Bool), AtHead s f rest → f.kind = 0x47 → r ≠ .header →
      f.payload = [byteOf (regionCode r), if flag then 1 else 0] → s.mode = .maintenance → s.sst.state = .openIdle →
      (headerValid s = false →
        ∃ t, exec .storeLock s = .next t ∧ Replied f rest (reply f 1 21 []) s t ∧ Changes (.requests :: endOfEvent) s t) ∧
      (headerValid s = true → regionLocked s r = flag →
        ∃ t, exec .storeLock s = .next t ∧ Replied f rest (reply f 0 0 []) s t ∧ Changes (.requests :: endOfEvent) s t) ∧
      (headerValid s = true → regionLocked s r ≠ flag →
        ∃ t, exec .storeLock s = .next t ∧ Replied f rest (reply f 0 0 []) s t ∧ Posted .store t ∧
          t.sst.state = .programming ∧ t.sst.returnTo = .openIdle ∧
          t.sst.op = some (if flag then ⟨.lockSet r, s.now + 3⟩
            else ⟨.unlock r (cellRead s.sst.cells 31), s.now + 303⟩) ∧
          t.sst.cells = (if flag then s.sst.cells else cellProgram s.sst.cells 31 0) ∧
          Changes ([.requests, .storeOp, .cells] ++ endOfEvent) s t)) ∧
    (∀ r d, StoreCanonical s → s.sst.op = some ⟨.lockSet r, d⟩ → d ≤ s.now →
      ∃ t, exec .lockSetEnd s = .next t ∧ Posted .store t ∧ t.sst.op = none ∧ t.sst.state = s.sst.returnTo ∧
        wordValue (cellRead t.sst.cells 7) =
          wordValue (cellRead s.sst.cells 7) &&& ~~~((1 : Word16) <<< regionCode r) ∧
        (∀ a, a ≠ 7 → cellRead t.sst.cells a = cellRead s.sst.cells a) ∧
        Changes ([.storeOp, .cells] ++ endOfEvent) s t) ∧
    (∀ r commit d, StoreCanonical s → s.sst.op = some ⟨.unlock r commit, d⟩ → d ≤ s.now →
      ∃ t, exec .headerRewriteEnd s = .next t ∧ Posted .store t ∧ t.sst.op = none ∧ t.sst.state = s.sst.returnTo ∧
        headerWord t 7 = headerWord s 7 ||| ((1 : Word16) <<< regionCode r) ∧ headerWord t 31 = 0x3C96 ∧
        (∀ a, a ≤ 10 → a ≠ 7 → headerWord t a = headerWord s a) ∧
        (∀ a, 32 ≤ a → cellRead t.sst.cells a = cellRead s.sst.cells a) ∧
        Changes ([.storeOp, .cells] ++ endOfEvent) s t)

/-- The validation pass: VALIDATE, what the pass finds, and its stamp. VALIDATE with the header valid puts the store in
VALIDATING (the other modes and states refuse it, R20), and its pass takes the read port at once or when it is next
free, for 2 ms a programmed slot. At its end the failure found is the result; with none, PASSED stands at once under a
matching stamp, and otherwise when the stamp has been written (R28, R29, R46). The failure is of the first check with a
failing record, at its first failing record, and each check passes the records that its rule says (R46 to R51); the
warnings are the first 8 in record order (R52). That the header itself fails no check is read from R46 (log 23), a
line's part in the through pair from R51 (log 22), and an undefined value in a field that is no reference fails check 2
(log 26). -/
def Obligations.ValidationPassJudgesTheScheme : Prop :=
  (∀ s : State,
    (∀ (f : Frame) (rest : List Frame), AtHead s f rest → f.kind = 0x48 → f.payload = [] →
      StoreTurnsAway .validate f rest [.closed, .openIdle] s) ∧
    (∀ (f : Frame) (rest : List Frame), AtHead s f rest → f.kind = 0x48 → f.payload = [] → s.mode = .maintenance →
      s.sst.state = .closed ∨ s.sst.state = .openIdle →
      (headerValid s = false →
        ∃ t, exec .validate s = .next t ∧ Replied f rest (reply f 1 21 []) s t ∧ Changes (.requests :: endOfEvent) s t) ∧
      (headerValid s = true →
        ∃ t, exec .validate s = .next t ∧ Replied f rest (reply f 0 0 []) s t ∧ Posted .store t ∧
          t.sst.state = .validating ∧ t.sst.returnTo = s.sst.state ∧
          (s.sst.port.serving = none →
            t.sst.op = some ⟨.validate true, s.now + 2 * programmedSlots s.sst.cells⟩ ∧
            t.sst.port.serving = some (.validation, s.now + 2 * programmedSlots s.sst.cells)) ∧
          (s.sst.port.serving.isSome = true → t.sst.op = some ⟨.validate false, s.now⟩ ∧
            t.sst.port.serving = s.sst.port.serving) ∧
          Changes ([.requests, .storeOp] ++ endOfEvent) s t)) ∧
    (∀ d, s.sst.op = some ⟨.validate false, d⟩ → s.sst.port.serving = none →
      ∃ t, exec .validationPassStart s = .next t ∧ t.sst.state = s.sst.state ∧
        t.sst.op = some ⟨.validate true, s.now + 2 * programmedSlots s.sst.cells⟩ ∧
        t.sst.port.serving = some (.validation, s.now + 2 * programmedSlots s.sst.cells) ∧
        Changes (.storeOp :: endOfEvent) s t) ∧
    (∀ d, s.sst.op = some ⟨.validate true, d⟩ → d ≤ s.now →
      ∃ t u, exec .validationPassEnd s = .next t ∧ u = passReads s ∧ Posted .store t ∧
        Changes (contentsChanged ++ endOfEvent) s t ∧
        (∀ r n reason, passFailure u = some (r, n, reason) → t.sst.result = .failed r n reason ∧ t.sst.op = none ∧
          t.sst.state = s.sst.returnTo ∧ t.sst.warnings = schemeWarnings (schemeEntries u) ∧
          t.sst.cells = u.sst.cells) ∧
        (passFailure u = none → stampMatches u (contentSum u.sst.cells) = true → t.sst.result = .passed ∧
          t.sst.op = none ∧ t.sst.state = s.sst.returnTo ∧
          t.sst.warnings = schemeWarnings (schemeEntries u) ∧ t.sst.cells = u.sst.cells) ∧
        (passFailure u = none → stampMatches u (contentSum u.sst.cells) = false → t.sst.result = s.sst.result ∧
          t.sst.state = .validating ∧ t.sst.cells = cellProgram u.sst.cells 31 0 ∧
          t.sst.op = some ⟨.stampWrite (contentSum u.sst.cells) (schemeWarnings (schemeEntries u))
            (cellRead u.sst.cells 31), s.now + 303⟩)) ∧
    (∀ sum ws commit d, StoreCanonical s → s.sst.op = some ⟨.stampWrite sum ws commit, d⟩ → d ≤ s.now →
      ∃ t, exec .headerRewriteEnd s = .next t ∧ Posted .store t ∧ t.sst.op = none ∧ t.sst.state = s.sst.returnTo ∧
        t.sst.result = .passed ∧ t.sst.warnings = ws ∧ headerWord t 8 = headerWord s 6 ∧ headerWord t 9 = sum ∧
        headerWord t 10 = 0x0F0F ∧ headerWord t 31 = 0x3C96 ∧ (∀ a, a ≤ 7 → headerWord t a = headerWord s a) ∧
        (∀ a, 32 ≤ a → cellRead t.sst.cells a = cellRead s.sst.cells a) ∧
        Changes ([.storeOp, .cells, .result] ++ endOfEvent) s t)) ∧
  (∀ es : List Entry,
    (schemeFailure es = none → (∀ check ∈ schemeChecks, ∀ e ∈ es, check es e = none) ∧
      ¬(entryBytes es .options 0 = none ∧ partnerOf es 1 = 2)) ∧
    (∀ r n reason, schemeFailure es = some (r, n, reason) →
      ∃ (k : Nat) (check : List Entry → Entry → Option Nat), schemeChecks[k]? = some check ∧
        (∀ j c, j < k → schemeChecks[j]? = some c → ∀ e ∈ es, c es e = none) ∧
        (k = 12 → ¬(entryBytes es .options 0 = none ∧ partnerOf es 1 = 2)) ∧
        ((∃ before e after, es = before ++ e :: after ∧ check es e = some reason ∧ r = e.region ∧ n = e.number ∧
            ∀ d ∈ before, check es d = none) ∨
          (k = 11 ∧ (∀ e ∈ es, check es e = none) ∧ entryBytes es .options 0 = none ∧ partnerOf es 1 = 2 ∧
            r = .options ∧ n = 0 ∧ reason = 18))) ∧
    (∀ (k : Nat) (check : List Entry → Entry → Option Nat) e reason, schemeChecks[k]? = some check →
      check es e = some reason →
      (k + 1, reason) ∈ [(1, 1), (2, 2), (2, 3), (2, 4), (3, 5), (3, 6), (4, 7), (5, 8), (6, 9), (6, 10), (7, 11), (8, 12),
        (9, 13), (10, 14), (10, 15), (11, 16), (11, 17), (12, 18), (13, 19)]) ∧
    schemeWarnings es = (es.flatMap entryWarnings ++
      if entryBytes es .options 0 = none then [(⟨.options, 0, 7⟩ : Warning)] else []).take 8) ∧
  (∀ (es : List Entry) (e : Entry) (bs : List Byte), bs = e.bytes → e.region = .levers →
    (check1 es e = none ↔ e.corrupt = false) ∧
    (check2 es e = none ↔ isSpareRecord bs = true ∨
      (1 ≤ leverKind bs ∧ leverKind bs ≤ 5 ∧ roleDefined bs = true ∧ absentOrIn 0 1 (byteAt bs 5) = true ∧
        toReverseCount bs ≤ 12 ∧ toNormalCount bs ≤ 8 ∧
        ∀ q ∈ bothLists bs, (termKind q.2).isSome = true ∧ termValueDefined q.2 = true ∧
          qualifierDefined q.2 = true ∧ termAllowed (isSignalRecord bs) q.1 q.2 = true)) ∧
    (check3 es e = none ↔ isSpareRecord bs = true ∨
      ((byteAt bs 2 ≠ 0xFF → inRange 1 3 (byteAt bs 2) = true ∧ lineConfigured es (byteAt bs 2) = true) ∧
        (∀ i ∈ [3, 4], isSignalRecord bs = true → byteAt bs i ≠ 0xFF →
          inRange 1 24 (byteAt bs i) = true ∧ trackConfigured es (byteAt bs i) = true) ∧
        ∀ q ∈ bothLists bs, termIndexInRange q.2 = true ∧ termConfigured es q.2 = true ∧
          qualifierConfigured es q.2 = true)) ∧
    (check4 es e = none ↔ ¬(isSignalRecord bs = true ∧
      (es.countP fun d => signalEntry d && decide (d.number ≤ e.number)) = 25)) ∧
    (check5 es e = none ↔ (isSignalRecord bs = true → toNormalCount bs = 0)) ∧
    (check6 es e = none ↔ isSpareRecord bs = true ∨
      ((if isHomeOrStarting bs = true then byteAt bs 2 ≠ 0xFF ∧ byteAt bs 4 ≠ 0xFF else byteAt bs 2 = 0xFF) ∧
        if isSignalRecord bs = true then byteAt bs 5 ≠ 0xFF
        else byteAt bs 3 = 0xFF ∧ byteAt bs 4 = 0xFF ∧ byteAt bs 5 = 0xFF ∧ timeReleaseStored bs = 0xFFFF)) ∧
    (check7 es e = none ↔ isSpareRecord bs = true ∨
      ∀ q ∈ bothLists bs, ∀ l, termLever q.2 = some l ∨ termSignal q.2 = some l → leverNumber l ≠ e.number) ∧
    (check8 es e = none ↔ isSpareRecord bs = true ∨
      ∀ q ∈ bothLists bs, ∀ l i, termQualifier q.2 = some (l, i) → leverNumber l ≠ e.number ∧ termLever q.2 ≠ some l) ∧
    (check9 es e = none ↔ isSpareRecord bs = true ∨
      ∀ t ∈ toReverse bs, ∀ b, termLever t = some b → ∃ record, entryBytes es .levers (leverNumber b) = some record ∧
        ∃ u ∈ if t.value = 0 then toReverse record else toNormal record,
          (termLever u).map leverNumber = some e.number ∧ u.value = 0 ∧ u.qualifier = t.qualifier) ∧
    (check10 es e = none ↔ (isHomeOrStarting bs = true → ∀ line, entryBytes es .lines (leverLineCode bs) = some line →
      (if leverRole bs = 1 then byteAt line 2 else byteAt line 3) = e.number)) ∧
    (check11 es e = none ↔ (isSignalRecord bs = true → heldSet bs ≠ [] ∧
      ∀ l ∈ heldSet bs, signalConfigured es (leverNumber l) = false))) ∧
  (∀ (es : List Entry) (e : Entry) (bs : List Byte), bs = e.bytes →
    (e.region = .track → (check2 es e = none ↔ trackDefined bs = true ∧ textOrAbsent bs 4 = true)) ∧
    (e.region = .lines →
      (check2 es e = none ↔ byteAt bs 0 ≤ 1 ∧ byteAt bs 1 ≤ 1 ∧ (∀ i ∈ [2, 3, 4, 5, 6], byteAt bs i ≠ 0xFF) ∧
        textOrAbsent bs 8 = true) ∧
      (check3 es e = none ↔
        (∀ i ∈ [2, 3], byteAt bs i ≠ 0xFF → inRange 1 48 (byteAt bs i) = true ∧ leverConfigured es (byteAt bs i) = true) ∧
        (∀ i ∈ [4, 5, 6], byteAt bs i ≠ 0xFF →
          inRange 1 24 (byteAt bs i) = true ∧ trackConfigured es (byteAt bs i) = true) ∧
        (byteAt bs 7 ≠ 0xFF → inRange 1 3 (byteAt bs 7) = true ∧ lineConfigured es (byteAt bs 7) = true)) ∧
      (check10 es e = none ↔ ∃ home starting, entryBytes es .levers (byteAt bs 2) = some home ∧
        entryBytes es .levers (byteAt bs 3) = some starting ∧ roleOfLine home 1 e.number = true ∧
        roleOfLine starting 2 e.number = true ∧ byteAt bs 5 = byteAt home 4 ∧ byteAt bs 6 = byteAt starting 4 ∧
        (byteAt home 3 ≠ 0xFF → byteAt bs 4 = byteAt home 3) ∧ holdsTerm (toReverse starting) 4 e.number 0 = true ∧
        holdsTerm (toReverse starting) 3 (2 * e.number) 1 = true ∧
        (workedSingle bs = true → holdsTerm (toReverse starting) 3 (2 * e.number - 1) 0 = true)) ∧
      (check12 es e = none ↔ partnerFits es e.number = true)) ∧
    (e.region = .options →
      (check2 es e = none ↔ byteAt bs 6 ≤ 1 ∧ patternCount bs ≤ 16) ∧
      (check3 es e = none ↔ ∀ k, k < patternCount bs →
        ∃ l i, leverAtEnd (byteAt bs (8 + k)) = some (l, i) ∧ leverConfigured es (leverNumber l) = true) ∧
      (check12 es e = none ↔ (optionsPair es = true ↔ partnerOf es 1 = 2))) ∧
    (e.region = .indication →
      (check2 es e = none ↔ lampCodesDefined bs = true) ∧
      (check3 es e = none ↔ byteAt bs 0 ≤ 31 ∧ byteAt bs 1 ≤ 15 ∧ ∀ k n, lampSource bs = some k → n = byteAt bs 3 →
        lampIndexInRange k n = true ∧ (k = .lever → leverConfigured es n = true) ∧
          (k = .track → trackConfigured es n = true) ∧
          (k = .sectionIn ∨ k = .sectionOut ∨ k = .offer → lineConfigured es n = true) ∧
          (k = .routeLock ∨ k = .signalOut → signalConfigured es n = true)) ∧
      (check13 es e = none ↔ ∀ d ∈ es, d.region = .indication → d.number < e.number →
        byteAt d.bytes 0 ≠ byteAt bs 0 ∨ byteAt d.bytes 1 ≠ byteAt bs 1)) ∧
    (∀ r n code, (⟨r, n, code⟩ : Warning) ∈ entryWarnings e ↔ e.corrupt = false ∧ r = e.region ∧ n = e.number ∧
      ((r = .levers ∧ code = 1 ∧ isSignalRecord bs = true ∧ inRange 30 240 (timeReleaseStored bs) = false) ∨
        (r = .track ∧ ((code = 2 ∧ inRange 2 15 (byteAt bs 1) = false) ∨ (code = 3 ∧ 300 < pairAt bs 2))) ∨
        (r = .options ∧ ((code = 4 ∧ inRange 60 600 (pairAt bs 0) = false) ∨
          (code = 5 ∧ inRange 60 600 (pairAt bs 2) = false) ∨ (code = 6 ∧ inRange 20 80 (pairAt bs 4) = false))))))

/-- The scrubber takes the idle port for the slot at its position every 20 ms; the read's end corrects the slot's words in
place, marks it, and touches no other word. A slot found CORRUPT is told to its users, which take the record anew: a circuit
enters record fault, a line's sections give up what its record bore, a lever takes its copy (R29, R67, R74, R127); a slot
withheld then gives no record, and its Npu_eff goes to 0, the model's reading (log 57). A period's end begins a new pass, or
is an overrun of one unfinished (R17, R30, R31). -/
def Obligations.ScrubberCorrectsTheStore : Prop :=
  ∀ s : State,
    (∀ (i : Slot) (d : Nat), scrubbing s.mode = true → s.sst.scrubPos = i.val → s.sst.scrubDue = some d → d ≤ s.now →
      portIdle s = true → passWaits s = false →
      ∃ t, exec .scrubStep s = .next t ∧ t.sst.scrubPos = i.val + 1 ∧ t.sst.scrubDue = some (s.now + 20) ∧
        t.sst.periodEnd = s.sst.periodEnd ∧
        t.sst.port.serving = some (.scrub i,
          s.now + (regionReadTime (slotRegion i) + 3 * slotCorrectables s.sst.cells i)) ∧
        Changes (.scrub :: endOfEvent) s t) ∧
    (∀ i d, StoreCanonical s → s.sst.port.serving = some (.scrub i, d) → d ≤ s.now →
      ∃ t, exec .scrubStepEnd s = .next t ∧
        (∀ a, slotBase i ≤ a → a < slotEnd i → cellRead t.sst.cells a = correctedWord (cellRead s.sst.cells a)) ∧
        (∀ a, a < slotBase i ∨ slotEnd i ≤ a → cellRead t.sst.cells a = cellRead s.sst.cells a) ∧
        t.cond i = (if slotUncorrectable s.sst.cells i = true then .corrupt
          else if s.cond i = .good ∧ 0 < slotCorrectables s.sst.cells i then .corrected else s.cond i) ∧
        (∀ j, j ≠ i → t.cond j = s.cond j ∨ (slotRegion i = .lines ∧ slotRegion j = .levers ∧
          slotUncorrectable s.sst.cells j = true ∧ t.cond j = .corrupt)) ∧
        (slotUncorrectable s.sst.cells i = true → s.cond i ≠ .corrupt → s.mode ≠ .starting →
          (slotRegion i ≠ .lines → t.sst.lastChange = some (i, .corrupt)) ∧ Posted .store t ∧
          (∀ tc, i = trackSlot tc → TrackTold tc s t) ∧ (∀ l, i = leverSlot l → LeverRecordTold l s t) ∧
          (∀ x, i = lineSlot x → (∀ l, slotUncorrectable s.sst.cells (leverSlot l) = false) → LineTold x s t)) ∧
        Changes (.cells :: recordRead ++ endOfEvent) s t) ∧
    (∀ d, s.sst.periodEnd = some d → d ≤ s.now →
      (333 ≤ s.sst.scrubPos → (∀ i e, s.sst.port.serving ≠ some (.scrub i, e)) →
        ∃ t, exec .scrubPeriodEnd s = .next t ∧ t.sst.scrubPos = 0 ∧ t.sst.scrubDue.isSome = true ∧
          t.sst.periodEnd = some (d + 60000) ∧ Changes (.scrub :: endOfEvent) s t) ∧
      (s.sst.scrubPos < 333 ∨ (∃ i e, s.sst.port.serving = some (.scrub i, e)) →
        ∃ t, exec .scrubPeriodEnd s = .next t ∧ Posted .store t ∧ t.sst.scrubPos = s.sst.scrubPos ∧
          t.sst.scrubDue = s.sst.scrubDue ∧ t.sst.periodEnd = some (d + 60000) ∧
          (lineFree s = false → t.sst.overrun = true) ∧ Changes (.scrub :: endOfEvent) s t))

/-- The start-up pass reads the slots one after another, the box still STARTING. The last read ends with the start-up
check, the first row of R32's table that applies: MATCH sets the validation result to PASSED and leads to COMMISSIONING
with the reset hold running; anything else leads to MAINTENANCE (R32, R159, R161). As the box leaves STARTING every
lever is formed from its contacts, of an unconditional pair both outside NORMAL the higher in FAULT (R83, R91); the
signal slots are assigned (R41, R109); measurement, decoding, the outputs' options and the lamps begin (R69, R123, R149,
R157). That every slot is read then, the header too, and that no scrub period runs in MAINTENANCE are the model's
readings (logs 55 and 56); that the 24 lowest-numbered levers take the slots, where more than 24 read as SIGNAL, is its
choice (log 62). -/
def Obligations.StartUpLeadsToItsMode : Prop :=
  ∀ (s : State) (i : Slot) (d : Nat), StoreCanonical s → s.sst.port.serving = some (.startup i, d) → d ≤ s.now →
    s.mode = .starting →
    (∀ h : i.val + 1 < 333,
      ∃ t, exec .startupSlotRead s = .next t ∧ t.mode = .starting ∧ t.sst.startup = some ⟨i.val + 1, h⟩ ∧
        (s.sst.port.waiting = [] → passWaits s = false → ∃ e, t.sst.port.serving = some (.startup ⟨i.val + 1, h⟩, e)) ∧
        (∀ a, slotBase i ≤ a → a < slotEnd i → cellRead t.sst.cells a = correctedWord (cellRead s.sst.cells a)) ∧
        (∀ a, a < slotBase i ∨ slotEnd i ≤ a → cellRead t.sst.cells a = cellRead s.sst.cells a) ∧
        Changes ([.cells, .startup, .conds] ++ endOfEvent) s t) ∧
    (i.val = 332 →
      ∃ t c, exec .startupSlotRead s = .next t ∧ c = startCheckOf (correctSlot i s) ∧ t.sst.startup = none ∧
        t.sst.startCheck = some c ∧ t.bmc.startCheck = some c ∧
        (c = .isMatch → t.mode = .commissioning ∧ t.sst.result = .passed ∧ t.bmc.hold.isSome = true ∧
          t.sst.scrubPos = 0 ∧ t.sst.periodEnd = some (s.now + 60000)) ∧
        (c ≠ .isMatch → t.mode = .maintenance ∧ t.sst.result = s.sst.result ∧ t.bmc.hold = none ∧
          t.sst.periodEnd = s.sst.periodEnd ∧ ∀ n, (t.signal n).lever = none) ∧
        (∀ u, u = correctSlot i s →
          (c = .noStamp ↔ headerWord u 31 ≠ 0x3C96 ∨ u.cond headerSlot = .corrupt ∨ headerWord u 10 ≠ 0x0F0F) ∧
          (c = .isMatch ↔ headerWord u 31 = 0x3C96 ∧ u.cond headerSlot ≠ .corrupt ∧ headerWord u 10 = 0x0F0F ∧
            headerWord u 8 = headerWord u 6 ∧ headerWord u 9 = contentSum u.sst.cells)) ∧
        Posted .store t ∧ Posted .mode t) ∧
    (i.val = 332 → s.icc.phase = none → s.icc.frame = none → s.icc.allOnPending = false →
      ∃ t, exec .startupSlotRead s = .next t ∧
        (∀ l, (t.lever l).copy = slotCopy t (leverSlot l) ∧ Posted (.lever l) t ∧
          (copySpare (t.lever l).copy = true → t.leverState l = .spare) ∧
          (copySpare (t.lever l).copy = false →
            ((∃ a : Lever, a < l ∧ mutualPair t a l = true ∧ outsideNormal t a = true) →
              contactState (s.lever l) = .reverse ∨ contactState (s.lever l) = .transit →
              t.leverState l = .fault ∧ (t.lever l).cause = some .unlockedMove) ∧
            ((∀ a : Lever, a < l → mutualPair t a l = true → outsideNormal t a = false) ∨
              contactState (s.lever l) = .normal ∨ contactState (s.lever l) = .fault →
              t.leverState l = contactState (s.lever l))) ∧
          (restEnd t l ≠ none → (s.lever l).grip.accepted = true → queuedOrEvaluated t l = true)) ∧
        (t.mode = .commissioning → ∀ n : SigSlot, (t.signal n).lever = ((List.finRange 48).filter fun l =>
            isSignalRecord (copyBytes (slotCopy t (leverSlot l))))[n.val]? ∧
          (∀ l, (t.signal n).lever = some l → (t.signal n).copy = slotCopy t (leverSlot l)) ∧ Posted (.routeLock n) t) ∧
        (∀ tc c, c = slotCopy t (trackSlot tc) → Posted (.track tc) t ∧ t.track tc = if trackSound c = true then
            { s.track tc with
              copy := c, npuEff := pickUpOf s.tbm.state c, holdUntil := s.resetAt + holdOf c, reading := true
              inFault := false }
          else trackFaulted s.now s.tbm.state c (s.track tc)) ∧
        (∀ x, (t.bell x).rx = (if (s.bell x).filter.level = true then .stuck else (s.bell x).rx) ∧ Posted (.bell x) t ∧
          (t.block x).copy = slotCopy t (lineSlot x) ∧ Posted (.sect x .incoming) t ∧ Posted (.sect x .outgoing) t) ∧
        t.bmc.options = slotCopy t optionsSlot ∧ t.vod.options = slotCopy t optionsSlot ∧
        (∀ g, Posted (.group g) t) ∧
        t.icc.phase = some true ∧ t.icc.toggleAt = some (s.now + 500) ∧ t.icc.refreshAt = some (s.now + 10000) ∧
        (∀ r, t.icc.dirty.get r = true) ∧ t.icc.frame = some ⟨.phase, [0x02, 1], s.now + 1⟩ ∧ Posted .indication t ∧
        (∀ k, t.icc.copies.get k = slotCopy t (indicationSlot k)) ∧
        ((∀ n, (s.signal n).demand = false) →
          (∀ q ∈ placements t.icc, t.icc.desired.get q.1 = lampValue t q.2.2) ∧
          (∀ p, (∀ q ∈ placements t.icc, q.1 ≠ p) → t.icc.desired.get p = .off)))
end

