-- ==== Sys2Proof/Laws/Table.lean ====
section
/-!
SUPPORT. The laws of fixed-length tables: reading what was written, and reading beside it.
-/

namespace Sys2Proof.Table

variable {α : Type} {n : Nat}

@[simp] theorem get_set_same (t : Table n α) (i : Fin n) (a : α) : (t.set i a).get i = a := by
  simp [get, set]

theorem get_set_ne (t : Table n α) {i j : Fin n} (a : α) (h : i ≠ j) : (t.set i a).get j = t.get j := by
  have : i.val ≠ j.val := fun e => h (Fin.ext e)
  simp [get, set, this]

theorem get_set (t : Table n α) (i j : Fin n) (a : α) : (t.set i a).get j = if i = j then a else t.get j := by
  split
  next h => subst h; simp
  next h => exact get_set_ne t a h

@[simp] theorem get_modify_same (t : Table n α) (i : Fin n) (f : α → α) : (t.modify i f).get i = f (t.get i) := by
  simp [modify]

theorem get_modify_ne (t : Table n α) {i j : Fin n} (f : α → α) (h : i ≠ j) : (t.modify i f).get j = t.get j := by
  simp [modify, get_set_ne _ _ h]

theorem get_modify (t : Table n α) (i j : Fin n) (f : α → α) :
    (t.modify i f).get j = if i = j then f (t.get j) else t.get j := by
  simp only [modify, get_set]
  split
  next h => subst h; rfl
  next => rfl

@[simp] theorem get_fill (a : α) (i : Fin n) : (fill n a).get i = a := by
  simp [get, fill]

@[simp] theorem get_build (f : Fin n → α) (i : Fin n) : (build f).get i = f i := by
  simp [get, build]

@[simp] theorem get_map {β : Type} (f : α → β) (t : Table n α) (i : Fin n) : (t.map f).get i = f (t.get i) := by
  simp [get, map]

/-- Two tables of one length with the same entries are the same. -/
theorem ext_get {t u : Table n α} (h : ∀ i, t.get i = u.get i) : t = u := by
  obtain ⟨as, ha⟩ := t
  obtain ⟨bs, hb⟩ := u
  have : as = bs := by
    apply List.ext_getElem (by rw [ha, hb])
    intro i h1 h2
    exact h ⟨i, by omega⟩
  subst this
  rfl

/-- An entry of `pick`. -/
theorem getElem_pick (p : Nat → Bool) : ∀ (k i : Nat) (as bs : List α) (h : as.length = bs.length) (hi : i < bs.length),
    (pick p k as bs)[i]'(by rw [pick_length]; exact hi) = if p (k + i) then as[i]'(by omega) else bs[i]
  | _, _, [], [], _, hi => by simp at hi
  | k, 0, a :: as, b :: bs, _, _ => by simp [pick]
  | k, i + 1, a :: as, b :: bs, h, hi => by
    have hlen : as.length = bs.length := by simpa using h
    have hj : i < bs.length := by simpa using hi
    have := getElem_pick p (k + 1) i as bs hlen hj
    simp only [pick, List.getElem_cons_succ]
    rw [this, Nat.add_assoc, Nat.add_comm 1 i]

@[simp] theorem get_choose (p : Nat → Bool) (a b : Table n α) (i : Fin n) :
    (choose p a b).get i = if p i.val then a.get i else b.get i := by
  have := getElem_pick p 0 i.val a.items b.items (by rw [a.len, b.len]) (by rw [b.len]; exact i.isLt)
  simpa [get, choose] using this

end Sys2Proof.Table
end

