-- ==== Sys2Proof/Laws/State.lean ====
section
/-!
SUPPORT. What the updates of one object leave of every field of the state, and what they make of the objects.
-/

namespace Sys2Proof.Machine

variable (s : State)


/-! ## modTrack -/

@[simp] theorem State.modTrack_now (i : Tc) (f : Track → Track) : (s.modTrack i f).now = s.now := rfl
@[simp] theorem State.modTrack_resetAt (i : Tc) (f : Track → Track) : (s.modTrack i f).resetAt = s.resetAt := rfl
@[simp] theorem State.modTrack_resets (i : Tc) (f : Track → Track) : (s.modTrack i f).resets = s.resets := rfl
@[simp] theorem State.modTrack_leads (i : Tc) (f : Track → Track) : (s.modTrack i f).leads = s.leads := rfl
@[simp] theorem State.modTrack_hlc (i : Tc) (f : Track → Track) : (s.modTrack i f).hlc = s.hlc := rfl
@[simp] theorem State.modTrack_sst (i : Tc) (f : Track → Track) : (s.modTrack i f).sst = s.sst := rfl
@[simp] theorem State.modTrack_lle (i : Tc) (f : Track → Track) : (s.modTrack i f).lle = s.lle := rfl
@[simp] theorem State.modTrack_src (i : Tc) (f : Track → Track) : (s.modTrack i f).src = s.src := rfl
@[simp] theorem State.modTrack_blc (i : Tc) (f : Track → Track) : (s.modTrack i f).blc = s.blc := rfl
@[simp] theorem State.modTrack_bsc (i : Tc) (f : Track → Track) : (s.modTrack i f).bsc = s.bsc := rfl
@[simp] theorem State.modTrack_vod (i : Tc) (f : Track → Track) : (s.modTrack i f).vod = s.vod := rfl
@[simp] theorem State.modTrack_icc (i : Tc) (f : Track → Track) : (s.modTrack i f).icc = s.icc := rfl
@[simp] theorem State.modTrack_bmc (i : Tc) (f : Track → Track) : (s.modTrack i f).bmc = s.bmc := rfl
@[simp] theorem State.modTrack_tbm (i : Tc) (f : Track → Track) : (s.modTrack i f).tbm = s.tbm := rfl
@[simp] theorem State.modTrack_pending (i : Tc) (f : Track → Track) : (s.modTrack i f).pending = s.pending := rfl
@[simp] theorem State.modTrack_lever (i : Tc) (f : Track → Track) (j : Lever) : (s.modTrack i f).lever j = s.lever j := rfl
@[simp] theorem State.modTrack_signal (i : Tc) (f : Track → Track) (j : SigSlot) : (s.modTrack i f).signal j = s.signal j := rfl
@[simp] theorem State.modTrack_bell (i : Tc) (f : Track → Track) (j : Line) : (s.modTrack i f).bell j = s.bell j := rfl
@[simp] theorem State.modTrack_block (i : Tc) (f : Track → Track) (j : Line) : (s.modTrack i f).block j = s.block j := rfl
@[simp] theorem State.modTrack_output (i : Tc) (f : Track → Track) (j : Output) : (s.modTrack i f).output j = s.output j := rfl
@[simp] theorem State.modTrack_mode (i : Tc) (f : Track → Track) : (s.modTrack i f).mode = s.mode := rfl

/-! ## modLever -/

@[simp] theorem State.modLever_now (i : Lever) (f : LeverRec → LeverRec) : (s.modLever i f).now = s.now := rfl
@[simp] theorem State.modLever_resetAt (i : Lever) (f : LeverRec → LeverRec) : (s.modLever i f).resetAt = s.resetAt := rfl
@[simp] theorem State.modLever_resets (i : Lever) (f : LeverRec → LeverRec) : (s.modLever i f).resets = s.resets := rfl
@[simp] theorem State.modLever_leads (i : Lever) (f : LeverRec → LeverRec) : (s.modLever i f).leads = s.leads := rfl
@[simp] theorem State.modLever_hlc (i : Lever) (f : LeverRec → LeverRec) : (s.modLever i f).hlc = s.hlc := rfl
@[simp] theorem State.modLever_sst (i : Lever) (f : LeverRec → LeverRec) : (s.modLever i f).sst = s.sst := rfl
@[simp] theorem State.modLever_tcr (i : Lever) (f : LeverRec → LeverRec) : (s.modLever i f).tcr = s.tcr := rfl
@[simp] theorem State.modLever_src (i : Lever) (f : LeverRec → LeverRec) : (s.modLever i f).src = s.src := rfl
@[simp] theorem State.modLever_blc (i : Lever) (f : LeverRec → LeverRec) : (s.modLever i f).blc = s.blc := rfl
@[simp] theorem State.modLever_bsc (i : Lever) (f : LeverRec → LeverRec) : (s.modLever i f).bsc = s.bsc := rfl
@[simp] theorem State.modLever_vod (i : Lever) (f : LeverRec → LeverRec) : (s.modLever i f).vod = s.vod := rfl
@[simp] theorem State.modLever_icc (i : Lever) (f : LeverRec → LeverRec) : (s.modLever i f).icc = s.icc := rfl
@[simp] theorem State.modLever_bmc (i : Lever) (f : LeverRec → LeverRec) : (s.modLever i f).bmc = s.bmc := rfl
@[simp] theorem State.modLever_tbm (i : Lever) (f : LeverRec → LeverRec) : (s.modLever i f).tbm = s.tbm := rfl
@[simp] theorem State.modLever_pending (i : Lever) (f : LeverRec → LeverRec) : (s.modLever i f).pending = s.pending := rfl
@[simp] theorem State.modLever_lle_queue (i : Lever) (f : LeverRec → LeverRec) : (s.modLever i f).lle.queue = s.lle.queue := rfl
@[simp] theorem State.modLever_lle_eval (i : Lever) (f : LeverRec → LeverRec) : (s.modLever i f).lle.eval = s.lle.eval := rfl
@[simp] theorem State.modLever_track (i : Lever) (f : LeverRec → LeverRec) (j : Tc) : (s.modLever i f).track j = s.track j := rfl
@[simp] theorem State.modLever_signal (i : Lever) (f : LeverRec → LeverRec) (j : SigSlot) : (s.modLever i f).signal j = s.signal j := rfl
@[simp] theorem State.modLever_bell (i : Lever) (f : LeverRec → LeverRec) (j : Line) : (s.modLever i f).bell j = s.bell j := rfl
@[simp] theorem State.modLever_block (i : Lever) (f : LeverRec → LeverRec) (j : Line) : (s.modLever i f).block j = s.block j := rfl
@[simp] theorem State.modLever_output (i : Lever) (f : LeverRec → LeverRec) (j : Output) : (s.modLever i f).output j = s.output j := rfl
@[simp] theorem State.modLever_mode (i : Lever) (f : LeverRec → LeverRec) : (s.modLever i f).mode = s.mode := rfl

/-! ## modSignal -/

@[simp] theorem State.modSignal_now (i : SigSlot) (f : Signal → Signal) : (s.modSignal i f).now = s.now := rfl
@[simp] theorem State.modSignal_resetAt (i : SigSlot) (f : Signal → Signal) : (s.modSignal i f).resetAt = s.resetAt := rfl
@[simp] theorem State.modSignal_resets (i : SigSlot) (f : Signal → Signal) : (s.modSignal i f).resets = s.resets := rfl
@[simp] theorem State.modSignal_leads (i : SigSlot) (f : Signal → Signal) : (s.modSignal i f).leads = s.leads := rfl
@[simp] theorem State.modSignal_hlc (i : SigSlot) (f : Signal → Signal) : (s.modSignal i f).hlc = s.hlc := rfl
@[simp] theorem State.modSignal_sst (i : SigSlot) (f : Signal → Signal) : (s.modSignal i f).sst = s.sst := rfl
@[simp] theorem State.modSignal_tcr (i : SigSlot) (f : Signal → Signal) : (s.modSignal i f).tcr = s.tcr := rfl
@[simp] theorem State.modSignal_lle (i : SigSlot) (f : Signal → Signal) : (s.modSignal i f).lle = s.lle := rfl
@[simp] theorem State.modSignal_blc (i : SigSlot) (f : Signal → Signal) : (s.modSignal i f).blc = s.blc := rfl
@[simp] theorem State.modSignal_bsc (i : SigSlot) (f : Signal → Signal) : (s.modSignal i f).bsc = s.bsc := rfl
@[simp] theorem State.modSignal_vod (i : SigSlot) (f : Signal → Signal) : (s.modSignal i f).vod = s.vod := rfl
@[simp] theorem State.modSignal_icc (i : SigSlot) (f : Signal → Signal) : (s.modSignal i f).icc = s.icc := rfl
@[simp] theorem State.modSignal_bmc (i : SigSlot) (f : Signal → Signal) : (s.modSignal i f).bmc = s.bmc := rfl
@[simp] theorem State.modSignal_tbm (i : SigSlot) (f : Signal → Signal) : (s.modSignal i f).tbm = s.tbm := rfl
@[simp] theorem State.modSignal_pending (i : SigSlot) (f : Signal → Signal) : (s.modSignal i f).pending = s.pending := rfl
@[simp] theorem State.modSignal_src_locks (i : SigSlot) (f : Signal → Signal) : (s.modSignal i f).src.locks = s.src.locks := rfl
@[simp] theorem State.modSignal_src_lines (i : SigSlot) (f : Signal → Signal) : (s.modSignal i f).src.lines = s.src.lines := rfl
@[simp] theorem State.modSignal_track (i : SigSlot) (f : Signal → Signal) (j : Tc) : (s.modSignal i f).track j = s.track j := rfl
@[simp] theorem State.modSignal_lever (i : SigSlot) (f : Signal → Signal) (j : Lever) : (s.modSignal i f).lever j = s.lever j := rfl
@[simp] theorem State.modSignal_bell (i : SigSlot) (f : Signal → Signal) (j : Line) : (s.modSignal i f).bell j = s.bell j := rfl
@[simp] theorem State.modSignal_block (i : SigSlot) (f : Signal → Signal) (j : Line) : (s.modSignal i f).block j = s.block j := rfl
@[simp] theorem State.modSignal_output (i : SigSlot) (f : Signal → Signal) (j : Output) : (s.modSignal i f).output j = s.output j := rfl
@[simp] theorem State.modSignal_mode (i : SigSlot) (f : Signal → Signal) : (s.modSignal i f).mode = s.mode := rfl

/-! ## modBell -/

@[simp] theorem State.modBell_now (i : Line) (f : BellLine → BellLine) : (s.modBell i f).now = s.now := rfl
@[simp] theorem State.modBell_resetAt (i : Line) (f : BellLine → BellLine) : (s.modBell i f).resetAt = s.resetAt := rfl
@[simp] theorem State.modBell_resets (i : Line) (f : BellLine → BellLine) : (s.modBell i f).resets = s.resets := rfl
@[simp] theorem State.modBell_leads (i : Line) (f : BellLine → BellLine) : (s.modBell i f).leads = s.leads := rfl
@[simp] theorem State.modBell_hlc (i : Line) (f : BellLine → BellLine) : (s.modBell i f).hlc = s.hlc := rfl
@[simp] theorem State.modBell_sst (i : Line) (f : BellLine → BellLine) : (s.modBell i f).sst = s.sst := rfl
@[simp] theorem State.modBell_tcr (i : Line) (f : BellLine → BellLine) : (s.modBell i f).tcr = s.tcr := rfl
@[simp] theorem State.modBell_lle (i : Line) (f : BellLine → BellLine) : (s.modBell i f).lle = s.lle := rfl
@[simp] theorem State.modBell_src (i : Line) (f : BellLine → BellLine) : (s.modBell i f).src = s.src := rfl
@[simp] theorem State.modBell_bsc (i : Line) (f : BellLine → BellLine) : (s.modBell i f).bsc = s.bsc := rfl
@[simp] theorem State.modBell_vod (i : Line) (f : BellLine → BellLine) : (s.modBell i f).vod = s.vod := rfl
@[simp] theorem State.modBell_icc (i : Line) (f : BellLine → BellLine) : (s.modBell i f).icc = s.icc := rfl
@[simp] theorem State.modBell_bmc (i : Line) (f : BellLine → BellLine) : (s.modBell i f).bmc = s.bmc := rfl
@[simp] theorem State.modBell_tbm (i : Line) (f : BellLine → BellLine) : (s.modBell i f).tbm = s.tbm := rfl
@[simp] theorem State.modBell_pending (i : Line) (f : BellLine → BellLine) : (s.modBell i f).pending = s.pending := rfl
@[simp] theorem State.modBell_track (i : Line) (f : BellLine → BellLine) (j : Tc) : (s.modBell i f).track j = s.track j := rfl
@[simp] theorem State.modBell_lever (i : Line) (f : BellLine → BellLine) (j : Lever) : (s.modBell i f).lever j = s.lever j := rfl
@[simp] theorem State.modBell_signal (i : Line) (f : BellLine → BellLine) (j : SigSlot) : (s.modBell i f).signal j = s.signal j := rfl
@[simp] theorem State.modBell_block (i : Line) (f : BellLine → BellLine) (j : Line) : (s.modBell i f).block j = s.block j := rfl
@[simp] theorem State.modBell_output (i : Line) (f : BellLine → BellLine) (j : Output) : (s.modBell i f).output j = s.output j := rfl
@[simp] theorem State.modBell_mode (i : Line) (f : BellLine → BellLine) : (s.modBell i f).mode = s.mode := rfl

/-! ## modBlock -/

@[simp] theorem State.modBlock_now (i : Line) (f : BlockLine → BlockLine) : (s.modBlock i f).now = s.now := rfl
@[simp] theorem State.modBlock_resetAt (i : Line) (f : BlockLine → BlockLine) : (s.modBlock i f).resetAt = s.resetAt := rfl
@[simp] theorem State.modBlock_resets (i : Line) (f : BlockLine → BlockLine) : (s.modBlock i f).resets = s.resets := rfl
@[simp] theorem State.modBlock_leads (i : Line) (f : BlockLine → BlockLine) : (s.modBlock i f).leads = s.leads := rfl
@[simp] theorem State.modBlock_hlc (i : Line) (f : BlockLine → BlockLine) : (s.modBlock i f).hlc = s.hlc := rfl
@[simp] theorem State.modBlock_sst (i : Line) (f : BlockLine → BlockLine) : (s.modBlock i f).sst = s.sst := rfl
@[simp] theorem State.modBlock_tcr (i : Line) (f : BlockLine → BlockLine) : (s.modBlock i f).tcr = s.tcr := rfl
@[simp] theorem State.modBlock_lle (i : Line) (f : BlockLine → BlockLine) : (s.modBlock i f).lle = s.lle := rfl
@[simp] theorem State.modBlock_src (i : Line) (f : BlockLine → BlockLine) : (s.modBlock i f).src = s.src := rfl
@[simp] theorem State.modBlock_blc (i : Line) (f : BlockLine → BlockLine) : (s.modBlock i f).blc = s.blc := rfl
@[simp] theorem State.modBlock_vod (i : Line) (f : BlockLine → BlockLine) : (s.modBlock i f).vod = s.vod := rfl
@[simp] theorem State.modBlock_icc (i : Line) (f : BlockLine → BlockLine) : (s.modBlock i f).icc = s.icc := rfl
@[simp] theorem State.modBlock_bmc (i : Line) (f : BlockLine → BlockLine) : (s.modBlock i f).bmc = s.bmc := rfl
@[simp] theorem State.modBlock_tbm (i : Line) (f : BlockLine → BlockLine) : (s.modBlock i f).tbm = s.tbm := rfl
@[simp] theorem State.modBlock_pending (i : Line) (f : BlockLine → BlockLine) : (s.modBlock i f).pending = s.pending := rfl
@[simp] theorem State.modBlock_bsc_cut10 (i : Line) (f : BlockLine → BlockLine) : (s.modBlock i f).bsc.cut10 = s.bsc.cut10 := rfl
@[simp] theorem State.modBlock_track (i : Line) (f : BlockLine → BlockLine) (j : Tc) : (s.modBlock i f).track j = s.track j := rfl
@[simp] theorem State.modBlock_lever (i : Line) (f : BlockLine → BlockLine) (j : Lever) : (s.modBlock i f).lever j = s.lever j := rfl
@[simp] theorem State.modBlock_signal (i : Line) (f : BlockLine → BlockLine) (j : SigSlot) : (s.modBlock i f).signal j = s.signal j := rfl
@[simp] theorem State.modBlock_bell (i : Line) (f : BlockLine → BlockLine) (j : Line) : (s.modBlock i f).bell j = s.bell j := rfl
@[simp] theorem State.modBlock_output (i : Line) (f : BlockLine → BlockLine) (j : Output) : (s.modBlock i f).output j = s.output j := rfl
@[simp] theorem State.modBlock_mode (i : Line) (f : BlockLine → BlockLine) : (s.modBlock i f).mode = s.mode := rfl

/-! ## modInc -/

@[simp] theorem State.modInc_now (i : Line) (f : Incoming → Incoming) : (s.modInc i f).now = s.now := rfl
@[simp] theorem State.modInc_resetAt (i : Line) (f : Incoming → Incoming) : (s.modInc i f).resetAt = s.resetAt := rfl
@[simp] theorem State.modInc_resets (i : Line) (f : Incoming → Incoming) : (s.modInc i f).resets = s.resets := rfl
@[simp] theorem State.modInc_leads (i : Line) (f : Incoming → Incoming) : (s.modInc i f).leads = s.leads := rfl
@[simp] theorem State.modInc_hlc (i : Line) (f : Incoming → Incoming) : (s.modInc i f).hlc = s.hlc := rfl
@[simp] theorem State.modInc_sst (i : Line) (f : Incoming → Incoming) : (s.modInc i f).sst = s.sst := rfl
@[simp] theorem State.modInc_tcr (i : Line) (f : Incoming → Incoming) : (s.modInc i f).tcr = s.tcr := rfl
@[simp] theorem State.modInc_lle (i : Line) (f : Incoming → Incoming) : (s.modInc i f).lle = s.lle := rfl
@[simp] theorem State.modInc_src (i : Line) (f : Incoming → Incoming) : (s.modInc i f).src = s.src := rfl
@[simp] theorem State.modInc_blc (i : Line) (f : Incoming → Incoming) : (s.modInc i f).blc = s.blc := rfl
@[simp] theorem State.modInc_vod (i : Line) (f : Incoming → Incoming) : (s.modInc i f).vod = s.vod := rfl
@[simp] theorem State.modInc_icc (i : Line) (f : Incoming → Incoming) : (s.modInc i f).icc = s.icc := rfl
@[simp] theorem State.modInc_bmc (i : Line) (f : Incoming → Incoming) : (s.modInc i f).bmc = s.bmc := rfl
@[simp] theorem State.modInc_tbm (i : Line) (f : Incoming → Incoming) : (s.modInc i f).tbm = s.tbm := rfl
@[simp] theorem State.modInc_pending (i : Line) (f : Incoming → Incoming) : (s.modInc i f).pending = s.pending := rfl
@[simp] theorem State.modInc_bsc_cut10 (i : Line) (f : Incoming → Incoming) : (s.modInc i f).bsc.cut10 = s.bsc.cut10 := rfl
@[simp] theorem State.modInc_track (i : Line) (f : Incoming → Incoming) (j : Tc) : (s.modInc i f).track j = s.track j := rfl
@[simp] theorem State.modInc_lever (i : Line) (f : Incoming → Incoming) (j : Lever) : (s.modInc i f).lever j = s.lever j := rfl
@[simp] theorem State.modInc_signal (i : Line) (f : Incoming → Incoming) (j : SigSlot) : (s.modInc i f).signal j = s.signal j := rfl
@[simp] theorem State.modInc_bell (i : Line) (f : Incoming → Incoming) (j : Line) : (s.modInc i f).bell j = s.bell j := rfl
@[simp] theorem State.modInc_output (i : Line) (f : Incoming → Incoming) (j : Output) : (s.modInc i f).output j = s.output j := rfl
@[simp] theorem State.modInc_mode (i : Line) (f : Incoming → Incoming) : (s.modInc i f).mode = s.mode := rfl

/-! ## modOut -/

@[simp] theorem State.modOut_now (i : Line) (f : Outgoing → Outgoing) : (s.modOut i f).now = s.now := rfl
@[simp] theorem State.modOut_resetAt (i : Line) (f : Outgoing → Outgoing) : (s.modOut i f).resetAt = s.resetAt := rfl
@[simp] theorem State.modOut_resets (i : Line) (f : Outgoing → Outgoing) : (s.modOut i f).resets = s.resets := rfl
@[simp] theorem State.modOut_leads (i : Line) (f : Outgoing → Outgoing) : (s.modOut i f).leads = s.leads := rfl
@[simp] theorem State.modOut_hlc (i : Line) (f : Outgoing → Outgoing) : (s.modOut i f).hlc = s.hlc := rfl
@[simp] theorem State.modOut_sst (i : Line) (f : Outgoing → Outgoing) : (s.modOut i f).sst = s.sst := rfl
@[simp] theorem State.modOut_tcr (i : Line) (f : Outgoing → Outgoing) : (s.modOut i f).tcr = s.tcr := rfl
@[simp] theorem State.modOut_lle (i : Line) (f : Outgoing → Outgoing) : (s.modOut i f).lle = s.lle := rfl
@[simp] theorem State.modOut_src (i : Line) (f : Outgoing → Outgoing) : (s.modOut i f).src = s.src := rfl
@[simp] theorem State.modOut_blc (i : Line) (f : Outgoing → Outgoing) : (s.modOut i f).blc = s.blc := rfl
@[simp] theorem State.modOut_vod (i : Line) (f : Outgoing → Outgoing) : (s.modOut i f).vod = s.vod := rfl
@[simp] theorem State.modOut_icc (i : Line) (f : Outgoing → Outgoing) : (s.modOut i f).icc = s.icc := rfl
@[simp] theorem State.modOut_bmc (i : Line) (f : Outgoing → Outgoing) : (s.modOut i f).bmc = s.bmc := rfl
@[simp] theorem State.modOut_tbm (i : Line) (f : Outgoing → Outgoing) : (s.modOut i f).tbm = s.tbm := rfl
@[simp] theorem State.modOut_pending (i : Line) (f : Outgoing → Outgoing) : (s.modOut i f).pending = s.pending := rfl
@[simp] theorem State.modOut_bsc_cut10 (i : Line) (f : Outgoing → Outgoing) : (s.modOut i f).bsc.cut10 = s.bsc.cut10 := rfl
@[simp] theorem State.modOut_track (i : Line) (f : Outgoing → Outgoing) (j : Tc) : (s.modOut i f).track j = s.track j := rfl
@[simp] theorem State.modOut_lever (i : Line) (f : Outgoing → Outgoing) (j : Lever) : (s.modOut i f).lever j = s.lever j := rfl
@[simp] theorem State.modOut_signal (i : Line) (f : Outgoing → Outgoing) (j : SigSlot) : (s.modOut i f).signal j = s.signal j := rfl
@[simp] theorem State.modOut_bell (i : Line) (f : Outgoing → Outgoing) (j : Line) : (s.modOut i f).bell j = s.bell j := rfl
@[simp] theorem State.modOut_output (i : Line) (f : Outgoing → Outgoing) (j : Output) : (s.modOut i f).output j = s.output j := rfl
@[simp] theorem State.modOut_mode (i : Line) (f : Outgoing → Outgoing) : (s.modOut i f).mode = s.mode := rfl

/-! ## modOutput -/

@[simp] theorem State.modOutput_now (i : Output) (f : OutRec → OutRec) : (s.modOutput i f).now = s.now := rfl
@[simp] theorem State.modOutput_resetAt (i : Output) (f : OutRec → OutRec) : (s.modOutput i f).resetAt = s.resetAt := rfl
@[simp] theorem State.modOutput_resets (i : Output) (f : OutRec → OutRec) : (s.modOutput i f).resets = s.resets := rfl
@[simp] theorem State.modOutput_leads (i : Output) (f : OutRec → OutRec) : (s.modOutput i f).leads = s.leads := rfl
@[simp] theorem State.modOutput_hlc (i : Output) (f : OutRec → OutRec) : (s.modOutput i f).hlc = s.hlc := rfl
@[simp] theorem State.modOutput_sst (i : Output) (f : OutRec → OutRec) : (s.modOutput i f).sst = s.sst := rfl
@[simp] theorem State.modOutput_tcr (i : Output) (f : OutRec → OutRec) : (s.modOutput i f).tcr = s.tcr := rfl
@[simp] theorem State.modOutput_lle (i : Output) (f : OutRec → OutRec) : (s.modOutput i f).lle = s.lle := rfl
@[simp] theorem State.modOutput_src (i : Output) (f : OutRec → OutRec) : (s.modOutput i f).src = s.src := rfl
@[simp] theorem State.modOutput_blc (i : Output) (f : OutRec → OutRec) : (s.modOutput i f).blc = s.blc := rfl
@[simp] theorem State.modOutput_bsc (i : Output) (f : OutRec → OutRec) : (s.modOutput i f).bsc = s.bsc := rfl
@[simp] theorem State.modOutput_icc (i : Output) (f : OutRec → OutRec) : (s.modOutput i f).icc = s.icc := rfl
@[simp] theorem State.modOutput_bmc (i : Output) (f : OutRec → OutRec) : (s.modOutput i f).bmc = s.bmc := rfl
@[simp] theorem State.modOutput_tbm (i : Output) (f : OutRec → OutRec) : (s.modOutput i f).tbm = s.tbm := rfl
@[simp] theorem State.modOutput_pending (i : Output) (f : OutRec → OutRec) : (s.modOutput i f).pending = s.pending := rfl
@[simp] theorem State.modOutput_vod_cuts (i : Output) (f : OutRec → OutRec) : (s.modOutput i f).vod.cuts = s.vod.cuts := rfl
@[simp] theorem State.modOutput_vod_options (i : Output) (f : OutRec → OutRec) : (s.modOutput i f).vod.options = s.vod.options := rfl
@[simp] theorem State.modOutput_vod_interval (i : Output) (f : OutRec → OutRec) : (s.modOutput i f).vod.interval = s.vod.interval := rfl
@[simp] theorem State.modOutput_vod_roundStart (i : Output) (f : OutRec → OutRec) : (s.modOutput i f).vod.roundStart = s.vod.roundStart := rfl
@[simp] theorem State.modOutput_vod_nextDue (i : Output) (f : OutRec → OutRec) : (s.modOutput i f).vod.nextDue = s.vod.nextDue := rfl
@[simp] theorem State.modOutput_vod_owed (i : Output) (f : OutRec → OutRec) : (s.modOutput i f).vod.owed = s.vod.owed := rfl
@[simp] theorem State.modOutput_vod_refresh (i : Output) (f : OutRec → OutRec) : (s.modOutput i f).vod.refresh = s.vod.refresh := rfl
@[simp] theorem State.modOutput_vod_overruns (i : Output) (f : OutRec → OutRec) : (s.modOutput i f).vod.overruns = s.vod.overruns := rfl
@[simp] theorem State.modOutput_vod_lastLength (i : Output) (f : OutRec → OutRec) : (s.modOutput i f).vod.lastLength = s.vod.lastLength := rfl
@[simp] theorem State.modOutput_track (i : Output) (f : OutRec → OutRec) (j : Tc) : (s.modOutput i f).track j = s.track j := rfl
@[simp] theorem State.modOutput_lever (i : Output) (f : OutRec → OutRec) (j : Lever) : (s.modOutput i f).lever j = s.lever j := rfl
@[simp] theorem State.modOutput_signal (i : Output) (f : OutRec → OutRec) (j : SigSlot) : (s.modOutput i f).signal j = s.signal j := rfl
@[simp] theorem State.modOutput_bell (i : Output) (f : OutRec → OutRec) (j : Line) : (s.modOutput i f).bell j = s.bell j := rfl
@[simp] theorem State.modOutput_block (i : Output) (f : OutRec → OutRec) (j : Line) : (s.modOutput i f).block j = s.block j := rfl
@[simp] theorem State.modOutput_mode (i : Output) (f : OutRec → OutRec) : (s.modOutput i f).mode = s.mode := rfl

/-! ## The changed object and its neighbours -/

theorem State.modTrack_track (i j : Tc) (f : Track → Track) :
    (s.modTrack i f).track j = if i = j then f (s.track j) else s.track j := Table.get_modify _ _ _ _

theorem State.modLever_lever (i j : Lever) (f : LeverRec → LeverRec) :
    (s.modLever i f).lever j = if i = j then f (s.lever j) else s.lever j := Table.get_modify _ _ _ _

theorem State.modSignal_signal (i j : SigSlot) (f : Signal → Signal) :
    (s.modSignal i f).signal j = if i = j then f (s.signal j) else s.signal j := Table.get_modify _ _ _ _

theorem State.modOutput_output (i j : Output) (f : OutRec → OutRec) :
    (s.modOutput i f).output j = if i = j then f (s.output j) else s.output j := Table.get_modify _ _ _ _

theorem Line.place_inj {x y : Line} (h : x.place = y.place) : x = y := by
  cases x <;> cases y <;> first | rfl | exact absurd h (by decide)

theorem State.modBell_bell (x y : Line) (f : BellLine → BellLine) :
    (s.modBell x f).bell y = if x = y then f (s.bell y) else s.bell y := by
  refine (Table.get_modify _ _ _ _).trans ?_
  by_cases h : x = y
  · subst h; simp [State.bell]
  · have : x.place ≠ y.place := fun e => h (Line.place_inj e)
    simp [h, this, State.bell]

theorem State.modBlock_block (x y : Line) (f : BlockLine → BlockLine) :
    (s.modBlock x f).block y = if x = y then f (s.block y) else s.block y := by
  refine (Table.get_modify _ _ _ _).trans ?_
  by_cases h : x = y
  · subst h; simp [State.block]
  · have : x.place ≠ y.place := fun e => h (Line.place_inj e)
    simp [h, this, State.block]

theorem State.modInc_block (x y : Line) (f : Incoming → Incoming) :
    (s.modInc x f).block y = if x = y then { s.block y with inc := f (s.block y).inc } else s.block y :=
  State.modBlock_block s x y _

theorem State.modOut_block (x y : Line) (f : Outgoing → Outgoing) :
    (s.modOut x f).block y = if x = y then { s.block y with out := f (s.block y).out } else s.block y :=
  State.modBlock_block s x y _

@[simp] theorem State.modTrack_track_same (i : Tc) (f : Track → Track) :
    (s.modTrack i f).track i = f (s.track i) := by simp [State.modTrack_track]

@[simp] theorem State.modLever_lever_same (i : Lever) (f : LeverRec → LeverRec) :
    (s.modLever i f).lever i = f (s.lever i) := by simp [State.modLever_lever]

@[simp] theorem State.modSignal_signal_same (i : SigSlot) (f : Signal → Signal) :
    (s.modSignal i f).signal i = f (s.signal i) := by simp [State.modSignal_signal]

@[simp] theorem State.modOutput_output_same (i : Output) (f : OutRec → OutRec) :
    (s.modOutput i f).output i = f (s.output i) := by simp [State.modOutput_output]

@[simp] theorem State.modBell_bell_same (x : Line) (f : BellLine → BellLine) :
    (s.modBell x f).bell x = f (s.bell x) := by simp [State.modBell_bell]

@[simp] theorem State.modBlock_block_same (x : Line) (f : BlockLine → BlockLine) :
    (s.modBlock x f).block x = f (s.block x) := by simp [State.modBlock_block]

@[simp] theorem State.modInc_block_same (x : Line) (f : Incoming → Incoming) :
    (s.modInc x f).block x = { s.block x with inc := f (s.block x).inc } := by simp [State.modInc_block]

@[simp] theorem State.modOut_block_same (x : Line) (f : Outgoing → Outgoing) :
    (s.modOut x f).block x = { s.block x with out := f (s.block x).out } := by simp [State.modOut_block]

end Sys2Proof.Machine
end

