-- ==== Sys2Proof/Laws/Frames.lean ====
section
/-!
SUPPORT. How changes compose, and what each shared operation may change: reports, single objects, demands for outputs,
lamps, the freeing queue, the read port and the end of an event.
-/

namespace Sys2Proof

open Sys2Proof.Machine

/-! ## The algebra of changes -/

theorem sub_trans {as bs cs : List Aspect} (h : as ⊆ bs) (k : bs ⊆ cs) : as ⊆ cs :=
  fun _ m => k (h m)

theorem same_refl (s : State) (a : Aspect) : same s s a := by
  cases a <;> simp [same]

theorem same_trans {s t u : State} {a : Aspect} (h : same s t a) (k : same t u a) : same s u a := by
  cases a <;> simp only [same] at h k ⊢
  case bell x => rw [k, h]
  case round => rw [k, h]
  case box => rw [k, h]
  case slots => exact fun n => ⟨(k n).1.trans (h n).1, (k n).2.trans (h n).2⟩
  case demands => exact fun n => ⟨(k n).1.trans (h n).1, (k n).2.trans (h n).2⟩
  case removals => exact fun n => (k n).trans (h n)
  case outputDemands => exact fun n => (k n).trans (h n)
  case drives =>
    exact fun n => ⟨(k n).1.trans (h n).1, (k n).2.1.trans (h n).2.1, (k n).2.2.1.trans (h n).2.2.1,
      (k n).2.2.2.trans (h n).2.2.2⟩
  all_goals simp_all

namespace Changes

variable {as bs : List Aspect} {s t u : State}

theorem refl (as : List Aspect) (s : State) : Changes as s s :=
  fun a _ => same_refl s a

theorem mono (h : Changes as s t) (hs : as ⊆ bs) : Changes bs s t :=
  fun a ha => h a fun hm => ha (hs hm)

theorem trans (h : Changes as s t) (k : Changes as t u) : Changes as s u :=
  fun a ha => same_trans (h a ha) (k a ha)

/-- One more change, of fewer aspects. -/
theorem andThen (h : Changes as s t) (k : Changes bs t u) (hs : bs ⊆ as) : Changes as s u :=
  h.trans (k.mono hs)

/-- Two changes together. -/
theorem append (h : Changes as s t) (k : Changes bs t u) : Changes (as ++ bs) s u :=
  (h.mono (by simp)).trans (k.mono (by simp))

end Changes

/-- A change made or not made. -/
theorem changes_ite {as : List Aspect} {s t u : State} {p : Prop} [Decidable p] (h : p → Changes as s t)
    (k : ¬p → Changes as s u) : Changes as s (if p then t else u) := by
  split
  next hp => exact h hp
  next hp => exact k hp

/-- A change for each member of a list. -/
theorem forEach_changes {α : Type} {as : List Aspect} {f : α → State → State} (h : ∀ x s, Changes as s (f x s)) :
    ∀ (xs : List α) (s : State), Changes as s (forEach xs f s)
  | [], s => Changes.refl as s
  | x :: xs, s => (h x s).trans (forEach_changes h xs (f x s))

/-! ## Reports -/

theorem withReports_changes (s : State) (rs : List Source) :
    Changes [.reports] s { s with hlc := { s.hlc with reports := rs } } := by
  intro a ha
  cases a
  case reports => exact absurd (by simp) ha
  all_goals simp [same, State.track, State.lever, State.signal, State.bell, State.block, State.output, State.mode]

theorem postReport_changes (src : Source) (s : State) : Changes [.reports] s (postReport src s) := by
  unfold postReport
  exact changes_ite (fun _ => .refl _ _) fun _ => withReports_changes _ _

theorem postAll_changes (srcs : List Source) (s : State) : Changes [.reports] s (postAll srcs s) :=
  forEach_changes (f := postReport) postReport_changes srcs s

theorem postSections_changes (x : Line) (s : State) : Changes [.reports] s (postSections x s) :=
  (postReport_changes _ _).trans (postReport_changes _ _)

/-! ## Single objects -/

theorem modTrack_changes (tc : Tc) (f : Track → Track) (s : State) : Changes [.track tc] s (s.modTrack tc f) := by
  intro a ha
  cases a
  case track u =>
    have : tc ≠ u := fun e => ha (by simp [e])
    simp [same, State.modTrack_track, this]
  all_goals simp [same]

theorem modLever_changes (l : Lever) (f : LeverRec → LeverRec) (s : State) :
    Changes [.lever l] s (s.modLever l f) := by
  intro a ha
  cases a
  case lever m =>
    have : l ≠ m := fun e => ha (by simp [e])
    simp [same, State.modLever_lever, this]
  all_goals simp [same]

theorem modSignal_changes (n : SigSlot) (f : Signal → Signal) (s : State) :
    Changes [.slots, .demands, .removals] s (s.modSignal n f) := by
  intro a ha
  cases a <;> first | (simp at ha; done) | (simp [same]; done)

/-- A change of a signal's demand and stick alone. -/
theorem modSignal_demands (n : SigSlot) (f : Signal → Signal) (s : State)
    (h : ∀ g, (f g).lever = g.lever ∧ (f g).copy = g.copy ∧ (f g).removal = g.removal) :
    Changes [.demands] s (s.modSignal n f) := by
  intro a ha
  cases a
  case slots =>
    intro m
    by_cases e : n = m <;> simp [State.modSignal_signal, e, h]
  case removals =>
    intro m
    by_cases e : n = m <;> simp [State.modSignal_signal, e, h]
  case demands => exact absurd (by simp) ha
  all_goals simp [same]

/-- A change of a signal's removal cause alone. -/
theorem modSignal_removals (n : SigSlot) (f : Signal → Signal) (s : State)
    (h : ∀ g, (f g).lever = g.lever ∧ (f g).copy = g.copy ∧ (f g).demand = g.demand ∧ (f g).stick = g.stick) :
    Changes [.removals] s (s.modSignal n f) := by
  intro a ha
  cases a
  case slots =>
    intro m
    by_cases e : n = m <;> simp [State.modSignal_signal, e, h]
  case demands =>
    intro m
    by_cases e : n = m <;> simp [State.modSignal_signal, e, h]
  case removals => exact absurd (by simp) ha
  all_goals simp [same]

/-- A change of a signal's record copy alone. -/
theorem modSignal_slots (n : SigSlot) (f : Signal → Signal) (s : State)
    (h : ∀ g, (f g).removal = g.removal ∧ (f g).demand = g.demand ∧ (f g).stick = g.stick) :
    Changes [.slots] s (s.modSignal n f) := by
  intro a ha
  cases a
  case removals =>
    intro m
    by_cases e : n = m <;> simp [State.modSignal_signal, e, h]
  case demands =>
    intro m
    by_cases e : n = m <;> simp [State.modSignal_signal, e, h]
  case slots => exact absurd (by simp) ha
  all_goals simp [same]

theorem modBell_changes (x : Line) (f : BellLine → BellLine) (s : State) :
    Changes [.bell x, .received x] s (s.modBell x f) := by
  intro a ha
  cases a
  case bell y =>
    have : x ≠ y := fun e => ha (by simp [e])
    simp [same, State.modBell_bell, this]
  case received y =>
    have : x ≠ y := fun e => ha (by simp [e])
    simp [same, State.modBell_bell, this]
  all_goals simp [same]

/-- A change of a bell line that leaves its receive queue. -/
theorem modBell_line (x : Line) (f : BellLine → BellLine) (s : State)
    (h : ∀ b, (f b).received = b.received ∧ (f b).discarded = b.discarded ∧ (f b).autoRefused = b.autoRefused) :
    Changes [.bell x] s (s.modBell x f) := by
  intro a ha
  cases a
  case bell y =>
    have : x ≠ y := fun e => ha (by simp [e])
    simp [same, State.modBell_bell, this]
  case received y =>
    by_cases e : x = y <;> simp [same, State.modBell_bell, e, h]
  all_goals simp [same]

/-- A change of a bell line's receive queue alone. -/
theorem modBell_received (x : Line) (f : BellLine → BellLine) (s : State)
    (h : ∀ b, f b = { b with
      received := (f b).received, discarded := (f b).discarded, autoRefused := (f b).autoRefused }) :
    Changes [.received x] s (s.modBell x f) := by
  intro a ha
  cases a
  case received y =>
    have : x ≠ y := fun e => ha (by simp [e])
    simp [same, State.modBell_bell, this]
  case bell y =>
    by_cases e : x = y
    · subst e
      simp only [same, State.modBell_bell_same]
      exact h _
    · simp [same, State.modBell_bell, e]
  all_goals simp [same]

/-- What a change of a line of the BSC may touch. -/
def lineAspects (x : Line) : List Aspect :=
  [.incoming x, .outgoing x, .lineRecords x, .lastCode x, .frozen x, .demandFell x]

theorem modBlock_changes (x : Line) (f : BlockLine → BlockLine) (s : State) :
    Changes (lineAspects x) s (s.modBlock x f) := by
  intro a ha
  cases a
  case incoming y | outgoing y | lineRecords y | lastCode y | frozen y | demandFell y =>
    have : x ≠ y := fun e => ha (by simp [e, lineAspects])
    simp [same, State.modBlock_block, this]
  all_goals simp [same]

/-- A change of a line of the BSC leaves every aspect that `f` leaves. -/
theorem modBlock_only (x : Line) (f : BlockLine → BlockLine) (s : State) (as : List Aspect)
    (h : ∀ a ∈ lineAspects x, a ∈ as ∨ same s (s.modBlock x f) a) : Changes as s (s.modBlock x f) := by
  intro a ha
  by_cases hm : a ∈ lineAspects x
  · exact (h a hm).resolve_left ha
  · exact modBlock_changes x f s a hm

theorem modInc_changes (x : Line) (f : Incoming → Incoming) (s : State) :
    Changes [.incoming x] s (s.modInc x f) := by
  apply modBlock_only
  intro a ha
  simp only [lineAspects, List.mem_cons, List.not_mem_nil, or_false] at ha
  rcases ha with h | h | h | h | h | h <;> subst h <;> simp [same]

theorem modOut_changes (x : Line) (f : Outgoing → Outgoing) (s : State) :
    Changes [.outgoing x] s (s.modOut x f) := by
  apply modBlock_only
  intro a ha
  simp only [lineAspects, List.mem_cons, List.not_mem_nil, or_false] at ha
  rcases ha with h | h | h | h | h | h <;> subst h <;> simp [same]

theorem modOutput_changes (o : Output) (f : OutRec → OutRec) (s : State) :
    Changes [.outputDemands, .drives] s (s.modOutput o f) := by
  intro a ha
  cases a <;> first | (simp at ha; done) | (simp [same]; done) | (simp [same]; rfl)

/-- A change of an output's demand alone. -/
theorem modOutput_demand (o : Output) (d : Demand) (s : State) :
    Changes [.outputDemands] s (s.modOutput o fun r => { r with demand := d }) := by
  intro a ha
  cases a
  case drives =>
    intro p
    by_cases e : o = p <;> simp [State.modOutput_output, e]
  case outputDemands => exact absurd (by simp) ha
  all_goals first | (simp [same]; done) | (simp [same]; rfl)

/-- A change of an output's drive alone. -/
theorem modOutput_drive (o : Output) (f : OutRec → OutRec) (s : State) (h : ∀ r, (f r).demand = r.demand) :
    Changes [.drives] s (s.modOutput o f) := by
  intro a ha
  cases a
  case outputDemands =>
    intro p
    by_cases e : o = p <;> simp [State.modOutput_output, e, h]
  case drives => exact absurd (by simp) ha
  all_goals first | (simp [same]; done) | (simp [same]; rfl)

theorem setDemand_changes (o : Output) (d : Demand) (s : State) :
    Changes [.outputDemands, .reports] s (setDemand o d s) := by
  have h := (modOutput_demand o d s).mono (bs := [.outputDemands, .reports]) (by simp)
  unfold setDemand
  exact changes_ite (fun _ => h) fun _ => h.andThen (postReport_changes _ _) (by simp)

theorem postChangedGroups_changes (before s : State) : Changes [.reports] s (postChangedGroups before s) :=
  forEach_changes (fun _ _ => changes_ite (fun _ => postReport_changes _ _) fun _ => .refl _ _) _ _

end Sys2Proof
end

