-- ==== Sys2Proof/Laws/EndOfEvent.lean ====
section
/-!
SUPPORT. What the end of an event may change: the operations of the indication chain, the freeing queue, the read port and
the signals, and the end of an event itself.
-/

namespace Sys2Proof

open Sys2Proof.Machine

/-! ## The indication chain -/

/-- Two states of the ICC that differ at most in images and frames. -/
def LampsOnly (i j : Icc) : Prop :=
  j.phase = i.phase ∧ j.toggleAt = i.toggleAt ∧ j.refreshAt = i.refreshAt ∧ j.testUntil = i.testUntil ∧
    j.testDone = i.testDone ∧ j.copies = i.copies

theorem LampsOnly.trans {i j k : Icc} (h : LampsOnly i j) (g : LampsOnly j k) : LampsOnly i k :=
  ⟨g.1.trans h.1, g.2.1.trans h.2.1, g.2.2.1.trans h.2.2.1, g.2.2.2.1.trans h.2.2.2.1,
    g.2.2.2.2.1.trans h.2.2.2.2.1, g.2.2.2.2.2.trans h.2.2.2.2.2⟩

theorem LampsOnly.refl (i : Icc) : LampsOnly i i :=
  ⟨rfl, rfl, rfl, rfl, rfl, rfl⟩

theorem withIcc_changes (s : State) (i : Icc) (h : LampsOnly s.icc i) : Changes [.lamps] s { s with icc := i } := by
  obtain ⟨h1, h2, h3, h4, h5, h6⟩ := h
  intro a ha
  cases a <;> first
    | (simp at ha; done)
    | (simp [same, State.track, State.lever, State.signal, State.bell, State.block, State.output, State.mode, *]; done)

theorem nextChain_lampsOnly (now : Nat) (i : Icc) : LampsOnly i (nextChain now i) := by
  unfold nextChain
  split
  · exact .refl i
  split
  · exact ⟨rfl, rfl, rfl, rfl, rfl, rfl⟩
  split
  · exact ⟨rfl, rfl, rfl, rfl, rfl, rfl⟩
  split
  · exact .refl i
  split
  · exact ⟨rfl, rfl, rfl, rfl, rfl, rfl⟩
  · exact .refl i

theorem setLamp_lampsOnly (p : Fin 512) (v : Lamp) (i : Icc) : LampsOnly i (setLamp p v i) := by
  unfold setLamp
  split
  · exact .refl i
  · exact ⟨rfl, rfl, rfl, rfl, rfl, rfl⟩

/-- A fold of changes of images is one. -/
theorem foldl_lampsOnly {α : Type} (f : Icc → α → Icc) (h : ∀ i x, LampsOnly i (f i x)) :
    ∀ (xs : List α) (i : Icc), LampsOnly i (xs.foldl f i)
  | [], i => .refl i
  | x :: xs, i => (h i x).trans (foldl_lampsOnly f h xs (f i x))

theorem relight_lampsOnly (names : List Byte → Bool) (s : State) : LampsOnly s.icc (relight names s) := by
  unfold relight
  apply foldl_lampsOnly
  intro i q
  split
  · exact setLamp_lampsOnly _ _ _
  · exact .refl i

theorem relightAll_lampsOnly (s : State) : LampsOnly s.icc (relightAll s) := by
  unfold relightAll
  apply foldl_lampsOnly
  intro i p
  split
  · exact setLamp_lampsOnly _ _ _
  · exact setLamp_lampsOnly _ _ _

theorem kickChain_changes (s : State) : Changes [.lamps] s (kickChain s) :=
  withIcc_changes s _ (nextChain_lampsOnly _ _)

theorem tellIcc_changes (names : List Byte → Bool) (s : State) : Changes [.lamps] s (tellIcc names s) := by
  unfold tellIcc
  exact changes_ite (fun _ => .refl _ _) fun _ =>
    withIcc_changes s _ ((relight_lampsOnly names s).trans (nextChain_lampsOnly _ _))

/-! ## The freeing queue -/

theorem withFreeing_changes (s : State) (q : List Lever) (e : Option Lever) :
    Changes [.freeing] s { s with lle := { s.lle with queue := q, eval := e } } := by
  intro a ha
  cases a <;> first
    | (simp at ha; done)
    | (simp [same, State.track, State.lever, State.signal, State.bell, State.block, State.output, State.mode]; done)

theorem enqueueLever_changes (l : Lever) (s : State) : Changes [.freeing] s (enqueueLever l s) := by
  unfold enqueueLever
  exact changes_ite (fun _ => .refl _ _) fun _ => withFreeing_changes s _ s.lle.eval

theorem requeue_changes (p : LeverRec → Bool) (s : State) : Changes [.freeing] s (requeue p s) :=
  forEach_changes (fun l s => changes_ite (fun _ => enqueueLever_changes l s) fun _ => .refl _ s) _ s

theorem requeueAll_changes (s : State) : Changes [.freeing] s (requeueAll s) :=
  requeue_changes _ s

theorem requeueLever_changes (l : Lever) (s : State) : Changes [.freeing] s (requeueLever l s) :=
  requeue_changes _ s

theorem requeueTrack_changes (tc : Tc) (s : State) : Changes [.freeing] s (requeueTrack tc s) :=
  requeue_changes _ s

theorem requeueSection_changes (x : Line) (side : Side) (s : State) : Changes [.freeing] s (requeueSection x side s) :=
  requeue_changes _ s

theorem requeueRelease_changes (x : Line) (s : State) : Changes [.freeing] s (requeueRelease x s) :=
  requeue_changes _ s

theorem requeueSignal_changes (l : Lever) (s : State) : Changes [.freeing] s (requeueSignal l s) :=
  requeue_changes _ s

/-! ## The read port -/

theorem withPort_changes (s : State) (p : Port) : Changes [.port] s { s with sst := { s.sst with port := p } } := by
  intro a ha
  cases a <;> first
    | (simp at ha; done)
    | (simp [same, State.track, State.lever, State.signal, State.bell, State.block, State.output, State.mode]; done)

theorem serveNext_changes (s : State) : Changes [.port] s (serveNext s) := by
  unfold serveNext
  split
  · exact .refl _ s
  split
  · exact .refl _ s
  split
  · exact withPort_changes s _
  split
  · exact .refl _ s
  · exact withPort_changes s _

theorem askRead_changes (u : ReadUse) (s : State) : Changes [.port] s (askRead u s) :=
  (withPort_changes s _).trans (serveNext_changes _)

theorem freePort_changes (s : State) : Changes [.port] s (freePort s) :=
  (withPort_changes s _).trans (serveNext_changes _)

theorem startEvaluation_changes (s : State) : Changes [.freeing, .port] s (startEvaluation s) := by
  unfold startEvaluation
  split
  · exact .refl _ s
  split
  · exact .refl _ s
  · exact ((withFreeing_changes s _ _).mono (by simp)).andThen (askRead_changes _ _) (by simp)

/-! ## Demands -/

theorem dropDemand_changes (n : SigSlot) (s : State) : Changes [.demands] s (dropDemand n s) :=
  modSignal_demands n _ s fun _ => ⟨rfl, rfl, rfl⟩

theorem raiseDemand_changes (n : SigSlot) (s : State) : Changes [.demands] s (raiseDemand n s) :=
  modSignal_demands n _ s fun _ => ⟨rfl, rfl, rfl⟩

theorem settleFalls_changes : ∀ (k : Nat) (s : State), Changes [.demands] s (settleFalls k s)
  | 0, s => .refl _ s
  | k + 1, s => by
    unfold settleFalls
    split
    · exact .refl _ s
    · exact (dropDemand_changes _ s).trans (settleFalls_changes k _)

theorem settleRises_changes : ∀ (k : Nat) (s : State), Changes [.demands] s (settleRises k s)
  | 0, s => .refl _ s
  | k + 1, s => by
    unfold settleRises
    split
    · exact .refl _ s
    · exact (raiseDemand_changes _ s).trans (settleRises_changes k _)

theorem settleDemands_changes (s : State) : Changes [.demands] s (settleDemands s) :=
  (settleFalls_changes 24 s).trans (settleRises_changes 24 _)

/-- The three lines' tick of the last fall. -/
def fellAspects : List Aspect :=
  [.demandFell .a, .demandFell .b, .demandFell .c]

theorem mem_fellAspects (x : Line) : Aspect.demandFell x ∈ fellAspects := by
  cases x <;> simp [fellAspects]

theorem markDemandFell_changes (l : Lever) (s : State) : Changes fellAspects s (markDemandFell l s) := by
  apply forEach_changes
  intro x s
  split
  · exact .refl _ s
  · refine changes_ite (fun _ => ?_) fun _ => .refl _ s
    apply modBlock_only
    intro a ha
    simp only [lineAspects, List.mem_cons, List.not_mem_nil, or_false] at ha
    rcases ha with h | h | h | h | h | h <;> subst h <;> first | (right; simp [same]; done) | exact .inl (mem_fellAspects x)

/-- What telling a changed demand may change. -/
def demandTold : List Aspect :=
  [.outputDemands, .reports, .freeing, .lamps] ++ fellAspects

theorem tellDemand_changes (n : SigSlot) (s : State) : Changes demandTold s (tellDemand n s) := by
  unfold tellDemand
  have h : Changes demandTold s _ := (setDemand_changes (aspectOutput n) (if (s.signal n).demand then .on else .off) s).mono (by decide)
  simp only []
  split
  · exact h.andThen (postReport_changes _ _) (by decide)
  next l _ =>
    refine ((h.andThen (requeueSignal_changes l _) (by decide)).trans ?_).andThen (postReport_changes _ _) (by decide)
    refine Changes.andThen ?_ (tellIcc_changes _ _) (by decide)
    exact changes_ite (fun _ => .refl _ _) fun _ => (markDemandFell_changes _ _).mono (by decide)

/-- What recomputing the demands may change. -/
def recomputed : List Aspect :=
  .demands :: demandTold

theorem recompute_changes (s : State) : Changes recomputed s (recompute s) :=
  ((settleDemands_changes s).mono (by decide)).trans
    (forEach_changes (fun n _ => changes_ite (fun _ => .refl _ _) fun _ => (tellDemand_changes n _).mono (by decide)) _ _)

/-! ## The transmitter -/

theorem withReplies_changes (s : State) (rs : List Frame) (w : Option WireFrame) :
    Changes [.replies] s { s with hlc := { s.hlc with replies := rs, wire := w } } := by
  intro a ha
  cases a <;> first
    | (simp at ha; done)
    | (simp [same, State.track, State.lever, State.signal, State.bell, State.block, State.output, State.mode]; done)

theorem sendFrame_changes (f : Frame) (s : State) : Changes [.replies] s (sendFrame f s) :=
  withReplies_changes s s.hlc.replies _

/-- What sending a report may change. -/
def reportSent : List Aspect :=
  [.reports, .replies, .received .a, .received .b, .received .c, .overrun, .testDone]

theorem withOverrun_changes (s : State) (b : Bool) : Changes [.overrun] s { s with sst := { s.sst with overrun := b } } := by
  intro a ha
  cases a <;> first
    | (simp at ha; done)
    | (simp [same, State.track, State.lever, State.signal, State.bell, State.block, State.output, State.mode]; done)

theorem withTestDone_changes (s : State) (b : Bool) :
    Changes [.testDone] s { s with icc := { s.icc with testDone := b } } := by
  intro a ha
  cases a <;> first
    | (simp at ha; done)
    | (simp [same, State.track, State.lever, State.signal, State.bell, State.block, State.output, State.mode]; done)

theorem reportTaken_changes (src : Source) (s : State) : Changes reportSent s (reportTaken src s) := by
  cases src
  case bell x =>
    have h : Changes reportSent s (s.modBell x fun b =>
        { b with received := b.received.drop 1, discarded := false, autoRefused := false }) :=
      (modBell_received x _ s fun _ => rfl).mono (by cases x <;> decide)
    exact changes_ite (fun _ => h) fun _ => h.andThen (postReport_changes _ _) (by decide)
  case store => exact (withOverrun_changes s false).mono (by decide)
  case indication => exact (withTestDone_changes s false).mono (by decide)
  all_goals exact .refl _ s

theorem sendReport_changes (src : Source) (rest : List Source) (s : State) :
    Changes reportSent s (sendReport src rest s) :=
  (((withReports_changes s rest).mono (by decide)).andThen (sendFrame_changes _ _) (by decide)).trans
    (reportTaken_changes src _)

theorem takeFrame_changes (s : State) : Changes reportSent s (takeFrame s) := by
  unfold takeFrame
  refine changes_ite (fun _ => ?_) fun _ => .refl _ s
  split
  · exact ((withReplies_changes s _ s.hlc.wire).trans (sendFrame_changes _ _)).mono (by decide)
  · refine changes_ite (fun _ => .refl _ s) fun _ => ?_
    split
    · exact sendReport_changes _ _ s
    · exact .refl _ s

/-- The end of an event changes no more than `endOfEvent` lists. -/
theorem finish_changes (s : State) : Changes endOfEvent s (finish s) :=
  (((recompute_changes s).mono (by decide)).andThen (startEvaluation_changes _) (by decide)).andThen
    (takeFrame_changes _) (by decide)

/-- The outcome of an event that can occur. -/
theorem event_of {can : Bool} {s : State} {f : State → State} (h : can = true) :
    event can s f = .next (finish (f s)) := by
  simp [event, h]

/-- The outcome of an event that cannot occur. -/
theorem event_not {can : Bool} {s : State} {f : State → State} (h : can = false) : event can s f = .next s := by
  simp [event, h]

end Sys2Proof
end

