-- ==== Sys2Proof/Laws/Tellings.lean ====
section
/-!
SUPPORT. What the operations of the signals, the bells, the sections, the track circuits and the levers may change.
-/

namespace Sys2Proof

open Sys2Proof.Machine

/-! ## Signals and route locks -/

theorem withLocks_changes (s : State) (ls : List RouteLock) :
    Changes [.locks] s { s with src := { s.src with locks := ls } } := by
  intro a ha
  cases a <;> first
    | (simp at ha; done)
    | (simp [same, State.track, State.lever, State.signal, State.bell, State.block, State.output, State.mode]; done)

theorem setStick_changes (n : SigSlot) (s : State) : Changes [.demands, .reports] s (setStick n s) := by
  unfold setStick
  have h := (modSignal_demands n (fun g => { g with stick := true }) s fun _ => ⟨rfl, rfl, rfl⟩).mono
    (bs := [.demands, .reports]) (by decide)
  exact changes_ite (fun _ => .refl _ s) fun _ => h.andThen (postReport_changes _ _) (by decide)

theorem setSticks_changes (p : SigSlot → Bool) (s : State) : Changes [.demands, .reports] s (setSticks p s) :=
  forEach_changes (fun n s => changes_ite (fun _ => setStick_changes n s) fun _ => .refl _ s) _ s

theorem aspectNoCurrent_changes (n : SigSlot) (s : State) : Changes [.demands, .reports] s (aspectNoCurrent n s) := by
  unfold aspectNoCurrent
  exact changes_ite (fun _ => setStick_changes n s) fun _ => .refl _ s

theorem emergency_changes (x : Line) (s : State) : Changes [.demands, .reports] s (emergency x s) :=
  setSticks_changes _ s

theorem stickOfLever_changes (l : Lever) (s : State) : Changes [.demands, .reports] s (stickOfLever l s) := by
  unfold stickOfLever
  split
  · exact .refl _ s
  · exact changes_ite (fun _ => setStick_changes _ s) fun _ => .refl _ s

theorem tellEntry_changes (l : Lever) (s : State) : Changes [.lamps, .reports] s (tellEntry l s) := by
  unfold tellEntry
  have h := (tellIcc_changes (namesSource .routeLock (leverNumber l)) s).mono (bs := [.lamps, .reports]) (by decide)
  simp only []
  split
  · exact h
  · exact h.andThen (postReport_changes _ _) (by decide)

/-- What the removal of a route lock entry may change. -/
def entryRemoved : List Aspect :=
  [.locks, .removals, .freeing, .lamps, .reports]

theorem removeEntry_changes (why : RemovalCause) (l : Lever) (s : State) :
    Changes entryRemoved s (removeEntry why l s) := by
  unfold removeEntry
  simp only []
  refine Changes.andThen ?_ (tellEntry_changes l _) (by decide)
  refine Changes.andThen ?_ (requeueAll_changes _) (by decide)
  have h := (withLocks_changes s (s.src.locks.filter fun e => e.lever ≠ l)).mono (bs := entryRemoved) (by decide)
  split
  · exact h
  · exact h.andThen (modSignal_removals _ _ _ fun _ => ⟨rfl, rfl, rfl, rfl⟩) (by decide)

theorem modEntry_changes (l : Lever) (f : RouteLock → RouteLock) (s : State) : Changes [.locks] s (modEntry l f s) :=
  withLocks_changes s _

theorem freedFromReverse_changes (l : Lever) (s : State) :
    Changes [.locks, .lamps, .reports] s (freedFromReverse l s) := by
  unfold freedFromReverse
  split
  · exact .refl _ s
  · exact changes_ite (fun _ => ((withLocks_changes s _).mono (by decide)).andThen (tellEntry_changes l _) (by decide))
      fun _ => .refl _ s

theorem srcTrack_changes (tc : Tc) (occupied : Bool) (s : State) : Changes entryRemoved s (srcTrack tc occupied s) := by
  apply forEach_changes
  intro e s
  refine changes_ite (fun _ => .refl _ s) fun _ => changes_ite (fun _ => ?_) fun _ => ?_
  · exact changes_ite (fun _ => .refl _ s) fun _ =>
      ((modEntry_changes _ _ s).mono (by decide)).andThen (tellEntry_changes _ _) (by decide)
  · exact changes_ite (fun _ => removeEntry_changes _ _ s) fun _ => .refl _ s

theorem srcLever_changes (l : Lever) (s : State) : Changes (.demands :: entryRemoved) s (srcLever l s) := by
  unfold srcLever
  split
  · exact .refl _ s
  next n _ =>
    have h := (modSignal_demands n (fun g => { g with stick := false }) s fun _ => ⟨rfl, rfl, rfl⟩).mono
      (bs := .demands :: entryRemoved) (by decide)
    refine changes_ite (fun _ => changes_ite (fun _ => ?_) fun _ => .refl _ s) fun _ => ?_
    · exact h.andThen (postReport_changes _ _) (by decide)
    · exact changes_ite (fun _ => (removeEntry_changes _ _ s).mono (by decide)) fun _ => .refl _ s

theorem srcDegraded_changes (s : State) : Changes [.locks, .lamps, .reports] s (srcDegraded s) := by
  apply forEach_changes
  intro e s
  split
  · exact .refl _ s
  · exact ((modEntry_changes _ _ s).mono (by decide)).andThen (tellEntry_changes _ _) (by decide)

theorem postRouteLocks_changes (s : State) : Changes [.reports] s (postRouteLocks s) :=
  postAll_changes _ s

theorem srcRecord_changes (l : Lever) (s : State) : Changes [.slots, .reports] s (srcRecord l s) := by
  unfold srcRecord
  split
  · exact .refl _ s
  next n _ =>
    have h := (modSignal_slots n (fun g => { g with copy := slotCopy s (leverSlot l) }) s
      fun _ => ⟨rfl, rfl, rfl⟩).mono (bs := [.slots, .reports]) (by decide)
    exact changes_ite (fun _ => h) fun _ => h.andThen (postReport_changes _ _) (by decide)

/-! ## Bells -/

/-- One line's bells, whole. -/
def bellAspects (x : Line) : List Aspect :=
  [.bell x, .received x, .reports]

theorem appendEntering_changes (x : Line) (s : State) : Changes (bellAspects x) s (appendEntering x s) :=
  ((modBell_changes x _ s).mono (by simp [bellAspects])).andThen (postReport_changes _ _) (by simp [bellAspects])

/-! ## Sections -/

theorem tellIncoming_changes (x : Line) (s : State) :
    Changes [.freeing, .outputDemands, .reports] s (tellIncoming x s) :=
  ((setDemand_changes _ _ s).mono (by decide)).andThen (requeueSection_changes _ _ _) (by decide)

/-- What follows the change of an incoming record itself. -/
theorem changeInc_told (x : Line) (f : Incoming → Incoming) (s : State) :
    Changes [.freeing, .outputDemands, .lamps, .reports] (s.modInc x f) (changeInc x f s) := by
  unfold changeInc
  refine changes_ite (fun _ => .refl _ _) fun _ => ?_
  refine Changes.andThen ?_ (postReport_changes _ _) (by decide)
  refine Changes.andThen ?_ (tellIcc_changes _ _) (by decide)
  exact changes_ite (fun _ => .refl _ _) fun _ => (tellIncoming_changes x _).mono (by decide)

/-- What follows the change of an outgoing record itself. -/
theorem changeOut_told (x : Line) (f : Outgoing → Outgoing) (s : State) :
    Changes [.freeing, .lamps, .reports] (s.modOut x f) (changeOut x f s) := by
  unfold changeOut
  refine changes_ite (fun _ => .refl _ _) fun _ => ?_
  refine Changes.andThen ?_ (postReport_changes _ _) (by decide)
  refine Changes.andThen ?_ (tellIcc_changes _ _) (by decide)
  have h1 := changes_ite (as := [.freeing, .lamps, .reports]) (t := s.modOut x f)
    (u := requeueSection x .outgoing (s.modOut x f))
    (p := (f (s.block x).out).sensed = (s.block x).out.sensed) (fun _ => .refl _ _)
    fun _ => (requeueSection_changes x .outgoing _).mono (by decide)
  have h2 := changes_ite (p := (f (s.block x).out).release = (s.block x).out.release) (fun _ => h1)
    fun _ => h1.andThen (requeueRelease_changes x _) (by decide)
  exact changes_ite (fun _ => h2) fun _ => h2.andThen (postReport_changes _ _) (by decide)

theorem changeInc_changes (x : Line) (f : Incoming → Incoming) (s : State) :
    Changes (incomingTold x) s (changeInc x f s) :=
  ((modInc_changes x f s).mono (by simp [incomingTold])).andThen (changeInc_told x f s) (by simp [incomingTold])

theorem changeOut_changes (x : Line) (f : Outgoing → Outgoing) (s : State) :
    Changes (outgoingTold x) s (changeOut x f s) :=
  ((modOut_changes x f s).mono (by simp [outgoingTold])).andThen (changeOut_told x f s) (by simp [outgoingTold])

/-- The incoming record after its change. -/
theorem changeInc_inc (x : Line) (f : Incoming → Incoming) (s : State) :
    ((changeInc x f s).block x).inc = f (s.block x).inc :=
  (changeInc_told x f s (.incoming x) (by simp)).trans (by simp)

/-- The outgoing record after its change. -/
theorem changeOut_out (x : Line) (f : Outgoing → Outgoing) (s : State) :
    ((changeOut x f s).block x).out = f (s.block x).out :=
  (changeOut_told x f s (.outgoing x) (by simp)).trans (by simp)

theorem noteCode_changes (x : Line) (name : Option BellCode) (act : CodeAction) (s : State) :
    Changes [.lastCode x, .reports] s (noteCode x name act s) := by
  unfold noteCode
  refine Changes.andThen ?_ (postSections_changes x _) (by simp)
  apply modBlock_only
  intro a ha
  simp only [lineAspects, List.mem_cons, List.not_mem_nil, or_false] at ha
  rcases ha with h | h | h | h | h | h <;> subst h <;> simp [same]

/-- What a code received or sent on a line may change before it is noted. -/
def codeTold (x : Line) : List Aspect :=
  [.incoming x, .outgoing x, .freeing, .outputDemands, .lamps, .reports, .demands]

theorem incomingTold_sub (x : Line) : incomingTold x ⊆ codeTold x := by simp [incomingTold, codeTold]

theorem outgoingTold_sub (x : Line) : outgoingTold x ⊆ codeTold x := by simp [outgoingTold, codeTold]

theorem offerReceived_changes (x : Line) (c : BellCode) (s : State) : Changes (codeTold x) s (offerReceived x c s).1 := by
  unfold offerReceived
  simp only []
  split
  · split
    · exact (changeInc_changes x _ s).mono (incomingTold_sub x)
    · exact .refl _ s
  · split
    · split
      · exact (changeInc_changes x _ s).mono (incomingTold_sub x)
      · exact .refl _ s
    split
    · exact .refl _ s
    · exact (changeOut_changes x _ s).mono (outgoingTold_sub x)

theorem cancelReceived_changes (x : Line) (s : State) : Changes (codeTold x) s (cancelReceived x s).1 := by
  unfold cancelReceived
  simp only []
  split
  · exact (changeInc_changes x _ s).mono (incomingTold_sub x)
  split
  · exact (changeInc_changes x _ s).mono (incomingTold_sub x)
  split
  · exact (changeOut_changes x _ s).mono (outgoingTold_sub x)
  · exact .refl _ s

theorem codeReceived_changes (x : Line) (c : BellCode) (s : State) : Changes (codeTold x) s (codeReceived x c s).1 := by
  unfold codeReceived
  split
  · exact offerReceived_changes x c s
  split
  · exact cancelReceived_changes x s
  split
  · exact (emergency_changes x s).mono (by simp [codeTold])
  · exact .refl _ s

/-- What a code handed to a section may change. -/
def codeNoted (x : Line) : List Aspect :=
  .lastCode x :: codeTold x

theorem handCode_changes (x : Line) (r : CodeRecord) (s : State) : Changes (codeNoted x) s (handCode x r s) := by
  unfold handCode
  refine Changes.andThen ?_ (noteCode_changes x _ _ _) (by simp [codeNoted, codeTold])
  split
  · exact .refl _ s
  split
  · exact .refl _ s
  · exact (codeReceived_changes x _ s).mono (by simp [codeNoted])

theorem sentEffect_changes (x : Line) (c : BellCode) (s : State) : Changes (codeTold x) s (sentEffect x c s).1 := by
  unfold sentEffect
  split
  · split
    · exact (changeOut_changes x _ s).mono (outgoingTold_sub x)
    · split
      · exact (changeInc_changes x _ s).mono (incomingTold_sub x)
      · exact (changeOut_changes x _ s).mono (outgoingTold_sub x)
  split
  · exact (changeOut_changes x _ s).mono (outgoingTold_sub x)
  · exact .refl _ s

theorem codeSent_changes (x : Line) (c : BellCode) (s : State) : Changes (codeNoted x) s (codeSent x c s) := by
  unfold codeSent
  refine Changes.andThen ?_ (noteCode_changes x _ _ _) (by simp [codeNoted, codeTold])
  split
  · exact .refl _ s
  · exact (sentEffect_changes x c s).mono (by simp [codeNoted])

/-! ## The track circuits told -/

/-- What the sections may change on a telling of a track circuit. -/
def trackTold (x : Line) : List Aspect :=
  [.incoming x, .outgoing x, .bell x, .received x, .freeing, .outputDemands, .lamps, .reports, .demands]

theorem entryOccupied_changes (x : Line) (bs : List Byte) (s : State) :
    Changes (trackTold x) s (entryOccupied x bs s) := by
  unfold entryOccupied
  have h := (changeInc_changes x entryOccupiedRecord s).mono (bs := trackTold x) (by simp [incomingTold, trackTold])
  simp only []
  split
  · split
    · exact h
    · exact h.andThen (stickOfLever_changes _ _) (by simp [trackTold])
  · exact h

theorem exitOccupied_changes (x : Line) (bs : List Byte) (s : State) :
    Changes (trackTold x) s (exitOccupied x bs s) := by
  unfold exitOccupied
  have h := (changeOut_changes x (loseRelease .releaseTaken) s).mono (bs := trackTold x) (by simp [outgoingTold, trackTold])
  split
  · simp only []
    split
    · exact h.andThen (appendEntering_changes x _) (by simp [bellAspects, trackTold])
    · exact h
  · exact .refl _ s

/-- The three lines together. -/
def linesTold : List Aspect :=
  trackTold .a ++ trackTold .b ++ trackTold .c

theorem trackTold_sub (x : Line) : trackTold x ⊆ linesTold := by
  cases x <;> decide

theorem changeInc_linesTold (x : Line) (f : Incoming → Incoming) (s : State) : Changes linesTold s (changeInc x f s) :=
  (changeInc_changes x f s).mono (sub_trans (by simp [incomingTold, trackTold]) (trackTold_sub x))

theorem bscTrack_changes (tc : Tc) (occupied : Bool) (s : State) : Changes linesTold s (bscTrack tc occupied s) := by
  apply forEach_changes
  intro x s
  split
  · exact .refl _ s
  next bs _ =>
    have inc : ∀ f t, Changes linesTold t (changeInc x f t) := changeInc_linesTold x
    have h1 : ∀ t, Changes linesTold t (entryOccupied x bs t) := fun t => (entryOccupied_changes x bs t).mono (trackTold_sub x)
    have h2 : ∀ t, Changes linesTold t (berthOccupied x bs t) := fun t => inc _ t
    have h3 : ∀ t, Changes linesTold t (exitOccupied x bs t) := fun t => (exitOccupied_changes x bs t).mono (trackTold_sub x)
    split
    · have k1 := changes_ite (p := entryTc bs = some tc) (fun _ => h1 s) fun _ => Changes.refl linesTold s
      have k2 := changes_ite (p := berthTc bs = some tc) (fun _ => k1.trans (h2 _)) fun _ => k1
      exact changes_ite (fun _ => k2.trans (h3 _)) fun _ => k2
    · exact changes_ite (fun _ => inc _ s) fun _ => .refl _ s

theorem bscLever_changes (l : Lever) (s : State) : Changes linesTold s (bscLever l s) := by
  apply forEach_changes
  intro x s
  split
  · exact .refl _ s
  · refine changes_ite (fun _ => ?_) fun _ => .refl _ s
    exact changeInc_linesTold x _ s

/-! ## Tellings of track circuits and levers -/

theorem tellTrack_changes (tc : Tc) (occupied : Bool) (s : State) : Changes tellings s (tellTrack tc occupied s) := by
  unfold tellTrack
  refine Changes.andThen ?_ (postReport_changes _ _) (by decide)
  refine Changes.andThen ?_ (tellIcc_changes _ _) (by decide)
  refine Changes.andThen ?_ (bscTrack_changes _ _ _) (by decide)
  refine Changes.andThen ?_ (srcTrack_changes _ _ _) (by decide)
  exact (requeueTrack_changes tc s).mono (by decide)

theorem tellLever_changes (l : Lever) (s : State) : Changes tellings s (tellLever l s) := by
  unfold tellLever
  refine Changes.andThen ?_ (postReport_changes _ _) (by decide)
  refine Changes.andThen ?_ (tellIcc_changes _ _) (by decide)
  refine Changes.andThen ?_ (bscLever_changes _ _) (by decide)
  refine Changes.andThen ?_ (srcLever_changes _ _) (by decide)
  exact (requeueLever_changes l s).mono (by decide)

/-! ## Track circuits -/

/-- A circuit's own record with everything told of it. -/
def trackEvent (tc : Tc) : List Aspect :=
  .track tc :: tellings

theorem tellings_sub (tc : Tc) : tellings ⊆ trackEvent tc := fun _ h => .tail _ h

theorem mem_trackEvent (tc : Tc) : [Aspect.track tc] ⊆ trackEvent tc := by simp [trackEvent]

theorem lampsReports_sub : [Aspect.lamps] ⊆ tellings ∧ [Aspect.reports] ⊆ tellings := by decide

theorem occupy_changes (tc : Tc) (why : OccReason) (s : State) : Changes (trackEvent tc) s (occupy tc why s) := by
  unfold occupy
  have h := (modTrack_changes tc (occupiedRecord s.now why) s).mono (mem_trackEvent tc)
  have icc := sub_trans lampsReports_sub.1 (tellings_sub tc)
  have rep := sub_trans lampsReports_sub.2 (tellings_sub tc)
  refine changes_ite (fun _ => h.andThen (tellTrack_changes _ _ _) (tellings_sub tc)) fun _ => ?_
  refine changes_ite (fun _ => (h.andThen (tellIcc_changes _ _) icc).andThen (postReport_changes _ _) rep) fun _ => ?_
  exact changes_ite (fun _ => h.andThen (postReport_changes _ _) rep) fun _ => h

theorem goodWhileOccupied_changes (tc : Tc) (s : State) : Changes (trackEvent tc) s (goodWhileOccupied tc s) := by
  unfold goodWhileOccupied
  have rep := sub_trans lampsReports_sub.2 (tellings_sub tc)
  have h := (modTrack_changes tc (fun t => { t with good := min 30 ((s.track tc).good + 1) }) s).mono (mem_trackEvent tc)
  refine changes_ite (fun _ => ?_) fun _ => changes_ite (fun _ => h) fun _ => h.andThen (postReport_changes _ _) rep
  exact (h.andThen (modTrack_changes tc _ _) (mem_trackEvent tc)).andThen (tellTrack_changes _ _ _) (tellings_sub tc)

theorem takeClass_changes (tc : Tc) (c : PulseClass) (s : State) : Changes (trackEvent tc) s (takeClass tc c s) := by
  have rep := sub_trans lampsReports_sub.2 (tellings_sub tc)
  cases c
  case good =>
    exact changes_ite (fun _ => (modTrack_changes tc _ s).mono (mem_trackEvent tc)) fun _ =>
      goodWhileOccupied_changes tc s
  case bad =>
    have h := (modTrack_changes tc (fun t => { t with good := 0 }) s).mono (mem_trackEvent tc)
    exact changes_ite (fun _ => h) fun _ => h.andThen (postReport_changes _ _) rep
  case cross => exact occupy_changes tc _ s
  case none => exact .refl _ s

theorem closeMeasurement_changes (tc : Tc) (m : Measurement) (s : State) :
    Changes (trackEvent tc) s (closeMeasurement tc m s) :=
  ((modTrack_changes tc _ s).mono (mem_trackEvent tc)).trans (takeClass_changes _ _ _)

theorem withLeads_changes (s : State) (l : Leads) : Changes [.leads] s { s with leads := l } := by
  intro a ha
  cases a <;> first
    | (simp at ha; done)
    | (simp [same, State.track, State.lever, State.signal, State.bell, State.block, State.output, State.mode]; done)

theorem acceptTrack_changes (tc : Tc) (v : Bool) (s : State) :
    Changes [.track tc, .leads] s (acceptTrack tc v s) :=
  ((modTrack_changes tc _ s).mono (by simp)).andThen (withLeads_changes _ _) (by simp)

/-! ## Levers -/

/-- A lever's own record with everything told of it. -/
def leverTold (l : Lever) : List Aspect :=
  .lever l :: tellings

theorem tellings_subLever (l : Lever) : tellings ⊆ leverTold l := fun _ h => .tail _ h

theorem mem_leverTold (l : Lever) : [Aspect.lever l] ⊆ leverTold l := by simp [leverTold]

theorem modLever_told (l : Lever) (f : LeverRec → LeverRec) (s : State) : Changes (leverTold l) s (s.modLever l f) :=
  (modLever_changes l f s).mono (mem_leverTold l)

theorem reports_subLever (l : Lever) : [Aspect.reports] ⊆ leverTold l :=
  sub_trans lampsReports_sub.2 (tellings_subLever l)

theorem abandonEvaluation_changes (l : Lever) (s : State) : Changes [.freeing, .port] s (abandonEvaluation l s) := by
  unfold abandonEvaluation
  refine changes_ite (fun _ => ?_) fun _ => .refl _ s
  exact ((withFreeing_changes s s.lle.queue none).mono (by decide)).andThen (withPort_changes _ _) (by decide)

theorem leaveQueue_changes (l : Lever) (s : State) : Changes [.freeing, .port] s (leaveQueue l s) :=
  ((withFreeing_changes s _ s.lle.eval).mono (by decide)).trans (abandonEvaluation_changes l _)

theorem setLock_changes (l : Lever) (on : Bool) (s : State) : Changes [.outputDemands, .reports] s (setLock l on s) :=
  setDemand_changes _ _ s

theorem enterFault_changes (l : Lever) (why : FaultCause) (s : State) : Changes (leverTold l) s (enterFault l why s) := by
  unfold enterFault
  refine Changes.andThen ?_ (tellLever_changes l _) (tellings_subLever l)
  refine Changes.andThen ?_ (setLock_changes l _ _) (sub_trans (by decide) (tellings_subLever l))
  refine Changes.andThen ?_ (leaveQueue_changes l _) (sub_trans (by decide) (tellings_subLever l))
  exact modLever_told l _ s

theorem settle_changes (l : Lever) (why : LeverEvent) (s : State) : Changes (leverTold l) s (settle l why s) := by
  unfold settle
  refine Changes.andThen ?_ (tellLever_changes l _) (tellings_subLever l)
  refine Changes.andThen ?_ (setLock_changes l _ _) (sub_trans (by decide) (tellings_subLever l))
  exact modLever_told l _ s

theorem withdrawFreeing_changes (l : Lever) (s : State) : Changes (leverTold l) s (withdrawFreeing l s) := by
  unfold withdrawFreeing
  simp only []
  split
  · exact settle_changes l _ s
  · refine changes_ite (fun _ => ?_) fun _ => .refl _ s
    exact ((modLever_told l _ s).andThen (setLock_changes l _ _) (sub_trans (by decide) (tellings_subLever l))).andThen
      (postReport_changes _ _) (reports_subLever l)
  all_goals exact .refl _ s

theorem lockNoCurrent_changes (l : Lever) (s : State) : Changes (leverTold l) s (lockNoCurrent l s) := by
  unfold lockNoCurrent
  simp only []
  split
  · exact changes_ite (fun _ => enterFault_changes l _ s) fun _ => settle_changes l _ s
  · exact (modLever_told l _ s).andThen (postReport_changes _ _) (reports_subLever l)
  all_goals exact .refl _ s

theorem departLever_changes (l : Lever) (s : State) : Changes (leverTold l) s (departLever l s) :=
  (modLever_told l _ s).andThen (tellLever_changes l _) (tellings_subLever l)

theorem arriveLever_changes (l : Lever) (e : LeverEnd) (s : State) : Changes (leverTold l) s (arriveLever l e s) := by
  unfold arriveLever
  simp only []
  split
  · exact enterFault_changes l _ s
  split
  · exact settle_changes l _ s
  · exact (modLever_told l _ s).andThen (tellLever_changes l _) (tellings_subLever l)

theorem judgeContacts_changes (l : Lever) (s : State) : Changes (leverTold l) s (judgeContacts l s) := by
  have rest : ∀ e, Changes (leverTold l) s (judgeAtRest l e s) := fun e => by
    unfold judgeAtRest
    simp only []
    split
    · exact enterFault_changes l _ s
    split
    · exact .refl _ s
    · exact enterFault_changes l _ s
  unfold judgeContacts
  split
  · exact rest .n
  · exact rest .r
  · unfold judgeFreed
    simp only []
    split
    · exact enterFault_changes l _ s
    split
    · exact departLever_changes l s
    · split
      · exact .refl _ s
      · exact (departLever_changes l s).trans (arriveLever_changes l _ _)
  · unfold judgeTransit
    simp only []
    split
    · exact enterFault_changes l _ s
    split
    · exact .refl _ s
    · exact arriveLever_changes l _ s
  all_goals exact .refl _ s

theorem gripCatch_changes (l : Lever) (s : State) : Changes [.freeing] s (gripCatch l s) := by
  unfold gripCatch
  split <;> first | exact enqueueLever_changes l s | exact .refl _ s

theorem releaseCatch_changes (l : Lever) (s : State) : Changes (leverTold l) s (releaseCatch l s) := by
  have rest : Changes (leverTold l) s (leaveQueue l (s.modLever l notWaiting)) :=
    (modLever_told l _ s).andThen (leaveQueue_changes l _) (sub_trans (by decide) (tellings_subLever l))
  unfold releaseCatch
  split
  · exact rest
  · exact rest
  · exact settle_changes l _ s
  all_goals exact .refl _ s

theorem acceptLever_changes (l : Lever) (n r g : Bool) (s : State) :
    Changes [.lever l, .leads] s (acceptLever l n r g s) :=
  ((modLever_changes l _ s).mono (by simp)).andThen (withLeads_changes _ _) (by simp)

theorem grant_changes (l : Lever) (e : LeverEnd) (s : State) : Changes (leverTold l) s (grant l e s) := by
  unfold grant
  simp only []
  refine Changes.andThen ?_ (tellLever_changes l _) (tellings_subLever l)
  refine Changes.andThen ?_ (setLock_changes l _ _) (sub_trans (by decide) (tellings_subLever l))
  refine Changes.trans ?_ (modLever_told l _ _)
  exact changes_ite (fun _ => (freedFromReverse_changes l s).mono (sub_trans (by decide) (tellings_subLever l)))
    fun _ => .refl _ s

theorem refuse_changes (l : Lever) (why : Withheld) (failing : Option (Nat × Term)) (holder : Option Lever)
    (s : State) : Changes [.lever l, .reports] s (refuse l why failing holder s) :=
  ((modLever_changes l _ s).mono (by simp)).andThen (postReport_changes _ _) (by simp)

theorem acknowledge_changes (l : Lever) (e : LeverEnd) (s : State) : Changes (leverTold l) s (acknowledge l e s) :=
  (modLever_told l _ s).andThen (tellLever_changes l _) (tellings_subLever l)

end Sys2Proof
end

