-- ==== Sys2Proof/Laws/Link.lean ====
section
/-!
SUPPORT. What the transmitter does at the end of an event: a reply placed goes out or waits, a posted source is reported or
waits; and how a served request is answered.
-/

namespace Sys2Proof

open Sys2Proof.Machine

/-! ## Reading a change -/

theorem Changes.get {as : List Aspect} {s t : State} (h : Changes as s t) (a : Aspect) (ha : a ∉ as) : same s t a :=
  h a ha

/-! ## The transmitter -/

/-- What comes before the transmitter at the end of an event. -/
theorem beforeFrame_changes (s : State) :
    Changes (recomputed ++ [.port]) s (startEvaluation (recompute s)) :=
  ((recompute_changes s).mono (by simp)).andThen (startEvaluation_changes _) (by decide)

theorem lineFree_of {as : List Aspect} {s t : State} (h : Changes as s t) (h1 : .replies ∉ as) (h2 : .restart ∉ as) :
    lineFree t = lineFree s := by
  have hw := (h .replies h1).2
  have hr := (h .restart h2).2
  simp [lineFree, hw, hr]

/-- A free transmitter takes the oldest reply. -/
theorem takeFrame_reply {s : State} {r : Frame} {rest : List Frame} (hf : lineFree s = true)
    (hr : s.hlc.replies = r :: rest) :
    (takeFrame s).hlc.replies = rest ∧ (takeFrame s).hlc.wire =
      some ⟨r, frameBytes r, s.now + wireTicks s.hlc.baud (frameBytes r).length⟩ := by
  simp [takeFrame, hf, hr, sendFrame]

/-- A transmitter that is not free takes nothing. -/
theorem takeFrame_busy {s : State} (hf : lineFree s = false) : takeFrame s = s := by
  simp [takeFrame, hf]

/-- At the end of an event the oldest reply goes out on a free line. -/
theorem finish_reply {s : State} {r : Frame} {rest : List Frame} (hf : lineFree s = true)
    (hr : s.hlc.replies = r :: rest) :
    (finish s).hlc.replies = rest ∧ (finish s).hlc.wire =
      some ⟨r, frameBytes r, s.now + wireTicks s.hlc.baud (frameBytes r).length⟩ := by
  have h := beforeFrame_changes s
  have hl := lineFree_of h (by decide) (by decide)
  have hq := (h .replies (by decide)).1
  have hn : (startEvaluation (recompute s)).now = s.now := h .clock (by decide)
  have hb : (startEvaluation (recompute s)).hlc.baud = s.hlc.baud := h .baud (by decide)
  have := takeFrame_reply (s := startEvaluation (recompute s)) (hl.trans hf) (hq.trans hr)
  rw [hn, hb] at this
  exact this

/-- At the end of an event a line that is not free keeps its frame, and the replies wait. -/
theorem finish_busy {s : State} (hf : lineFree s = false) :
    (finish s).hlc.replies = s.hlc.replies ∧ (finish s).hlc.wire = s.hlc.wire := by
  have h := beforeFrame_changes s
  have hl := lineFree_of h (by decide) (by decide)
  have hs : finish s = startEvaluation (recompute s) := takeFrame_busy (hl.trans hf)
  rw [hs]
  exact h .replies (by decide)

/-! ## Answers -/

/-- An assigned kind's reply kind is the request's kind with bit 7 set. -/
theorem replyTo_eq {f : Frame} {k : RequestKind} (hk : requestKind f.kind = some k) (a : Answer) :
    replyTo f a = reply f a.result a.reason a.data := by
  have h : replyKind f.kind = f.kind + 0x80 := by
    unfold replyKind
    split
    next h =>
      exfalso
      rcases h with h | h
      · have hn : requestKind 0x7E = none := by decide
        rw [h, hn] at hk
        cases hk
      · unfold requestKind at hk
        split at hk <;> first | omega | exact absurd hk (by simp)
    next => rfl
  simp [replyTo, reply, h]

/-- A request answered by an owner that leaves the link alone. -/
theorem replied_of {as : List Aspect} {s u : State} {f : Frame} {rest : List Frame} (a : Answer) (hs : AtHead s f rest)
    (h : Changes as s u) (hd : ∀ b ∈ [Aspect.requests, .replies, .restart, .clock, .baud], b ∉ as) :
    Replied f rest (replyTo f a) s (finish (replyHead f a u)) := by
  obtain ⟨h1, h2, -, h4⟩ := hs
  have hq := h .requests (hd _ (by simp))
  have hr := h .replies (hd _ (by simp))
  have hx := h .restart (hd _ (by simp))
  have hn : u.now = s.now := h .clock (hd _ (by simp))
  have hb : u.hlc.baud = s.hlc.baud := h .baud (hd _ (by simp))
  have hfin := (finish_changes (replyHead f a u)) .requests (by decide)
  have hl : lineFree (replyHead f a u) = lineFree s := by
    simp [lineFree, replyHead, appendReply, hr.2, hx.2]
  have hreq : (replyHead f a u).hlc.requests = rest := by
    simp [replyHead, appendReply, hq.1, h1]
  have hrep : (replyHead f a u).hlc.replies = [replyTo f a] := by
    simp [replyHead, appendReply, hr.1, h2]
  refine ⟨hfin.1.trans hreq, hfin.2.trans rfl, rfl, ?_⟩
  split
  next hc =>
    have hf : lineFree s = true := by simp [lineFree, hc.1, hc.2]
    have := finish_reply (hl.trans hf) hrep
    rw [show (replyHead f a u).now = s.now from hn, show (replyHead f a u).hlc.baud = s.hlc.baud from hb] at this
    exact this
  next hc =>
    have hf : lineFree s = false := by
      unfold lineFree
      cases hw : s.hlc.wire <;> cases hrs : s.hlc.restartSent <;> simp_all
    have := finish_busy (hl.trans hf)
    exact ⟨this.1.trans hrep, this.2.trans hr.2⟩

/-- Placing a reply changes the request and reply queues. -/
theorem replyHead_changes (f : Frame) (a : Answer) (s : State) :
    Changes [.requests, .replies] s (replyHead f a s) := by
  unfold replyHead appendReply
  intro a ha
  cases a <;> first
    | (simp at ha; done)
    | (simp [same, State.track, State.lever, State.signal, State.bell, State.block, State.output, State.mode]; done)

theorem servableOf_of {s : State} {f : Frame} {rest : List Frame} {k : RequestKind} (h : AtHead s f rest)
    (hk : requestKind f.kind = some k) : servableOf s k = some f := by
  obtain ⟨h1, h2, h3, h4⟩ := h
  simp [servableOf, servable, mayServe, h1, h2, h3, h4, hk]

/-- A request with a good payload is passed to its owner and answered. -/
theorem serve_of {s : State} {f : Frame} {rest : List Frame} {k : RequestKind} {owner : List Byte → State → Answer × State}
    (h : AtHead s f rest) (hk : requestKind f.kind = some k) (hp : payloadFault k f.payload = none) :
    serve k owner s = .next (finish (replyHead f (owner f.payload s).1 (owner f.payload s).2)) := by
  simp [serve, servableOf_of h hk, hp]

/-- A request with a bad payload is answered BAD_FIELD. -/
theorem serve_bad {s : State} {f : Frame} {rest : List Frame} {k : RequestKind} {owner : List Byte → State → Answer × State}
    {r : Nat} (h : AtHead s f rest) (hk : requestKind f.kind = some k) (hp : payloadFault k f.payload = some r) :
    serve k owner s = .next (finish (replyHead f (.badField r) s)) := by
  simp [serve, servableOf_of h hk, hp]

/-! ## Posts -/

theorem mem_postReport (src : Source) (s : State) : src ∈ (postReport src s).hlc.reports := by
  unfold postReport
  split
  next h => exact h
  next => simp

/-- The report queue has only grown, at its tail. -/
def Grows (s t : State) : Prop :=
  ∃ new, t.hlc.reports = s.hlc.reports ++ new

theorem Grows.refl (s : State) : Grows s s := ⟨[], by simp⟩

theorem Grows.trans {s t u : State} (h : Grows s t) (k : Grows t u) : Grows s u := by
  obtain ⟨a, ha⟩ := h
  obtain ⟨b, hb⟩ := k
  exact ⟨a ++ b, by rw [hb, ha, List.append_assoc]⟩

theorem Grows.mem {s t : State} {src : Source} (h : Grows s t) (hm : src ∈ s.hlc.reports) : src ∈ t.hlc.reports := by
  obtain ⟨a, ha⟩ := h
  rw [ha]
  exact List.mem_append_left _ hm

theorem Grows.of_changes {as : List Aspect} {s t : State} (h : Changes as s t) (hn : .reports ∉ as) : Grows s t :=
  ⟨[], (h .reports hn).trans (List.append_nil _).symm⟩

theorem grows_ite {s t u : State} {p : Prop} [Decidable p] (h : p → Grows s t) (k : ¬p → Grows s u) :
    Grows s (if p then t else u) := by
  split
  next hp => exact h hp
  next hp => exact k hp

theorem forEach_grows {α : Type} {f : α → State → State} (h : ∀ x s, Grows s (f x s)) :
    ∀ (xs : List α) (s : State), Grows s (forEach xs f s)
  | [], s => Grows.refl s
  | x :: xs, s => (h x s).trans (forEach_grows h xs (f x s))

/-- A post keeps the entries there are, and their order. -/
theorem postReport_grows (src : Source) (s : State) : Grows s (postReport src s) := by
  unfold postReport
  split
  · exact ⟨[], by simp⟩
  · exact ⟨[src], rfl⟩

theorem setDemand_grows (o : Output) (d : Demand) (s : State) : Grows s (setDemand o d s) := by
  have h : Grows s (s.modOutput o fun r => { r with demand := d }) := .of_changes (modOutput_demand o d s) (by decide)
  unfold setDemand
  exact grows_ite (fun _ => h) fun _ => h.trans (postReport_grows _ _)

theorem tellDemand_grows (n : SigSlot) (s : State) : Grows s (tellDemand n s) := by
  unfold tellDemand
  have h := setDemand_grows (aspectOutput n) (if (s.signal n).demand then .on else .off) s
  simp only []
  split
  · exact h.trans (postReport_grows _ _)
  next l _ =>
    refine Grows.trans ?_ (postReport_grows _ _)
    refine Grows.trans ?_ (.of_changes (tellIcc_changes _ _) (by decide))
    refine (h.trans (.of_changes (requeueSignal_changes l _) (by decide))).trans ?_
    exact grows_ite (fun _ => .refl _) fun _ => .of_changes (markDemandFell_changes _ _) (by decide)

theorem beforeFrame_grows (s : State) : Grows s (startEvaluation (recompute s)) := by
  refine Grows.trans ?_ (.of_changes (startEvaluation_changes _) (by decide))
  refine Grows.trans (.of_changes (settleDemands_changes s) (by decide)) ?_
  exact forEach_grows (fun n _ => grows_ite (fun _ => .refl _) fun _ => tellDemand_grows n _) _ _

theorem reportTaken_keeps (src other : Source) (s : State) (hm : other ∈ s.hlc.reports) :
    other ∈ (reportTaken src s).hlc.reports := by
  cases src
  case bell x =>
    unfold reportTaken
    simp only []
    split
    · exact hm
    · exact (postReport_grows _ _).mem hm
  all_goals exact hm

theorem reportTaken_wire (src : Source) (s : State) : (reportTaken src s).hlc.wire = s.hlc.wire := by
  have h := reportTaken_changes src s
  cases src
  case bell x =>
    unfold reportTaken
    simp only []
    split
    · rfl
    · exact ((postReport_changes _ _) .replies (by decide)).2
  all_goals rfl

/-- A source posted before the transmitter is offered a frame is posted still, or on the wire. -/
theorem takeFrame_posted {src : Source} {s : State} (hm : src ∈ s.hlc.reports) : Posted src (takeFrame s) := by
  unfold takeFrame
  split
  · split
    · exact .inl hm
    · split
      · exact .inl hm
      split
      next head rest hq =>
        rw [hq] at hm
        rcases List.mem_cons.mp hm with h | h
        · subst h
          refine .inr ⟨_, reportTaken_wire _ _, rfl, ?_⟩
          simp [reportFrame, sourceBytes]
        · exact .inl (reportTaken_keeps _ _ _ h)
      next hq => rw [hq] at hm; simp at hm
  · exact .inl hm

/-- What an event posted is posted when it is over. -/
theorem finish_posted {src : Source} {s : State} (hm : src ∈ s.hlc.reports) : Posted src (finish s) :=
  takeFrame_posted ((beforeFrame_grows s).mem hm)

theorem postReport_nodup {src : Source} {s : State} (h : s.hlc.reports.Nodup) : (postReport src s).hlc.reports.Nodup := by
  unfold postReport
  split
  · exact h
  next hn => exact List.nodup_append.mpr ⟨h, by simp, by intro a ha b hb; simp at hb; subst hb; exact fun e => hn (e ▸ ha)⟩

end Sys2Proof
end

