-- ==== Sys2Proof/Laws/Service.lean ====
section
/-!
SUPPORT. What the operations of the bells, the sections, the refresh rounds, the indication chain, the records and the
timebase may change.
-/

namespace Sys2Proof

open Sys2Proof.Machine

/-! ## Bells -/

/-- A line's bells and section, with everything told of a code. -/
def codeDone (x : Line) : List Aspect :=
  bellAspects x ++ codeNoted x

theorem modBell_done (x : Line) (f : BellLine → BellLine) (s : State) : Changes (codeDone x) s (s.modBell x f) :=
  (modBell_changes x f s).mono (by simp [codeDone, bellAspects])

theorem reports_subDone (x : Line) : [Aspect.reports] ⊆ codeDone x := by simp [codeDone, bellAspects]

theorem codeNoted_sub (x : Line) : codeNoted x ⊆ codeDone x := by simp [codeDone]

theorem completeCode_changes (x : Line) (c : OpenCode) (time : Nat) (s : State) :
    Changes (codeDone x) s (completeCode x c time s) := by
  unfold completeCode
  simp only []
  refine Changes.andThen ?_ (postReport_changes _ _) (reports_subDone x)
  refine Changes.trans ?_ (modBell_done x _ _)
  exact (modBell_done x _ s).andThen (handCode_changes x _ _) (codeNoted_sub x)

theorem acceptBell_changes (x : Line) (v : Bool) (s : State) : Changes [.bell x, .leads] s (acceptBell x v s) :=
  ((modBell_line x (fun b => { b with filter := ⟨v, 0⟩ }) s fun _ => ⟨rfl, rfl, rfl⟩).mono (by simp)).andThen
    (withLeads_changes _ _) (by simp)

theorem becomeStuck_changes (x : Line) (s : State) : Changes (codeDone x) s (becomeStuck x s) := by
  unfold becomeStuck
  simp only []
  refine Changes.andThen ?_ (postReport_changes _ _) (reports_subDone x)
  exact (modBell_done x _ s).trans (completeCode_changes x _ _ _)

theorem stuckFall_changes (x : Line) (s : State) : Changes (codeDone x) s (stuckFall x s) :=
  (modBell_done x _ s).andThen (postReport_changes _ _) (reports_subDone x)

theorem highFall_changes (x : Line) (s : State) : Changes (codeDone x) s (highFall x s) := by
  unfold highFall
  simp only []
  split
  · unfold noiseFall
    split
    · exact modBell_done x _ s
    · split
      · exact (modBell_done x _ s).trans (completeCode_changes x _ _ _)
      · exact modBell_done x _ s
  split
  · exact modBell_done x _ s
  split
  · exact modBell_done x _ s
  · exact (becomeStuck_changes x s).trans (stuckFall_changes x _)

theorem closeCode_changes (x : Line) (s : State) : Changes (codeDone x) s (closeCode x s) := by
  unfold closeCode
  split
  · exact .refl _ s
  · exact (modBell_done x _ s).trans (completeCode_changes x _ _ _)

theorem beatSounded_changes (x : Line) (s : State) : Changes (codeDone x) s (beatSounded x s) := by
  have fin : Changes (codeDone x) s (codeFinished x s) := by
    unfold codeFinished
    simp only []
    refine Changes.andThen ?_ (postReport_changes _ _) (reports_subDone x)
    refine Changes.trans ?_ (modBell_done x _ _)
    split
    · exact .refl _ s
    · exact (codeSent_changes x _ s).mono (codeNoted_sub x)
  unfold beatSounded
  split
  · exact fin
  · exact fin
  · exact modBell_done x _ s
  · exact modBell_done x _ s

/-! ## Sections -/

theorem changeInc_sections (x : Line) (f : Incoming → Incoming) (s : State) :
    Changes sectionsTold s (changeInc x f s) :=
  (changeInc_changes x f s).mono (by cases x <;> decide)

theorem changeOut_sections (x : Line) (f : Outgoing → Outgoing) (s : State) :
    Changes sectionsTold s (changeOut x f s) :=
  (changeOut_changes x f s).mono (by cases x <;> decide)

theorem withCut10_changes (s : State) (b : Bool) : Changes [.bscCut] s { s with bsc := { s.bsc with cut10 := b } } := by
  intro a ha
  cases a <;> first
    | (simp at ha; done)
    | (simp [same, State.track, State.lever, State.signal, State.bell, State.block, State.output, State.mode]; done)

theorem bscCut_changes (s : State) : Changes [.bscCut, .lamps, .reports] s (bscCut s) := by
  refine ((withCut10_changes s true).mono (by decide)).trans (forEach_changes (fun x s => ?_) _ _)
  exact ((tellIcc_changes _ s).mono (by decide)).andThen (postSections_changes x _) (by decide)

theorem bscDegraded_changes (s : State) : Changes sectionsTold s (bscDegraded s) :=
  forEach_changes (fun x s => changeInc_sections x _ s) _ s

/-! ## Timebase -/

theorem withTbm_changes (s : State) (b : Tbm) : Changes [.timebase] s { s with tbm := b } := by
  intro a ha
  cases a <;> first
    | (simp at ha; done)
    | (simp [same, State.track, State.lever, State.signal, State.bell, State.block, State.output, State.mode]; done)

theorem withHold_changes (s : State) (h : Option Nat) :
    Changes [.hold] s { s with bmc := { s.bmc with hold := h } } := by
  intro a ha
  cases a <;> first
    | (simp at ha; done)
    | (simp [same, State.track, State.lever, State.signal, State.bell, State.block, State.output, State.mode]; done)

theorem mem_allTracks (tc : Tc) : Aspect.track tc ∈ allTracks :=
  List.mem_map.mpr ⟨tc, List.mem_finRange tc, rfl⟩

theorem tcrTimebase_changes (s : State) : Changes timebaseTold s (tcrTimebase s) := by
  refine forEach_changes (fun tc s => changes_ite (fun _ => ?_) fun _ => .refl _ s) _ s
  refine Changes.andThen ?_ (postReport_changes _ _) (by decide)
  refine (modTrack_changes tc _ s).mono fun a ha => ?_
  simp only [List.mem_singleton] at ha
  subst ha
  exact List.mem_append_right _ (mem_allTracks tc)

theorem tellTimebase_changes (before : TimebaseState) (s : State) : Changes timebaseTold s (tellTimebase before s) := by
  unfold tellTimebase
  simp only []
  refine Changes.andThen ?_ (postReport_changes _ _) (by decide)
  refine Changes.andThen ?_ (tellIcc_changes _ _) (by decide)
  refine changes_ite (fun _ => ?_) fun _ => tcrTimebase_changes s
  refine Changes.andThen ?_ (withHold_changes _ _) (by decide)
  refine Changes.andThen ?_ (bscDegraded_changes _) (by decide)
  exact (tcrTimebase_changes s).andThen (srcDegraded_changes _) (by decide)

theorem degrade_changes (why : TimebaseCause) (s : State) : Changes timebaseTold s (degrade why s) :=
  ((withTbm_changes s _).mono (by decide)).trans (tellTimebase_changes _ _)

theorem goodWindow_changes (s : State) : Changes [.timebase, .reports] s (goodWindow s) := by
  unfold goodWindow
  have h := (withTbm_changes s { s.tbm with run := min 16 (s.tbm.run + 1), goodCount := min 10 (s.tbm.goodCount + 1) }).mono
    (bs := [.timebase, .reports]) (by decide)
  exact changes_ite (fun _ => h.andThen (postReport_changes _ _) (by decide)) fun _ => h

theorem missedWindow_changes (s : State) : Changes timebaseTold s (missedWindow s) := by
  unfold missedWindow
  have h : Changes timebaseTold s (breakRun s) := (withTbm_changes s _).mono (by decide)
  simp only []
  split
  · exact h.trans (degrade_changes _ _)
  · exact changes_ite (fun _ => h) fun _ => h.andThen (postReport_changes _ _) (by decide)
  · exact h

theorem startUpLimit_changes (s : State) : Changes timebaseTold s (startUpLimit s) :=
  ((withTbm_changes s _).mono (by decide)).trans (tellTimebase_changes _ _)

theorem takeTimebaseTest_changes (s : State) : Changes timebaseTold s (takeTimebaseTest s) := by
  unfold takeTimebaseTest
  have h : Changes timebaseTold s (breakRun s) := (withTbm_changes s _).mono (by decide)
  simp only []
  split
  · exact h.trans (degrade_changes _ _)
  · exact (h.andThen (withTbm_changes _ _) (by decide)).andThen (postReport_changes _ _) (by decide)
  · exact (h.andThen (withTbm_changes _ _) (by decide)).andThen (postReport_changes _ _) (by decide)

/-! ## Refresh rounds -/

theorem withRound_changes (s : State) (v : Vod) (h : v = { v with outs := s.vod.outs, cuts := s.vod.cuts, options := s.vod.options }) :
    Changes [.round] s { s with vod := v } := by
  have ho : v.outs = s.vod.outs := by rw [h]
  have hc : v.cuts = s.vod.cuts := by rw [h]
  have hp : v.options = s.vod.options := by rw [h]
  intro a ha
  cases a <;> first
    | (simp at ha; done)
    | (simp [same, State.track, State.lever, State.signal, State.bell, State.block, State.output, State.mode, ho, hc, hp]; done)

theorem pulse_changes (g : Group) (fixed : Table 8 Demand) (s : State) : Changes [.drives] s (pulse g fixed s) := by
  refine forEach_changes (fun i s => ?_) _ s
  split
  · exact .refl _ s
  · exact changes_ite (fun _ => modOutput_drive _ _ s fun _ => rfl) fun _ => .refl _ s

theorem startGroup_changes (g : Group) (s : State) : Changes [.drives, .round] s (startGroup g s) :=
  ((pulse_changes g _ s).mono (by decide)).andThen (withRound_changes _ _ rfl) (by decide)

theorem startRound_changes (s : State) : Changes [.drives, .round] s (startRound s) :=
  ((withRound_changes s _ rfl).mono (by decide)).trans (startGroup_changes _ _)

theorem roundDue_changes (s : State) : Changes [.drives, .round, .reports] s (roundDue s) := by
  unfold roundDue
  split
  · exact (startRound_changes s).mono (by decide)
  · exact ((withRound_changes s _ rfl).mono (by decide)).andThen (postReport_changes _ _) (by decide)

theorem takeVerdict_changes (o : Output) (v : Judged) (reads : Bool) (s : State) :
    Changes [.drives, .reports] s (takeVerdict o v reads s) := by
  have h := (modOutput_drive o (fun r => { r with readBack := reads, fault := faultAfter v }) s fun _ => rfl).mono
    (bs := [.drives, .reports]) (by decide)
  unfold takeVerdict
  exact changes_ite (fun _ => h) fun _ => h.andThen (postReport_changes _ _) (by decide)

theorem takeVerdicts_changes (g : Group) (vs : Table 8 Judged) (rd : Byte) (s : State) :
    Changes [.drives, .reports] s (takeVerdicts g vs rd s) := by
  refine forEach_changes (fun i s => ?_) _ s
  split
  · exact .refl _ s
  · exact takeVerdict_changes _ _ _ s

theorem withBox_changes (s : State) (b : Bmc) (h : b.mode = s.bmc.mode ∧ b.hold = s.bmc.hold) :
    Changes [.box] s { s with bmc := b } := by
  intro a ha
  cases a <;> first
    | (simp at ha; done)
    | (simp [same, State.track, State.lever, State.signal, State.bell, State.block, State.output, State.mode, h]; done)

theorem mem_allLevers (l : Lever) : Aspect.lever l ∈ allLevers :=
  List.mem_map.mpr ⟨l, List.mem_finRange l, rfl⟩

theorem leverTold_sub (l : Lever) : leverTold l ⊆ ownersTold := by
  intro a ha
  rcases List.mem_cons.mp ha with h | h
  · subst h
    exact List.mem_append_right _ (mem_allLevers l)
  · exact List.mem_append_left _ (List.mem_append_right _ h)

theorem relayFaultTold_changes (b : Bool) (s : State) : Changes [.box, .reports] s (relayFaultTold b s) := by
  unfold relayFaultTold
  exact changes_ite (fun _ => .refl _ s) fun _ =>
    ((withBox_changes s { s.bmc with relayFault := b } ⟨rfl, rfl⟩).mono (by decide)).andThen (postReport_changes _ _)
      (by decide)

theorem tellings_subOwners : tellings ⊆ ownersTold :=
  fun _ h => List.mem_append_left _ (List.mem_append_right _ h)

theorem tellOwner_changes (o : Output) (faulty : Bool) (s : State) : Changes ownersTold s (tellOwner o faulty s) := by
  unfold tellOwner
  have inst : ∀ x, Changes ownersTold s (instrumentFault x faulty s) := fun x =>
    (changeInc_changes x _ s).mono (sub_trans (by cases x <;> decide) tellings_subOwners)
  split
  · exact changes_ite (fun _ => (lockNoCurrent_changes _ s).mono (leverTold_sub _)) fun _ => .refl _ s
  split
  · exact changes_ite (fun _ => (aspectNoCurrent_changes _ s).mono (sub_trans (by decide) tellings_subOwners)) fun _ => .refl _ s
  split
  · exact inst .a
  split
  · exact inst .b
  split
  · exact inst .c
  · exact (relayFaultTold_changes faulty s).mono (List.append_subset.mpr ⟨by simp [ownersTold], sub_trans (by decide) tellings_subOwners⟩ : [Aspect.box] ++ [.reports] ⊆ ownersTold)

theorem tellFaults_changes (g : Group) (vs : Table 8 Judged) (before s : State) :
    Changes ownersTold s (tellFaults g vs before s) := by
  refine forEach_changes (fun i s => ?_) _ s
  split
  · exact .refl _ s
  · exact changes_ite (fun _ => .refl _ s) fun _ => tellOwner_changes _ _ s

theorem lleCut_changes (g : Group) (s : State) : Changes ownersTold s (lleCut g s) :=
  forEach_changes (fun l s => changes_ite (fun _ => (withdrawFreeing_changes l s).mono (leverTold_sub l))
    fun _ => .refl _ s) _ s

theorem withCuts_changes (s : State) (c : Table 10 Bool) :
    Changes [.cuts] s { s with vod := { s.vod with cuts := c } } := by
  intro a ha
  cases a <;> first
    | (simp at ha; done)
    | (simp [same, State.track, State.lever, State.signal, State.bell, State.block, State.output, State.mode]; done)

theorem small_subOwners : [Aspect.bscCut, .lamps, .reports] ⊆ ownersTold ∧ [Aspect.box] ⊆ ownersTold ∧
    [Aspect.reports] ⊆ ownersTold :=
  ⟨fun _ h => List.mem_append_left _ ((by decide : [Aspect.bscCut, .lamps, .reports] ⊆ [.box, .bscCut] ++ tellings) h),
    fun _ h => List.mem_append_left _ ((by decide : [Aspect.box] ⊆ [.box, .bscCut] ++ tellings) h),
    fun _ h => List.mem_append_left _ ((by decide : [Aspect.reports] ⊆ [.box, .bscCut] ++ tellings) h)⟩

theorem tellCut_changes (g : Group) (s : State) : Changes ownersTold s (tellCut g s) := by
  unfold tellCut
  split
  · exact lleCut_changes g s
  split
  · exact .refl _ s
  · refine Changes.andThen ?_ (postReport_changes _ _) small_subOwners.2.2
    exact ((bscCut_changes s).mono small_subOwners.1).andThen
      (withBox_changes (bscCut s) { s.bmc with cut10 := true }
        ⟨((bscCut_changes s) .mode (by decide)).symm, ((bscCut_changes s) .hold (by decide)).symm⟩) small_subOwners.2.1

theorem cutGroup_changes (g : Group) (s : State) : Changes (.cuts :: ownersTold) s (cutGroup g s) := by
  unfold cutGroup
  refine changes_ite (fun _ => .refl _ s) fun _ => ?_
  refine Changes.andThen ?_ (tellCut_changes g _) fun _ h => .tail _ h
  exact ((withCuts_changes s _).mono (by simp)).andThen (postReport_changes _ _) (sub_trans small_subOwners.2.2 fun _ h => .tail _ h)

theorem nextGroup_changes (g : Group) (s : State) : Changes [.drives, .round] s (nextGroup g s) := by
  unfold nextGroup
  split
  · exact startGroup_changes _ s
  · have h := (withRound_changes s { s.vod with refresh := none, lastLength := s.now - s.vod.roundStart } rfl).mono
      (bs := [.drives, .round]) (by decide)
    exact changes_ite (fun _ => h.trans (startRound_changes _)) fun _ => h

theorem owners_subRefresh : ownersTold ⊆ refreshEnded := fun _ h => List.mem_append_right _ h

/-- What the driver itself changes at the end of a refresh, beside what its owners are told. -/
def driverOwn : List Aspect :=
  [.drives, .round, .cuts, .demandFell .a, .demandFell .b, .demandFell .c]

theorem driver_subRefresh : driverOwn ⊆ refreshEnded := fun _ h => List.mem_append_left _ h

theorem endRefresh_changes (g : Group) (vs : Table 8 Judged) (rd : Byte) (s : State) :
    Changes refreshEnded s (endRefresh g vs rd s) := by
  have sub : ∀ as : List Aspect, as ⊆ [.drives, .round, .cuts] → as ⊆ refreshEnded := fun as h a ha =>
    driver_subRefresh ((by decide : [Aspect.drives, .round, .cuts] ⊆ driverOwn) (h ha))
  have told : recomputed ⊆ refreshEnded := by
    have h : recomputed ⊆ driverOwn ++ tellings := by decide
    intro a ha
    rcases List.mem_append.mp (h ha) with h | h
    · exact driver_subRefresh h
    · exact owners_subRefresh (tellings_subOwners h)
  have h1 : Changes refreshEnded s (takeVerdicts g vs rd s) :=
    (takeVerdicts_changes g vs rd s).mono (List.cons_subset.mpr ⟨by simp [refreshEnded],
      sub_trans small_subOwners.2.2 owners_subRefresh⟩)
  unfold endRefresh
  simp only []
  refine Changes.andThen ?_ (nextGroup_changes g _) (sub _ (by decide))
  refine Changes.andThen ?_ (recompute_changes _) told
  refine Changes.andThen ?_ (tellFaults_changes g vs s _) owners_subRefresh
  refine changes_ite (fun _ => h1.andThen (cutGroup_changes g _) ?_) fun _ => h1
  exact List.cons_subset.mpr ⟨by simp [refreshEnded], owners_subRefresh⟩

theorem firstRead_changes (rd : Byte) (s : State) : Changes refreshEnded s (firstRead rd s) := by
  have sub : [Aspect.drives, .round] ⊆ refreshEnded := fun a ha =>
    driver_subRefresh ((by decide : [Aspect.drives, .round] ⊆ driverOwn) ha)
  unfold firstRead
  split
  · exact .refl _ s
  next r _ =>
    refine changes_ite (fun _ => endRefresh_changes _ _ _ s) fun _ => ?_
    exact (((pulse_changes r.group r.fixed s).mono (bs := [.drives, .round]) (by decide)).andThen
      (withRound_changes _ _ rfl) (by decide)).mono sub

theorem retryRead_changes (rd : Byte) (s : State) : Changes refreshEnded s (retryRead rd s) := by
  unfold retryRead
  split
  · exact .refl _ s
  split
  · exact .refl _ s
  · exact endRefresh_changes _ _ _ s

/-! ## The indication chain's own events -/

theorem withChain_changes (s : State) (i : Icc) (h : i.copies = s.icc.copies) (hd : i.testDone = s.icc.testDone) :
    Changes [.lamps, .lampTimers] s { s with icc := i } := by
  intro a ha
  cases a <;> first
    | (simp at ha; done)
    | (simp [same, State.track, State.lever, State.signal, State.bell, State.block, State.output, State.mode, h, hd]; done)

/-! ## Records -/

theorem slotCopies_changes (s : State) (c : Option RecordCopy) :
    Changes [.vodOptions] s { s with vod := { s.vod with options := c } } := by
  intro a ha
  cases a <;> first
    | (simp at ha; done)
    | (simp [same, State.track, State.lever, State.signal, State.bell, State.block, State.output, State.mode]; done)

end Sys2Proof
end

