-- ==== Sys2Proof/Laws/Stored.lean ====
section
/-!
SUPPORT. What the operations of the store, of the records' users and of the box modes may change.
-/

namespace Sys2Proof

open Sys2Proof.Machine

/-! ## Records told to their users -/

theorem owners_subUsers : ownersTold ⊆ usersTold := fun _ h =>
  List.mem_append_left _ (List.mem_append_right _ h)

theorem tellings_subUsers : tellings ⊆ usersTold := sub_trans tellings_subOwners owners_subUsers

theorem leverTold_subUsers (l : Lever) : leverTold l ⊆ usersTold := sub_trans (leverTold_sub l) owners_subUsers

theorem trackEvent_subUsers (tc : Tc) : trackEvent tc ⊆ usersTold :=
  List.cons_subset.mpr ⟨List.mem_append_right _ (mem_allTracks tc), tellings_subUsers⟩

theorem reports_subUsers : [Aspect.reports] ⊆ usersTold := sub_trans small_subOwners.2.2 owners_subUsers

theorem lamps_subUsers : [Aspect.lamps] ⊆ usersTold := sub_trans lampsReports_sub.1 tellings_subUsers

theorem freeing_subUsers : [Aspect.freeing] ⊆ usersTold :=
  sub_trans (by decide : [Aspect.freeing] ⊆ tellings) tellings_subUsers

/-- The record copies held by their users. -/
theorem copies_subUsers : [Aspect.slots, .srcLines, .lineRecords .a, .lineRecords .b, .lineRecords .c, .vodOptions,
    .lampRecords] ⊆ usersTold := fun _ h => List.mem_append_left _ (List.mem_append_left _ h)

theorem modLever_users (l : Lever) (f : LeverRec → LeverRec) (s : State) : Changes usersTold s (s.modLever l f) :=
  (modLever_told l f s).mono (leverTold_subUsers l)

theorem modTrack_users (tc : Tc) (f : Track → Track) (s : State) : Changes usersTold s (s.modTrack tc f) :=
  (modTrack_changes tc f s).mono (sub_trans (mem_trackEvent tc) (trackEvent_subUsers tc))

theorem checkPairs_changes (s : State) : Changes usersTold s (checkPairs s) :=
  forEach_changes (fun _ s => forEach_changes (fun b s =>
    changes_ite (fun _ => (enterFault_changes b _ s).mono (leverTold_subUsers b)) fun _ => .refl _ s) _ s) _ s

theorem announceLever_changes (l : Lever) (s : State) : Changes usersTold s (announceLever l s) := by
  unfold announceLever
  have h := (tellLever_changes l s).mono tellings_subUsers
  exact changes_ite (fun _ => h.andThen (gripCatch_changes l _) freeing_subUsers) fun _ => h

theorem becomeSpare_changes (l : Lever) (c : Option RecordCopy) (s : State) :
    Changes usersTold s (becomeSpare l c s) := by
  unfold becomeSpare
  refine Changes.andThen ?_ (tellLever_changes l _) tellings_subUsers
  refine Changes.andThen ?_ (setLock_changes l _ _) (sub_trans (by decide) tellings_subUsers)
  exact (modLever_users l _ s).andThen (leaveQueue_changes l _) (sub_trans (by decide) tellings_subUsers)

theorem lleRecord_changes (l : Lever) (s : State) : Changes usersTold s (lleRecord l s) := by
  unfold lleRecord
  simp only []
  split
  · exact changes_ite (fun _ => modLever_users l _ s) fun _ => becomeSpare_changes l _ s
  split
  · exact ((modLever_users l _ s).trans (checkPairs_changes _)).andThen (tellLever_changes l _) tellings_subUsers
  · have h := modLever_users l (fun v => { v with copy := slotCopy s (leverSlot l) }) s
    exact changes_ite (fun _ => h.andThen (enqueueLever_changes l _) freeing_subUsers) fun _ => h

theorem modBlock_records (x : Line) (c h : Option RecordCopy) (s : State) :
    Changes [.lineRecords x] s (s.modBlock x fun b => { b with copy := c, homeCopy := h }) := by
  apply modBlock_only
  intro a ha
  simp only [lineAspects, List.mem_cons, List.not_mem_nil, or_false] at ha
  rcases ha with e | e | e | e | e | e <;> subst e <;> first | (right; simp [same]; done) | (left; simp; done)

theorem lineRecords_subUsers (x : Line) : [Aspect.lineRecords x] ⊆ usersTold :=
  sub_trans (by cases x <;> decide) copies_subUsers

theorem bscHome_changes (l : Lever) (s : State) : Changes usersTold s (bscHome l s) := by
  refine forEach_changes (fun x s => ?_) _ s
  split
  · exact .refl _ s
  · refine changes_ite (fun _ => ?_) fun _ => .refl _ s
    refine Changes.mono (as := [.lineRecords x]) ?_ (lineRecords_subUsers x)
    apply modBlock_only
    intro a ha
    simp only [lineAspects, List.mem_cons, List.not_mem_nil, or_false] at ha
    rcases ha with e | e | e | e | e | e <;> subst e <;> first | (right; simp [same]; done) | (left; simp; done)

theorem changeInc_users (x : Line) (f : Incoming → Incoming) (s : State) : Changes usersTold s (changeInc x f s) :=
  (changeInc_changes x f s).mono (sub_trans (by cases x <;> decide) tellings_subUsers)

theorem changeOut_users (x : Line) (f : Outgoing → Outgoing) (s : State) : Changes usersTold s (changeOut x f s) :=
  (changeOut_changes x f s).mono (sub_trans (by cases x <;> decide) tellings_subUsers)

theorem bscLine_changes (x : Line) (s : State) : Changes usersTold s (bscLine x s) := by
  unfold bscLine
  simp only []
  have h := (modBlock_records x (slotCopy s (lineSlot x)) (homeCopyOf s (slotCopy s (lineSlot x))) s).mono
    (lineRecords_subUsers x)
  have k := changes_ite (p := (lineSound s x && !lineSound (s.modBlock x fun b =>
      { b with copy := slotCopy s (lineSlot x), homeCopy := homeCopyOf s (slotCopy s (lineSlot x)) }) x) = true)
    (fun _ => h.trans (((changeInc_users x (fun i =>
      if i.state = .lineClear then { i with state := .trainOnLine, event := .recordFault } else i) _).trans
        (changeOut_users x (loseRelease .releaseLost) _)))) fun _ => h
  exact changes_ite (fun _ => k) fun _ =>
    (k.andThen (tellIcc_changes _ _) lamps_subUsers).andThen (postSections_changes x _) reports_subUsers

theorem withSrcLines_changes (s : State) (t : Table 3 (Option RecordCopy)) :
    Changes [.srcLines] s { s with src := { s.src with lines := t } } := by
  intro a ha
  cases a <;> first
    | (simp at ha; done)
    | (simp [same, State.track, State.lever, State.signal, State.bell, State.block, State.output, State.mode]; done)

theorem withLampRecords_changes (s : State) (t : Table 256 (Option RecordCopy)) :
    Changes [.lampRecords] s { s with icc := { s.icc with copies := t } } := by
  intro a ha
  cases a <;> first
    | (simp at ha; done)
    | (simp [same, State.track, State.lever, State.signal, State.bell, State.block, State.output, State.mode]; done)

theorem enterFaultTrack_changes (tc : Tc) (c : Option RecordCopy) (s : State) :
    Changes usersTold s (enterFaultTrack tc c s) := by
  unfold enterFaultTrack
  simp only []
  refine Changes.andThen ?_ (postReport_changes _ _) reports_subUsers
  refine Changes.andThen ?_ (tellIcc_changes _ _) lamps_subUsers
  exact ((modTrack_users tc _ s).andThen (occupy_changes tc _ _) (trackEvent_subUsers tc)).trans (modTrack_users tc _ _)

theorem takeTrackCopy_changes (tc : Tc) (c : Option RecordCopy) (s : State) :
    Changes usersTold s (takeTrackCopy tc c s) := by
  unfold takeTrackCopy
  have h := modTrack_users tc (fun t => { t with copy := c, npuEff := pickUpOf s.tbm.state c }) s
  exact changes_ite (fun _ => h) fun _ => h.andThen (postReport_changes _ _) reports_subUsers

theorem tcrRecord_changes (tc : Tc) (s : State) : Changes usersTold s (tcrRecord tc s) := by
  unfold tcrRecord
  simp only []
  split
  · split
    · exact ((modTrack_users tc _ s).andThen (tellIcc_changes _ _) lamps_subUsers).andThen (postReport_changes _ _)
        reports_subUsers
    · exact takeTrackCopy_changes tc _ s
  · split
    · exact takeTrackCopy_changes tc _ s
    · exact enterFaultTrack_changes tc _ s

theorem tellIndication_changes (k : Fin 256) (s : State) : Changes usersTold s (tellIndication k s) := by
  unfold tellIndication
  refine changes_ite (fun _ => .refl _ s) fun _ => ?_
  have h1 := (withLampRecords_changes s (s.icc.copies.set k (slotCopy s (indicationSlot k)))).mono
    (sub_trans (by decide) copies_subUsers)
  have h2 : ∀ t : State, Changes usersTold t { t with icc := nextChain t.now (relightAll t) } := fun t =>
    (withIcc_changes t _ ((relightAll_lampsOnly t).trans (nextChain_lampsOnly _ _))).mono lamps_subUsers
  exact changes_ite (fun _ => h1.trans (h2 _)) fun _ =>
    (h1.trans (h2 _)).andThen (postReport_changes _ _) reports_subUsers

theorem bmcRecord_changes (s : State) : Changes [.box] s (bmcRecord s) :=
  withBox_changes s _ ⟨rfl, rfl⟩

theorem vodRecord_changes (s : State) : Changes [.vodOptions] s (vodRecord s) :=
  slotCopies_changes s _

theorem withConds_changes (s : State) (t : Table 333 Cond) (l : Option (Slot × Cond)) (d : Bool) :
    Changes [.conds] s { s with sst := { s.sst with conds := t, lastChange := l, optionsDefaults := d } } := by
  intro a ha
  cases a <;> first
    | (simp at ha; done)
    | (simp [same, State.track, State.lever, State.signal, State.bell, State.block, State.output, State.mode]; done)

theorem users_subRead : usersTold ⊆ recordRead := fun _ h => .tail _ h

theorem noteCond_changes (i : Slot) (c : Cond) (s : State) : Changes [.conds] s (noteCond i c s) :=
  withConds_changes s _ _ _

theorem tellLeverUsers_changes (l : Lever) (s : State) : Changes usersTold s (tellLeverUsers l s) := by
  refine Changes.andThen ?_ (tellIcc_changes _ _) lamps_subUsers
  refine Changes.trans ?_ (bscHome_changes l _)
  refine Changes.andThen (lleRecord_changes l s) (srcRecord_changes l _) ?_
  exact List.cons_subset.mpr ⟨copies_subUsers (by decide), reports_subUsers⟩

theorem readHome_changes (x : Line) (s : State) : Changes recordRead s (readHome x s) := by
  unfold readHome
  split
  · exact .refl _ s
  next l _ =>
    refine changes_ite (fun _ => ?_) fun _ => .refl _ s
    refine Changes.andThen ?_ (postReport_changes _ _) (sub_trans reports_subUsers users_subRead)
    exact ((noteCond_changes _ _ s).mono (by simp [recordRead])).andThen (tellLeverUsers_changes l _) users_subRead

theorem srcLine_changes (x : Line) (s : State) : Changes [.srcLines] s (srcLine x s) :=
  withSrcLines_changes s _

theorem tellUsers_changes (i : Slot) (s : State) : Changes recordRead s (tellUsers i s) := by
  unfold tellUsers
  split
  · exact .refl _ s
  split
  · exact .refl _ s
  · split
    · exact .refl _ s
    · exact (tellLeverUsers_changes _ s).mono users_subRead
  · split
    · exact .refl _ s
    · exact ((tcrRecord_changes _ s).andThen (tellIcc_changes _ _) lamps_subUsers).mono users_subRead
  · split
    · exact .refl _ s
    · refine Changes.andThen ?_ (srcLine_changes _ _) (sub_trans (sub_trans (by decide) copies_subUsers) users_subRead)
      exact (readHome_changes _ s).andThen (bscLine_changes _ _) users_subRead
  · exact (((bmcRecord_changes s).mono (sub_trans small_subOwners.2.1 owners_subUsers)).andThen (vodRecord_changes _)
      (sub_trans (by decide) copies_subUsers)).mono users_subRead
  · split
    · exact .refl _ s
    · exact (tellIndication_changes _ s).mono users_subRead

theorem condChange_changes (i : Slot) (c : Cond) (s : State) : Changes recordRead s (condChange i c s) := by
  unfold condChange
  refine changes_ite (fun _ => .refl _ s) fun _ => ?_
  refine Changes.andThen ?_ (postReport_changes _ _) (sub_trans reports_subUsers users_subRead)
  exact ((noteCond_changes i c s).mono (by simp [recordRead])).trans (tellUsers_changes i _)

theorem markRead_changes (i : Slot) (s : State) : Changes recordRead s (markRead i s) := by
  unfold markRead
  exact changes_ite (fun _ => condChange_changes i _ s) fun _ => .refl _ s

theorem deliver_changes (i : Slot) (s : State) : Changes recordRead s (deliver i s) := by
  unfold deliver
  exact changes_ite (fun _ => condChange_changes i _ s) fun _ => tellUsers_changes i s

theorem deliverRegion_changes (r : Region) (s : State) : Changes recordRead s (deliverRegion r s) :=
  forEach_changes deliver_changes _ s

theorem withCells_changes (f : List (Nat × StoreWord) → List (Nat × StoreWord)) (s : State) :
    Changes [.cells] s (withCells f s) := by
  unfold withCells
  intro a ha
  cases a <;> first
    | (simp at ha; done)
    | (simp [same, State.track, State.lever, State.signal, State.bell, State.block, State.output, State.mode]; done)

theorem correctSlot_changes (i : Slot) (s : State) : Changes (.cells :: recordRead) s (correctSlot i s) :=
  ((withCells_changes (fun c => cellCorrect c (slotBase i) (slotEnd i)) s).mono (by simp)).andThen
    (condChange_changes i _ _) fun _ h => .tail _ h

theorem slotProgrammed_changes (i : Slot) (s : State) : Changes recordRead s (slotProgrammed i s) := by
  unfold slotProgrammed
  have h := (withConds_changes s s.sst.conds s.sst.lastChange
    (s.sst.optionsDefaults && decide (i ≠ optionsSlot))).mono (bs := recordRead) (by simp [recordRead])
  exact changes_ite (fun _ => h.trans (deliver_changes i _)) fun _ => h.trans (condChange_changes i _ _)

/-! ## Store operations -/

theorem withStoreOp_changes (s : State) (st : StoreState) (op : Option RunningOp) (r : StoreState)
    (e : Option SuspendedErase) :
    Changes [.storeOp] s { s with sst := { s.sst with state := st, op := op, returnTo := r, suspended := e } } := by
  intro a ha
  cases a <;> first
    | (simp at ha; done)
    | (simp [same, State.track, State.lever, State.signal, State.bell, State.block, State.output, State.mode]; done)

theorem beginOp_changes (op : StoreOp) (time : Nat) (st : StoreState) (s : State) :
    Changes [.storeOp, .reports] s (beginOp op time st s) :=
  ((withStoreOp_changes s st _ s.sst.returnTo s.sst.suspended).mono (by decide)).andThen (postReport_changes _ _)
    (by decide)

theorem endOp_changes (st : StoreState) (s : State) : Changes [.storeOp, .reports] s (endOp st s) :=
  ((withStoreOp_changes s st none s.sst.returnTo s.sst.suspended).mono (by decide)).andThen (postReport_changes _ _)
    (by decide)

theorem voidHeader_changes (s : State) : Changes [.cells] s (voidHeader s) :=
  withCells_changes _ s

theorem withResult_changes (s : State) (r : ValidationResult) (w : List Warning) :
    Changes [.result] s { s with sst := { s.sst with result := r, warnings := w } } := by
  intro a ha
  cases a <;> first
    | (simp at ha; done)
    | (simp [same, State.track, State.lever, State.signal, State.bell, State.block, State.output, State.mode]; done)

theorem resultNone_changes (s : State) : Changes [.result] s (resultNone s) :=
  withResult_changes s _ _

theorem returnsTo_changes (st : StoreState) (s : State) : Changes [.storeOp] s (returnsTo st s) :=
  withStoreOp_changes s s.sst.state s.sst.op st s.sst.suspended

theorem read_subContents : recordRead ⊆ contentsChanged := fun _ h => List.mem_append_right _ h

theorem store_subContents : [Aspect.cells] ⊆ contentsChanged ∧ [Aspect.storeOp] ⊆ contentsChanged ∧
    [Aspect.result] ⊆ contentsChanged := by
  simp [contentsChanged]

theorem ops_subContents : [Aspect.storeOp, .reports] ⊆ contentsChanged :=
  List.cons_subset.mpr ⟨by simp [contentsChanged], sub_trans (sub_trans reports_subUsers users_subRead) read_subContents⟩

theorem beginErase_changes (r : Region) (s : State) : Changes contentsChanged s (beginErase r s) := by
  unfold beginErase
  refine Changes.andThen ?_ (deliverRegion_changes r _) read_subContents
  refine Changes.andThen ?_ (beginOp_changes _ _ _ _) ops_subContents
  exact changes_ite (fun _ => (voidHeader_changes s).mono store_subContents.1) fun _ => .refl _ s

theorem beginWipe_changes (r : Region) (s : State) : Changes contentsChanged s (beginWipe r s) := by
  unfold beginWipe
  refine Changes.andThen ?_ (deliverRegion_changes r _) read_subContents
  refine Changes.andThen ?_ (beginOp_changes _ _ _ _) ops_subContents
  exact changes_ite (fun _ => (voidHeader_changes s).mono store_subContents.1) fun _ => .refl _ s

theorem endErase_changes (r : Region) (s : State) : Changes contentsChanged s (endErase r s) := by
  unfold endErase
  refine Changes.andThen ?_ (deliverRegion_changes r _) read_subContents
  exact ((withCells_changes _ s).mono store_subContents.1).andThen (endOp_changes _ _) ops_subContents

theorem endWipe_changes (r : Region) (s : State) : Changes contentsChanged s (endWipe r s) := by
  unfold endWipe
  split
  · exact endErase_changes r s
  · refine Changes.trans ?_ (beginWipe_changes _ _)
    refine Changes.andThen ?_ (deliverRegion_changes r _) read_subContents
    exact ((withStoreOp_changes s s.sst.state none s.sst.returnTo s.sst.suspended).mono store_subContents.2.1).andThen
      (withCells_changes _ _) store_subContents.1

theorem endProgram_changes (i : Slot) (words : List Word16) (s : State) :
    Changes contentsChanged s (endProgram i words s) := by
  unfold endProgram
  refine Changes.andThen ?_ (slotProgrammed_changes i _) read_subContents
  exact ((withCells_changes _ s).mono store_subContents.1).andThen (endOp_changes _ _) ops_subContents

theorem beginChange_changes (c : Change) (s : State) : Changes contentsChanged s (beginChange c s) := by
  cases c
  case erase r => exact beginErase_changes r s
  case program i words => exact (beginOp_changes _ _ _ s).mono ops_subContents

theorem acceptChange_changes (r : Region) (c : Change) (s : State) : Changes contentsChanged s (acceptChange r c s) := by
  unfold acceptChange
  have h := (resultNone_changes s).mono store_subContents.2.2
  exact changes_ite (fun _ => h.andThen (beginOp_changes _ _ _ _) ops_subContents) fun _ =>
    h.trans (beginChange_changes c _)

/-! ## Modes -/

theorem withMode_changes (s : State) (m : Mode) (h : Option Nat) :
    Changes [.mode, .hold] s { s with bmc := { s.bmc with mode := m, hold := h } } := by
  intro a ha
  cases a <;> first
    | (simp at ha; done)
    | (simp [same, State.track, State.lever, State.signal, State.bell, State.block, State.output]; done)

theorem enterMode_changes (m : Mode) (s : State) :
    Changes [.mode, .hold, .outputDemands, .reports] s (enterMode m s) :=
  (((withMode_changes s m _).mono (by decide)).andThen (setDemand_changes _ _ _) (by decide)).andThen
    (postReport_changes _ _) (by decide)

theorem withScrub_changes (s : State) (p : Nat) (d e : Option Nat) :
    Changes [.scrub] s { s with sst := { s.sst with scrubPos := p, scrubDue := d, periodEnd := e } } := by
  intro a ha
  cases a <;> first
    | (simp at ha; done)
    | (simp [same, State.track, State.lever, State.signal, State.bell, State.block, State.output, State.mode]; done)

theorem sstMode_changes (before : Mode) (s : State) : Changes [.scrub] s (sstMode before s) := by
  unfold sstMode
  exact changes_ite (fun _ => withScrub_changes s _ _ _) fun _ =>
    changes_ite (fun _ => withScrub_changes s _ _ _) fun _ => .refl _ s

theorem withdrawAll_changes (s : State) : Changes ownersTold s (withdrawAll s) :=
  forEach_changes (fun l s => (withdrawFreeing_changes l s).mono (leverTold_sub l)) _ s

theorem freeing_subOwners : [Aspect.freeing] ⊆ ownersTold :=
  sub_trans (by decide : [Aspect.freeing] ⊆ tellings) tellings_subOwners

theorem lleMode_changes (before : Mode) (s : State) : Changes ownersTold s (lleMode before s) := by
  unfold lleMode
  refine Changes.andThen ?_ (requeueAll_changes _) freeing_subOwners
  exact changes_ite (fun _ => withdrawAll_changes s) fun _ => .refl _ s

theorem modBlock_frozen (x : Line) (b : Bool) (s : State) :
    Changes [.frozen x] s (s.modBlock x fun l => { l with frozen := b }) := by
  apply modBlock_only
  intro a ha
  simp only [lineAspects, List.mem_cons, List.not_mem_nil, or_false] at ha
  rcases ha with e | e | e | e | e | e <;> subst e <;> first | (right; simp [same]; done) | (left; simp; done)

theorem frozen_subThrough (x : Line) : [Aspect.frozen x] ⊆ throughChanged := by
  cases x <;> decide

theorem sections_subThrough : sectionsTold ⊆ throughChanged := fun _ h => List.mem_append_right _ h

theorem reports_subThrough : [Aspect.reports] ⊆ throughChanged := by decide

theorem bellLine_subThrough (x : Line) : [Aspect.bell x] ⊆ throughChanged := by
  cases x <;> decide

theorem bscFreeze_changes (s : State) : Changes throughChanged s (bscFreeze s) := by
  refine forEach_changes (fun x s => changes_ite (fun _ => ?_) fun _ => .refl _ s) _ s
  refine Changes.andThen ?_ (postSections_changes x _) reports_subThrough
  exact ((modBlock_frozen x true s).mono (frozen_subThrough x)).andThen (changeOut_sections x _ _) sections_subThrough

theorem bscRestart_changes (s : State) : Changes throughChanged s (bscRestart s) := by
  refine forEach_changes (fun x s => changes_ite (fun _ => ?_) fun _ => .refl _ s) _ s
  refine Changes.andThen ?_ (postSections_changes x _) reports_subThrough
  refine Changes.andThen ?_ (changeOut_sections x _ _) sections_subThrough
  exact ((modBlock_frozen x false s).mono (frozen_subThrough x)).andThen (changeInc_sections x _ _) sections_subThrough

/-- What the box's entry into SWITCHED_OUT may change by the BLC's reads and its joining of the lines. -/
def enteringThrough : List Aspect :=
  throughChanged ++ recordRead

theorem through_subEntering : throughChanged ⊆ enteringThrough := fun _ h => List.mem_append_left _ h

theorem read_subEntering : recordRead ⊆ enteringThrough := fun _ h => List.mem_append_right _ h

theorem blcEnterThrough_changes (s : State) : Changes enteringThrough s (blcEnterThrough s) := by
  refine forEach_changes (fun x s => ?_) _ s
  have h := (markRead_changes (lineSlot x) s).mono read_subEntering
  refine changes_ite (fun _ => ?_) fun _ => h
  refine Changes.andThen ?_ (postReport_changes _ _) (sub_trans reports_subThrough through_subEntering)
  exact h.andThen (modBell_line x throughConnect _ fun _ => ⟨rfl, rfl, rfl⟩)
    (sub_trans (bellLine_subThrough x) through_subEntering)

theorem blcLeaveThrough_changes (s : State) : Changes throughChanged s (blcLeaveThrough s) := by
  refine forEach_changes (fun x s => changes_ite (fun _ => ?_) fun _ => .refl _ s) _ s
  exact ((modBell_line x (fun b => { b with through := false }) s fun _ => ⟨rfl, rfl, rfl⟩).mono
    (bellLine_subThrough x)).andThen (postReport_changes _ _) reports_subThrough

theorem linesMode_changes (before : Mode) (s : State) : Changes enteringThrough s (linesMode before s) := by
  unfold linesMode
  refine changes_ite (fun _ => ?_) fun _ => ?_
  · exact ((bscFreeze_changes s).mono through_subEntering).trans (blcEnterThrough_changes _)
  · exact changes_ite (fun _ => ((bscRestart_changes s).trans (blcLeaveThrough_changes _)).mono through_subEntering)
      fun _ => .refl _ s

theorem withSrc_changes (s : State) (g : Table 24 Signal) (l : Table 3 (Option RecordCopy)) :
    Changes [.slots, .demands, .removals, .srcLines] s { s with src := { s.src with signals := g, lines := l } } := by
  intro a ha
  cases a <;> first
    | (simp at ha; done)
    | (simp [same, State.track, State.lever, State.bell, State.block, State.output, State.mode]; done)

theorem assignSlots_changes (s : State) :
    Changes [.slots, .demands, .removals, .srcLines, .reports] s (assignSlots s) :=
  ((withSrc_changes s _ _).mono (by decide)).andThen (postRouteLocks_changes _) (by decide)

theorem giveUpSlots_changes (s : State) :
    Changes [.slots, .demands, .removals, .srcLines, .reports] s (giveUpSlots s) :=
  ((withSrc_changes s _ s.src.lines).mono (by decide)).andThen (postRouteLocks_changes _) (by decide)

theorem src_subRead : [Aspect.slots, .demands, .removals, .srcLines, .reports] ⊆ recordRead := by
  intro a ha
  refine users_subRead ?_
  simp only [List.mem_cons, List.not_mem_nil, or_false] at ha
  rcases ha with e | e | e | e | e <;> subst e
  · exact copies_subUsers (by decide)
  · exact tellings_subUsers (by decide)
  · exact tellings_subUsers (by decide)
  · exact copies_subUsers (by decide)
  · exact tellings_subUsers (by decide)

theorem srcMode_changes (s : State) : Changes recordRead s (srcMode s) := by
  unfold srcMode
  split
  · exact (forEach_changes markRead_changes _ s : Changes recordRead s (readForSlots s)).andThen
      (assignSlots_changes _) src_subRead
  · exact (giveUpSlots_changes s).mono src_subRead
  all_goals exact .refl _ s

theorem read_subMode : recordRead ⊆ modeChanged := fun _ h => List.mem_append_right _ h

theorem through_subMode : throughChanged ⊆ modeChanged := fun _ h =>
  List.mem_append_left _ (List.mem_append_right _ h)

theorem changeMode_changes (m : Mode) (s : State) : Changes modeChanged s (changeMode m s) := by
  unfold changeMode
  simp only []
  refine Changes.andThen ?_ (tellIcc_changes _ _) (sub_trans lamps_subUsers (sub_trans users_subRead read_subMode))
  refine Changes.andThen ?_ (postChangedGroups_changes _ _) (sub_trans reports_subUsers (sub_trans users_subRead read_subMode))
  refine Changes.andThen ?_ (srcMode_changes _) read_subMode
  refine Changes.andThen ?_ (linesMode_changes _ _) (List.append_subset.mpr ⟨through_subMode, read_subMode⟩)
  refine Changes.andThen ?_ (lleMode_changes _ _) (sub_trans owners_subUsers (sub_trans users_subRead read_subMode))
  refine Changes.andThen ?_ (sstMode_changes _ _) (by simp [modeChanged])
  refine (enterMode_changes m s).mono ?_
  intro a ha
  simp only [List.mem_cons, List.not_mem_nil, or_false] at ha
  rcases ha with e | e | e | e <;> subst e
  · simp [modeChanged]
  · simp [modeChanged]
  · exact read_subMode (users_subRead (tellings_subUsers (by decide)))
  · exact read_subMode (users_subRead (tellings_subUsers (by decide)))

end Sys2Proof
end

