-- ==== Sys2Proof/Laws/Memory.lean ====
section
/-!
SUPPORT. The store as addressed memory: reading what was written, and every operation on the contents keeping their
canonical form.
-/

namespace Sys2Proof.Machine

/-! ## The canonical form -/

theorem cellsFrom_cons {lo a : Nat} {w : StoreWord} {rest : List (Nat × StoreWord)} :
    cellsFrom lo ((a, w) :: rest) = true ↔ lo ≤ a ∧ w ≠ erasedWord ∧ cellsFrom (a + 1) rest = true := by
  simp [cellsFrom, and_assoc]

theorem cellsFrom_mono {cells : List (Nat × StoreWord)} {lo hi : Nat} (h : cellsFrom hi cells = true) (hl : lo ≤ hi) :
    cellsFrom lo cells = true := by
  cases cells with
  | nil => rfl
  | cons c rest =>
    obtain ⟨a, w⟩ := c
    rw [cellsFrom_cons] at h ⊢
    exact ⟨by omega, h.2⟩

/-- An address below the least a list may hold reads as erased. -/
theorem cellRead_below {cells : List (Nat × StoreWord)} {lo b : Nat} (h : cellsFrom lo cells = true) (hb : b < lo) :
    cellRead cells b = erasedWord := by
  induction cells generalizing lo with
  | nil => rfl
  | cons c rest ih =>
    obtain ⟨a, w⟩ := c
    rw [cellsFrom_cons] at h
    simp only [cellRead, show ¬a = b by omega, if_false]
    exact ih h.2.2 (by omega)

/-! ## Reading and writing -/

/-- What is written is read back. -/
theorem cellRead_cellWrite_same {cells : List (Nat × StoreWord)} {lo b : Nat} {v : StoreWord}
    (h : cellsFrom lo cells = true) : cellRead (cellWrite cells b v) b = v := by
  induction cells generalizing lo with
  | nil =>
    simp only [cellWrite]
    split
    next e => simp [cellRead, e]
    next => simp [cellRead]
  | cons c rest ih =>
    obtain ⟨a, w⟩ := c
    have h' := cellsFrom_cons.mp h
    simp only [cellWrite]
    split
    next hb =>
      split
      next e =>
        rw [e]
        exact cellRead_below (lo := a) (cellsFrom_cons.mpr ⟨Nat.le_refl a, h'.2⟩) hb
      next => simp [cellRead]
    next =>
      split
      next e =>
        subst e
        split
        next hv => rw [hv]; exact cellRead_below h'.2.2 (by omega)
        next => simp [cellRead]
      next hb hne =>
        simp only [cellRead, show ¬a = b by omega, if_false]
        exact ih h'.2.2

/-- A write leaves every other address. -/
theorem cellRead_cellWrite_other {cells : List (Nat × StoreWord)} {b a : Nat} {v : StoreWord} (hne : a ≠ b) :
    cellRead (cellWrite cells b v) a = cellRead cells a := by
  induction cells with
  | nil =>
    simp only [cellWrite]
    split
    next => rfl
    next => simp [cellRead, Ne.symm hne]
  | cons c rest ih =>
    obtain ⟨k, w⟩ := c
    simp only [cellWrite]
    split
    next =>
      split
      next => rfl
      next => simp [cellRead, Ne.symm hne]
    next =>
      split
      next e =>
        subst e
        split
        next => simp [cellRead, Ne.symm hne]
        next => simp [cellRead, Ne.symm hne]
      next => simp only [cellRead, ih]

/-- A filter by address erases what it drops and leaves the rest. -/
theorem cellRead_filter (p : Nat → Bool) (cells : List (Nat × StoreWord)) (a : Nat) :
    cellRead (cells.filter fun c => p c.1) a = if p a then cellRead cells a else erasedWord := by
  induction cells with
  | nil => simp [cellRead]
  | cons c rest ih =>
    obtain ⟨k, w⟩ := c
    by_cases e : k = a
    · subst e
      by_cases hp : p k <;> simp [hp, cellRead, ih]
    · by_cases hp : p k <;> simp [hp, cellRead, ih, e]

/-- An erase erases its range and leaves the rest. -/
theorem cellRead_cellErase (cells : List (Nat × StoreWord)) (lo hi a : Nat) :
    cellRead (cellErase cells lo hi) a = if a < lo ∨ hi ≤ a then cellRead cells a else erasedWord := by
  have := cellRead_filter (fun k => decide (k < lo) || decide (hi ≤ k)) cells a
  simpa [cellErase] using this

/-- What a reset cut short of an erase leaves: each word erased or unchanged, and none outside the range touched. -/
theorem cellRead_partlyErased (reach : Nat → Nat) (lo hi : Nat) (cells : List (Nat × StoreWord)) (a : Nat) :
    cellRead (partlyErased reach lo hi cells) a =
      if a < lo ∨ hi ≤ a ∨ reach a % 2 = 0 then cellRead cells a else erasedWord := by
  have := cellRead_filter (fun k => decide (k < lo) || decide (hi ≤ k) || decide (reach k % 2 = 0)) cells a
  simpa [partlyErased, or_assoc] using this

/-! ## Every operation keeps the form -/

theorem cellWrite_from {cells : List (Nat × StoreWord)} {lo b : Nat} {v : StoreWord} (h : cellsFrom lo cells = true)
    (hb : lo ≤ b) : cellsFrom lo (cellWrite cells b v) = true := by
  induction cells generalizing lo with
  | nil =>
    simp only [cellWrite]
    split
    next => rfl
    next e => exact cellsFrom_cons.mpr ⟨hb, e, rfl⟩
  | cons c rest ih =>
    obtain ⟨a, w⟩ := c
    have h' := cellsFrom_cons.mp h
    simp only [cellWrite]
    split
    next hlt =>
      split
      next => exact h
      next e => exact cellsFrom_cons.mpr ⟨hb, e, cellsFrom_cons.mpr ⟨by omega, h'.2⟩⟩
    next =>
      split
      next e =>
        subst e
        split
        next => exact cellsFrom_mono h'.2.2 (by omega)
        next e => exact cellsFrom_cons.mpr ⟨hb, e, h'.2.2⟩
      next => exact cellsFrom_cons.mpr ⟨h'.1, h'.2.1, ih h'.2.2 (by omega)⟩

theorem cellWrite_wf {cells : List (Nat × StoreWord)} (h : Memory.wf cells = true) (b : Nat) (v : StoreWord) :
    Memory.wf (cellWrite cells b v) = true :=
  cellWrite_from h (Nat.zero_le b)

theorem cellProgram_wf {cells : List (Nat × StoreWord)} (h : Memory.wf cells = true) (a : Nat) (v : Word16) :
    Memory.wf (cellProgram cells a v) = true :=
  cellWrite_wf h _ _

theorem cellProgramAll_wf (vs : List Word16) : ∀ {cells : List (Nat × StoreWord)} (a : Nat), Memory.wf cells = true →
    Memory.wf (cellProgramAll cells a vs) = true := by
  induction vs with
  | nil => exact fun _ h => h
  | cons v rest ih => exact fun a h => ih (a + 1) (cellProgram_wf h a v)

theorem cellWriteAll_wf (vs : List Word16) : ∀ {cells : List (Nat × StoreWord)} (a : Nat), Memory.wf cells = true →
    Memory.wf (cellWriteAll cells a vs) = true := by
  induction vs with
  | nil => exact fun _ h => h
  | cons v rest ih => exact fun a h => ih (a + 1) (cellWrite_wf h a _)

/-- A run of word programs: each word loses the ones that the program has at zero, and no other address changes. -/
theorem cellRead_cellProgramAll (vs : List Word16) : ∀ {cells : List (Nat × StoreWord)} (a b : Nat),
    Memory.wf cells = true → cellRead (cellProgramAll cells a vs) b =
      if h : a ≤ b ∧ b - a < vs.length then freshWord (wordValue (cellRead cells b) &&& vs[b - a]'h.2)
      else cellRead cells b := by
  induction vs with
  | nil => intro cells a b _; simp [cellProgramAll]
  | cons v rest ih =>
    intro cells a b h
    simp only [cellProgramAll]
    rw [ih (a + 1) b (cellProgram_wf h a v)]
    by_cases e : b = a
    · subst e
      have hr : cellRead (cellProgram cells b v) b = freshWord (wordValue (cellRead cells b) &&& v) :=
        cellRead_cellWrite_same h
      rw [dif_neg (by omega), dif_pos (by simp)]
      simp [hr]
    · have hr : cellRead (cellProgram cells a v) b = cellRead cells b := cellRead_cellWrite_other e
      by_cases hc : a + 1 ≤ b ∧ b - (a + 1) < rest.length
      · have hc' : a ≤ b ∧ b - a < (v :: rest).length := ⟨by omega, by simp only [List.length_cons]; omega⟩
        rw [dif_pos hc, dif_pos hc', hr]
        have : b - a = (b - (a + 1)) + 1 := by omega
        simp [this]
      · have hc' : ¬(a ≤ b ∧ b - a < (v :: rest).length) := by
          simp only [List.length_cons]; omega
        rw [dif_neg hc, dif_neg hc', hr]

theorem filter_from (p : Nat × StoreWord → Bool) : ∀ {cells : List (Nat × StoreWord)} {lo : Nat},
    cellsFrom lo cells = true → cellsFrom lo (cells.filter p) = true
  | [], _, _ => rfl
  | (a, w) :: rest, lo, h => by
    have h' := cellsFrom_cons.mp h
    simp only [List.filter_cons]
    split
    next => exact cellsFrom_cons.mpr ⟨h'.1, h'.2.1, filter_from p h'.2.2⟩
    next => exact cellsFrom_mono (filter_from p h'.2.2) (by omega)

theorem cellErase_wf {cells : List (Nat × StoreWord)} (h : Memory.wf cells = true) (lo hi : Nat) :
    Memory.wf (cellErase cells lo hi) = true :=
  filter_from _ h

theorem cellCorrectAt_from (p : Nat → Bool) : ∀ {cells : List (Nat × StoreWord)} {k : Nat},
    cellsFrom k cells = true → cellsFrom k (cellCorrectAt p cells) = true
  | [], _, _ => rfl
  | (a, w) :: rest, k, h => by
    have h' := cellsFrom_cons.mp h
    have ih := cellCorrectAt_from p h'.2.2
    unfold cellCorrectAt at ih ⊢
    simp only [List.filterMap_cons]
    split
    next => exact cellsFrom_mono ih (by omega)
    next b hb =>
      split at hb
      · split at hb
        · cases hb
        next hc => cases hb; exact cellsFrom_cons.mpr ⟨h'.1, hc, ih⟩
      · cases hb; exact cellsFrom_cons.mpr ⟨h'.1, h'.2.1, ih⟩

theorem cellCorrect_wf {cells : List (Nat × StoreWord)} (h : Memory.wf cells = true) (lo hi : Nat) :
    Memory.wf (cellCorrect cells lo hi) = true :=
  cellCorrectAt_from _ h

theorem partlyErased_wf (reach : Nat → Nat) {cells : List (Nat × StoreWord)} (h : Memory.wf cells = true) (lo hi : Nat) :
    Memory.wf (partlyErased reach lo hi cells) = true :=
  filter_from _ h

theorem partlyProgrammed_wf (done : Nat → Bool) (vs : List Word16) : ∀ {cells : List (Nat × StoreWord)} (a : Nat),
    Memory.wf cells = true → Memory.wf (partlyProgrammed done cells a vs) = true := by
  induction vs with
  | nil => exact fun _ h => h
  | cons v rest ih =>
    intro cells a h
    refine ih (a + 1) ?_
    split
    · exact cellProgram_wf h a v
    · exact h

theorem foldl_write_wf (f : Nat → StoreWord) (as : List Nat) : ∀ {cells : List (Nat × StoreWord)},
    Memory.wf cells = true → Memory.wf (as.foldl (fun c a => cellWrite c a (f a)) cells) = true := by
  induction as with
  | nil => exact fun h => h
  | cons a rest ih => exact fun h => ih (cellWrite_wf h a (f a))

theorem partlyRewritten_wf (reach : Nat → Nat) (words : List Word16) (commit : StoreWord)
    {cells : List (Nat × StoreWord)} (h : Memory.wf cells = true) :
    Memory.wf (partlyRewritten reach words commit cells) = true := by
  unfold partlyRewritten
  split
  · exact cellWrite_wf h _ _
  · apply foldl_write_wf
    split
    · exact h
    · exact cellWrite_wf h _ _

theorem survivingCells_wf {s : State} (h : Memory.wf s.sst.cells = true) : Memory.wf (survivingCells s) = true := by
  have hop : Memory.wf (match s.sst.op with
      | none => s.sst.cells
      | some r => opRemains (Config.resetReach s.resets) s r.op s.sst.cells) = true := by
    split
    · exact h
    next r _ =>
      cases hr : r.op <;> simp only [opRemains]
      case wipe => exact partlyErased_wf _ h _ _
      case erase => exact partlyErased_wf _ h _ _
      case program => exact partlyProgrammed_wf _ _ _ h
      case stampRemoval => split <;> first | exact cellProgram_wf h _ _ | exact h
      case lockSet => split <;> first | exact cellProgram_wf h _ _ | exact h
      case unlock => exact partlyRewritten_wf _ _ _ h
      case validate started => cases started <;> first | exact h | exact cellCorrectAt_from _ h
      case stampWrite => exact partlyRewritten_wf _ _ _ h
  unfold survivingCells
  simp only []
  split
  · exact hop
  · exact partlyErased_wf _ hop _ _

end Sys2Proof.Machine
end

