-- ==== Sys2Proof/Laws/Demands.lean ====
section
/-!
SUPPORT. The recomputation of the signals' demands: what a demand's justification depends on, and that a recomputation
leaves only justified demands.
-/

namespace Sys2Proof

open Sys2Proof.Machine

/-! ## What a justification depends on -/

/-- The parts of the state that terms read, apart from the signals' demands. -/
structure SameWorld (s t : State) : Prop where
  levers : ∀ l, t.leverState l = s.leverState l
  tracks : ∀ tc, (t.track tc).state = (s.track tc).state
  incoming : ∀ x, (t.block x).inc.state = (s.block x).inc.state
  sensed : ∀ x, (t.block x).out.sensed = (s.block x).out.sensed
  release : ∀ x, (t.block x).out.release = (s.block x).out.release
  slots : ∀ n, (t.signal n).lever = (s.signal n).lever ∧ (t.signal n).copy = (s.signal n).copy
  mode : t.mode = s.mode
  cuts : t.vod.cuts = s.vod.cuts

namespace SameWorld

variable {s t u : State}

theorem refl (s : State) : SameWorld s s :=
  ⟨fun _ => rfl, fun _ => rfl, fun _ => rfl, fun _ => rfl, fun _ => rfl, fun _ => ⟨rfl, rfl⟩, rfl, rfl⟩

theorem trans (h : SameWorld s t) (k : SameWorld t u) : SameWorld s u where
  levers l := (k.levers l).trans (h.levers l)
  tracks tc := (k.tracks tc).trans (h.tracks tc)
  incoming x := (k.incoming x).trans (h.incoming x)
  sensed x := (k.sensed x).trans (h.sensed x)
  release x := (k.release x).trans (h.release x)
  slots n := ⟨(k.slots n).1.trans (h.slots n).1, (k.slots n).2.trans (h.slots n).2⟩
  mode := k.mode.trans h.mode
  cuts := k.cuts.trans h.cuts

/-- A change of none of the aspects that terms read. -/
theorem of_changes {as : List Aspect} (h : Changes as s t) (hl : ∀ l, .lever l ∉ as) (ht : ∀ tc, .track tc ∉ as)
    (hi : ∀ x, .incoming x ∉ as) (ho : ∀ x, .outgoing x ∉ as) (hn : .slots ∉ as) (hm : .mode ∉ as) (hc : .cuts ∉ as) :
    SameWorld s t where
  levers l := congrArg LeverRec.state (h (.lever l) (hl l))
  tracks tc := congrArg Track.state (h (.track tc) (ht tc))
  incoming x := congrArg Incoming.state (h (.incoming x) (hi x))
  sensed x := congrArg Outgoing.sensed (h (.outgoing x) (ho x))
  release x := congrArg Outgoing.release (h (.outgoing x) (ho x))
  slots := h .slots hn
  mode := h .mode hm
  cuts := h .cuts hc

end SameWorld

theorem slotOfLever_congr {s t : State} (h : ∀ n, (t.signal n).lever = (s.signal n).lever) (l : Lever) :
    slotOfLever t l = slotOfLever s l := by
  simp [slotOfLever, h]

theorem leverAt_congr {s t : State} (h : ∀ l, t.leverState l = s.leverState l) (l : Lever) (e : LeverEnd) :
    leverAt t l e = leverAt s l e := by
  cases e <;> simp [leverAt, h]

/-- A lever's demand follows from the slots and the demands. -/
theorem demandOf_mono {s t : State} (h : ∀ n, (t.signal n).lever = (s.signal n).lever)
    (hd : ∀ n, (s.signal n).demand = true → (t.signal n).demand = true) {l : Lever} (hs : demandOf s l = true) :
    demandOf t l = true := by
  unfold demandOf at hs ⊢
  rw [slotOfLever_congr h]
  cases hl : slotOfLever s l with
  | none => rw [hl] at hs; exact absurd hs (by simp)
  | some n => rw [hl] at hs; exact hd n hs

/-- A term that holds goes on holding while no demand falls. -/
theorem termHolds_mono {s t : State} (w : SameWorld s t)
    (hd : ∀ n, (s.signal n).demand = true → (t.signal n).demand = true) {thr : Bool} {k : Term}
    (h : termHolds s thr k = true) : termHolds t thr k = true := by
  have hset : termSetAside t k = termSetAside s k := by
    unfold termSetAside
    cases termQualifier k with
    | none => rfl
    | some q => obtain ⟨l, e⟩ := q; cases e <;> simp only [leverAtOther, leverAt_congr w.levers]
  have hbody : termBody s thr k = true → termBody t thr k = true := by
    unfold termBody
    cases termKind k with
    | none => exact id
    | some kind =>
      cases kind
      case lever =>
        simp only []
        cases leverOf k.index.toNat with
        | none => exact id
        | some l => simp only [leverAt_congr w.levers]; exact id
      case track =>
        simp only []
        cases tcOf k.index.toNat with
        | none => exact id
        | some tc => simp only [w.tracks]; exact id
      case sect =>
        simp only []
        cases sectionOf k.index.toNat with
        | none => exact id
        | some p =>
          obtain ⟨x, side⟩ := p
          cases side <;> simp only [sectionHolds, w.incoming, w.sensed] <;> exact id
      case release =>
        simp only []
        cases lineOf k.index.toNat with
        | none => exact id
        | some x => simp only [w.release]; exact id
      case signalOff =>
        simp only []
        cases leverOf k.index.toNat with
        | none => exact id
        | some l => exact demandOf_mono (fun n => (w.slots n).1) hd
  unfold termHolds at h ⊢
  rw [hset]
  cases hs : termSetAside s k with
  | true => rfl
  | false =>
    rw [hs, Bool.false_or] at h
    rw [Bool.false_or]
    exact hbody h

/-- A justified demand stays justified while no demand falls and its own stick stays clear. -/
theorem demandJustified_mono {s t : State} (w : SameWorld s t)
    (hd : ∀ n, (s.signal n).demand = true → (t.signal n).demand = true) {n : SigSlot}
    (hst : (t.signal n).stick = (s.signal n).stick) (h : demandJustified s n = true) : demandJustified t n = true := by
  unfold demandJustified at h ⊢
  rw [(w.slots n).1]
  cases hl : (s.signal n).lever with
  | none => rw [hl] at h; exact h
  | some l =>
    rw [hl] at h
    simp only [Bool.and_eq_true, Bool.not_eq_true'] at h ⊢
    refine ⟨⟨⟨⟨⟨?_, ?_⟩, ?_⟩, ?_⟩, ?_⟩, ?_⟩
    · rw [leverAt_congr w.levers]; exact h.1.1.1.1.1
    · rw [hst]; exact h.1.1.1.1.2
    · rw [w.mode]; exact h.1.1.1.2
    · rw [(w.slots n).2]; exact h.1.1.2
    · rw [w.cuts]; exact h.1.2
    · rw [(w.slots n).2, w.mode]
      exact List.all_eq_true.mpr fun k hk => termHolds_mono w hd (List.all_eq_true.mp h.2 k hk)

/-- The justification of every demand follows from the world and the demands. -/
theorem demandsJustified_congr {s t : State} (w : SameWorld s t)
    (hd : ∀ n, (t.signal n).demand = (s.signal n).demand ∧ (t.signal n).stick = (s.signal n).stick)
    (h : demandsJustified s = true) : demandsJustified t = true := by
  unfold demandsJustified at h ⊢
  refine List.all_eq_true.mpr fun n hn => ?_
  have := List.all_eq_true.mp h n hn
  simp only [Bool.or_eq_true, Bool.not_eq_true'] at this ⊢
  rw [(hd n).1]
  exact this.imp id (demandJustified_mono w (fun m hm => ((hd m).1).trans hm) (hd n).2)

/-! ## The falls -/

/-- The slots whose demands are true. -/
def demandCount (s : State) : Nat :=
  (List.finRange 24).countP fun n => (s.signal n).demand

theorem mustFall_some {s : State} {n : SigSlot} (h : mustFall s = some n) : (s.signal n).demand = true := by
  have := List.find?_some h
  simp only [Bool.and_eq_true] at this
  exact this.1

theorem mustFall_none {s : State} (h : mustFall s = none) : demandsJustified s = true := by
  unfold demandsJustified
  refine List.all_eq_true.mpr fun n hn => ?_
  have := List.find?_eq_none.mp h n hn
  cases hd : (s.signal n).demand <;> simp_all

theorem dropDemand_signal (n m : SigSlot) (s : State) : ((dropDemand n s).signal m).demand =
    if n = m then false else (s.signal m).demand := by
  unfold dropDemand
  rw [State.modSignal_signal]
  split <;> rfl

/-- Turning one entry of a list from true to false lowers the count. -/
theorem countP_drop {α : Type} [DecidableEq α] (p q : α → Bool) (a : α) : ∀ (xs : List α), xs.Nodup → a ∈ xs → p a = true →
    q a = false → (∀ b, b ≠ a → q b = p b) → xs.countP q + 1 = xs.countP p
  | [], _, hm, _, _, _ => absurd hm (by simp)
  | x :: xs, hnd, hm, hp, hq, h => by
    have hnd' := List.nodup_cons.mp hnd
    by_cases e : x = a
    · subst e
      have hrest : xs.countP q = xs.countP p :=
        List.countP_congr fun b hb => by
          have : b ≠ x := fun e => hnd'.1 (e ▸ hb)
          rw [h b this]
      simp [hp, hq, hrest]
    · have hm' : a ∈ xs := (List.mem_cons.mp hm).resolve_left fun e' => e e'.symm
      have := countP_drop p q a xs hnd'.2 hm' hp hq h
      simp only [List.countP_cons, h x e]
      omega

theorem demandCount_drop {s : State} {n : SigSlot} (h : (s.signal n).demand = true) :
    demandCount (dropDemand n s) + 1 = demandCount s := by
  apply countP_drop _ _ n
  · exact List.nodup_finRange 24
  · exact List.mem_finRange n
  · exact h
  · simp [dropDemand_signal]
  · intro m hm
    rw [dropDemand_signal]
    simp [Ne.symm hm]

/-- As many falls as there are demands leave only justified ones. -/
theorem settleFalls_justified : ∀ (k : Nat) (s : State), demandCount s ≤ k → demandsJustified (settleFalls k s) = true
  | 0, s, h => by
    unfold settleFalls demandsJustified
    refine List.all_eq_true.mpr fun n hn => ?_
    have h0 : demandCount s = 0 := by omega
    have := List.countP_eq_zero.mp h0 n hn
    simp_all
  | k + 1, s, h => by
    unfold settleFalls
    split
    next hn => exact mustFall_none hn
    next n hn =>
      have := demandCount_drop (mustFall_some hn)
      exact settleFalls_justified k _ (by omega)

/-! ## The rises -/

theorem raiseDemand_world (n : SigSlot) (s : State) : SameWorld s (raiseDemand n s) :=
  .of_changes (raiseDemand_changes n s) (by simp) (by simp) (by simp) (by simp) (by simp) (by simp) (by simp)

theorem raiseDemand_signal (n m : SigSlot) (s : State) : ((raiseDemand n s).signal m).demand =
    (if n = m then true else (s.signal m).demand) ∧ ((raiseDemand n s).signal m).stick = (s.signal m).stick := by
  unfold raiseDemand
  rw [State.modSignal_signal]
  split <;> exact ⟨rfl, rfl⟩

theorem raiseDemand_justified {s : State} {n : SigSlot} (h : demandsJustified s = true) (hn : demandJustified s n = true) :
    demandsJustified (raiseDemand n s) = true := by
  have up : ∀ m, (s.signal m).demand = true → ((raiseDemand n s).signal m).demand = true := fun m hm => by
    rw [(raiseDemand_signal n m s).1]
    split <;> simp [hm]
  unfold demandsJustified at h ⊢
  refine List.all_eq_true.mpr fun m hm => ?_
  have := List.all_eq_true.mp h m hm
  simp only [Bool.or_eq_true, Bool.not_eq_true'] at this ⊢
  have keep := fun hj => demandJustified_mono (n := m) (raiseDemand_world n s) up (raiseDemand_signal n m s).2 hj
  by_cases e : n = m
  · subst e
    exact .inr (keep hn)
  · rw [(raiseDemand_signal n m s).1, if_neg e]
    exact this.imp id keep

theorem settleRises_justified : ∀ (k : Nat) (s : State), demandsJustified s = true →
    demandsJustified (settleRises k s) = true
  | 0, _, h => h
  | k + 1, s, h => by
    unfold settleRises
    split
    · exact h
    next n hn =>
      have := List.find?_some hn
      simp only [Bool.and_eq_true] at this
      exact settleRises_justified k _ (raiseDemand_justified h this.2)

/-- Once the demands are settled, each stands on everything that R93 asks of it. -/
theorem settleDemands_justified (s : State) : demandsJustified (settleDemands s) = true :=
  settleRises_justified 24 _ (settleFalls_justified 24 s (by
    have := List.countP_le_length (p := fun n => (s.signal n).demand) (l := List.finRange 24)
    simpa [demandCount] using this))

/-- The tellings of changed demands leave the demands as they are. -/
theorem tellDemands_world (s t : State) :
    Changes demandTold t (forEach (List.finRange 24) (fun n u =>
      if (t.signal n).demand = (s.signal n).demand then u else tellDemand n u) t) :=
  forEach_changes (fun n _ => changes_ite (fun _ => .refl _ _) fun _ => tellDemand_changes n _) _ _

/-- A recomputation leaves only justified demands. -/
theorem recompute_justified (s : State) : demandsJustified (recompute s) = true := by
  have h := tellDemands_world s (settleDemands s)
  refine demandsJustified_congr (.of_changes h ?_ ?_ ?_ ?_ ?_ ?_ ?_) (h .demands (by decide)) (settleDemands_justified s)
  all_goals first | decide | (intro x; cases x <;> decide) | (intro x; simp [demandTold, fellAspects])

/-- When an event is over, each demand stands on everything that R93 asks of it. -/
theorem finish_justified (s : State) : demandsJustified (finish s) = true := by
  have h : Changes ([.freeing, .port] ++ reportSent) (recompute s) (finish s) :=
    (startEvaluation_changes _).append (takeFrame_changes _)
  refine demandsJustified_congr (.of_changes h ?_ ?_ ?_ ?_ ?_ ?_ ?_) (h .demands (by decide)) (recompute_justified s)
  all_goals first | decide | (intro x; cases x <;> decide) | (intro x; simp [reportSent])

end Sys2Proof
end

