-- ==== Sys2Proof/Laws/Outputs.lean ====
section
/-!
SUPPORT. Whose outputs an operation may demand: signals demand aspect outputs alone, sections instrument outputs alone, and
levers lock outputs alone, so that each owner's demand outlasts what the others do.
-/

namespace Sys2Proof

open Sys2Proof.Machine

/-- The demands of the outputs that `p` picks out are the same in two states. -/
def DemandsKept (p : Output → Bool) (s t : State) : Prop :=
  ∀ o, p o = true → (t.output o).demand = (s.output o).demand

namespace DemandsKept

variable {p : Output → Bool} {s t u : State}

theorem refl (p : Output → Bool) (s : State) : DemandsKept p s s := fun _ _ => rfl

theorem trans (h : DemandsKept p s t) (k : DemandsKept p t u) : DemandsKept p s u :=
  fun o ho => (k o ho).trans (h o ho)

theorem of_changes {as : List Aspect} (h : Changes as s t) (hn : .outputDemands ∉ as) : DemandsKept p s t :=
  fun o _ => h .outputDemands hn o

end DemandsKept

theorem kept_ite {p : Output → Bool} {s t u : State} {c : Prop} [Decidable c] (h : c → DemandsKept p s t)
    (k : ¬c → DemandsKept p s u) : DemandsKept p s (if c then t else u) := by
  split
  next hc => exact h hc
  next hc => exact k hc

theorem forEach_kept {α : Type} {p : Output → Bool} {f : α → State → State} (h : ∀ x s, DemandsKept p s (f x s)) :
    ∀ (xs : List α) (s : State), DemandsKept p s (forEach xs f s)
  | [], s => .refl p s
  | x :: xs, s => (h x s).trans (forEach_kept h xs (f x s))

theorem postReport_kept (p : Output → Bool) (src : Source) (s : State) : DemandsKept p s (postReport src s) :=
  .of_changes (postReport_changes src s) (by decide)

theorem tellIcc_kept (p : Output → Bool) (names : List Byte → Bool) (s : State) : DemandsKept p s (tellIcc names s) :=
  .of_changes (tellIcc_changes names s) (by decide)

/-- A demand set leaves every other output's demand. -/
theorem setDemand_kept {p : Output → Bool} {o : Output} (ho : p o = false) (d : Demand) (s : State) :
    DemandsKept p s (setDemand o d s) := by
  have h : DemandsKept p s (s.modOutput o fun r => { r with demand := d }) := fun q hq => by
    have : o ≠ q := fun e => by rw [e, hq] at ho; cases ho
    rw [State.modOutput_output, if_neg this]
  unfold setDemand
  exact kept_ite (fun _ => h) fun _ => h.trans (postReport_kept p _ _)

/-- A demand set stands. -/
theorem setDemand_output (o : Output) (d : Demand) (s : State) : ((setDemand o d s).output o).demand = d := by
  have h : ((s.modOutput o fun r => { r with demand := d }).output o).demand = d := by
    rw [State.modOutput_output, if_pos rfl]
  have hp := fun src u => (postReport_changes src u) .outputDemands (by decide) o
  unfold setDemand
  simp only []
  split
  · exact h
  · exact (hp _ _).trans h

/-! ## Signals -/

theorem tellDemand_kept {p : Output → Bool} {n : SigSlot} (hp : p (aspectOutput n) = false) (s : State) :
    DemandsKept p s (tellDemand n s) := by
  unfold tellDemand
  have h := setDemand_kept hp (if (s.signal n).demand then .on else .off) s
  simp only []
  split
  · exact h.trans (postReport_kept p _ _)
  next l _ =>
    refine DemandsKept.trans ?_ (postReport_kept p _ _)
    refine DemandsKept.trans ?_ (tellIcc_kept p _ _)
    refine (h.trans (.of_changes (requeueSignal_changes l _) (by decide))).trans ?_
    exact kept_ite (fun _ => .refl p _) fun _ => .of_changes (markDemandFell_changes _ _) (by decide)

theorem recompute_kept {p : Output → Bool} (hp : ∀ n, p (aspectOutput n) = false) (s : State) :
    DemandsKept p s (recompute s) :=
  (DemandsKept.of_changes (settleDemands_changes s) (by decide)).trans
    (forEach_kept (fun n _ => kept_ite (fun _ => .refl p _) fun _ => tellDemand_kept (hp n) _) _ _)

/-- The end of an event demands aspect outputs alone. -/
theorem finish_kept {p : Output → Bool} (hp : ∀ n, p (aspectOutput n) = false) (s : State) : DemandsKept p s (finish s) :=
  ((recompute_kept hp s).trans (.of_changes (startEvaluation_changes _) (by decide))).trans
    (.of_changes (takeFrame_changes _) (by decide))

/-! ## Sections -/

theorem changeInc_kept {p : Output → Bool} {x : Line} (hp : p (instrumentOutput x) = false) (f : Incoming → Incoming)
    (s : State) : DemandsKept p s (changeInc x f s) := by
  have h : DemandsKept p s (s.modInc x f) := fun _ _ => rfl
  unfold changeInc
  simp only []
  refine kept_ite (fun _ => h) fun _ => ?_
  refine DemandsKept.trans ?_ (postReport_kept p _ _)
  refine DemandsKept.trans ?_ (tellIcc_kept p _ _)
  refine kept_ite (fun _ => h) fun _ => ?_
  exact (h.trans (setDemand_kept hp _ _)).trans (.of_changes (requeueSection_changes x .incoming _) (by decide))

theorem changeOut_kept {p : Output → Bool} (x : Line) (f : Outgoing → Outgoing) (s : State) :
    DemandsKept p s (changeOut x f s) := by
  have h : DemandsKept p s (s.modOut x f) := fun _ _ => rfl
  unfold changeOut
  simp only []
  refine kept_ite (fun _ => h) fun _ => ?_
  refine DemandsKept.trans ?_ (postReport_kept p _ _)
  refine DemandsKept.trans ?_ (tellIcc_kept p _ _)
  refine DemandsKept.trans ?_ (kept_ite (fun _ => .refl p _) fun _ => postReport_kept p _ _)
  refine DemandsKept.trans ?_ (kept_ite (fun _ => .refl p _) fun _ => .of_changes (requeueRelease_changes x _) (by decide))
  exact h.trans (kept_ite (fun _ => .refl p _) fun _ => .of_changes (requeueSection_changes x .outgoing _) (by decide))

/-! ## Levers -/

theorem bscLever_kept {p : Output → Bool} (hp : ∀ x, p (instrumentOutput x) = false) (l : Lever) (s : State) :
    DemandsKept p s (bscLever l s) := by
  apply forEach_kept
  intro x s
  split
  · exact .refl p s
  · exact kept_ite (fun _ => changeInc_kept (hp x) _ s) fun _ => .refl p s

/-- What is told of a lever demands instrument outputs alone. -/
theorem tellLever_kept {p : Output → Bool} (hp : ∀ x, p (instrumentOutput x) = false) (l : Lever) (s : State) :
    DemandsKept p s (tellLever l s) := by
  unfold tellLever
  refine DemandsKept.trans ?_ (postReport_kept p _ _)
  refine DemandsKept.trans ?_ (tellIcc_kept p _ _)
  refine DemandsKept.trans ?_ (bscLever_kept hp l _)
  exact (DemandsKept.of_changes (requeueLever_changes l s) (by decide)).trans (.of_changes (srcLever_changes l _) (by decide))

/-! ## Lock outputs -/

/-- The outputs that levers own. -/
def isLock (o : Output) : Bool :=
  decide (o.val < 48)

theorem isLock_lock (l : Lever) : isLock (lockOutput l) = true := by
  simp [isLock, lockOutput]

theorem isLock_aspect (n : SigSlot) : isLock (aspectOutput n) = false :=
  decide_eq_false (by simp [aspectOutput])

theorem isLock_instrument (x : Line) : isLock (instrumentOutput x) = false :=
  decide_eq_false (by simp [instrumentOutput])

/-- A lever's lock demand outlasts the end of an event. -/
theorem finish_lock (l : Lever) (s : State) : ((finish s).output (lockOutput l)).demand = (s.output (lockOutput l)).demand :=
  finish_kept isLock_aspect s _ (isLock_lock l)

/-- A lever's lock demand outlasts what is told of any lever. -/
theorem tellLever_lock (m l : Lever) (s : State) :
    ((tellLever m s).output (lockOutput l)).demand = (s.output (lockOutput l)).demand :=
  tellLever_kept isLock_instrument m s _ (isLock_lock l)

theorem setLock_output (l : Lever) (on : Bool) (s : State) :
    ((setLock l on s).output (lockOutput l)).demand = if on then .on else .off :=
  setDemand_output _ _ s

/-- A lever put in FAULT has its lock demanded off (R86). -/
theorem enterFault_lock (l : Lever) (why : FaultCause) (s : State) :
    ((enterFault l why s).output (lockOutput l)).demand = .off := by
  unfold enterFault
  rw [tellLever_lock, setLock_output]
  rfl

/-- A lever that settles has its lock demanded off (R85, R86). -/
theorem settle_lock (l : Lever) (why : LeverEvent) (s : State) :
    ((settle l why s).output (lockOutput l)).demand = .off := by
  unfold settle
  rw [tellLever_lock, setLock_output]
  rfl

/-- A lever that is granted its freeing has its lock demanded on (R80). -/
theorem grant_lock (l : Lever) (e : LeverEnd) (s : State) : ((grant l e s).output (lockOutput l)).demand = .on := by
  unfold grant
  simp only []
  rw [tellLever_lock, setLock_output]
  rfl

end Sys2Proof
end

