-- ==== Sys2Proof/Laws/Levers.lean ====
section
/-!
SUPPORT. What each operation on a lever leaves in its record, and that it posts the lever.
-/

namespace Sys2Proof

open Sys2Proof.Machine

/-- What changes no lever's record leaves each as it was. -/
theorem lever_of {as : List Aspect} {s t : State} (h : Changes as s t) (l : Lever) (hn : .lever l ∉ as) :
    t.lever l = s.lever l :=
  h (.lever l) hn

theorem tellLever_lever (m l : Lever) (s : State) : (tellLever m s).lever l = s.lever l :=
  lever_of (tellLever_changes m s) l (by simp [tellings])

theorem setLock_lever (m l : Lever) (on : Bool) (s : State) : (setLock m on s).lever l = s.lever l :=
  lever_of (setLock_changes m on s) l (by simp)

theorem leaveQueue_lever (m l : Lever) (s : State) : (leaveQueue m s).lever l = s.lever l :=
  lever_of (leaveQueue_changes m s) l (by simp)

theorem postReport_lever (src : Source) (l : Lever) (s : State) : (postReport src s).lever l = s.lever l :=
  lever_of (postReport_changes src s) l (by simp)

theorem finish_lever (l : Lever) (s : State) : (finish s).lever l = s.lever l :=
  lever_of (finish_changes s) l (by simp [endOfEvent])

theorem acceptLever_lever (l : Lever) (n r g : Bool) (s : State) :
    (acceptLever l n r g s).lever l = accepted (s.lever l) n r g :=
  State.modLever_lever_same s l _

theorem enterFault_lever (l : Lever) (why : FaultCause) (s : State) :
    (enterFault l why s).lever l = faulted why (s.lever l) := by
  unfold enterFault
  rw [tellLever_lever, setLock_lever, leaveQueue_lever]
  exact State.modLever_lever_same s l _

theorem settle_lever (l : Lever) (why : LeverEvent) (s : State) :
    (settle l why s).lever l = settled why (s.lever l) := by
  unfold settle
  rw [tellLever_lever, setLock_lever]
  exact State.modLever_lever_same s l _

theorem departLever_lever (l : Lever) (s : State) : (departLever l s).lever l =
    { s.lever l with state := .transit, position := none, moved := true, deadline := none } := by
  unfold departLever
  rw [tellLever_lever]
  exact State.modLever_lever_same s l _

theorem acknowledge_lever (l : Lever) (e : LeverEnd) (s : State) : (acknowledge l e s).lever l =
    { s.lever l with
      state := (match e with | .n => .normal | .r => .reverse), cause := none, event := .faultCleared } := by
  unfold acknowledge
  rw [tellLever_lever]
  exact State.modLever_lever_same s l _

theorem grant_lever (l : Lever) (e : LeverEnd) (s : State) : (grant l e s).lever l =
    { notWaiting (s.lever l) with
      state := .freed, origin := some e, position := some e, moved := false, withdrawn := false, lockFault := false
      deadline := some (s.now + 60000), event := .freed } := by
  unfold grant
  simp only []
  have h := freedFromReverse_changes l s
  have hl : (if e = .r then freedFromReverse l s else s).lever l = s.lever l := by
    split
    · exact lever_of h l (by simp)
    · rfl
  have hn : (if e = .r then freedFromReverse l s else s).now = s.now := by
    split
    · exact h .clock (by decide)
    · rfl
  rw [tellLever_lever, setLock_lever, State.modLever_lever_same, hl, hn]

theorem refuse_lever (l : Lever) (why : Withheld) (failing : Option (Nat × Term)) (holder : Option Lever) (s : State) :
    (refuse l why failing holder s).lever l =
      { s.lever l with waiting := true, withheld := some why, failing := failing, holder := holder, event := .refused } := by
  unfold refuse
  rw [postReport_lever]
  exact State.modLever_lever_same s l _

/-! ## Posts -/

theorem tellLever_posts (l : Lever) (s : State) : .lever l ∈ (tellLever l s).hlc.reports := by
  unfold tellLever
  exact mem_postReport _ _

theorem enterFault_posts (l : Lever) (why : FaultCause) (s : State) : .lever l ∈ (enterFault l why s).hlc.reports := by
  unfold enterFault
  exact tellLever_posts _ _

theorem settle_posts (l : Lever) (why : LeverEvent) (s : State) : .lever l ∈ (settle l why s).hlc.reports := by
  unfold settle
  exact tellLever_posts _ _

theorem departLever_posts (l : Lever) (s : State) : .lever l ∈ (departLever l s).hlc.reports := by
  unfold departLever
  exact tellLever_posts _ _

theorem grant_posts (l : Lever) (e : LeverEnd) (s : State) : .lever l ∈ (grant l e s).hlc.reports := by
  unfold grant
  simp only []
  exact tellLever_posts l _

theorem acknowledge_posts (l : Lever) (e : LeverEnd) (s : State) : .lever l ∈ (acknowledge l e s).hlc.reports := by
  unfold acknowledge
  exact tellLever_posts _ _

end Sys2Proof
end

