-- ==== Sys2Proof/Laws/PerInstr.lean ====
section
/-!
SUPPORT. The per-command laws. `Fits`: a command is well-formed, or it is a FRAME_RECEIVED whose payload no length byte can
announce (R2).
-/

namespace Sys2Proof.Laws.Fits

/-- The outside world can send the command, or it is a frame of more than 240 payload bytes. -/
def Statement (i : Instr) : Prop :=
  i.wellFormed = true ∨
    ∃ kind tag payload check, i = .frameReceived kind tag payload check ∧ 240 < payload.length

theorem powerOn : Statement .powerOn := .inl rfl

theorem resetPin : Statement .resetPin := .inl rfl

theorem restartEffect : Statement .restartEffect := .inl rfl

theorem frameReceived (kind tag : Byte) (payload : List Byte) (check : Word16) : Statement (.frameReceived kind tag payload check) := by
  by_cases h : payload.length ≤ 240
  · exact .inl (by simp [Instr.wellFormed, payloadFits, h])
  · exact .inr ⟨kind, tag, payload, check, rfl, by omega⟩

theorem gapDeadline : Statement .gapDeadline := .inl rfl

theorem unknownKind : Statement .unknownKind := .inl rfl

theorem identify : Statement .identify := .inl rfl

theorem hostReadComplete : Statement .hostReadComplete := .inl rfl

theorem query : Statement .query := .inl rfl

theorem leverEnquiry : Statement .leverEnquiry := .inl rfl

theorem faultAck : Statement .faultAck := .inl rfl

theorem timeRelease : Statement .timeRelease := .inl rfl

theorem allSignalsOn : Statement .allSignalsOn := .inl rfl

theorem tcTest : Statement .tcTest := .inl rfl

theorem bellSend : Statement .bellSend := .inl rfl

theorem commutator : Statement .commutator := .inl rfl

theorem sectionRelease : Statement .sectionRelease := .inl rfl

theorem mode : Statement .mode := .inl rfl

theorem restart : Statement .restart := .inl rfl

theorem timebaseRestore : Statement .timebaseRestore := .inl rfl

theorem timebaseTest : Statement .timebaseTest := .inl rfl

theorem lampTest : Statement .lampTest := .inl rfl

theorem storeOpen : Statement .storeOpen := .inl rfl

theorem storeClose : Statement .storeClose := .inl rfl

theorem storeErase : Statement .storeErase := .inl rfl

theorem storeProgram : Statement .storeProgram := .inl rfl

theorem storeRead : Statement .storeRead := .inl rfl

theorem storeSuspend : Statement .storeSuspend := .inl rfl

theorem storeResume : Statement .storeResume := .inl rfl

theorem storeLock : Statement .storeLock := .inl rfl

theorem validate : Statement .validate := .inl rfl

theorem stampRemovalEnd : Statement .stampRemovalEnd := .inl rfl

theorem regionEraseEnd : Statement .regionEraseEnd := .inl rfl

theorem wipeRegionEnd : Statement .wipeRegionEnd := .inl rfl

theorem slotProgramEnd : Statement .slotProgramEnd := .inl rfl

theorem lockSetEnd : Statement .lockSetEnd := .inl rfl

theorem headerRewriteEnd : Statement .headerRewriteEnd := .inl rfl

theorem validationPassStart : Statement .validationPassStart := .inl rfl

theorem validationPassEnd : Statement .validationPassEnd := .inl rfl

theorem scrubStep : Statement .scrubStep := .inl rfl

theorem scrubPeriodEnd : Statement .scrubPeriodEnd := .inl rfl

theorem startupSlotRead : Statement .startupSlotRead := .inl rfl

theorem trackRisingEdge (tc : Tc) : Statement (.trackRisingEdge tc) := .inl rfl

theorem trackFallingEdge (tc : Tc) : Statement (.trackFallingEdge tc) := .inl rfl

theorem measurementLapse (tc : Tc) : Statement (.measurementLapse tc) := .inl rfl

theorem dropDeadline (tc : Tc) : Statement (.dropDeadline tc) := .inl rfl

theorem testDeadline (tc : Tc) : Statement (.testDeadline tc) := .inl rfl

theorem leverEvent (lever : Lever) (normal reverse grip : Bool) : Statement (.leverEvent lever normal reverse grip) := .inl rfl

theorem evaluationReadComplete : Statement .evaluationReadComplete := .inl rfl

theorem freeingExpired (lever : Lever) : Statement (.freeingExpired lever) := .inl rfl

theorem timeDeadline (lever : Lever) : Statement (.timeDeadline lever) := .inl rfl

theorem bellRisingEdge (line : Line) : Statement (.bellRisingEdge line) := .inl rfl

theorem bellFallingEdge (line : Line) : Statement (.bellFallingEdge line) := .inl rfl

theorem codeEndDeadline (line : Line) : Statement (.codeEndDeadline line) := .inl rfl

theorem stuckLimit (line : Line) : Statement (.stuckLimit line) := .inl rfl

theorem soundingEnd (line : Line) : Statement (.soundingEnd line) := .inl rfl

theorem spacingEnd (line : Line) : Statement (.spacingEnd line) := .inl rfl

theorem trailingEnd (line : Line) : Statement (.trailingEnd line) := .inl rfl

theorem offerExpiry (line : Line) (side : Side) : Statement (.offerExpiry line side) := .inl rfl

theorem senseReadingAccepted (line : Line) (p n : Bool) : Statement (.senseReadingAccepted line p n) := .inl rfl

theorem sectionReleaseRunOut (line : Line) : Statement (.sectionReleaseRunOut line) := .inl rfl

theorem roundDue : Statement .roundDue := .inl rfl

theorem firstReadBack (readings : Byte) : Statement (.firstReadBack readings) := .inl rfl

theorem retryReadBack (readings : Byte) : Statement (.retryReadBack readings) := .inl rfl

theorem chainFrameEnd : Statement .chainFrameEnd := .inl rfl

theorem flashPhaseToggle : Statement .flashPhaseToggle := .inl rfl

theorem fullRefresh : Statement .fullRefresh := .inl rfl

theorem lampTestDeadline : Statement .lampTestDeadline := .inl rfl

theorem resetHoldRunOut : Statement .resetHoldRunOut := .inl rfl

theorem timebaseWindow (good : Bool) : Statement (.timebaseWindow good) := .inl rfl

theorem startUpTickLimit : Statement .startUpTickLimit := .inl rfl

theorem transmitFrameEnd : Statement .transmitFrameEnd := .inl rfl

theorem byteReceived (byte : Byte) (stopGood : Bool) : Statement (.byteReceived byte stopGood) := .inl rfl

theorem scrubStepEnd : Statement .scrubStepEnd := .inl rfl

end Sys2Proof.Laws.Fits
end

