-- ==== Sys2Proof/Tests/Slice0.lean ====
section
/-!
SUPPORT. Tests of the model against values the spec gives, the smoke test of the well-formedness check, and for each
statement with hypotheses a witness that meets them, clause by clause.
-/

open Sys2Proof Sys2Proof.Machine

set_option maxRecDepth 100000

namespace Sys2Proof.Tests

/-! ## Small states -/

/-- The state an outcome answers. -/
def nextOf (o : Host.Outcome State Fault Refusal) : State :=
  match o with
  | .next t => t
  | _ => .reset

/-- The state after reset with its MODE report sent and nothing on the line. -/
def quiet : State :=
  { State.reset with hlc := { State.reset.hlc with reports := [] } }

/-- The request of a kind and a payload, with tag 7. -/
def ask (kind : Byte) (payload : List Byte) : Frame :=
  ⟨kind, 7, payload⟩

/-- The quiet state, changed by `f`, with one request waiting. -/
def asked (kind : Byte) (payload : List Byte) (f : State → State := id) : State :=
  let s := f quiet
  { s with hlc := { s.hlc with requests := [ask kind payload] } }

/-- The box in a mode. -/
def inMode (m : Mode) (s : State) : State :=
  { s with bmc := { s.bmc with mode := m } }

/-- The box in MAINTENANCE with the store in a state, running an operation. -/
def storeIn (st : StoreState) (op : Option RunningOp) (s : State) : State :=
  let t := inMode .maintenance s
  { t with sst := { t.sst with state := st, op := op, port := ⟨none, []⟩ } }

/-- The store's words. -/
def withWords (cells : List (Nat × StoreWord)) (s : State) : State :=
  { s with sst := { s.sst with cells := cells } }

/-- The words of a valid header with a standing stamp: identity "AAAAAAAAAAAA", issue 1, LEVERS locked. -/
def header : List (Nat × StoreWord) :=
  (List.range 6).map (fun k => (k, freshWord 0x4141)) ++
    [(6, freshWord 1), (7, freshWord 0xFFFD), (8, freshWord 1), (9, freshWord 5), (10, freshWord 0x0F0F),
      (31, freshWord 0x3C96)]

/-- The read port serving a read that ends now. -/
def reading (u : ReadUse) (s : State) : State :=
  { s with sst := { s.sst with port := ⟨some (u, 0), []⟩ } }

/-- A lever of a state with its contacts, and its catch gripped or not. -/
def lever (st : LeverState) (n r g : Bool) (v : LeverRec) : LeverRec :=
  { v with state := st, normal := ⟨n, 0⟩, reverse := ⟨r, 0⟩, grip := ⟨g, 0⟩ }

/-- A copy of a SHUNT signal's record with no terms. -/
def shunt : RecordCopy :=
  ⟨[1, 4, 0xFF, 0xFF, 0xFF, 0, 0, 60, 0, 0], .good⟩

/-- Lever 1 holds signal slot 1, stands REVERSE, and its signal is off with all it needs, the box OPEN. -/
def signalOff (s : State) : State :=
  ((inMode .openBox s).modLever 0 (lever .reverse false true false)).modSignal 0 fun g =>
    { g with lever := some 0, copy := some shunt, demand := true }

/-- A copy of a TRACK record of a code, with Npu 3 and Th 1000 ms. -/
def trackCopy (code : Byte) : RecordCopy :=
  ⟨[code, 3, 0, 10], .good⟩

/-- A track circuit of code A being read, with a measurement opened `p` ticks ago of high time `h`. -/
def measured (p h : Nat) (st : TrackState) (s : State) : State :=
  ({ s with now := p }).modTrack 0 fun t =>
    { t with copy := some (trackCopy 1), reading := true, state := st, npuEff := 1, meas := some ⟨0, some h⟩ }

/-- A route lock entry of lever 1 with a time release of 60 s. -/
def entry (deadline : Option Nat) : RouteLock :=
  ⟨0, [1], none, 60000, .waitingTrain, deadline, 0⟩

/-- The route lock list. -/
def withLocks (es : List RouteLock) (s : State) : State :=
  { s with src := { s.src with locks := es } }

/-- A LINES record worked SINGLE: home lever 1, starting lever 2, entry TC1, berth TC2, exit TC3. -/
def lineBytes : List Byte :=
  [1, 0, 1, 2, 1, 2, 3, 0xFF]

/-- Line A with its record, in OPEN. -/
def lineA (s : State) : State :=
  (inMode .openBox s).modBlock .a fun b => { b with copy := some ⟨lineBytes, .good⟩, homeCopy := some shunt }

/-- A VOD refresh of group 1 whose read-back is due. -/
def refreshing (first : Option (Table 8 Judged)) (s : State) : State :=
  { s with vod := { s.vod with refresh := some ⟨0, .fill 8 .off, first, 0⟩ } }

/-! ## Well-formedness and the table's bits -/

theorem test_long_payload_ill_formed : (Instr.frameReceived 1 0 (List.replicate 241 0) 0).wellFormed = false := by decide

theorem test_longest_payload_well_formed : (Instr.frameReceived 1 0 (List.replicate 240 0) 0).wellFormed = true := by decide

theorem test_no_word_spells_a_command : decodeTableWord 32 0 = none := rfl

/-! ## Values the spec gives -/

/-- R3: the check over "123456789". -/
theorem test_check_of_the_nine_characters :
    crcBytes 0xFFFF [0x31, 0x32, 0x33, 0x34, 0x35, 0x36, 0x37, 0x38, 0x39] = 0x29B1 := by decide

/-- R2: a frame of L payload bytes is L + 6 bytes long and opens with the sync byte. -/
theorem test_frame_has_its_length : (frameBytes ⟨0x02, 1, [7, 0]⟩).length = 8 ∧ (frameBytes ⟨0x02, 1, [7, 0]⟩).head? = some 0xC3 := by
  decide

/-- Chapter 2's example: a STORE_SUSPEND at 600 of an erase that ends at 803 keeps 203 ms. -/
theorem test_suspend_keeps_the_remaining_time :
    (nextOf (exec .storeSuspend (asked 0x45 [] fun s =>
      { storeIn .erasing (some ⟨.erase .levers, 803⟩) s with now := 600 }))).sst.suspended = some ⟨.levers, 203⟩ := by decide

/-- Chapter 2's example: resumed at 630, the erase ends at 833. -/
theorem test_resume_runs_the_kept_time :
    (nextOf (exec .storeResume (asked 0x46 [] fun s =>
      let t := { storeIn .eraseSuspended none s with now := 630 }
      { t with sst := { t.sst with suspended := some ⟨.levers, 203⟩ } }))).sst.op = some ⟨.erase .levers, 833⟩ := by decide

/-- Chapter 2's example: a lock cleared at 100 rewrites the header to 403. -/
theorem test_unlock_takes_303_ms :
    (nextOf (exec .storeLock (asked 0x47 [1, 0] fun s =>
      { withWords header (storeIn .openIdle none s) with now := 100 }))).sst.op = some ⟨.unlock .levers (freshWord 0x3C96), 403⟩ := by decide

/-- R26: setting the LEVERS flag programs bit 1 of the lock word to 0. -/
theorem test_lock_word : lockWord 0xFFFF .levers = 0xFFFD ∧ unlockWord 0xFFFD .levers = 0xFFFF := by decide

/-- Table 2-1: 333 slots, and 4400 words in all. -/
theorem test_store_layout : regionEnd .indication = 4400 ∧ slotRegion 332 = .indication ∧ slotBase 332 = 4396 := by decide

/-- Table 4-1: the band of code A ends at 360 and that of code B begins at 420. -/
theorem test_track_bands : inBand .a 360 = true ∧ inBand .a 361 = false ∧ inBand .b 419 = false ∧ inBand .b 420 = true := by
  decide

/-- R60: the counted GOOD measurement that reaches Npu_eff clears an OCCUPIED circuit whose hold is over. -/
theorem test_good_measurement_clears :
    ((nextOf (exec (.trackRisingEdge 0) (measured 320 160 .occupied quiet))).track 0).state = .clear := by decide

/-- R59: a period of code B's band on a code A circuit is CROSS. -/
theorem test_cross_code :
    ((nextOf (exec (.trackRisingEdge 0) (measured 480 240 .clear quiet))).track 0).reason = .crossCode := by decide

/-- R76: both contacts closed is FAULT. -/
theorem test_both_contacts_fault :
    (nextOf (exec (.leverEvent 2 true true false) (quiet.modLever 2 (lever .normal true false false)))).leverState 2 = .fault := by
  decide

/-- R89: a lever in FAULT with only its reverse contact closed is acknowledged to REVERSE. -/
theorem test_fault_ack :
    (nextOf (exec .faultAck (asked 0x10 [3] fun s =>
      (inMode .openBox s).modLever 2 (lever .fault false true false)))).leverState 2 = .reverse := by decide

/-- R106: 60 s is 75 s while DEGRADED, and R107 rounds up to 100 ms. -/
theorem test_effective_time : effectiveTime .degraded 60000 = 75000 ∧ effectiveTime .good 60000 = 60000 := by decide

/-- R98: a signal that is off goes to danger, and its stick is counted. -/
theorem test_all_signals_on :
    ((nextOf (exec .allSignalsOn (asked 0x12 [] signalOff))).hlc.wire.map (·.frame)) = some ⟨0x92, 7, [0, 0, 1]⟩ := by decide

/-- Table 7-1: four beats in two groups of two are OFFER_PASSENGER. -/
theorem test_code_name : codeName ⟨[2, 2], 2, false, 0⟩ = some .offerPassenger ∧ codeName ⟨[2, 2], 2, true, 0⟩ = none := by
  decide

/-- R119: BELL_SEND on an idle line sounds at once for 100 ms. -/
theorem test_bell_send :
    ((nextOf (exec .bellSend (asked 0x20 [1, 1] (inMode .openBox)))).bell .a).stepEnd = some 100 := by decide

/-- R126: SENSEP alone is LINE_CLEAR. -/
theorem test_sense_reading :
    ((nextOf (exec (.senseReadingAccepted .b true false) quiet)).block .b).out.sensed = .lineClear := by decide

/-- R156: LAMP_TEST(0) runs 1 s. -/
theorem test_lamp_test_is_clamped :
    (nextOf (exec .lampTest (asked 0x34 [0] (inMode .openBox)))).icc.testUntil = some 1000 := by decide

/-- R146: an output that reads on, commanded off, twice, is WRONG_SIDE and cuts its group. -/
theorem test_wrong_side_cuts :
    (nextOf (exec (.retryReadBack 1) (refreshing (some (.fill 8 .wrongSide))
      ({ quiet with now := 1000 })))).vod.cuts.get 0 = true := by decide

/-- R168: a missed window in GOOD goes to DEGRADED on the oscillator. -/
theorem test_missed_window :
    (nextOf (exec (.timebaseWindow false) { quiet with tbm := { quiet.tbm with state := .good, source := .crystal } })).tbm.state =
      .degraded := by decide

/-- R161: MODE(OPEN) while the reset hold runs is refused with CONDITIONS and code 1. -/
theorem test_open_waits_for_the_hold :
    ((nextOf (exec .mode (asked 0x30 [2] fun s =>
      let t := inMode .commissioning s
      { t with bmc := { t.bmc with hold := some 9 } }))).hlc.wire.map (·.frame)) = some ⟨0xB0, 7, [1, 1, 1, 0]⟩ := by decide

/-- R32: an erased store has no stamp, and leads to MAINTENANCE. -/
theorem test_erased_store_leads_to_maintenance :
    startCheckOf quiet = .noStamp ∧ modeAfterCheck .noStamp = .maintenance := by decide

/-- R32: the read of the header, 2 ms, gives way to that of lever 1's slot, 4 ms. -/
theorem test_start_up_pass_goes_on :
    (nextOf (exec .startupSlotRead { quiet with now := 2 })).sst.port.serving = some (.startup 1, 6) := by decide

/-! ## Witnesses

Each theorem shows states and operands that meet the hypotheses of the statement it names, clause by clause. -/

theorem witness_StepRunsTheFrontCommand :
    ({ quiet with pending := [.resetPin, .mode] } : State).pending = .resetPin :: [.mode] := rfl

/-- The store with an operation that ends at tick 1. -/
def running (op : StoreOp) : State :=
  storeIn .programming (some ⟨op, 1⟩) quiet

/-- The read port serving a read that ends at tick 1. -/
def serves (u : ReadUse) : State :=
  { quiet with sst := { quiet.sst with port := ⟨some (u, 1), []⟩ } }

theorem notYet_one : NotYet (some 1) quiet := by
  rintro d ⟨⟩; decide

theorem witness_CommandThatCannotOccurChangesNothing :
    (∀ f rest, AtHead (asked 0x01 []) f rest → requestKind f.kind ≠ some .query) ∧
    (quiet.hlc.wire = none ∧ restartDue quiet = false ∧ quiet.hlc.rx.framing = .hunt) ∧
    ((∀ i d, (serves (.host 332)).sst.port.serving = some (.host i, d) → 0 < d) ∧
      (∀ l live d, (serves (.evaluation 47 true)).sst.port.serving = some (.evaluation l live, d) → 0 < d) ∧
      (∀ i d, (serves (.scrub 0)).sst.port.serving = some (.scrub i, d) → 0 < d) ∧
      (∀ i d, (serves (.startup 332)).sst.port.serving = some (.startup i, d) → 0 < d) ∧
      scrubbing quiet.mode = false ∧ NotYet (some 1) quiet) ∧
    ((∀ c d, (running (.stampRemoval (.erase .track))).sst.op = some ⟨.stampRemoval c, d⟩ → 0 < d) ∧
      (∀ r d, (running (.erase .track)).sst.op = some ⟨.erase r, d⟩ → 0 < d) ∧
      (∀ r d, (running (.wipe .track)).sst.op = some ⟨.wipe r, d⟩ → 0 < d) ∧
      (∀ i words d, (running (.program 1 [])).sst.op = some ⟨.program i words, d⟩ → 0 < d) ∧
      (∀ r d, (running (.lockSet .track)).sst.op = some ⟨.lockSet r, d⟩ → 0 < d) ∧
      (∀ r commit d, (running (.stampWrite 5 [] erasedWord)).sst.op = some ⟨.unlock r commit, d⟩ → 0 < d) ∧
      (∀ sum ws commit d, (running (.stampWrite 5 [] erasedWord)).sst.op = some ⟨.stampWrite sum ws commit, d⟩ → 0 < d) ∧
      (∀ d, (running (.validate true)).sst.op = some ⟨.validate true, d⟩ → 0 < d) ∧
      (∀ d, (running (.validate true)).sst.op ≠ some ⟨.validate false, d⟩)) ∧
    ((quiet.track 23).filter.level = false ∧ (∀ m, (quiet.track 23).meas = some m → quiet.now < m.openedAt + 4095) ∧
      (quiet.track 23).state ≠ .clear ∧
      ((quiet.modTrack 23 fun t => { t with filter := ⟨true, 0⟩ }).track 23).filter.level = true) ∧
    (quiet.leverState 47 ≠ .freed ∧ (∀ e, entryOf quiet 47 = some e → NotYet e.deadline quiet)) ∧
    ((quiet.bell .c).filter.level = false ∧ (quiet.bell .c).rx = .idle ∧ (quiet.bell .c).rx ≠ .high ∧
      (quiet.bell .c).sender = .idle ∧ lineSound quiet .c = false ∧
      (∀ o, (quiet.block .c).inc.offer = some o → quiet.now < o.expiry) ∧
      (∀ o, (quiet.block .c).out.offer = some o → quiet.now < o.expiry) ∧
      ((quiet.modOut .c fun o => { o with reading := some .blocked }).block .c).out.reading =
        some (pairReading false false)) ∧
    ((∀ fr, quiet.icc.frame = some fr → quiet.now < fr.endsAt) ∧ quiet.tbm.startTicks < 512 ∧
      (∀ r, quiet.vod.refresh = some r → r.first.isSome = true ∨ quiet.now < r.readAt) ∧
      ∀ r, quiet.vod.refresh = some r → r.first = none ∨ quiet.now < r.readAt) := by
  refine ⟨?_, by decide, ⟨?_, ?_, ?_, ?_, by decide, notYet_one⟩, ⟨?_, ?_, ?_, ?_, ?_, ?_, ?_, ?_, ?_⟩,
    ⟨by decide, ?_, by decide, by decide⟩, ⟨by decide, ?_⟩,
    ⟨by decide, by decide, by decide, by decide, by decide, ?_, ?_, by decide⟩, ?_, by decide, ?_, ?_⟩
  · intro f rest h; cases h.1; decide
  all_goals intros
  all_goals first | (intro h; cases h; done) | (rename_i h; cases h; decide) | (rename_i h; cases h; done)

/-- The quiet state at tick 4, the last before a scan of the levers, with nothing due. -/
def beforeScan : State :=
  { quiet with
    now := 4
    sst := { quiet.sst with port := ⟨none, []⟩ }
    vod := { quiet.vod with refresh := none } }

theorem witness_EmptyQueueLetsTimePass :
    (State.reset.pending = [] ∧ transmitterDue .reset = true) ∧
    (transmitterDue { quiet with now := 1 } = false ∧ due { quiet with now := 1 } = .firstReadBack 0 :: []) ∧
    (quiet.pending = [] ∧ transmitterDue quiet = false ∧ due quiet = [] ∧ (quiet.now + 1 - quiet.resetAt) % 5 ≠ 0) ∧
    (beforeScan.pending = [] ∧ transmitterDue beforeScan = false ∧ due beforeScan = [] ∧
      (beforeScan.now + 1 - beforeScan.resetAt) % 5 = 0) := by decide

/-- R53, R112: the tenth equal reading of a track code input is an edge, and the fifth of a bell-in. -/
theorem test_edges_are_accepted :
    let s := (({ quiet with leads := { quiet.leads with
      tcin := quiet.leads.tcin.set 23 true, bellIn := quiet.leads.bellIn.set 2 true } }).modTrack 23 fun t =>
        { t with filter := ⟨false, 9⟩ }).modBell .c fun b => { b with filter := ⟨false, 4⟩ }
    (nextOf (step s)).pending = [.trackRisingEdge 23, .bellRisingEdge .c] := by decide

theorem witness_EveryCommandKeepsItsFrame :
    exec (.timebaseWindow true) quiet = .next (nextOf (exec (.timebaseWindow true) quiet)) ∧
    ∀ cause, ¬ResetBy cause (.timebaseWindow true) quiet :=
  ⟨rfl, by simp [ResetBy]⟩

/-- Of every statement about resets: each of the three kinds of reset takes place. -/
theorem witness_ResetLeavesTheBoxStarting :
    ResetBy .powerOn .powerOn quiet ∧ ResetBy .resetPin .resetPin quiet ∧
    ResetBy .restart .restartEffect
      { quiet with hlc := { quiet.hlc with restartPending := true, restartSent := true } } :=
  ⟨.inl ⟨rfl, rfl⟩, .inr (.inl ⟨rfl, rfl⟩), .inr (.inr ⟨rfl, rfl, rfl⟩)⟩

theorem witness_ResetLeavesTracksAndLeversSafe :
    ResetBy .powerOn .powerOn quiet ∧ ResetBy .resetPin .resetPin quiet ∧
    ResetBy .restart .restartEffect
      { quiet with hlc := { quiet.hlc with restartPending := true, restartSent := true } } :=
  witness_ResetLeavesTheBoxStarting

theorem witness_ResetLeavesLinesAndOutputsSafe :
    ResetBy .powerOn .powerOn quiet ∧ ResetBy .resetPin .resetPin quiet ∧
    ResetBy .restart .restartEffect
      { quiet with hlc := { quiet.hlc with restartPending := true, restartSent := true } } :=
  witness_ResetLeavesTheBoxStarting

/-- The store with an operation whose time is over, its header's words as `header`. -/
def ending (op : StoreOp) : State :=
  withWords header (storeIn .programming (some ⟨op, 0⟩) quiet)

theorem header_canonical : Memory.wf header = true := by decide

theorem witness_ResetKeepsTheStore :
    (ResetBy .powerOn .powerOn quiet ∧ quiet.sst.suspended = none ∧ quiet.sst.op = none) ∧
    (∀ op, ResetBy .resetPin .resetPin (ending op) ∧ (ending op).sst.suspended = none ∧
      (ending op).sst.op = some ⟨op, 0⟩ ∧ StoreCanonical (ending op)) ∧
    (ending (.program headerSlot (List.replicate 32 0))).sst.op = some ⟨.program headerSlot (List.replicate 32 0), 0⟩ ∧
    (List.replicate 32 (0 : Word16)).length = slotWords headerSlot ∧
    (let s := { ending (.program 332 [0, 0, 0, 0]) with
        sst := { (ending (.program 332 [0, 0, 0, 0])).sst with suspended := some ⟨.track, 300⟩ } }
     ResetBy .resetPin .resetPin s ∧ s.sst.suspended = some ⟨.track, 300⟩) :=
  ⟨⟨.inl ⟨rfl, rfl⟩, rfl, rfl⟩, fun _ => ⟨.inr (.inl ⟨rfl, rfl⟩), rfl, rfl, header_canonical⟩, rfl, by decide,
    .inr (.inl ⟨rfl, rfl⟩), rfl⟩

theorem witness_FramesAreCheckedAndQueued :
    ((List.replicate 240 (0 : Byte)).length ≤ 240 ∧ quiet.hlc.requests.length < 4) ∧
    (0 : Word16) ≠ checkOf 1 0 [] ∧
    (let full := { quiet with hlc := { quiet.hlc with requests := List.replicate 4 (ask 1 []) } }
     4 ≤ full.hlc.requests.length ∧ full.hlc.replies.length < 8) ∧
    8 ≤ ({ quiet.hlc with replies := List.replicate 8 (ask 0x81 []) } : Hlc).replies.length := by decide

theorem witness_BytesMoveTheReceiver :
    quiet.hlc.rx.framing = .hunt ∧
    (let rx := { quiet.hlc.rx with framing := .checkLo, gap := some 0 }
     rx.framing ≠ .hunt ∧ rx.gap = some 0 ∧ 0 ≤ quiet.now) := by decide

theorem witness_FrameBytesSpellTheFrame :
    (⟨1, 0, List.replicate 240 0⟩ : Frame).payload.length ≤ 240 ∧ quiet.hlc.rx.framing = .hunt := by decide

theorem witness_BadRequestsAreAnswered :
    (AtHead (asked 0x7E []) (ask 0x7E []) [] ∧ requestKind 0x7E = none) ∧
    (AtHead (asked 0x10 [49]) (ask 0x10 [49]) [] ∧ requestKind 0x10 = some .faultAck ∧
      payloadFault .faultAck [49] = some 0) :=
  ⟨⟨⟨rfl, rfl, rfl, rfl⟩, rfl⟩, ⟨rfl, rfl, rfl, rfl⟩, rfl, rfl⟩

/-- The layouts: a range left at its upper field, texts of 12 and of 0 characters, and a program of the last slot. -/
theorem witness_BadRequestsAreAnswered_layouts :
    ((RequestKind.storeLock, [(1, 5), (0, 1)]) ∈ [(RequestKind.storeErase, [(0, 5)]), (.storeLock, [(1, 5), (0, 1)])] ∧
      [(5 : Byte), 2].length = [(1, 5), (0, 1)].length ∧ payloadFault .storeLock [5, 2] = some 1) ∧
    (payloadFault .query [11, 0] = some 0 ∧ payloadFault .query [6, 10] = none ∧ payloadFault .query [6, 11] = some 1) ∧
    (payloadFault .storeRead [5, 255] = none ∧ payloadFault .storeRead [1, 0] = some 1) ∧
    ((padBytes 12 0x7E ++ [2]).length = 13 ∧ payloadFault .storeOpen (padBytes 12 0x7E ++ [2]) = some 12 ∧
      payloadFault .storeOpen (0 :: 0x41 :: padBytes 11 0) = some 0) ∧
    (payloadFault .storeProgram (5 :: 255 :: padBytes 8 0) = none ∧ payloadFault .storeProgram [6] = some 0 ∧
      payloadFault .storeProgram (1 :: 0 :: padBytes 128 0) = some 1) := by decide

theorem witness_HostReadsAreAskedForAndAnswered :
    AtHead (asked 0x01 []) (ask 0x01 []) [] ∧
    (let s := asked 0x44 [5, 255]
     AtHead s (ask 0x44 [5, 255]) [] ∧ byteOf (regionCode .indication) = 5 ∧ slotOf .indication 255 = some 332 ∧
       s.sst.state = .closed ∧ suspendedRegion s .indication = false) ∧
    (let s := asked 0x01 [] (reading (.host 0))
     s.sst.port.serving = some (.host 0, 0) ∧ 0 ≤ s.now ∧ s.hlc.requests = ask 0x01 [] :: [] ∧ s.hlc.replies = [] ∧
       slotUncorrectable s.sst.cells 0 = false) ∧
    (let s := asked 0x44 [5, 255] (reading (.host 332))
     s.sst.port.serving = some (.host 332, 0) ∧ s.hlc.requests = ask 0x44 [5, 255] :: [] ∧
       slotUncorrectable s.sst.cells 332 = false) :=
  ⟨⟨rfl, rfl, rfl, rfl⟩, ⟨⟨rfl, rfl, rfl, rfl⟩, by decide⟩, by decide, by decide⟩

theorem witness_HostReadsAreAskedForAndAnswered_refused :
    (let s := asked 0x44 [5, 255] (storeIn .erasing (some ⟨.erase .track, 300⟩))
     AtHead s (ask 0x44 [5, 255]) [] ∧ s.sst.state ∈ [StoreState.erasing, .programming, .validating]) ∧
    (let s := asked 0x44 [2, 24] fun s =>
       let t := storeIn .eraseSuspended none s
       { t with sst := { t.sst with suspended := some ⟨.track, 9⟩ } }
     AtHead s (ask 0x44 [2, 24]) [] ∧ slotOf .track 24 = some 72 ∧ suspendedRegion s .track = true) := by
  simp only [AtHead]; decide

theorem witness_QueryShowsTheSource :
    let s := asked 0x02 [1, 48]
    AtHead s (ask 0x02 [1, 48]) [] ∧ sourceBytes (.lever 47) = [1, 48] ∧ mustFall s = none ∧ mayRise s = none :=
  ⟨⟨rfl, rfl, rfl, rfl⟩, by decide⟩

theorem witness_TransmitterTakesTheNextFrame :
    (let s := { quiet with hlc := { quiet.hlc with wire := some ⟨ask 0x81 [], [], 0⟩, replies := [ask 0x82 []] } }
     s.hlc.wire = some ⟨ask 0x81 [], [], 0⟩ ∧ s.hlc.restartSent = false ∧ s.hlc.replies = ask 0x82 [] :: [] ∧
       (nextOf (exec .transmitFrameEnd s)).hlc.restartSent = false) ∧
    (let s := { quiet with hlc := { quiet.hlc with wire := some ⟨ask 0xB1 [0], [], 0⟩, restartPending := true } }
     s.hlc.replies = [] ∧ s.hlc.restartPending = true ∧ (ask 0xB1 [0]).kind = 0xB1 ∧
       (nextOf (exec .transmitFrameEnd s)).hlc.restartSent = true) ∧
    (let s := { quiet with hlc := { quiet.hlc with wire := some ⟨ask 0x90 [0], [], 0⟩, restartPending := true } }
     s.hlc.replies = [] ∧ (nextOf (exec .transmitFrameEnd s)).hlc.restartSent = false) ∧
    (let s := { quiet with hlc := { quiet.hlc with wire := some ⟨ask 0x90 [0], [], 0⟩, reports := [.store, .mode] } }
     s.hlc.replies = [] ∧ s.hlc.restartPending = false ∧ s.hlc.reports = .store :: [.mode]) := by decide

/-- A frame leaving the line, with the report of a source next, and line C's two codes to tell. -/
def reported (src : Source) : State :=
  let s := { quiet with hlc := { quiet.hlc with wire := some ⟨ask 0x90 [0], [], 0⟩, reports := [src, .mode] } }
  s.modBell .c fun b => { b with
    received := [⟨[1], none, false, false, 0⟩, ⟨[7], none, false, false, 9⟩], discarded := true }

/-- A report of each kind that its sending changes at its owner: a bell line with two codes, the store's overrun, a lamp
test completed. -/
theorem witness_TransmitterTakesTheNextFrame_reports :
    (let s := reported (.bell .c)
     s.hlc.replies = [] ∧ s.hlc.restartPending = false ∧ s.hlc.reports = .bell .c :: [.mode] ∧
       1 < (s.bell .c).received.length ∧ mustFall s = none ∧ mayRise s = none) ∧
    ((reported .store).hlc.reports = .store :: [.mode] ∧ (reported .indication).hlc.reports = .indication :: [.mode]) ∧
    (let t := nextOf (exec .transmitFrameEnd (reported (.bell .c)))
     (t.bell .c).received.length = 1 ∧ (t.bell .c).discarded = false ∧ t.hlc.reports = [.mode, .bell .c]) := by decide

theorem witness_CheckIsTheRegisterOverTheFrame :
    (takeFrame .reset).hlc.wire.isSome = true ∧
    (let t := nextOf (exec (.frameReceived 1 0 [] (checkOf 1 0 [])) quiet)
     t.hlc.requests ≠ quiet.hlc.requests) ∧
    quiet.hlc.rx.framing = .hunt ∧ (0xC2 : Byte) ≠ 0xC3 := by decide

theorem witness_QueuesHoldEachEntryOnce :
    (Source.store ∉ State.reset.hlc.reports ∧ Source.mode ∈ State.reset.hlc.reports ∧ ReportsOnce .reset) ∧
    (let s := { quiet with lle := { quiet.lle with queue := [0, 47], eval := some 1 } }
     FreeingOnce s ∧ step s = .next (nextOf (step s))) ∧
    (let s := withLocks [entry none, { entry none with lever := 47 }] quiet
     RouteLocksOnce s ∧ step s = .next (nextOf (step s))) :=
  ⟨by unfold ReportsOnce; decide, ⟨⟨by decide, by rintro l ⟨⟩; decide⟩, rfl⟩, by unfold RouteLocksOnce; decide, rfl⟩

/-- A signal is off, with all that proves it. -/
theorem witness_SignalsStayProved :
    SignalsProved (signalOff quiet) ∧ ((signalOff quiet).signal 0).demand = true ∧
    step (signalOff quiet) = .next (nextOf (step (signalOff quiet))) :=
  ⟨by unfold SignalsProved; decide, by decide, rfl⟩

/-- A demand that falls with its lever's fault, a lever that comes to NORMAL, and demands that are settled. -/
theorem witness_SignalsStayProved_sticks :
    (let s := signalOff quiet
     let c := Instr.leverEvent 0 true true false
     (∀ cause, ¬ResetBy cause c s) ∧ SignalsProved s ∧ exec c s = .next (nextOf (exec c s)) ∧
       (s.signal 0).demand = true ∧ ((nextOf (exec c s)).signal 0).demand = false) ∧
    (let s := (inMode .openBox quiet).modLever 0 (lever .transit false false true)
     let s := s.modSignal 0 fun g => { g with lever := some 0, stick := true }
     let c := Instr.leverEvent 0 true false false
     (∀ cause, ¬ResetBy cause c s) ∧ SignalsProved s ∧ s.mode ≠ .starting ∧ exec c s = .next (nextOf (exec c s)) ∧
       slotOfLever s 0 = some 0 ∧ s.leverState 0 ≠ .normal ∧ (nextOf (exec c s)).leverState 0 = .normal) ∧
    (DemandsSettled (signalOff quiet) ∧ step (signalOff quiet) = .next (nextOf (step (signalOff quiet)))) :=
  ⟨⟨by simp [ResetBy], by unfold SignalsProved; decide, rfl, by decide, by decide⟩,
    ⟨by simp [ResetBy], by unfold SignalsProved; decide, by decide, rfl, by decide, by decide, by decide⟩,
    by unfold DemandsSettled; decide, rfl⟩

theorem witness_StoreStaysCanonical :
    StoreCanonical (withWords header quiet) ∧
    step (withWords header quiet) = .next (nextOf (step (withWords header quiet))) :=
  ⟨by unfold StoreCanonical; decide, rfl⟩

theorem witness_RequestsStayBounded :
    RequestsBounded { quiet with hlc := { quiet.hlc with requests := List.replicate 4 (ask 1 []) } } ∧
    step quiet = .next (nextOf (step quiet)) :=
  ⟨by unfold RequestsBounded; decide, rfl⟩

theorem witness_OnlyAResetClearsACut :
    let s := { quiet with vod := { quiet.vod with cuts := quiet.vod.cuts.set 9 true } }
    (∀ cause, ¬ResetBy cause (.timebaseWindow true) s) ∧
      exec (.timebaseWindow true) s = .next (nextOf (exec (.timebaseWindow true) s)) ∧ s.vod.cuts.get 9 = true :=
  ⟨by simp [ResetBy], rfl, by decide⟩

theorem witness_TrackCodesHaveTheirBands :
    inBand .d 1215 = true ∧ ((measured 320 160 .clear quiet).track 0).copy = some (trackCopy 1) := by decide

theorem witness_EdgesOpenAndTimeAMeasurement :
    (let t := { Track.afterReset with reading := true }
     t.filter.level = false ∧ t.reading = true ∧ t.meas = none) ∧
    (Track.afterReset.filter.level = false ∧ Track.afterReset.reading = false) ∧
    (let s := ({ quiet with now := 4094 }).modTrack 23 fun t => { t with filter := ⟨true, 0⟩, meas := some ⟨0, none⟩ }
     (s.track 23).filter.level = true ∧ (s.track 23).meas = some ⟨0, none⟩ ∧ s.now < 0 + 4095) ∧
    (let s := ({ quiet with now := 4095 }).modTrack 23 fun t => { t with meas := some ⟨0, some 9⟩ }
     (s.track 23).meas = some ⟨0, some 9⟩ ∧ 0 + 4095 ≤ s.now) := by decide

theorem witness_MeasurementsAreJudged :
    (let s := measured 320 240 .occupied quiet
     let t := s.track 0
     t.filter.level = false ∧ t.reading = true ∧ t.meas = some ⟨0, some 240⟩ ∧ s.now < 0 + 4095 ∧
       codeOf t = some .a ∧ 320 = s.now - 0 ∧ inBand .a 320 = true ∧ 320 ≤ 240 * 4 ∧ 240 * 4 ≤ 320 * 3 ∧
       t.state = .occupied ∧ t.npuEff ≤ min 30 (t.good + 1) ∧ t.holdUntil ≤ s.now) ∧
    (let s := measured 320 240 .clear quiet
     codeOf (s.track 0) = some .a ∧ (s.track 0).state = .clear) ∧
    (let s := (measured 320 80 .occupied quiet).modTrack 0 fun t => { t with holdUntil := 321 }
     ¬((s.track 0).npuEff ≤ min 30 ((s.track 0).good + 1) ∧ (s.track 0).holdUntil ≤ s.now)) ∧
    (∀ k, inBand k 400 = false) ∧ (inBand .a 320 = true ∧ ¬(320 ≤ 79 * 4 ∧ 79 * 4 ≤ 320 * 3)) ∧
    (TrackCode.b ≠ .a ∧ inBand .b 480 = true ∧ codeOf ((measured 480 240 .clear quiet).track 0) = some .a) := by
  refine ⟨by decide, by decide, by decide, ?_, by decide, by decide⟩
  intro k; cases k <;> decide

theorem witness_TrackTestsAreJudgedInOrder :
    AtHead (asked 0x13 [24]) (ask 0x13 [24]) [] ∧ byteOf (23 + 1) = 24 ∧ (asked 0x13 [24]).mode = .starting ∧
    (let s := asked 0x13 [24] (inMode .maintenance)
     s.mode ≠ .starting ∧ (s.track 23).copy = none) ∧
    (let s := asked 0x13 [1] (fun s => inMode .openBox ((measured 320 160 .clear s).modTrack 0 fun t => { t with test := some 9 }))
     s.mode ≠ .starting ∧ (s.track 0).copy = some (trackCopy 1) ∧ (trackCopy 1).cond ≠ .corrupt ∧
       trackCode (trackCopy 1).bytes ≠ none ∧ (s.track 0).test.isSome = true) ∧
    (let s := asked 0x13 [1] (fun s => inMode .openBox (measured 320 160 .clear s))
     (s.track 0).copy = some (trackCopy 1) ∧ (s.track 0).test = none) :=
  ⟨⟨rfl, rfl, rfl, rfl⟩, by decide, by decide, by decide, by decide, by decide⟩

theorem witness_CircuitIsMadeOccupied :
    (let s := quiet.modTrack 0 fun t => { t with state := .clear, drop := some 0 }
     (s.track 0).state = .clear ∧ (s.track 0).drop = some 0 ∧ 0 ≤ s.now) ∧
    (let s := asked 0x13 [1] (fun s => inMode .openBox (measured 320 160 .clear s))
     AtHead s (ask 0x13 [1]) [] ∧ s.mode ≠ .starting ∧ trackSound (s.track 0).copy = true ∧ (s.track 0).test = none) ∧
    (let s := quiet.modTrack 0 fun t => { t with test := some 0 }
     (s.track 0).test = some 0 ∧ 0 ≤ s.now ∧ (s.track 0).inFault = false) :=
  ⟨by decide, ⟨⟨rfl, rfl, rfl, rfl⟩, by decide⟩, by decide⟩

theorem witness_LeverAtRestIsWatched :
    let s := quiet.modLever 47 (lever .normal true false false)
    restEnd s 47 = some .n ∧
    leverChanges (s.lever 47) true true false = true ∧
    (leverChanges (s.lever 47) false false false = true ∧ ¬shows false false .n) ∧
    (leverChanges (s.lever 47) true false true = true ∧ shows true false .n ∧ (s.lever 47).grip.accepted = false) ∧
    (let u := s.modLever 47 (lever .normal true false true)
     restEnd u 47 = some .n ∧ leverChanges (u.lever 47) true false false = true ∧ (u.lever 47).grip.accepted = true) := by
  simp only [shows]; decide

theorem witness_LeverOffItsEndIsFollowed :
    let s := quiet.modLever 0 fun v => { lever .freed true false true v with position := some .n }
    (leverChanges (s.lever 0) true true true = true ∧ s.leverState 0 = .freed) ∧
    leverChanges (s.lever 0) false false true = true ∧
    (leverChanges (s.lever 0) true false false = true ∧ (s.lever 0).position = some .n ∧ shows true false .n ∧
      (s.lever 0).grip.accepted = true) ∧
    (let u := quiet.modLever 0 (lever .transit false false true)
     leverChanges (u.lever 0) false true true = true ∧ u.leverState 0 = .transit ∧ shows false true .r) := by
  simp only [shows]; decide

/-- Lever 48 waits on lever 1. -/
def waitsOn0 (s : State) : State :=
  s.modLever 47 fun v => { lever .normal true false true v with
    waiting := true, withheld := some .term, failing := some (1, ⟨1, 1, 0, 0⟩) }

/-- Lever 1, a signal's and line A's home lever, in TRANSIT from an end, about to settle. -/
def leverTells (e : LeverEnd) : State :=
  let s := (waitsOn0 (lineA quiet)).modLever 0 fun v => { lever .transit false false false v with origin := some e }
  withLocks [entry none] ((s.modSignal 0 fun g => { g with lever := some 0, stick := true }).modInc .a fun i =>
    { i with state := .trainOnLine, step := .entryCleared })

/-- What a settling lever tells: lever 48 waits on it, its slot has an entry, and it is line A's home lever. -/
theorem witness_LeverTold :
    ((47 : Lever) ≠ 0 ∧ ((leverTells .r).lever 47).waiting = true ∧
      ((leverTells .r).lever 47).failing = some (1, ⟨1, 1, 0, 0⟩) ∧ termLever ⟨1, 1, 0, 0⟩ = some 0 ∧
      termQualifier ⟨2, 1, 0, 1⟩ = some (0, .n)) ∧
    (let s := leverTells .r
     let t := nextOf (exec (.leverEvent 0 false true false) s)
     slotOfLever s 0 = some 0 ∧ t.leverState 0 = .reverse ∧ (entryOf s 0).isSome = true ∧ t.src.locks = [] ∧
       (t.signal 0).removal = .rePull ∧ queuedOrEvaluated t 47 = true) ∧
    (let s := leverTells .n
     let t := nextOf (exec (.leverEvent 0 true false false) s)
     t.leverState 0 = .normal ∧ (s.signal 0).demand = false ∧ lineRecord s .a = some lineBytes ∧
       homeLever lineBytes = some 0 ∧ (s.block .a).frozen = false ∧ (s.block .a).inc.state = .trainOnLine ∧
       (s.block .a).inc.step = .entryCleared ∧ (t.block .a).inc.step = .proven ∧ (t.signal 0).stick = false) ∧
    lineRecord (leverTells .n) .b = none := by decide

/-- A copy of a POINTS record whose ToReverse list is the one term given. -/
def pointsWith (kind index value : Byte) : RecordCopy :=
  ⟨[3, 0, 0xFF, 0xFF, 0xFF, 0xFF, 0xFF, 0xFF, 1, 0, kind, index, value, 0], .good⟩

theorem witness_FreeingIsJudgedInOrder :
    let s := inMode .openBox quiet
    let cut : State := { s with vod := { s.vod with cuts := s.vod.cuts.set (groupOf (lockOutput 0)) true } }
    let held := withLocks [{ entry none with lever := 5, held := [0] }] s
    (judgeFreeing s 0 .n (some shunt) = .granted ∧ signalFromReverse (signalOff quiet) 0 .r = true) ∧
    (inMode .switchedOut quiet).mode = .switchedOut ∧
    (quiet.mode ≠ .openBox ∧ quiet.mode ≠ .switchedOut) ∧
    (s.mode = .openBox ∧ signalFromReverse s 0 .n = false ∧ leverSound none = false) ∧
    (cut.mode = .openBox ∧ leverSound (some shunt) = true ∧ lockCut cut 0 = true) ∧
    (held.mode = .openBox ∧ signalFromReverse held 0 .n = false ∧ leverSound (some shunt) = true ∧
      lockCut held 0 = false ∧ holdingEntry held 0 = some { entry none with lever := 5, held := [0] }) ∧
    (leverSound (some (pointsWith 2 1 0)) = true ∧ lockCut s 0 = false ∧ holdingEntry s 0 = none ∧
      listFrom .n (copyBytes (some (pointsWith 2 1 0))) = [] ++ ⟨2, 1, 0, 0⟩ :: [] ∧
      termHolds s false ⟨2, 1, 0, 0⟩ = false) ∧
    judgeFreeing s 0 .n (some (pointsWith 2 1 0)) = .withheld .term (some (1, ⟨2, 1, 0, 0⟩)) none ∧
    AtHead (asked 0x03 [48, 1]) (ask 0x03 [48, 1]) [] ∧ (asked 0x03 [48, 1]).mode = .starting ∧
    (asked 0x03 [48, 1] (inMode .maintenance)).mode ≠ .starting ∧ byteOf (leverNumber 47) = 48 := by
  simp only [AtHead]; decide

/-- A lever at NORMAL under evaluation, its read at its end. -/
def evaluated (m : Mode) : State :=
  let s := (inMode m (reading (.evaluation 0 true) quiet)).modLever 0 (lever .normal true false true)
  { s with lle := { s.lle with eval := some 0 }
           sst := { s.sst with cells := [(32, freshWord 0x0300), (33, freshWord 0xFFFF), (36, freshWord 0)] } }

/-- Signal lever 1 at REVERSE under evaluation, its demand true, with a record locked always or not. -/
def signalEvaluated (locks : Byte) (s : State) : State :=
  let t := (signalOff (reading (.evaluation 0 true) s)).modSignal 0 fun g =>
    { g with copy := some ⟨[1, 4, 0xFF, 1, 2, locks, 0, 60, 0, 0], .good⟩ }
  { t with lle := { t.lle with eval := some 0 } }

theorem witness_EvaluationFreesOrRefuses :
    (let s := evaluated .openBox
     s.sst.port.serving = some (.evaluation 0 true, 0) ∧ 0 ≤ s.now ∧ s.lle.eval = some 0 ∧ restEnd s 0 = some .n ∧
       slotUncorrectable s.sst.cells (leverSlot 0) = false ∧
       judgeFreeing s 0 .n (slotCopy s (leverSlot 0)) = .granted) ∧
    (let s := signalEvaluated 0 quiet
     s.sst.port.serving = some (.evaluation 0 true, 0) ∧ s.lle.eval = some 0 ∧ restEnd s 0 = some .r ∧
       slotUncorrectable s.sst.cells (leverSlot 0) = false ∧
       judgeFreeing s 0 .r (slotCopy s (leverSlot 0)) = .granted ∧ slotOfLever s 0 = some 0 ∧
       (s.signal 0).demand = true ∧ approachTc (copyBytes (s.signal 0).copy) = some 0 ∧
       (s.track 0).state = .occupied) ∧
    (let s := signalEvaluated 0 (quiet.modTrack 0 fun t => { t with state := .clear })
     (s.signal 0).demand = true ∧ locksAlways (copyBytes (s.signal 0).copy) = false ∧
       approachTc (copyBytes (s.signal 0).copy) = some 0 ∧ (s.track 0).state ≠ .occupied) ∧
    (let s := evaluated .maintenance
     restEnd s 0 = some .n ∧ judgeFreeing s 0 .n (slotCopy s (leverSlot 0)) = .withheld .wrongMode none none) := by
  decide

theorem witness_EvaluationFreesOrRefuses_waiting :
    let s := waitsOn0 (evaluated .openBox)
    (47 : Lever) ≠ 0 ∧ (s.lever 47).waiting = true ∧ (s.lever 47).failing = some (1, ⟨1, 1, 0, 0⟩) ∧
      queuedOrEvaluated (nextOf (exec .evaluationReadComplete s)) 47 = true := by decide

/-- R101, R102: the entry of a signal locked by an approaching train, with its passing circuit OCCUPIED. -/
theorem test_entry_is_made :
    (nextOf (exec .evaluationReadComplete (signalEvaluated 0 quiet))).src.locks.map
      (fun e => (e.lever, e.passing, e.time, e.state)) = [(0, some 1, 60000, .trainPassing)] := by decide

theorem witness_FreeingExpiresAndFaultIsAcknowledged :
    (let s := quiet.modLever 0 fun v => { lever .freed true false true v with deadline := some 0 }
     s.leverState 0 = .freed ∧ (s.lever 0).deadline = some 0 ∧ 0 ≤ s.now) ∧
    (let s := asked 0x10 [1] fun s => (inMode .maintenance s).modLever 0 (lever .fault true false false)
     AtHead s (ask 0x10 [1]) [] ∧ byteOf (leverNumber 0) = 1 ∧ s.mode ≠ .starting ∧ s.leverState 0 = .fault ∧
       shows (s.lever 0).normal.accepted (s.lever 0).reverse.accepted .n) ∧
    (asked 0x10 [1] (inMode .maintenance)).leverState 0 ≠ .fault ∧
    (let s := asked 0x10 [1] fun s => (inMode .maintenance s).modLever 0 (lever .fault true true false)
     s.leverState 0 = .fault ∧ (s.lever 0).normal.accepted = (s.lever 0).reverse.accepted) ∧
    (asked 0x10 [1]).mode = .starting :=
  ⟨by decide, ⟨⟨rfl, rfl, rfl, rfl⟩, by decide, by decide, by decide, by simp only [shows]; decide⟩,
    by decide, by decide, by decide⟩

theorem witness_TimeReleaseIsTimed :
    (AtHead (asked 0x11 [1]) (ask 0x11 [1]) [] ∧ (asked 0x11 [1]).mode = .starting) ∧
    (let s := asked 0x11 [1] fun s => inMode .openBox (withLocks [entry none] s)
     AtHead s (ask 0x11 [1]) [] ∧ byteOf (leverNumber 0) = 1 ∧ s.mode ≠ .starting ∧ entryOf s 0 = some (entry none) ∧
       (entry none).deadline = none) ∧
    (let s := asked 0x11 [1] fun s => inMode .openBox (withLocks [entry (some 9)] s)
     entryOf s 0 = some (entry (some 9)) ∧ (entry (some 9)).deadline.isSome = true) ∧
    entryOf (asked 0x11 [1] (inMode .openBox)) 0 = none := by
  simp only [AtHead]; decide

theorem witness_TimeDeadlineRemovesTheEntry :
    let s := withLocks [entry (some 0)] quiet
    entryOf s 0 = some (entry (some 0)) ∧ (entry (some 0)).deadline = some 0 ∧ 0 ≤ s.now := by decide

theorem witness_AllSignalsGoOn :
    AtHead (asked 0x12 []) (ask 0x12 []) [] ∧ (asked 0x12 []).mode = .starting ∧
    (let s := asked 0x12 [] signalOff
     s.mode ≠ .starting ∧ slotReverse s 0 = true ∧ (s.signal 0).demand = true ∧ SignalsProved s ∧
       slotReverse s 1 = false) :=
  ⟨⟨rfl, rfl, rfl, rfl⟩, rfl, by simp only [SignalsProved]; decide⟩

/-- A bell line of an input level, in a receive state, its high begun at `h`. -/
def heard (level : Bool) (rx : BellRx) (h : Option Nat) (code : Option OpenCode) (b : BellLine) : BellLine :=
  { b with filter := ⟨level, 0⟩, rx := rx, highStart := h, code := code }

theorem witness_HighsAreJudgedOnTheirLength :
    ((quiet.bell .a).filter.level = false ∧ (inMode .openBox quiet).mode ≠ .starting ∧ (quiet.bell .a).rx = .idle) ∧
    ((quiet.bell .a).filter.level = false ∧ quiet.mode = .starting) ∧
    (let s := (inMode .openBox quiet).modBell .b (heard false .stuck (some 0) none)
     (s.bell .b).filter.level = false ∧ (s.bell .b).rx = .stuck) ∧
    (let s := ({ quiet with now := 39 }).modBell .a (heard true .high (some 0) none)
     (s.bell .a).filter.level = true ∧ (s.bell .a).rx = .high ∧ (s.bell .a).highStart = some 0 ∧ s.now < 0 + 40 ∧
       (s.bell .a).code = none) ∧
    (let c : OpenCode := ⟨[1], 1, false, 0⟩
     let s := ({ quiet with now := 1499 }).modBell .b (heard true .high (some 1460) (some c))
     (s.bell .b).highStart = some 1460 ∧ s.now < 1460 + 40 ∧ (s.bell .b).code = some c ∧ s.now < c.lastFall + 1500) ∧
    (let c : OpenCode := ⟨[1], 1, false, 0⟩
     let s := ({ quiet with now := 1500 }).modBell .b (heard true .high (some 1461) (some c))
     (s.bell .b).highStart = some 1461 ∧ s.now < 1461 + 40 ∧ (s.bell .b).code = some c ∧ c.lastFall + 1500 ≤ s.now) ∧
    (let s := ({ quiet with now := 4999 }).modBell .c (heard true .high (some 0) none)
     (s.bell .c).rx = .high ∧ 0 + 40 ≤ s.now ∧ s.now < 0 + 5000) ∧
    (let s := ({ quiet with now := 5000 }).modBell .c (heard true .high (some 0) none)
     (s.bell .c).highStart = some 0 ∧ 0 + 5000 ≤ s.now) ∧
    (let s := quiet.modBell .c (heard true .stuck (some 0) none)
     (s.bell .c).filter.level = true ∧ (s.bell .c).rx = .stuck) := by decide

theorem witness_BeatsMakeCodes :
    (let c : OpenCode := ⟨[2, 12], 2, false, 100⟩
     c.groups = [2] ++ [12] ∧ c.seen ≤ 6 ∧ c.seen = c.groups.length ∧ c.lastFall ≤ 449) ∧
    (⟨[1], 1, true, 0⟩ : OpenCode).invalid = true ∧ (⟨[1], 1, false, 0⟩ : OpenCode).invalid = false := by decide

theorem witness_BeatsMakeCodes_seventh :
    let c : OpenCode := ⟨[1, 1, 1, 1, 1, 1], 7, true, 100⟩
    6 < c.seen ∧ c.lastFall ≤ 449 ∧ c.lastFall ≤ 450 ∧ (countBeat 450 550 false (some c)).seen = 8 := by decide

theorem witness_CodesComplete :
    let c : OpenCode := ⟨[1], 1, false, 0⟩
    (let s := ({ quiet with now := 1500 }).modBell .a (heard false .gap none (some c))
     (s.bell .a).code = some c ∧ c.lastFall + 1500 ≤ s.now ∧ (s.bell .a).rx = .gap ∧ (s.bell .a).received.length < 8) ∧
    (let s := ({ quiet with now := 1501 }).modBell .a (heard true .high (some 1500) (some c))
     (s.bell .a).rx = .high ∧ (s.bell .a).highStart = some 1500 ∧ c.lastFall + 1500 ≤ 1500) ∧
    (let s := ({ quiet with now := 5000 }).modBell .a (heard true .high (some 0) none)
     (s.bell .a).highStart = some 0 ∧ 0 + 5000 ≤ s.now) ∧
    8 ≤ (List.replicate 8 (⟨[1], none, false, false, 0⟩ : CodeRecord)).length := by decide

/-- Line A with 8 codes held, and its code at its end. -/
def fullQueue : State :=
  let s := ({ quiet with now := 1500 }).modBell .a (heard false .gap none (some ⟨[1], 1, false, 0⟩))
  s.modBell .a fun b => { b with received := List.replicate 8 ⟨[1], none, false, false, 0⟩ }

/-- A code completed with 8 held, lost with its flag, or its flag carried off by the report that goes out with it. -/
theorem witness_CodesComplete_full :
    (let s := { fullQueue with hlc := { fullQueue.hlc with wire := some ⟨ask 0x81 [], [], 9⟩ } }
     let t := nextOf (exec (.codeEndDeadline .a) s)
     8 ≤ (s.bell .a).received.length ∧ ¬s.hlc.wire = none ∧ (t.bell .a).discarded = true) ∧
    (let s := { fullQueue with hlc := { fullQueue.hlc with reports := [.bell .a] } }
     let t := nextOf (exec (.codeEndDeadline .a) s)
     8 ≤ (s.bell .a).received.length ∧ s.hlc.wire = none ∧ s.hlc.replies = [] ∧
       (∃ w, t.hlc.wire = some w ∧ w.frame.kind = 0xFE ∧ w.frame.payload.take 2 = sourceBytes (.bell .a)) ∧
       (t.bell .a).received.length = 7) :=
  ⟨by decide, by decide, by decide, by decide, ⟨_, rfl, by decide, by decide⟩, by decide⟩

/-- A sender in a state whose step ends now. -/
def sending (v : Sender) (place : List Nat) (queue : List BellCode) : State :=
  quiet.modBell .a fun b => { b with sender := v, place := place, sendQueue := queue, stepEnd := some 0 }

theorem witness_SenderSoundsTheQueue :
    (AtHead (asked 0x20 [1, 10]) (ask 0x20 [1, 10]) [] ∧ (asked 0x20 [1, 10]).mode = .starting) ∧
    (let s := asked 0x20 [1, 10] (inMode .openBox)
     AtHead s (ask 0x20 [1, 10]) [] ∧ byteOf (lineNumber .a) = 1 ∧ byteOf (codeNumber .emergency) = 10 ∧
       s.mode ≠ .starting ∧ (s.bell .a).through = false ∧ (s.bell .a).sendQueue.length < 4 ∧
       (s.bell .a).sender = .idle ∧ (s.bell .a).sendQueue = []) ∧
    (let s := quiet.modBell .a fun b => { b with through := true }
     (s.bell .a).through = true) ∧
    4 ≤ ((sending .trailing [] [.call, .call, .call, .call]).bell .a).sendQueue.length ∧
    (let s := sending .sounding [1] [.call]
     (s.bell .a).stepEnd = some 0 ∧ 0 ≤ s.now ∧ (s.bell .a).sender = .sounding ∧ (s.bell .a).place = (0 + 1) :: []) ∧
    ((sending .sounding [0, 2] [.call]).bell .a).place = 0 :: 2 :: [] ∧
    (let s := sending .sounding [0] [.call]
     (s.bell .a).place = [0] ∧ (s.bell .a).sendQueue = .call :: [] ∧ (s.block .a).frozen = false ∧
       isOffer .call = false ∧ BellCode.call ≠ .cancel) ∧
    (((sending .sounding [0] [.call]).modBlock .a fun b => { b with frozen := true }).block .a).frozen = true ∧
    ((sending .spacing [1] [.call]).bell .a).sender = .spacing ∧
    (let s := sending .trailing [] []
     (s.bell .a).sender = .trailing ∧ (s.bell .a).sendQueue = []) ∧
    ((sending .trailing [] [.call]).bell .a).sendQueue = .call :: [] := by
  simp only [AtHead]; decide

/-- The last beat of a code on line A, its sections as given. -/
def lastBeat (c : BellCode) (f : BlockLine → BlockLine := id) : State :=
  (sending .sounding [0] [c]).modBlock .a f

/-- What a code sent does: an offer answered, an offer made, a cancel of the offer made, and a cancel of nothing (R129). -/
theorem witness_SenderSoundsTheQueue_sections :
    (let s := lastBeat .offerGoods fun b => { b with inc := { b.inc with offer := some ⟨.offerGoods, 0, false, 9⟩ } }
     (s.bell .a).place = [0] ∧ (s.bell .a).sendQueue = .offerGoods :: [] ∧ (s.block .a).frozen = false ∧
       isOffer .offerGoods = true ∧ (s.block .a).inc.offer = some ⟨.offerGoods, 0, false, 9⟩) ∧
    (let s := lastBeat .offerGoods
     (s.block .a).frozen = false ∧ (s.block .a).inc.offer = none) ∧
    (let s := lastBeat .cancel fun b => { b with out := { b.out with offer := some ⟨.offerGoods, 0, true, 9⟩ } }
     (s.bell .a).sendQueue = .cancel :: [] ∧ (s.block .a).out.offer.isSome = true) ∧
    (let s := lastBeat .cancel
     isOffer .cancel = false ∧ (s.block .a).out.offer = none) := by decide

theorem test_offer_sent_is_recorded :
    ((nextOf (exec (.soundingEnd .a) (lastBeat .offerGoods))).block .a).out.offer =
      some ⟨.offerGoods, 0, false, 120000⟩ := by decide

/-- A code of groups complete on line A. -/
def rung (groups : List Nat) (f : BlockLine → BlockLine := id) : State :=
  (({ quiet with now := 1500 }).modBell .a (heard false .gap none (some ⟨groups, groups.length, false, 0⟩))).modBlock .a f

theorem witness_CodesReachTheSections :
    (let s := rung [2, 2] fun b => { b with out := { b.out with offer := some ⟨.offerPassenger, 0, false, 9⟩ } }
     (s.bell .a).code = some ⟨[2, 2], 2, false, 0⟩ ∧ 0 + 1500 ≤ s.now ∧ (s.bell .a).rx = .gap ∧
       codeName ⟨[2, 2], 2, false, 0⟩ = some .offerPassenger ∧ (s.bell .a).through = false ∧
       (s.block .a).frozen = false ∧ isOffer .offerPassenger = true ∧
       (s.block .a).out.offer = some ⟨.offerPassenger, 0, false, 9⟩) ∧
    (let s := rung [2, 2] fun b => { b with out := { b.out with offer := some ⟨.offerPassenger, 0, true, 9⟩ } }
     (s.block .a).out.offer = some ⟨.offerPassenger, 0, true, 9⟩) ∧
    (let s := rung [2, 2]
     (s.block .a).out.offer = none ∧ (s.block .a).inc.state = .blocked) ∧
    (let s := rung [2, 2] fun b => { b with inc := { b.inc with state := .trainOnLine } }
     (s.block .a).out.offer = none ∧ (s.block .a).inc.state ≠ .blocked) ∧
    (let s := rung [4, 4] fun b => { b with inc := { b.inc with offer := some ⟨.offerGoods, 0, false, 9⟩ } }
     codeName ⟨[4, 4], 2, false, 0⟩ = some .cancel ∧ (s.block .a).inc.offer.isSome = true) ∧
    (let s := rung [4, 4] fun b => { b with inc := { b.inc with state := .lineClear } }
     (s.block .a).inc.offer = none ∧ (s.block .a).inc.state = .lineClear) ∧
    (let s := rung [4, 4] fun b => { b with out := { b.out with offer := some ⟨.offerGoods, 0, false, 9⟩ } }
     (s.block .a).inc.offer = none ∧ (s.block .a).inc.state ≠ .lineClear ∧ (s.block .a).out.offer.isSome = true) ∧
    (let s := rung [4, 4]
     (s.block .a).inc.offer = none ∧ (s.block .a).inc.state ≠ .lineClear ∧ (s.block .a).out.offer = none) ∧
    codeName ⟨[9], 1, false, 0⟩ = some .emergency ∧ codeName ⟨[1], 1, false, 0⟩ = some .call := by decide

/-- EMERGENCY complete on line A, with lever 1 its HOME and lever 2 the HOME's DISTANT, both REVERSE. -/
def emergencyRung : State :=
  ((((rung [9]).modLever 0 (lever .reverse false true false)).modLever 1 (lever .reverse false true false)).modSignal 0
      fun g => { g with lever := some 0, copy := some ⟨[1, 1, 1, 0xFF, 1, 1, 0, 60, 0, 0], .good⟩ }).modSignal 1
    fun g => { g with lever := some 1, copy := some ⟨[1, 3, 0xFF, 0xFF, 0xFF, 1, 0, 60, 1, 0, 5, 1, 0, 0xFF], .good⟩ }

/-- A code reported only, a high begun after its deadline, and the levers of EMERGENCY (R99, R128). -/
theorem witness_CodesReachTheSections_others :
    (let s := rung [7, 7]
     (s.bell .a).code = some ⟨[7, 7], 2, false, 0⟩ ∧ codeName ⟨[7, 7], 2, false, 0⟩ = none) ∧
    (((rung [2, 2]).modBell .a fun b => { b with through := true }).bell .a).through = true ∧
    ((rung [2, 2] fun b => { b with frozen := true }).block .a).frozen = true ∧
    (let s := (rung [2, 2]).modBell .a (heard true .high (some 1500) (some ⟨[2, 2], 2, false, 0⟩))
     (s.bell .a).rx = .high ∧ (s.bell .a).highStart = some 1500 ∧ 0 + 1500 ≤ 1500) ∧
    (emergencyDirect emergencyRung .a 0 = true ∧ slotReverse emergencyRung 0 = true) ∧
    (emergencyDistant emergencyRung .a 1 = true ∧ slotReverse emergencyRung 1 = true) := by decide

theorem test_emergency_sets_the_distant :
    ((nextOf (exec (.codeEndDeadline .a) emergencyRung)).signal 1).stick = true := by decide

/-- COMMUTATOR on line A with its record and its home lever NORMAL, its incoming section as given. -/
def moving (position : Byte) (i : Incoming → Incoming) : State :=
  asked 0x21 [1, position] fun s =>
    ((((lineA s).modInc .a i).modLever 0 (lever .normal true false false)).modLever 1 (lever .normal true false false))

/-- The group of the instruments cut, as the sections are told. -/
def cutTen (s : State) : State :=
  { s with bsc := { s.bsc with cut10 := true } }

/-- The offer that asks for line clear, repeated to its sender. -/
def repeated (i : Incoming) : Incoming :=
  { i with offer := some ⟨.offerGoods, 0, true, 9⟩ }

theorem witness_CommutatorMovesTheSection :
    (let s := moving 1 repeated
     AtHead s (ask 0x21 [1, 1]) [] ∧ s.mode = .openBox ∧ lineRecord s .a = some lineBytes ∧ s.bsc.cut10 = false ∧
       (s.block .a).inc.state = .blocked ∧ (s.block .a).inc.offer = some ⟨.offerGoods, 0, true, 9⟩ ∧
       homeNormal s lineBytes = true ∧ leverSound (s.block .a).homeCopy = true ∧
       clearingPoint s (copyBytes (s.block .a).homeCopy) = true ∧ startingNormal s lineBytes = true ∧
       sensedBlocked (s.block .a).out.sensed = true ∧ (s.block .a).out.offer = none) ∧
    (let s := moving 2 fun i => { i with state := .lineClear }
     lineRecord s .a = some lineBytes ∧ (s.block .a).inc.state ≠ .trainOnLine) ∧
    (let s := moving 0 fun i => { i with state := .lineClear, cancel := true }
     (s.block .a).inc.state = .lineClear ∧ (s.block .a).inc.cancel = true) ∧
    (let s := moving 0 fun i => { i with state := .trainOnLine, step := .proven }
     (s.block .a).inc.state = .trainOnLine ∧ (s.block .a).inc.step = .proven) ∧
    byteOf (inStateCode ((moving 0 id).block .a).inc.state) = 0 ∧
    ((asked 0x21 [1, 2]).mode ≠ .openBox ∧ (2 : Byte).toNat ≤ 2) ∧
    ((moving 1 fun i => { i with state := .trainOnLine }).block .a).inc.state = .trainOnLine ∧
    ((moving 1 id).block .a).inc.offer = none ∧
    (let s := (moving 1 repeated).modBlock .a fun b => { b with copy := none }
     (s.block .a).inc.offer = some ⟨.offerGoods, 0, true, 9⟩ ∧ lineRecord s .a = none) ∧
    homeNormal ((moving 1 repeated).modLever 0 (lever .reverse false true false)) lineBytes = false ∧
    (let s := (moving 1 repeated).modBlock .a fun b => { b with homeCopy := some (pointsWith 2 1 0) }
     homeNormal s lineBytes = true ∧ leverSound (s.block .a).homeCopy = true ∧
       clearingPoint s (copyBytes (s.block .a).homeCopy) = false) ∧
    (workedSingle lineBytes = true ∧
      startingNormal ((moving 1 repeated).modLever 1 (lever .reverse false true false)) lineBytes = false) ∧
    leverSound (((moving 1 repeated).modBlock .a fun b => { b with homeCopy := none }).block .a).homeCopy = false ∧
    (cutTen (moving 1 repeated)).bsc.cut10 = true ∧
    (let s := moving 0 fun i => { i with state := .lineClear }
     (s.block .a).inc.state = .lineClear ∧ (s.block .a).inc.cancel = false) ∧
    (let s := moving 0 fun i => { i with state := .trainOnLine }
     (s.block .a).inc.state = .trainOnLine ∧ (s.block .a).inc.step ≠ .proven ∧ (s.block .a).inc.release ≠ .runOut) ∧
    (let s := moving 0 fun i => { i with state := .lineClear, cancel := true }
     lineSound (s.modBlock .a fun b => { b with copy := none }) .a = false ∧ lineSound s .a = true) := by
  simp only [AtHead]; decide

/-- The position held, with no record and group 10 cut (R131 step 2). -/
theorem witness_CommutatorMovesTheSection_held :
    let s := cutTen ((moving 0 id).modBlock .a fun b => { b with copy := none })
    AtHead s (ask 0x21 [1, 0]) [] ∧ byteOf (inStateCode (s.block .a).inc.state) = 0 ∧ s.mode = .openBox ∧
      lineRecord s .a = none ∧ s.bsc.cut10 = true := by
  simp only [AtHead]; decide

/-- SECTION_RELEASE on line A at TRAIN_ON_LINE with its entry circuit CLEAR. -/
def releasing (f : State → State := id) : State :=
  asked 0x22 [1] fun s =>
    f (((lineA s).modInc .a fun i => { i with state := .trainOnLine }).modTrack 0 fun t => { t with state := .clear })

theorem witness_ReleasesAndOffersRunOut :
    (let s := releasing
     AtHead s (ask 0x22 [1]) [] ∧ s.mode = .openBox ∧ (s.block .a).frozen = false ∧
       (s.block .a).inc.state = .trainOnLine ∧ lineRecord s .a = some lineBytes ∧
       circuitClear s (entryTc lineBytes) = true ∧ (s.block .a).inc.release = .none ∧
       (s.block .a).inc.step ≠ .proven ∧ slotUncorrectable s.sst.cells optionsSlot = false) ∧
    ((releasing (inMode .maintenance)).mode ≠ .openBox ∧ (releasing (inMode .maintenance)).mode ≠ .switchedOut) ∧
    ((releasing fun s => s.modBlock .a fun b => { b with frozen := true }).block .a).frozen = true ∧
    ((releasing fun s => s.modInc .a fun i => { i with state := .blocked }).block .a).inc.state ≠ .trainOnLine ∧
    (let s := releasing fun s => s.modTrack 0 fun t => { t with state := .occupied }
     lineRecord s .a = some lineBytes ∧ circuitClear s (entryTc lineBytes) = false) ∧
    (let s := releasing fun s => s.modBlock .a fun b => { b with copy := none }
     (s.block .a).frozen = false ∧ (s.block .a).inc.state = .trainOnLine ∧ lineRecord s .a = none) ∧
    ((releasing fun s => s.modInc .a fun i => { i with release := .runOut }).block .a).inc.release ≠ .none ∧
    ((releasing fun s => s.modInc .a fun i => { i with step := .proven }).block .a).inc.step = .proven ∧
    (let s := (lineA quiet).modInc .a fun i => { i with release := .running 0 }
     (s.block .a).inc.release = .running 0 ∧ 0 ≤ s.now ∧ lineSound s .a = true) ∧
    (let s := quiet.modInc .a fun i => { i with offer := some ⟨.offerGoods, 0, false, 0⟩ }
     (s.block .a).inc.offer = some ⟨.offerGoods, 0, false, 0⟩) ∧
    (let s := quiet.modOut .a fun o => { o with offer := some ⟨.offerGoods, 0, false, 0⟩ }
     (s.block .a).out.offer = some ⟨.offerGoods, 0, false, 0⟩) := by
  simp only [AtHead]; decide

theorem witness_SensedStateFollowsTheReading :
    (Sensed.lineClear = pairReading true false ∧ (quiet.block .a).out.reading ≠ some .lineClear) ∧
    ((quiet.modBlock .a fun b => { b with frozen := true }).block .a).frozen = true ∧
    (let s := (lineA quiet).modOut .a fun o => { o with sensed := .blocked }
     (s.block .a).out.sensed = .blocked ∧ lineSound s .a = true ∧ (s.block .a).frozen = false) ∧
    lineSound (quiet.modOut .a fun o => { o with sensed := .blocked }) .a = false ∧
    (let s := (lineA quiet).modOut .a fun o => { o with sensed := .lineClear, release := true }
     (s.block .a).out.sensed = .lineClear ∧ (s.block .a).out.release = true ∧ pairReading false true ≠ .lineClear) := by
  decide

/-- R137: the change from BLOCKED to LINE_CLEAR gives the line-clear release. -/
theorem test_release_is_given :
    ((nextOf (exec (.senseReadingAccepted .a true false)
      ((lineA quiet).modOut .a fun o => { o with sensed := .blocked }))).block .a).out.release = true := by decide

/-- A circuit that drops now, in OPEN with line A's record: entry circuit 1, berth 2, exit 3. -/
def dropping (tc : Tc) (f : BlockLine → BlockLine := id) : State :=
  ((lineA quiet).modTrack tc fun t => { t with state := .clear, drop := some 0 }).modBlock .a f

/-- A circuit that clears now. -/
def clearing (tc : Tc) (f : BlockLine → BlockLine := id) : State :=
  ((lineA { quiet with now := 320 }).modTrack tc fun t =>
    { t with copy := some (trackCopy 1), reading := true, npuEff := 1, meas := some ⟨0, some 160⟩ }).modBlock .a f

theorem drops (tc : Tc) (s : State) (h : (s.track tc).state = .clear) (hd : (s.track tc).drop = some 0) : DropsNow s tc :=
  ⟨h, 0, hd, Nat.zero_le _⟩

theorem clearing_clears : ClearsNow (clearing 0) 0 :=
  ⟨by decide, by decide, by decide, by decide, by decide, 0, 160, .a, by decide⟩

theorem witness_TrainsMoveTheSectionsAndTheRouteLocks :
    (let s := withLocks [{ entry none with passing := some 0 }] (dropping 0)
     RouteLocksOnce s ∧ DropsNow s 0) ∧
    (RouteLocksOnce (withLocks [{ entry none with passing := some 0, state := .trainPassing }] (clearing 0)) ∧
      ClearsNow (clearing 0) 0) ∧
    (let s := dropping 0 fun b => { b with inc := { b.inc with state := .lineClear } }
     DropsNow s 0 ∧ actingRecord s .a = some lineBytes ∧ entryTc lineBytes = some 0 ∧ berthTc lineBytes ≠ some 0 ∧
       (s.block .a).inc.state = .lineClear) ∧
    (let s := (dropping 0).modSignal 0 fun g => { g with lever := some 1 }
     let s := s.modLever 1 (lever .reverse false true false)
     DropsNow s 0 ∧ (s.block .a).inc.state = .blocked ∧ workedSingle lineBytes = true ∧
       startingLever lineBytes = some 1 ∧ slotOfLever s 1 = some 0 ∧ leverAt s 1 .r = true) ∧
    ((dropping 0 fun b => { b with inc := { b.inc with state := .trainOnLine } }).block .a).inc.state = .trainOnLine ∧
    (let s := dropping 1 fun b => { b with inc := { b.inc with state := .trainOnLine, step := .entryOcc } }
     DropsNow s 1 ∧ actingRecord s .a = some lineBytes ∧ berthTc lineBytes = some 1 ∧ entryTc lineBytes ≠ some 1 ∧
       (s.block .a).inc.step = .entryOcc) ∧
    (let s := dropping 2 fun b => { b with out := { b.out with release := true }, demandFell := some 0 }
     DropsNow s 2 ∧ entryTc lineBytes ≠ some 2 ∧ berthTc lineBytes ≠ some 2 ∧ exitTc lineBytes = some 2 ∧
       (s.block .a).out.release = true ∧ startingOffNow s .a lineBytes = true ∧ autoEntering lineBytes = false ∧
       autoEntering (lineBytes.set 1 1) = true ∧ (s.bell .a).through = false ∧ (s.bell .a).sendQueue.length < 4) ∧
    (let s := clearing 0 fun b => { b with inc := { b.inc with state := .trainOnLine, step := .berthOcc } }
     actingRecord s .a = some lineBytes ∧ (s.block .a).inc.state = .trainOnLine ∧ (s.block .a).inc.step = .berthOcc) ∧
    (let s := dropping 0 fun b => { b with copy := none }
     actingRecord s .a = none ∧ DropsNow s 0) ∧
    actingRecord (clearing 0 fun b => { b with copy := none }) .a = none := by
  refine ⟨⟨by unfold RouteLocksOnce; decide, drops _ _ (by decide) (by decide)⟩,
    ⟨by unfold RouteLocksOnce; decide, clearing_clears⟩, ⟨drops _ _ (by decide) (by decide), by decide⟩,
    ⟨drops _ _ (by decide) (by decide), by decide⟩, by decide, ⟨drops _ _ (by decide) (by decide), by decide⟩,
    ⟨drops _ _ (by decide) (by decide), by decide⟩, by decide, ⟨by decide, drops _ _ (by decide) (by decide)⟩, by decide⟩

/-- R135: the entry circuit cleared with the berth occupied and the home lever NORMAL proves the arrival. -/
theorem test_arrival_is_proven :
    let s := (clearing 0 fun b => { b with inc := { b.inc with state := .trainOnLine, step := .berthOcc } }).modLever 0
      (lever .normal true false false)
    ((nextOf (exec (.trackRisingEdge 0) s)).block .a).inc.step = .proven := by decide

theorem witness_RoundsFallDue :
    (let s := { quiet with now := 40, vod := { quiet.vod with refresh := none } }
     s.vod.nextDue = some 40 ∧ 40 ≤ s.now ∧ s.vod.refresh = none) ∧
    (let s := { quiet with now := 40 }
     s.vod.nextDue = some 40 ∧ s.vod.refresh = some ⟨0, .fill 8 .off, none, 1⟩) := by decide

theorem witness_ReadBacksAreJudged :
    (let s := refreshing none quiet
     s.vod.refresh = some ⟨0, .fill 8 .off, none, 0⟩ ∧ 0 ≤ s.now ∧
       ∀ i : Fin 8, ∀ o, groupOutput 0 i.val = some o →
         judgeReading s.now (s.output o) (isOn ((Table.fill 8 .off).get i)) ((0 : Byte).getLsbD i.val) = .agrees) ∧
    (let s := refreshing none { quiet with now := 1000 }
     ∃ i : Fin 8, ∃ o, groupOutput 0 i.val = some o ∧
       judgeReading s.now (s.output o) (isOn ((Table.fill 8 .off).get i)) ((1 : Byte).getLsbD i.val) ≠ .agrees) ∧
    (let s := refreshing (some (.fill 8 .wrongSide)) quiet
     s.vod.refresh = some ⟨0, .fill 8 .off, some (.fill 8 .wrongSide), 0⟩ ∧ 0 ≤ s.now) := by
  refine ⟨⟨by decide, by decide, ?_⟩, ⟨0, 0, by decide, by decide⟩, by decide⟩
  intro i o _
  simp [judgeReading, isOn]

/-- A group's retry read-back due, its outputs fixed off or, for a fault of current, on. -/
def judging (g : Group) (first : Table 8 Judged) (s : State) : State :=
  let fixed : Table 8 Demand := .fill 8 (if first.get 0 = .noCurrent then .on else .off)
  { s with vod := { s.vod with refresh := some ⟨g, fixed, some first, 0⟩ } }

/-- Long after the last pulse, when an output that reads on is a wrong side. -/
def cutting (s : State) : State :=
  { s with now := 1000 }

/-- A cut and a fault told to a lock, an aspect, an instrument and the relay, and a round owed at the end of group 10. -/
theorem witness_ReadBacksAreJudged_told :
    (let s := judging 0 (.fill 8 .noCurrent) (quiet.modLever 0 (lever .freed true false true))
     let t := nextOf (exec (.retryReadBack 0) s)
     (s.lever 0).moved = false ∧ s.leverState 0 = .freed ∧ NewNoCurrent s (lockOutput 0) .noCurrent ∧
       groupOutput 0 (0 : Fin 8).val = some (lockOutput 0) ∧ t.vod.cuts.get 0 = false ∧
       (t.lever 0).event = .lockFault ∧ t.leverState 0 = .normal) ∧
    (let s := judging 0 (.fill 8 .wrongSide) ((cutting quiet).modLever 0 fun v =>
       { lever .transit false false true v with origin := some .n })
     let t := nextOf (exec (.retryReadBack 1) s)
     s.leverState 0 = .transit ∧ s.vod.cuts.get 0 = false ∧ t.vod.cuts.get 0 = true ∧ (t.lever 0).withdrawn = true) ∧
    (let s := judging 6 (.fill 8 .noCurrent) (signalOff quiet)
     let t := nextOf (exec (.retryReadBack 0) s)
     aspectOutput 0 = 48 ∧ groupOutput 6 (0 : Fin 8).val = some 48 ∧ (s.signal 0).demand = true ∧
       NewNoCurrent s 48 .noCurrent ∧ (t.signal 0).demand = false ∧ (t.signal 0).stick = true) ∧
    (let s := judging 9 (.fill 8 .noCurrent) quiet
     let t := nextOf (exec (.retryReadBack 0) s)
     groupOutput 9 (3 : Fin 8).val = some relayOutput ∧ (t.block .c).inc.driveFault = true ∧ t.bmc.relayFault = true) ∧
    (let s := judging 9 (.fill 8 .agrees) { quiet with vod := { quiet.vod with owed := true } }
     s.vod.owed = true ∧ (9 : Group) = 9 ∧
       ((nextOf (exec (.retryReadBack 0) s)).vod.refresh.map (·.group)) = some 0) := by
  simp only [NewNoCurrent]; decide

/-- The indication chain at the end of a frame, in a phase. -/
def chain (f : Icc → Icc) : State :=
  { quiet with icc := f { quiet.icc with
      phase := some true, frame := some ⟨.phase, [], 0⟩, toggleAt := some 0, refreshAt := some 0 } }

theorem witness_ChainSendsWhatIsWanted :
    (let s := chain fun c => { c with allOnPending := true }
     s.icc.frame = some ⟨.phase, [], 0⟩ ∧ 0 ≤ s.now ∧ s.icc.phase = some true ∧ s.icc.allOnPending = true) ∧
    (let s := chain fun c => { c with phaseDue := true }
     s.icc.allOnPending = false ∧ s.icc.phaseDue = true) ∧
    (let s := chain fun c => { c with testUntil := some 9, dirty := c.dirty.set 0 true }
     s.icc.allOnPending = false ∧ s.icc.phaseDue = false ∧ s.icc.testUntil.isSome = true) ∧
    (let s := chain fun c => { c with dirty := (c.dirty.set 0 true).set 31 true }
     s.icc.allOnPending = false ∧ s.icc.phaseDue = false ∧ s.icc.testUntil = none ∧
       (dirtyRows s.icc).head? = some 0 ∧ (dirtyRows s.icc).getLast? = some 31) ∧
    (let s := chain id
     s.icc.toggleAt = some 0 ∧ s.icc.phase = some true ∧ s.icc.refreshAt = some 0 ∧ 0 ≤ s.now ∧
       s.icc.frame.isSome = true) := by decide

/-- An INDICATION record of the last place: circuit 1 OCCUPIED, steady, with no fault display. -/
def trackLamp : RecordCopy :=
  ⟨[31, 15, 2, 1, 1, 0, 0, 0], .good⟩

/-- Circuit 1 drops, its lamp placed. -/
def lampPlaced : State :=
  let s := chain fun c => { c with copies := c.copies.set 255 (some trackLamp) }
  s.modTrack 0 fun t => { t with state := .clear, drop := some 0 }

/-- The chain idle at a toggle and at a full refresh, and a placed lamp that a dropping circuit lights. -/
theorem witness_ChainSendsWhatIsWanted_idle :
    (let s := chain fun c => { c with frame := none }
     s.icc.toggleAt = some 0 ∧ s.icc.phase = some true ∧ s.icc.refreshAt = some 0 ∧ s.icc.frame = none ∧
       ((nextOf (exec .flashPhaseToggle s)).icc.frame.map (·.bytes)) = some [0x02, 0] ∧
       ((nextOf (exec .fullRefresh s)).icc.frame.map (·.kind)) = some (.rows 0 31)) ∧
    (lampPlaced.icc.phase.isSome = true ∧ placements lampPlaced.icc = [(511, 255, trackLamp)] ∧
      (lampPlaced.track 0).state = .clear ∧ (lampPlaced.track 0).drop = some 0 ∧ 0 ≤ lampPlaced.now ∧
      lampSource trackLamp.bytes = some .track ∧ byteAt trackLamp.bytes 3 = (0 : Tc).val + 1 ∧
      (nextOf (exec (.dropDeadline 0) lampPlaced)).icc.desired.get 511 = .steady) ∧
    (lampUnsound trackLamp = false ∧ byteAt trackLamp.bytes 6 ≠ 1 ∧ lampTrue lampPlaced .track 1 1 = false ∧
      namesTrack 0 trackLamp.bytes = true) := by decide

theorem witness_LampTestRunsItsTime :
    (let s := asked 0x34 [255] (inMode .openBox)
     AtHead s (ask 0x34 [255]) [] ∧ s.mode ≠ .starting ∧ s.icc.testUntil = none) ∧
    (chain fun c => { c with testUntil := some 0 }).icc.testUntil.isSome = true ∧
    (asked 0x34 [0]).mode = .starting ∧
    (let s := chain fun c => { c with testUntil := some 0 }
     s.icc.testUntil = some 0 ∧ 0 ≤ s.now) :=
  ⟨⟨⟨rfl, rfl, rfl, rfl⟩, by decide⟩, by decide, by decide, by decide⟩

/-- A request for a mode, in a mode. -/
def asking (wanted : Byte) (m : Mode) (f : State → State := id) : State :=
  asked 0x30 [wanted] fun s => f (inMode m s)

/-- An OPTIONS copy with the through pair A with B and no pattern. -/
def throughOptions (s : State) : State :=
  { s with bmc := { s.bmc with options := some ⟨[0, 0, 0, 0, 0, 0, 1, 0], .good⟩ } }

/-- The words of a LINES record worked DOUBLE with the through partner B, in line A's slot, and an uncorrectable word in
line B's. -/
def pairCells (bad : Bool) : List (Nat × StoreWord) :=
  [(3296, freshWord 0), (3297, freshWord 0x0102), (3298, freshWord 0x0102), (3299, freshWord 0x0302)] ++
    if bad then [(3312, ⟨0, .uncorrectable⟩)] else []

theorem witness_ModeChangesWhereItsConditionsHold :
    (let s := asking 2 .commissioning
     AtHead s (ask 0x30 [2]) [] ∧ s.mode = .commissioning ∧ s.bmc.hold = none ∧
       (∀ l, (slotOfLever s l).isSome = true → leverAt s l .n = true) ∧ ∀ l, s.leverState l ≠ .fault) ∧
    (let s := asking 3 .openBox fun s => withWords (pairCells false) (throughOptions s)
     s.mode = .openBox ∧ hasThroughPair s.bmc.options = true ∧
       ((s.block .a).inc.state = .blocked ∧ sensedBlocked (s.block .a).out.sensed = true ∧ noOffer s .a = true) ∧
       ((s.block .b).inc.state = .blocked ∧ sensedBlocked (s.block .b).out.sensed = true ∧ noOffer s .b = true) ∧
       s.src.locks = [] ∧ switchOutPattern s.bmc.options = [] ∧ s.bmc.cut10 = false ∧
       (slotUncorrectable s.sst.cells (lineSlot .a) = false ∧ slotUncorrectable s.sst.cells (lineSlot .b) = false ∧
         slotUncorrectable s.sst.cells (lineSlot .c) = false) ∧
       namesPartner (slotCopy s (lineSlot .a)) = true ∧ namesPartner (slotCopy s (lineSlot .b)) = false) ∧
    (let s := asking 3 .openBox fun s => withWords (pairCells true) (throughOptions s)
     slotWithheld s (lineSlot .b) = false ∧ slotUncorrectable s.sst.cells (lineSlot .b) = true) ∧
    (let s := asking 2 .switchedOut fun s =>
       (({ s with now := 10000 }).modOut .a fun o => { o with reading := some .blocked }).modOut .b fun o =>
         { o with reading := some .blocked }
     s.mode = .switchedOut ∧ linesQuiet s = true) ∧
    (let s := asking 4 .openBox fun s =>
       { s with lle := { s.lle with levers := s.lle.levers.map fun v => { v with state := .spare } } }
     s.mode = .openBox ∧ (∀ l, s.leverState l = .spare) ∧ s.src.locks = [] ∧
       ((s.block .c).inc.state = .blocked ∧ (s.bell .c).sendQueue = [])) ∧
    (let s := asking 1 .maintenance fun s => { s with sst := { s.sst with result := .passed } }
     s.mode = .maintenance ∧ s.sst.state = .closed ∧ s.sst.result = .passed) := by
  simp only [AtHead]; decide

/-- R122, R29: the line that names a partner is through-connected, and an uncorrectable record makes its slot CORRUPT. -/
theorem test_lines_are_through_connected :
    let t := nextOf (exec .mode (asking 3 .openBox fun s => withWords (pairCells true) (throughOptions s)))
    (t.bell .a).through = true ∧ (t.bell .b).through = false ∧ t.cond (lineSlot .b) = .corrupt := by decide

/-- Every lever NORMAL. -/
def allNormal (s : State) : State :=
  { s with lle := { s.lle with levers := s.lle.levers.map fun v => { v with state := .normal } } }

/-- An OPTIONS copy with the through pair and a switch-out pattern of lever 3 at REVERSE. -/
def patternOptions (s : State) : State :=
  { s with bmc := { s.bmc with options := some ⟨[0, 0, 0, 0, 0, 0, 1, 1, 0x83], .good⟩ } }

/-- Lever 48 as given, every lever before it NORMAL. -/
def lastLever (st : LeverState) (s : State) : State :=
  (allNormal s).modLever 47 (lever st false true false)

theorem witness_ModeIsRefusedAndRestartIsPending :
    (AtHead (asking 4 .starting) (ask 0x30 [4]) [] ∧ (asking 4 .starting).mode = .starting) ∧
    (byteOf (modeCode (asking 2 .openBox).mode) = 2 ∧ (asking 2 .openBox).mode ≠ .starting) ∧
    (asking 4 .switchedOut).mode = .switchedOut ∧
    ((asking 2 .switchedOut).mode = .switchedOut ∧ linesQuiet (asking 2 .switchedOut) = false) ∧
    (let s := asking 1 .maintenance
     s.mode = .maintenance ∧ s.sst.result ≠ .passed) := by
  simp only [AtHead]; decide

/-- Of ModeIsRefusedAndRestartIsPending: the conditions of the opening. -/
theorem witness_OpeningIsRefused :
    (let s := asking 2 .commissioning fun s => { s with bmc := { s.bmc with hold := some 0 } }
    s.mode = .commissioning ∧ s.bmc.hold.isSome = true) ∧
    (let s := asking 2 .commissioning fun s =>
       (lastLever .reverse s).modSignal 0 fun g => { g with lever := some 47 }
     s.bmc.hold = none ∧ (slotOfLever s 47).isSome = true ∧ leverAt s 47 .n = false ∧
       ∀ m, m < 47 → (slotOfLever s m).isSome = true → leverAt s m .n = true) ∧
    (let s := asking 2 .commissioning (lastLever .fault)
     (∀ m, (slotOfLever s m).isSome = true → leverAt s m .n = true) ∧ s.leverState 47 = .fault ∧
       ∀ m, m < 47 → s.leverState m ≠ .fault) := by
  decide

/-- Of ModeIsRefusedAndRestartIsPending: the conditions of the switching out. -/
theorem witness_SwitchingOutIsRefused :
    hasThroughPair (asking 3 .openBox).bmc.options = false ∧
    (let s := asking 3 .openBox fun s => (throughOptions s).modInc .a fun i => { i with state := .trainOnLine }
     hasThroughPair s.bmc.options = true ∧ (s.block .a).inc.state ≠ .blocked) ∧
    (let s := asking 3 .openBox fun s => (throughOptions s).modOut .a fun o => { o with sensed := .lineClear }
     (s.block .a).inc.state = .blocked ∧ sensedBlocked (s.block .a).out.sensed = false) ∧
    (let s := asking 3 .openBox fun s => (throughOptions s).modInc .b fun i => { i with state := .lineClear }
     (s.block .a).inc.state = .blocked ∧ sensedBlocked (s.block .a).out.sensed = true ∧
       (s.block .b).inc.state ≠ .blocked) ∧
    (let s := asking 3 .openBox fun s => (throughOptions s).modOut .b fun o => { o with sensed := .trainOnLine }
     (s.block .b).inc.state = .blocked ∧ sensedBlocked (s.block .b).out.sensed = false) ∧
    (let s := asking 3 .openBox fun s => (throughOptions s).modInc .a repeated
     sensedBlocked (s.block .b).out.sensed = true ∧ noOffer s .a = false) ∧
    (let s := asking 3 .openBox fun s => (throughOptions s).modInc .b repeated
     noOffer s .a = true ∧ noOffer s .b = false) ∧
    (let s := asking 3 .openBox fun s => withLocks [entry none] (throughOptions s)
     noOffer s .a = true ∧ noOffer s .b = true ∧ s.src.locks = entry none :: []) ∧
    (let s := asking 3 .openBox patternOptions
     hasThroughPair s.bmc.options = true ∧ s.src.locks = [] ∧ switchOutPattern s.bmc.options = [(2, .r)] ∧
       leverAt s 2 .r = false) ∧
    (let s := asking 3 .openBox fun s => (throughOptions s)
     switchOutPattern s.bmc.options = [] ∧ ({ s.bmc with cut10 := true } : Bmc).cut10 = true) := by
  decide

/-- Of ModeIsRefusedAndRestartIsPending: the conditions of the entry to MAINTENANCE. -/
theorem witness_MaintenanceIsRefused :
    (let s := asking 4 .openBox (lastLever .reverse)
    s.leverState 47 ≠ .spare ∧ leverAt s 47 .n = false ∧
      ∀ m, m < 47 → s.leverState m ≠ .spare → leverAt s m .n = true) ∧
    (let s := asking 4 .commissioning fun s => withLocks [entry none] (allNormal s)
     (∀ l, s.leverState l ≠ .spare → leverAt s l .n = true) ∧ s.src.locks = entry none :: []) ∧
    (let s := asking 4 .openBox fun s => (allNormal s).modInc .c fun i => { i with state := .lineClear }
     s.src.locks = [] ∧ (s.block .c).inc.state ≠ .blocked ∧ (s.block .a).inc.state = .blocked ∧
       (s.block .b).inc.state = .blocked) ∧
    (let s := asking 4 .openBox fun s => (allNormal s).modBell .c fun b => { b with sendQueue := [.call] }
     (s.block .c).inc.state = .blocked ∧ (s.bell .c).sendQueue ≠ [] ∧ (s.bell .a).sendQueue = [] ∧
       (s.bell .b).sendQueue = []) := by
  decide

/-- Of ModeIsRefusedAndRestartIsPending: RESTART and the reset hold. -/
theorem witness_RestartAndHold :
    (let s := asked 0x31 [] (inMode .maintenance)
    AtHead s (ask 0x31 []) [] ∧ s.mode = .maintenance) ∧
    (let s := asked 0x31 [] (inMode .openBox)
     s.mode ≠ .commissioning ∧ s.mode ≠ .maintenance) ∧
    (let s := asking 2 .commissioning fun s => { s with bmc := { s.bmc with hold := some 0 } }
     s.bmc.hold = some 0 ∧ 0 ≤ s.now) := by
  simp only [AtHead]; decide

/-- The Timebase Monitor in a state, with a count of good windows. -/
def timed (v : TimebaseState) (good : Nat) (s : State) : State :=
  { s with tbm := { s.tbm with state := v, goodCount := good, startTicks := 512 } }

theorem witness_WindowsMoveTheTimebase :
    (quiet.tbm.state ≠ .good ∧ (timed .good 0 quiet).tbm.state = .good) ∧
    (let s := (withLocks [entry (some 60000)] (timed .good 0 quiet)).modInc .a fun i => { i with release := .running 9 }
     (s.block .a).inc.release = .running 9 ∧ s.src.locks.filter (fun y => y.lever = 0) = [entry (some 60000)]) ∧
    (let s := timed .startingTb 0 quiet
     s.tbm.state = .startingTb ∧ 512 ≤ s.tbm.startTicks) := by decide

theorem witness_TimebaseIsRestoredAndTested :
    (let s := asked 0x32 [] fun s => timed .degraded 10 (inMode .openBox s)
     AtHead s (ask 0x32 []) [] ∧ s.mode ≠ .starting ∧ s.tbm.state = .degraded ∧ 10 ≤ s.tbm.goodCount) ∧
    (asked 0x32 [] fun s => timed .good 0 (inMode .openBox s)).tbm.state = .good ∧
    (let s := asked 0x32 [] fun s => timed .degraded 9 (inMode .openBox s)
     s.tbm.state = .degraded ∧ s.tbm.goodCount < 10) ∧
    (AtHead (asked 0x32 []) (ask 0x32 []) [] ∧ (asked 0x32 []).mode = .starting) ∧
    (asked 0x33 [] (inMode .maintenance)).mode = .maintenance ∧ (asked 0x33 []).mode ≠ .maintenance := by
  simp only [AtHead]; decide

/-- The identity of `header`. -/
def ident : List Byte :=
  padBytes 12 0x41

theorem witness_StoreOpensAndCloses :
    (let s := asked 0x40 (ident ++ [1]) fun s => withWords header (storeIn .closed none s)
     AtHead s (ask 0x40 (ident ++ [1])) [] ∧ ident.length = 12 ∧ textValid ident = true ∧ s.mode = .maintenance ∧
       s.sst.state = .closed ∧ storedIdentity s = ident ∧ storedIdentity s ≠ padBytes 12 0 ∧
       storedIdentity s ≠ padBytes 12 0x42) ∧
    (asked 0x40 (ident ++ [0])).mode ≠ .maintenance ∧
    (let s := asked 0x41 [] (storeIn .openIdle none)
     AtHead s (ask 0x41 []) [] ∧ s.mode = .maintenance ∧ s.sst.state = .openIdle) ∧
    (asked 0x41 []).mode ≠ .maintenance :=
  ⟨⟨⟨rfl, rfl, rfl, rfl⟩, by decide⟩, by decide, ⟨⟨rfl, rfl, rfl, rfl⟩, rfl, rfl⟩, by decide⟩

/-- The store's refusals: the other modes, an operation running, and the states that do not take the request. -/
theorem witness_StoreTurnsAway :
    (let s := asked 0x40 (ident ++ [1]) (storeIn .openIdle none)
     AtHead s (ask 0x40 (ident ++ [1])) [] ∧ s.mode = .maintenance ∧ s.sst.state ∉ [StoreState.closed] ∧
       s.sst.state ∈ [StoreState.closed, .openIdle, .eraseSuspended]) ∧
    (let s := asked 0x42 [1] (storeIn .validating (some ⟨.validate false, 0⟩))
     AtHead s (ask 0x42 [1]) [] ∧ s.sst.state ∉ [StoreState.openIdle] ∧
       s.sst.state ∈ [StoreState.erasing, .programming, .validating]) ∧
    (AtHead (asked 0x45 [] (storeIn .closed none)) (ask 0x45 []) [] ∧
      (asked 0x45 [] (storeIn .closed none)).sst.state ∉ [StoreState.erasing]) ∧
    (AtHead (asked 0x46 [] (storeIn .programming none)) (ask 0x46 []) [] ∧
      (asked 0x46 [] (storeIn .programming none)).sst.state ∉ [StoreState.eraseSuspended]) ∧
    (AtHead (asked 0x47 [1, 1] (storeIn .closed none)) (ask 0x47 [1, 1]) [] ∧
      (asked 0x47 [1, 1] (storeIn .closed none)).sst.state ∉ [StoreState.openIdle]) ∧
    (AtHead (asked 0x48 [] (storeIn .eraseSuspended none)) (ask 0x48 []) [] ∧
      (asked 0x48 [] (storeIn .eraseSuspended none)).sst.state ∉ [StoreState.closed, .openIdle]) ∧
    (asked 0x48 []).mode ≠ .maintenance := by
  simp only [AtHead]; decide

theorem witness_ErasesAreBegunSuspendedAndResumed :
    (let s := asked 0x42 [1] fun s => withWords header (storeIn .openIdle none s)
     AtHead s (ask 0x42 [1]) [] ∧ s.mode = .maintenance ∧ s.sst.state = .openIdle ∧ regionLocked s .levers = true ∧
       regionLocked s .track = false ∧ stampStanding s = true ∧ byteOf (regionCode .levers) = 1) ∧
    (let s := asked 0x42 [2] (storeIn .openIdle none)
     regionLocked s .track = false ∧ stampStanding s = false) ∧
    (let s := asked 0x45 [] (storeIn .erasing (some ⟨.erase .track, 300⟩))
     AtHead s (ask 0x45 []) [] ∧ s.sst.state = .erasing ∧ s.sst.op = some ⟨.erase .track, 300⟩) ∧
    (asked 0x45 [] (storeIn .erasing (some ⟨.wipe .track, 300⟩))).sst.op = some ⟨.wipe .track, 300⟩ ∧
    (let s := asked 0x46 [] fun s =>
       let t := storeIn .eraseSuspended none s
       { t with sst := { t.sst with suspended := some ⟨.track, 0⟩ } }
     s.sst.state = .eraseSuspended ∧ s.sst.suspended = some ⟨.track, 0⟩) :=
  ⟨⟨⟨rfl, rfl, rfl, rfl⟩, by decide⟩, by decide, ⟨⟨rfl, rfl, rfl, rfl⟩, rfl, rfl⟩, rfl, rfl, rfl⟩

theorem witness_ErasesEnd :
    (0 ≤ quiet.now ∧ (ending (.stampRemoval (.erase .track))).sst.op = some ⟨.stampRemoval (.erase .track), 0⟩) ∧
    (ending (.stampRemoval (.program 1 []))).sst.op = some ⟨.stampRemoval (.program 1 []), 0⟩ ∧
    (ending (.erase .header)).sst.op = some ⟨.erase .header, 0⟩ ∧
    ((ending (.wipe .options)).sst.op = some ⟨.wipe .options, 0⟩ ∧ regionAfter .options = some .indication) ∧
    ((ending (.wipe .indication)).sst.op = some ⟨.wipe .indication, 0⟩ ∧ regionAfter .indication = none) := by decide

theorem witness_SlotsAreProgrammed :
    (let s := asked 0x43 (5 :: 255 :: padBytes 8 0) fun s => withWords header (storeIn .openIdle none s)
     AtHead s (ask 0x43 (5 :: 255 :: padBytes 8 0)) [] ∧ (padBytes 8 0).length = 2 * regionWords .indication ∧
       slotOf .indication 255 = some 332 ∧ s.mode = .maintenance ∧ s.sst.state = .openIdle ∧
       regionLocked s .indication = false ∧ suspendedRegion s .indication = false ∧
       slotErased s.sst.cells 332 = true) ∧
    slotErased (withWords header quiet).sst.cells 0 = false ∧
    (let s := ending (.program 332 [1, 2, 3, 4])
     StoreCanonical s ∧ s.sst.op = some ⟨.program 332 [1, 2, 3, 4], 0⟩ ∧ 0 ≤ s.now ∧
       [1, 2, 3, 4].length = slotWords 332) :=
  ⟨⟨⟨rfl, rfl, rfl, rfl⟩, by decide⟩, by decide, by simp only [StoreCanonical]; decide⟩

theorem witness_SlotsAreProgrammed_refused :
    (let s := asked 0x43 (1 :: 48 :: padBytes 128 0) fun s => withWords header (storeIn .openIdle none s)
     AtHead s (ask 0x43 (1 :: 48 :: padBytes 128 0)) [] ∧ regionLocked s .levers = true) ∧
    (let s := asked 0x43 (2 :: 24 :: padBytes 16 0) fun s =>
       let t := storeIn .eraseSuspended none s
       { t with sst := { t.sst with suspended := some ⟨.track, 9⟩ } }
     AtHead s (ask 0x43 (2 :: 24 :: padBytes 16 0)) [] ∧ regionLocked s .track = false ∧
       suspendedRegion s .track = true) ∧
    (let s := asked 0x43 (0 :: 0 :: padBytes 64 0) (storeIn .openIdle none)
     AtHead s (ask 0x43 (0 :: 0 :: padBytes 64 0)) [] ∧ slotOf .header 0 = some 0 ∧ slotErased s.sst.cells 0 = true ∧
       suspendedRegion s .header = false ∧ textValid ((padBytes 64 0).take 12) = true ∧ pairAt (padBytes 64 0) 12 = 0) ∧
    textValid ((padBytes 64 0xFF).take 12) = false := by
  simp only [AtHead]; decide

/-- The users of withdrawn and new records: a circuit, a line with its section at LINE_CLEAR, and levers SPARE, at rest and
waiting for their record. -/
theorem witness_RecordsAreTold :
    (let s := asked 0x42 [2] fun s => (storeIn .openIdle none s).modTrack 0 fun t => { t with copy := some (trackCopy 1) }
     let t := nextOf (exec .storeErase s)
     AtHead s (ask 0x42 [2]) [] ∧ regionLocked s .track = false ∧ stampStanding s = false ∧ (s.track 0).inFault = false ∧
       (t.track 0).inFault = true ∧ (t.track 0).holdUntil = 1000) ∧
    (let s := asked 0x42 [3] fun s => storeIn .openIdle none ((lineA s).modInc .a fun i => { i with state := .lineClear })
     let t := nextOf (exec .storeErase s)
     AtHead s (ask 0x42 [3]) [] ∧ lineSound s .a = true ∧ lineSound t .a = false ∧
       (t.block .a).inc.state = .trainOnLine) ∧
    (let s := asked 0x42 [1] fun s => (storeIn .openIdle none s).modLever 47 (lever .normal true false false)
     let t := nextOf (exec .storeErase s)
     AtHead s (ask 0x42 [1]) [] ∧ s.leverState 47 ≠ .spare ∧ t.leverState 47 = .spare) ∧
    (let s := (inMode .maintenance (ending (.program 49 [0x0103, 10, 0, 0, 0, 0, 0, 0]))).modTrack 0 fun t =>
       { t with inFault := true }
     let t := nextOf (exec .slotProgramEnd s)
     s.mode ≠ .starting ∧ (49 : Slot) = trackSlot 0 ∧ (s.track 0).inFault = true ∧ (t.track 0).inFault = false ∧
       (t.track 0).npuEff = 6) ∧
    (let s := (ending (.program 1 (0x0300 :: 0xFFFF :: 0xFFFF :: 0xFFFF :: List.replicate 60 0))).modLever 0
       (lever .spare false true false)
     let t := nextOf (exec .slotProgramEnd s)
     (1 : Slot) = leverSlot 0 ∧ copySpare (t.lever 0).copy = false ∧ s.leverState 0 = .spare ∧ t.leverState 0 = .reverse) ∧
    ((75 : Slot) = lineSlot .c ∧ ∀ l, slotUncorrectable (ending (.program 75 [])).sst.cells (leverSlot l) = false) := by
  simp only [AtHead]; decide

/-- A release lost with its line's record, and a signal lever that waited for its record. -/
theorem witness_RecordsAreTold_more :
    (let s := asked 0x42 [3] fun s => storeIn .openIdle none ((lineA s).modOut .a fun o => { o with release := true })
     let t := nextOf (exec .storeErase s)
     lineSound s .a = true ∧ (s.block .a).out.release = true ∧ (t.block .a).out.release = false ∧
       (t.block .a).out.event = .releaseLost ∧ (t.block .a).copy ≠ (s.block .a).copy) ∧
    (let s := (ending (.program 1 (0x0104 :: 0xFFFF :: 0xFF00 :: 60 :: 0 :: List.replicate 59 0))).modLever 0 fun v =>
       { lever .normal true false true v with waiting := true, withheld := some .recordFault }
     let s := s.modSignal 0 fun g => { g with lever := some 0 }
     let t := nextOf (exec .slotProgramEnd s)
     slotOfLever s 0 = some 0 ∧ s.leverState 0 ≠ .spare ∧ copySpare (t.lever 0).copy = false ∧
       (s.lever 0).waiting = true ∧ (s.lever 0).withheld = some .recordFault ∧ queuedOrEvaluated t 0 = true ∧
       (t.signal 0).copy = (t.lever 0).copy ∧ leverSound none = false) := by decide

theorem witness_LocksAreSetAndCleared :
    (let s := asked 0x47 [1, 0] fun s => withWords header (storeIn .openIdle none s)
     AtHead s (ask 0x47 [1, 0]) [] ∧ Region.levers ≠ .header ∧ s.mode = .maintenance ∧ s.sst.state = .openIdle ∧
       headerValid s = true ∧ regionLocked s .levers ≠ false ∧ regionLocked s .track = false) ∧
    headerValid (asked 0x47 [1, 0] (storeIn .openIdle none)) = false ∧
    (let s := ending (.lockSet .indication)
     StoreCanonical s ∧ s.sst.op = some ⟨.lockSet .indication, 0⟩) ∧
    (let s := ending (.unlock .levers (freshWord 0x3C96))
     StoreCanonical s ∧ s.sst.op = some ⟨.unlock .levers (freshWord 0x3C96), 0⟩) :=
  ⟨⟨⟨rfl, rfl, rfl, rfl⟩, by decide⟩, by decide, by simp only [StoreCanonical]; decide, by simp only [StoreCanonical]; decide⟩

/-- The words of `header` with the stamp's content sum that of an empty scheme. -/
def stamped : List (Nat × StoreWord) :=
  header.map fun c => if c.1 = 9 then (9, freshWord 0) else c

/-- A record of each kind, alone in its scheme. -/
def record (r : Region) (n : Nat) (bs : List Byte) : Entry :=
  ⟨r, n, bs, false⟩

theorem witness_ValidationPassJudgesTheScheme :
    ((let s := asked 0x48 [] fun s => withWords header (storeIn .closed none s)
      AtHead s (ask 0x48 []) [] ∧ s.mode = .maintenance ∧ s.sst.state = .closed ∧ headerValid s = true ∧
        s.sst.port.serving = none) ∧
      headerValid (asked 0x48 [] (storeIn .closed none)) = false ∧
      (asked 0x48 [] fun s => reading (.startup 0) (withWords header (storeIn .closed none s))).sst.port.serving.isSome =
        true ∧
      (let s := ending (.validate false)
       s.sst.op = some ⟨.validate false, 0⟩ ∧ s.sst.port.serving = none) ∧
      ((ending (.validate true)).sst.op = some ⟨.validate true, 0⟩ ∧ passFailure (passReads (ending (.validate true))) = none ∧
        stampMatches (passReads (ending (.validate true))) (contentSum (passReads (ending (.validate true))).sst.cells) = false) ∧
      (let u := passReads (withWords stamped (ending (.validate true)))
       passFailure u = none ∧ stampMatches u (contentSum u.sst.cells) = true) ∧
      (let u := passReads (withWords ((withWords header quiet).sst.cells ++ [(3104, freshWord 0x0503)]) (ending (.validate true)))
       passFailure u = some (.track, 1, 2))) ∧
    (schemeFailure [] = none ∧ schemeFailure [record .track 1 [9]] = some (.track, 1, 2)) ∧
    check2 [] (record .track 1 [9]) = some 2 ∧ (record .levers 1 [3, 0]).region = .levers ∧
    ((record .track 1 [1, 3]).region = .track ∧ (record .lines 1 lineBytes).region = .lines ∧
      (record .options 0 [0]).region = .options ∧ (record .indication 1 [0]).region = .indication) := by
  simp only [AtHead]; decide

theorem witness_ValidationPassStampIsWritten :
    StoreCanonical (ending (.stampWrite 5 [] (freshWord 0x3C96))) ∧
    (ending (.stampWrite 5 [] (freshWord 0x3C96))).sst.op = some ⟨.stampWrite 5 [] (freshWord 0x3C96), 0⟩ :=
  ⟨header_canonical, rfl⟩

/-- R47 to R52: the checks of a scheme, one record or few at a time. -/
theorem test_checks_of_the_scheme :
    schemeFailure [⟨.track, 24, [1, 3, 0, 10], true⟩] = some (.track, 24, 1) ∧
    schemeFailure [record .levers 1 (pointsWith 2 1 0).bytes] = some (.levers, 1, 6) ∧
    schemeFailure [record .levers 1 (pointsWith 1 1 0).bytes] = some (.levers, 1, 11) ∧
    schemeFailure [record .levers 1 (pointsWith 1 2 0).bytes, record .levers 2 [3, 0, 0xFF, 0xFF, 0xFF, 0xFF, 0xFF, 0xFF, 0, 0]] =
      some (.levers, 1, 13) ∧
    schemeWarnings [] = [⟨.options, 0, 7⟩] := by decide

/-- The scrubber due at a position, the period at its end. -/
def scrubAt (pos : Nat) : State :=
  let s := inMode .openBox quiet
  { s with sst := { s.sst with
      port := ⟨none, []⟩, startup := none, scrubPos := pos, scrubDue := some 0, periodEnd := some 0 } }

theorem witness_ScrubberCorrectsTheStore :
    (let s := scrubAt 332
     scrubbing s.mode = true ∧ s.sst.scrubPos = (332 : Slot).val ∧ s.sst.scrubDue = some 0 ∧ 0 ≤ s.now ∧
       portIdle s = true ∧ passWaits s = false ∧ s.sst.periodEnd = some 0 ∧ s.sst.scrubPos < 333) ∧
    (let s := reading (.scrub 0) (withWords header quiet)
     StoreCanonical s ∧ s.sst.port.serving = some (.scrub 0, 0)) ∧
    (let s := scrubAt 333
     333 ≤ s.sst.scrubPos ∧ s.sst.port.serving = none) :=
  ⟨by decide, by simp only [StoreCanonical]; decide, by decide⟩

/-- The scrubber finds circuit 1's record uncorrectable. -/
theorem witness_ScrubberCorrectsTheStore_corrupt :
    let s := (reading (.scrub 49) (withWords [(3104, ⟨0x0103, .uncorrectable⟩)] (inMode .openBox quiet))).modTrack 0 fun t =>
      { t with copy := some (trackCopy 1), state := .clear }
    let t := nextOf (exec .scrubStepEnd s)
    StoreCanonical s ∧ s.sst.port.serving = some (.scrub 49, 0) ∧ slotUncorrectable s.sst.cells 49 = true ∧
      s.cond 49 ≠ .corrupt ∧ s.mode ≠ .starting ∧ slotRegion 49 ≠ .lines ∧ (49 : Slot) = trackSlot 0 ∧
      (t.track 0).reason = .recordFault ∧ (t.track 0).state = .occupied := by
  simp only [StoreCanonical]; decide

theorem witness_StartUpLeadsToItsMode :
    (let s := reading (.startup 331) (withWords header quiet)
     StoreCanonical s ∧ s.sst.port.serving = some (.startup 331, 0) ∧ 0 ≤ s.now ∧ s.mode = .starting ∧
       (331 : Slot).val + 1 < 333 ∧ s.sst.port.waiting = [] ∧ passWaits s = false) ∧
    (let s := reading (.startup 332) quiet
     StoreCanonical s ∧ s.sst.port.serving = some (.startup 332, 0) ∧ (332 : Slot).val = 332) := by
  simp only [StoreCanonical]; decide

/-- The last read of the pass in a box whose indications have not begun. -/
theorem witness_StartUpLeadsToItsMode_begun :
    let s := reading (.startup 332) quiet
    s.icc.phase = none ∧ s.icc.frame = none ∧ s.icc.allOnPending = false ∧ (∀ n, (s.signal n).demand = false) ∧
      (startCheckOf (correctSlot 332 (withWords stamped s)) = .isMatch ∧ startCheckOf (correctSlot 332 s) = .noStamp) := by
  decide

end Sys2Proof.Tests
end

section
/-!
PROOFS. The check of a frame (R3): its register worked byte by byte is the register worked bit by bit, the frames that
carry it, and the frames that the receiver refuses for the want of it.
-/

namespace Sys2Proof

open Sys2Proof.Machine

/-! ## The check register, bit by bit -/

/-- The register after one bit of the message, as R3 words it: the bit is compared with the register's top bit. -/
def crcFeed (r : Word16) (bit : Bool) : Word16 :=
  if r.msb != bit then (r <<< 1) ^^^ 0x1021 else r <<< 1

/-- The bits of a byte, most significant first. -/
def byteBits (b : Byte) : List Bool :=
  (List.range 8).map fun i => b.getLsbD (7 - i)

/-- A byte in the upper half of the register, where the work on it begins. -/
def highByte (b : Byte) : Word16 :=
  b ++ (0 : Byte)

@[simp] theorem highByte_zero : highByte 0 = 0 := rfl

@[simp] theorem highByte_msb (b : Byte) : (highByte b).msb = b.msb :=
  (BitVec.msb_append (x := b) (y := (0 : Byte))).trans (if_neg (by decide))

@[simp] theorem highByte_shiftLeft_one (b : Byte) : highByte b <<< 1 = highByte (b <<< 1) := by
  apply BitVec.eq_of_getElem_eq
  intro i hi
  simp only [highByte, BitVec.getElem_shiftLeft, BitVec.getElem_append]
  grind

/-- With a byte still to be worked in the register's upper half, one bit of work feeds that byte's top bit. -/
theorem crcBit_xor_highByte (r : Word16) (b : Byte) :
    crcBit (r ^^^ highByte b) = crcFeed r b.msb ^^^ highByte (b <<< 1) := by
  have hmsb : (r ^^^ highByte b).msb = (r.msb != b.msb) := by
    simp [BitVec.msb_xor]
  simp only [crcBit, crcFeed, hmsb, BitVec.shiftLeft_xor_distrib, highByte_shiftLeft_one]
  split
  · ac_rfl
  · rfl

/-- After `n` bits of work the byte's first `n` bits have been fed, and the rest of it stands in the upper half. -/
theorem crcBits_xor_highByte (n : Nat) : ∀ (r : Word16) (b : Byte),
    crcBits n (r ^^^ highByte b) =
      ((List.range n).map fun i => b.getMsbD i).foldl crcFeed r ^^^ highByte (b <<< n) := by
  induction n with
  | zero => intro r b; simp [crcBits]
  | succ n ih =>
    intro r b
    rw [crcBits, crcBit_xor_highByte, ih, List.range_succ_eq_map, Nat.add_comm n 1, BitVec.shiftLeft_add]
    simp [Function.comp_def, BitVec.msb]

theorem byteBits_eq_getMsbD (b : Byte) : byteBits b = (List.range 8).map fun i => b.getMsbD i := by
  refine List.map_congr_left fun i hi => ?_
  simp [BitVec.getMsbD, List.mem_range.mp hi]

/-- A byte's work on the register is that of its eight bits. -/
theorem crcByte_eq_foldl (r : Word16) (b : Byte) : crcByte r b = (byteBits b).foldl crcFeed r := by
  have hout : b <<< 8 = 0 := BitVec.shiftLeft_eq_zero (Nat.le_refl 8)
  calc crcByte r b = crcBits 8 (r ^^^ highByte b) := rfl
    _ = (byteBits b).foldl crcFeed r := by
      rw [crcBits_xor_highByte, ← byteBits_eq_getMsbD, hout, highByte_zero]
      exact BitVec.xor_zero

/-- A run of bytes works the register as the run of their bits does. -/
theorem crcBytes_eq_foldl (r : Word16) (bs : List Byte) : crcBytes r bs = (bs.flatMap byteBits).foldl crcFeed r := by
  have hbyte : crcByte = fun r b => (byteBits b).foldl crcFeed r := funext fun r => funext fun b => crcByte_eq_foldl r b
  rw [List.foldl_flatMap, crcBytes, hbyte]

/-! ## The frames sent -/

theorem byteOf_append_byteOf (w : Word16) : byteOf (w.toNat / 256) ++ byteOf w.toNat = w := by
  apply BitVec.eq_of_toNat_eq
  have hlt := w.isLt
  have hlow : (byteOf w.toNat).toNat < 2 ^ 8 := (byteOf w.toNat).isLt
  rw [BitVec.toNat_append, ← Nat.shiftLeft_add_eq_or_of_lt hlow, Nat.shiftLeft_eq]
  simp only [byteOf, BitVec.toNat_ofNat]
  omega

/-- The two bytes that carry a word, high byte first. -/
theorem wordBytes_spell (w : Word16) : ∃ hi lo : Byte, hi ++ lo = w ∧ wordBytes w = [hi, lo] :=
  ⟨_, _, byteOf_append_byteOf w, rfl⟩

/-- The transmitter leaves the line as it is, or puts a frame's own bytes on it. -/
theorem takeFrame_wire (s : State) : (takeFrame s).hlc.wire = s.hlc.wire ∨
    ∃ f, (takeFrame s).hlc.wire = some ⟨f, frameBytes f, s.now + wireTicks s.hlc.baud (frameBytes f).length⟩ := by
  unfold takeFrame
  split
  · split
    · exact .inr ⟨_, rfl⟩
    · split
      · exact .inl rfl
      · split
        · exact .inr ⟨_, reportTaken_wire _ _⟩
        · exact .inl rfl
  · exact .inl rfl

/-! ## The frames received -/

/-- The end of an event leaves the request queue as it is. -/
theorem finish_requests (s : State) : (finish s).hlc.requests = s.hlc.requests :=
  (finish_changes s .requests (by decide)).1

/-- A frame whose check field is not the check computed leaves the request queue as it is. -/
theorem receiveFrame_requests_of_ne {kind tag : Byte} {payload : List Byte} {check : Word16}
    (h : check ≠ checkOf kind tag payload) (s : State) :
    (receiveFrame kind tag payload check s).hlc.requests = s.hlc.requests := by
  unfold receiveFrame judgeFrame
  split
  · rw [if_neg h.symm]
    rfl
  · rfl

/-- The receiver in HUNT lets every byte but the sync byte go by (R4). -/
theorem takeByte_hunt_of_ne {s : State} {b : Byte} (hs : s.hlc.rx.framing = .hunt) (hb : b ≠ 0xC3) :
    takeByte b s = s := by
  simp only [takeByte, hs, if_neg hb]

/-! ## The statement -/

/-- R3's worked value: the check over the characters "123456789". -/
theorem crcBytes_nine_characters :
    crcBytes 0xFFFF [0x31, 0x32, 0x33, 0x34, 0x35, 0x36, 0x37, 0x38, 0x39] = 0x29B1 := by
  simp [crcBytes, crcByte, crcBits, crcBit, BitVec.msb_eq_decide]

theorem frameBytes_carry_check (f : Frame) : ∃ hi lo : Byte, hi ++ lo = checkOf f.kind f.tag f.payload ∧
    frameBytes f = 0xC3 :: lengthByte f.payload :: f.kind :: f.tag :: f.payload ++ [hi, lo] := by
  obtain ⟨hi, lo, hw, hbytes⟩ := wordBytes_spell (checkOf f.kind f.tag f.payload)
  exact ⟨hi, lo, hw, by rw [frameBytes, hbytes]⟩

theorem takeFrame_bytes {s : State} {w : WireFrame} (hw : (takeFrame s).hlc.wire = some w) :
    s.hlc.wire = some w ∨ w.bytes = frameBytes w.frame := by
  rcases takeFrame_wire s with hkept | ⟨f, hsent⟩
  · exact .inl (hkept.symm.trans hw)
  · cases hsent.symm.trans hw
    exact .inr rfl

/-- A frame received that changes the request queue carries its check. -/
theorem check_eq_of_frameReceived {s t : State} {kind tag : Byte} {payload : List Byte} {check : Word16}
    (hrun : exec (.frameReceived kind tag payload check) s = .next t) (hq : t.hlc.requests ≠ s.hlc.requests) :
    check = checkOf kind tag payload := by
  refine Decidable.byContradiction fun hne => ?_
  have ht : finish (receiveFrame kind tag payload check s) = t := by
    injection hrun
  exact hq (by rw [← ht, finish_requests, receiveFrame_requests_of_ne hne])

/-- Settles O16: the register by induction on the bits still to be worked, the sent frames by the transmitter's cases, and
the received ones by the contrapositive (a frame with another check leaves the request queue alone). -/
theorem checkIsTheRegisterOverTheFrame : Obligations.CheckIsTheRegisterOverTheFrame :=
  ⟨crcBytes_eq_foldl, fun _ _ _ => rfl, crcBytes_nine_characters, frameBytes_carry_check,
    fun _ _ => takeFrame_bytes, fun _ _ _ _ _ _ => check_eq_of_frameReceived, fun _ _ => takeByte_hunt_of_ne⟩

end Sys2Proof
end

section
/-!
PROOFS. The track code receivers: the codes with their bands and drop windows (R54), the record of a circuit made OCCUPIED
(R57), and the judgement of TC_TEST (R64).
-/

namespace Sys2Proof

open Sys2Proof.Machine

/-! ## The codes, their bands and their records -/

theorem inBand_iff (k : TrackCode) (p : Nat) :
    inBand k p = true ↔ nominalPeriod k - nominalPeriod k / 8 ≤ p ∧ p ≤ nominalPeriod k + nominalPeriod k / 8 := by
  simp [inBand, inRange]

/-- The bounds of the bands as Table 4-1 writes them out. -/
theorem inBand_table (p : Nat) :
    (inBand .a p = true ↔ 280 ≤ p ∧ p ≤ 360) ∧ (inBand .b p = true ↔ 420 ≤ p ∧ p ≤ 540) ∧
      (inBand .c p = true ↔ 630 ≤ p ∧ p ≤ 810) ∧ (inBand .d p = true ↔ 945 ≤ p ∧ p ≤ 1215) :=
  ⟨inBand_iff .a p, inBand_iff .b p, inBand_iff .c p, inBand_iff .d p⟩

theorem nominalPeriod_injective {j k : TrackCode} (h : nominalPeriod j = nominalPeriod k) : j = k := by
  revert h
  cases j <;> cases k <;> decide

/-- Of two codes the band of the shorter nominal period lies wholly below that of the longer. -/
theorem bandTop_lt_bandBottom {j k : TrackCode} (h : nominalPeriod j < nominalPeriod k) :
    nominalPeriod j + nominalPeriod j / 8 < nominalPeriod k - nominalPeriod k / 8 := by
  revert h
  cases j <;> cases k <;> decide

theorem inBand_unique {p : Nat} {j k : TrackCode} (hj : inBand j p = true) (hk : inBand k p = true) : j = k := by
  obtain ⟨hjBottom, hjTop⟩ := (inBand_iff j p).mp hj
  obtain ⟨hkBottom, hkTop⟩ := (inBand_iff k p).mp hk
  rcases Nat.lt_trichotomy (nominalPeriod j) (nominalPeriod k) with hlt | heq | hgt
  · have hgap := bandTop_lt_bandBottom hlt
    omega
  · exact nominalPeriod_injective heq
  · have hgap := bandTop_lt_bandBottom hgt
    omega

/-- A record's code is the one whose identity its first byte gives. -/
theorem trackCode_eq_some_iff (bs : List Byte) (k : TrackCode) :
    trackCode bs = some k ↔ byteAt bs 0 = identityCode (some k) := by
  unfold trackCode
  split
  case h_1 h | h_2 h | h_3 h | h_4 h => cases k <;> simp [h, identityCode]
  case h_5 ha hb hc hd =>
    have hne : byteAt bs 0 ≠ identityCode (some k) :=
      match k with
      | .a => ha
      | .b => hb
      | .c => hc
      | .d => hd
    simp [hne]

theorem codeOf_of_copy {t : Track} {r : RecordCopy} (h : t.copy = some r) : codeOf t = trackCode r.bytes := by
  simp only [codeOf, h]

/-- Settles O23: the bands by their bounds, one code to a period since of two bands one ends below where the other begins,
and a circuit's code by its record's first byte. -/
theorem trackCodesHaveTheirBands : Obligations.TrackCodesHaveTheirBands :=
  ⟨inBand_iff, fun _ => rfl, rfl, rfl, rfl, rfl, inBand_table, rfl, rfl, rfl, rfl, fun _ _ _ => inBand_unique,
    fun _ _ r hcopy => ⟨codeOf_of_copy hcopy, trackCode_eq_some_iff r.bytes .a, trackCode_eq_some_iff r.bytes .b,
      trackCode_eq_some_iff r.bytes .c, trackCode_eq_some_iff r.bytes .d⟩⟩

/-! ## A circuit's own record -/

/-- What changes no circuit's record leaves each as it was. -/
theorem track_of {as : List Aspect} {s t : State} (h : Changes as s t) (tc : Tc) (hn : .track tc ∉ as) :
    t.track tc = s.track tc :=
  h (.track tc) hn

theorem tellTrack_track (i tc : Tc) (occupied : Bool) (s : State) : (tellTrack i occupied s).track tc = s.track tc :=
  track_of (tellTrack_changes i occupied s) tc (by simp [tellings])

theorem tellIcc_track (names : List Byte → Bool) (tc : Tc) (s : State) : (tellIcc names s).track tc = s.track tc :=
  track_of (tellIcc_changes names s) tc (by simp)

theorem postReport_track (src : Source) (tc : Tc) (s : State) : (postReport src s).track tc = s.track tc :=
  track_of (postReport_changes src s) tc (by simp)

theorem finish_track (tc : Tc) (s : State) : (finish s).track tc = s.track tc :=
  track_of (finish_changes s) tc (by simp [endOfEvent])

theorem replyHead_track (f : Frame) (a : Answer) (tc : Tc) (s : State) : (replyHead f a s).track tc = s.track tc :=
  track_of (replyHead_changes f a s) tc (by simp)

/-- Whoever is told of it, a circuit made OCCUPIED holds the record of R57. -/
theorem occupy_track (tc : Tc) (why : OccReason) (s : State) :
    (occupy tc why s).track tc = occupiedRecord s.now why (s.track tc) := by
  have hown : (s.modTrack tc (occupiedRecord s.now why)).track tc = occupiedRecord s.now why (s.track tc) :=
    State.modTrack_track_same s tc _
  unfold occupy
  simp only []
  split
  · rw [tellTrack_track, hown]
  split
  · rw [postReport_track, tellIcc_track, hown]
  split
  · rw [postReport_track, hown]
  · exact hown

theorem startTest_track (tc : Tc) (s : State) : (startTest tc s).track tc =
    occupiedRecord s.now .test { s.track tc with meas := none, test := some (s.now + 5000), reading := false } := by
  unfold startTest
  rw [postReport_track, occupy_track, State.modTrack_track_same, State.modTrack_now]

theorem startTest_changes (tc : Tc) (s : State) : Changes (trackEvent tc) s (startTest tc s) :=
  (((modTrack_changes tc _ s).mono (mem_trackEvent tc)).trans (occupy_changes tc _ _)).andThen (postReport_changes _ _)
    (sub_trans lampsReports_sub.2 (tellings_sub tc))

/-! ## A request answered without effect -/

/-- A request whose owner leaves the state as it is gets that owner's answer, and nothing else changes. -/
theorem serve_justAnswer {s : State} {f : Frame} {rest : List Frame} {k : RequestKind}
    {owner : List Byte → State → Answer × State} {a : Answer} (hs : AtHead s f rest) (hk : requestKind f.kind = some k)
    (hp : payloadFault k f.payload = none) (ho : owner f.payload s = justAnswer a s) :
    ∃ t, serve k owner s = .next t ∧ Replied f rest (reply f a.result a.reason a.data) s t ∧
      Changes (.requests :: endOfEvent) s t := by
  refine ⟨_, serve_of hs hk hp, ?_, ?_⟩
  · rw [ho, ← replyTo_eq hk]
    exact replied_of a hs (.refl [] s) (by simp)
  · rw [ho]
    exact ((replyHead_changes f a s).mono (by decide)).andThen (finish_changes _) (List.subset_cons_self _ _)

/-! ## The judgement of TC_TEST -/

theorem byteAt_circuitNumber (tc : Tc) : byteAt [byteOf (tc.val + 1)] 0 = tc.val + 1 := by
  have hlt : tc.val + 1 < 256 := by omega
  simpa [byteAt, byteOf] using hlt

theorem tcOf_circuitNumber (tc : Tc) : tcOf (tc.val + 1) = some tc := by
  have hrange : 1 ≤ tc.val + 1 ∧ tc.val + 1 ≤ 24 := by omega
  simp [tcOf, hrange]

/-- A circuit's number is a good payload of TC_TEST (R8). -/
theorem payloadFault_tcTest (tc : Tc) : payloadFault .tcTest [byteOf (tc.val + 1)] = none := by
  have hrange : inRange 1 24 (tc.val + 1) = true := by
    simp only [inRange, Bool.and_eq_true, decide_eq_true_eq]
    omega
  simp only [payloadFault, layout, firstBad, byteAt_circuitNumber, hrange, List.length_singleton, if_true]

/-- The steps of R64 in their order, for the circuit named. -/
theorem tcTest_eq (tc : Tc) (s : State) : tcTest [byteOf (tc.val + 1)] s =
    if s.mode = .starting then justAnswer .wrongMode s
    else if !trackSound (s.track tc).copy then justAnswer (.badField 0) s
    else if (s.track tc).test.isSome then justAnswer (.refused 2) s
    else (.ok [], startTest tc s) := by
  simp only [tcTest, byteAt_circuitNumber, tcOf_circuitNumber, justAnswer]

theorem trackSound_some_iff (r : RecordCopy) :
    trackSound (some r) = true ↔ r.cond ≠ .corrupt ∧ trackCode r.bytes ≠ none := by
  simp [trackSound, copySound, trackDefined, Option.isSome_iff_ne_none]

theorem trackSound_eq_false {c : Option RecordCopy}
    (h : c = none ∨ ∃ r, c = some r ∧ (r.cond = .corrupt ∨ trackCode r.bytes = none)) : trackSound c = false := by
  rcases h with hnone | ⟨r, hcopy, hbad⟩
  · rw [hnone]
    rfl
  · rw [hcopy, ← Bool.not_eq_true, trackSound_some_iff]
    exact fun ⟨hcond, hcode⟩ => hbad.elim hcond hcode

theorem requestKind_tcTest {f : Frame} (h : f.kind = 0x13) : requestKind f.kind = some .tcTest := by
  rw [h]
  rfl

/-- A TC_TEST turned away at any step changes no state of the circuit (R64). -/
theorem tcTest_turnedAway {s : State} {f : Frame} {rest : List Frame} {tc : Tc} {a : Answer} (hs : AtHead s f rest)
    (hkind : f.kind = 0x13) (hpay : f.payload = [byteOf (tc.val + 1)])
    (hown : tcTest [byteOf (tc.val + 1)] s = justAnswer a s) :
    ∃ t, exec .tcTest s = .next t ∧ Replied f rest (reply f a.result a.reason a.data) s t ∧ t.track tc = s.track tc ∧
      Changes (.requests :: endOfEvent) s t := by
  obtain ⟨t, hrun, hreply, hsame⟩ := serve_justAnswer (owner := tcTest) hs (requestKind_tcTest hkind)
    (by rw [hpay, payloadFault_tcTest]) (by rw [hpay, hown])
  exact ⟨t, hrun, hreply, track_of hsame tc (by simp [endOfEvent]), hsame⟩

/-- An accepted TC_TEST is answered OK and begins the circuit's test (R64). -/
theorem tcTest_accepted {s : State} {f : Frame} {rest : List Frame} {tc : Tc} (hs : AtHead s f rest)
    (hkind : f.kind = 0x13) (hpay : f.payload = [byteOf (tc.val + 1)])
    (hown : tcTest [byteOf (tc.val + 1)] s = (.ok [], startTest tc s)) :
    ∃ t, exec .tcTest s = .next t ∧ Replied f rest (reply f 0 0 []) s t ∧
      t.track tc = (startTest tc s).track tc := by
  have hk := requestKind_tcTest hkind
  refine ⟨_, serve_of (owner := tcTest) hs hk (by rw [hpay, payloadFault_tcTest]), ?_, ?_⟩
  · rw [hpay, hown]
    have hreply := replied_of (.ok []) hs (startTest_changes tc s) (by simp [trackEvent, tellings])
    rwa [replyTo_eq hk] at hreply
  · rw [hpay, hown, finish_track, replyHead_track]

/-- Settles O26: each condition of R64 with those before it passed decides the branch of `tcTest_eq`; three branches turn
the request away and the last begins the test. -/
theorem trackTestsAreJudgedInOrder : Obligations.TrackTestsAreJudgedInOrder := by
  intro s f rest tc hs hkind hpay
  have turnedAway {a : Answer} := tcTest_turnedAway (a := a) hs hkind hpay
  refine ⟨fun hmode => turnedAway (a := .wrongMode) (by simp [tcTest_eq, hmode]), fun hmode => ⟨fun hbad => ?_, ?_⟩⟩
  · have hsound := trackSound_eq_false hbad
    exact turnedAway (a := .badField 0) (by simp [tcTest_eq, hmode, hsound])
  · intro r hcopy hcond hcode
    have hsound : trackSound (s.track tc).copy = true := by
      rw [hcopy]
      exact (trackSound_some_iff r).mpr ⟨hcond, hcode⟩
    refine ⟨fun htest => turnedAway (a := .refused 2) (by simp [tcTest_eq, hmode, hsound, htest]), fun htest => ?_⟩
    obtain ⟨t, hrun, hreply, htrack⟩ := tcTest_accepted hs hkind hpay (by simp [tcTest_eq, hmode, hsound, htest])
    exact ⟨t, hrun, hreply, by rw [htrack, startTest_track]; rfl⟩

end Sys2Proof
end

section
/-!
PROOFS. The signals put to danger together (R98): what becomes of the sticks and demands when an event ends, that the output
of a fallen demand is demanded off, and ALL_SIGNALS_ON.
-/

namespace Sys2Proof

open Sys2Proof.Machine

/-! ## A slot's lever REVERSE -/

theorem slotReverse_of {as : List Aspect} {s t : State} (h : Changes as s t) (n : SigSlot) (hslots : .slots ∉ as)
    (hlevers : ∀ l, .lever l ∉ as) : slotReverse t n = slotReverse s n := by
  have hstates : ∀ l, t.leverState l = s.leverState l := fun l => congrArg LeverRec.state (h (.lever l) (hlevers l))
  unfold slotReverse
  rw [(h .slots hslots n).1]
  cases (s.signal n).lever with
  | none => rfl
  | some l => exact leverAt_congr hstates l .r

/-- Of what R93 asks of a demand: the lever REVERSE and the stick clear. -/
theorem reverse_clear_of_justified {s : State} {n : SigSlot} (h : demandJustified s n = true) :
    slotReverse s n = true ∧ (s.signal n).stick = false := by
  unfold demandJustified at h
  unfold slotReverse
  cases hl : (s.signal n).lever with
  | none => simp [hl] at h
  | some l =>
    simp only [hl, Bool.and_eq_true, Bool.not_eq_true'] at h
    obtain ⟨⟨⟨⟨⟨hreverse, hclear⟩, -⟩, -⟩, -⟩, -⟩ := h
    exact ⟨hreverse, hclear⟩

theorem reverse_clear_of_demand {s : State} (h : demandsJustified s = true) {n : SigSlot}
    (hn : (s.signal n).demand = true) : slotReverse s n = true ∧ (s.signal n).stick = false := by
  have hor := List.all_eq_true.mp h n (List.mem_finRange n)
  rw [hn] at hor
  exact reverse_clear_of_justified hor

/-! ## Sticks set -/

theorem postReport_signal (src : Source) (n : SigSlot) (s : State) : (postReport src s).signal n = s.signal n := by
  unfold postReport
  split <;> rfl

theorem replyHead_signal (f : Frame) (a : Answer) (n : SigSlot) (s : State) : (replyHead f a s).signal n = s.signal n :=
  rfl

theorem setStick_signal (n m : SigSlot) (s : State) : (setStick n s).signal m =
    if n = m then { s.signal m with stick := true } else s.signal m := by
  unfold setStick
  split
  next hset =>
    split
    next e =>
      subst e
      rw [← hset]
    next => rfl
  next => rw [postReport_signal, State.modSignal_signal]

/-- One slot's turn in `setSticks`. -/
def setStickIf (p : SigSlot → Bool) (n : SigSlot) (s : State) : State :=
  if p n && slotReverse s n then setStick n s else s

theorem setSticks_eq (p : SigSlot → Bool) (s : State) :
    setSticks p s = forEach (List.finRange 24) (setStickIf p) s := rfl

theorem setStickIf_changes (p : SigSlot → Bool) (n : SigSlot) (s : State) :
    Changes [.demands, .reports] s (setStickIf p n s) :=
  changes_ite (fun _ => setStick_changes n s) fun _ => .refl _ s

theorem setStickIf_signal (p : SigSlot → Bool) (n m : SigSlot) (s : State) : (setStickIf p n s).signal m =
    { s.signal m with stick := (s.signal m).stick || (decide (n = m) && p m && slotReverse s m) } := by
  unfold setStickIf
  by_cases e : n = m
  · subst e
    cases hp : p n && slotReverse s n <;> simp [hp, setStick_signal]
  · cases p n && slotReverse s n <;> simp [e, setStick_signal]

theorem forEach_setStickIf_signal (p : SigSlot → Bool) (m : SigSlot) : ∀ (ns : List SigSlot) (s : State),
    (forEach ns (setStickIf p) s).signal m =
      { s.signal m with stick := (s.signal m).stick || (decide (m ∈ ns) && p m && slotReverse s m) }
  | [], s => by simp [forEach]
  | n :: ns, s => by
    have hreverse := slotReverse_of (setStickIf_changes p n s) m (by simp) (by simp)
    have hrest := forEach_setStickIf_signal p m ns (setStickIf p n s)
    rw [setStickIf_signal, hreverse] at hrest
    refine hrest.trans ?_
    by_cases e : n = m
    · cases hset : p m && slotReverse s m <;> simp [e, hset, Bool.and_assoc]
    · simp [e, Ne.symm e]

/-- The sticks of the slots picked out are set where the lever is REVERSE, and nothing else of a signal changes. -/
theorem setSticks_signal (p : SigSlot → Bool) (n : SigSlot) (s : State) : (setSticks p s).signal n =
    { s.signal n with stick := (s.signal n).stick || (p n && slotReverse s n) } := by
  rw [setSticks_eq, forEach_setStickIf_signal]
  simp

/-! ## Sticks and demands at the end of an event -/

theorem dropDemand_stick (n m : SigSlot) (s : State) : ((dropDemand n s).signal m).stick =
    if n = m then true else (s.signal m).stick := by
  unfold dropDemand
  rw [State.modSignal_signal]
  split <;> rfl

theorem settleFalls_stick_set {n : SigSlot} : ∀ (k : Nat) (s : State), (s.signal n).stick = true →
    ((settleFalls k s).signal n).stick = true
  | 0, _, h => h
  | k + 1, s, h => by
    unfold settleFalls
    split
    · exact h
    next m _ => exact settleFalls_stick_set k _ (by rw [dropDemand_stick, h, ite_self])

/-- Only a demand that stands falls and sets its stick (R96). -/
theorem settleFalls_stick_off {n : SigSlot} : ∀ (k : Nat) (s : State), (s.signal n).demand = false →
    ((settleFalls k s).signal n).stick = (s.signal n).stick
  | 0, _, _ => rfl
  | k + 1, s, h => by
    unfold settleFalls
    split
    · rfl
    next m hm =>
      have hne : m ≠ n := by
        rintro rfl
        exact absurd (mustFall_some hm) (by simp [h])
      have hrest := settleFalls_stick_off k (dropDemand m s) (by rw [dropDemand_signal, if_neg hne, h])
      rwa [dropDemand_stick, if_neg hne] at hrest

theorem settleRises_stick (n : SigSlot) : ∀ (k : Nat) (s : State),
    ((settleRises k s).signal n).stick = (s.signal n).stick
  | 0, _ => rfl
  | k + 1, s => by
    unfold settleRises
    split
    · rfl
    next m _ => rw [settleRises_stick n k, (raiseDemand_signal m n s).2]

/-- After the demands are settled, the rest of the end of an event leaves demands and sticks alone. -/
theorem finish_demands (n : SigSlot) (s : State) :
    ((finish s).signal n).demand = ((settleDemands s).signal n).demand ∧
      ((finish s).signal n).stick = ((settleDemands s).signal n).stick := by
  have h : Changes (demandTold ++ [.freeing, .port] ++ reportSent) (settleDemands s) (finish s) :=
    ((tellDemands_world s (settleDemands s)).append (startEvaluation_changes _)).append (takeFrame_changes _)
  exact h .demands (by decide) n

theorem finish_stick_set {n : SigSlot} {s : State} (h : (s.signal n).stick = true) :
    ((finish s).signal n).stick = true := by
  rw [(finish_demands n s).2, settleDemands, settleRises_stick]
  exact settleFalls_stick_set 24 s h

theorem finish_stick_off {n : SigSlot} {s : State} (h : (s.signal n).demand = false) :
    ((finish s).signal n).stick = (s.signal n).stick := by
  rw [(finish_demands n s).2, settleDemands, settleRises_stick]
  exact settleFalls_stick_off 24 s h

theorem finish_slotReverse (n : SigSlot) (s : State) : slotReverse (finish s) n = slotReverse s n :=
  slotReverse_of (finish_changes s) n (by decide) (by simp [endOfEvent])

/-- A demand that stands when an event ends has its lever REVERSE and its stick clear (R93), which no slot of `s` has. -/
theorem finish_noDemand {s : State} (h : ∀ n, slotReverse s n = true → (s.signal n).stick = true) (n : SigSlot) :
    ((finish s).signal n).demand = false := by
  rw [← Bool.not_eq_true]
  intro hdemand
  obtain ⟨hreverse, hclear⟩ := reverse_clear_of_demand (finish_justified s) hdemand
  rw [finish_slotReverse] at hreverse
  rw [finish_stick_set (h n hreverse)] at hclear
  exact absurd hclear (by decide)

/-! ## The outputs of the demands that changed -/

theorem commanded_off {s : State} {o : Output} (h : (s.output o).demand = .off) : commanded s o = .off := by
  unfold commanded
  rw [h, ite_self]

theorem aspectOutput_injective {m n : SigSlot} (h : aspectOutput m = aspectOutput n) : m = n := by
  have hval : m.val + 48 = n.val + 48 := congrArg Fin.val h
  exact Fin.ext (by omega)

theorem tellDemand_output (n : SigSlot) (s : State) : ((tellDemand n s).output (aspectOutput n)).demand =
    if (s.signal n).demand then .on else .off := by
  have hset := setDemand_output (aspectOutput n) (if (s.signal n).demand then .on else .off) s
  unfold tellDemand
  simp only []
  split
  · exact ((postReport_changes _ _) .outputDemands (by decide) _).trans hset
  next l _ =>
    refine ((postReport_changes _ _) .outputDemands (by decide) _).trans ?_
    refine ((tellIcc_changes _ _) .outputDemands (by decide) _).trans ?_
    refine (changes_ite (fun _ => .refl fellAspects _) (fun _ => markDemandFell_changes _ _) .outputDemands
      (by decide) _).trans ?_
    exact ((requeueSignal_changes l _) .outputDemands (by decide) _).trans hset

/-- One slot's turn in `recompute`: its demand is told if it has changed. -/
def tellChange (before after : State) (n : SigSlot) (s : State) : State :=
  if (after.signal n).demand = (before.signal n).demand then s else tellDemand n s

theorem recompute_eq (s : State) :
    recompute s = forEach (List.finRange 24) (tellChange s (settleDemands s)) (settleDemands s) := rfl

theorem tellChange_demand (before after : State) (m n : SigSlot) (s : State) :
    ((tellChange before after m s).signal n).demand = (s.signal n).demand :=
  (changes_ite (fun _ => .refl demandTold s) (fun _ => tellDemand_changes m s) .demands (by decide) n).1

theorem tellChange_output_same {before after : State} {n : SigSlot}
    (hchanged : (after.signal n).demand ≠ (before.signal n).demand) (s : State) :
    ((tellChange before after n s).output (aspectOutput n)).demand = if (s.signal n).demand then .on else .off := by
  rw [tellChange, if_neg hchanged, tellDemand_output]

/-- The telling of another slot's demand leaves this slot's output. -/
theorem tellChange_output_ne {m n : SigSlot} (hne : m ≠ n) (before after s : State) :
    ((tellChange before after m s).output (aspectOutput n)).demand = (s.output (aspectOutput n)).demand := by
  have hp : decide (aspectOutput m = aspectOutput n) = false := decide_eq_false fun e => hne (aspectOutput_injective e)
  exact kept_ite (p := fun o => decide (o = aspectOutput n)) (fun _ => .refl _ s) (fun _ => tellDemand_kept hp s) _
    (decide_eq_true rfl)

/-- A slot whose demand has changed, and is now false, has its output demanded off once its turn has come. -/
theorem forEach_tellChange_off {before after : State} {n : SigSlot}
    (hchanged : (after.signal n).demand ≠ (before.signal n).demand) : ∀ (ms : List SigSlot) (s : State),
    (s.signal n).demand = false → n ∈ ms ∨ (s.output (aspectOutput n)).demand = .off →
    ((forEach ms (tellChange before after) s).output (aspectOutput n)).demand = .off
  | [], _, _, h => h.resolve_left List.not_mem_nil
  | m :: ms, s, hfalse, h => by
    refine forEach_tellChange_off hchanged ms _ (by rw [tellChange_demand, hfalse]) ?_
    by_cases e : m = n
    · subst e
      exact .inr ((tellChange_output_same hchanged s).trans (by rw [hfalse]; rfl))
    · rw [List.mem_cons, or_iff_right (Ne.symm e)] at h
      exact h.imp id fun hoff => (tellChange_output_ne e before after s).trans hoff

/-- A demand that falls at the end of an event has its output demanded off (R94). -/
theorem finish_fallen_output {s : State} {n : SigSlot} (hdemand : (s.signal n).demand = true)
    (hfallen : ((finish s).signal n).demand = false) : ((finish s).output (aspectOutput n)).demand = .off := by
  rw [(finish_demands n s).1] at hfallen
  have hrest : Changes ([.freeing, .port] ++ reportSent) (recompute s) (finish s) :=
    (startEvaluation_changes _).append (takeFrame_changes _)
  refine (hrest .outputDemands (by decide) _).trans ?_
  rw [recompute_eq]
  exact forEach_tellChange_off (by simp [hfallen, hdemand]) _ _ hfallen (.inl (List.mem_finRange n))

/-! ## ALL_SIGNALS_ON -/

theorem requestKind_allSignalsOn {f : Frame} (h : f.kind = 0x12) : requestKind f.kind = some .allSignalsOn := by
  rw [h]
  rfl

theorem payloadFault_allSignalsOn : payloadFault .allSignalsOn [] = none := rfl

theorem exec_allSignalsOn (s : State) : exec .allSignalsOn s = serve .allSignalsOn allSignalsOn s := rfl

/-- The state in which an accepted ALL_SIGNALS_ON leaves the signals to the end of its event. -/
def allSticksSet (f : Frame) (s : State) : State :=
  replyHead f (.ok [byteOf (sticksToSet s)]) (setSticks (fun _ => true) s)

theorem allSticksSet_changes (f : Frame) (s : State) :
    Changes [.demands, .reports, .requests, .replies] s (allSticksSet f s) :=
  (setSticks_changes _ s).append (replyHead_changes f _ _)

theorem allSticksSet_signal (f : Frame) (n : SigSlot) (s : State) : (allSticksSet f s).signal n =
    { s.signal n with stick := (s.signal n).stick || slotReverse s n } := by
  rw [allSticksSet, replyHead_signal, setSticks_signal, Bool.true_and]

theorem allSticksSet_slotReverse (f : Frame) (n : SigSlot) (s : State) :
    slotReverse (allSticksSet f s) n = slotReverse s n :=
  slotReverse_of (allSticksSet_changes f s) n (by decide) (by simp)

theorem allSticksSet_stick {f : Frame} {s : State} {n : SigSlot} (h : slotReverse s n = true) :
    ((allSticksSet f s).signal n).stick = true := by
  rw [allSticksSet_signal, h, Bool.or_true]

/-- Outside STARTING the request is answered with the count of the sticks it sets, before its event ends (R98). -/
theorem allSignalsOn_accepted {s : State} {f : Frame} {rest : List Frame} (hs : AtHead s f rest) (hkind : f.kind = 0x12)
    (hpay : f.payload = []) (hmode : s.mode ≠ .starting) :
    exec .allSignalsOn s = .next (finish (allSticksSet f s)) ∧
      Replied f rest (reply f 0 0 [byteOf (sticksToSet s)]) s (finish (allSticksSet f s)) := by
  have hk := requestKind_allSignalsOn hkind
  have hown : allSignalsOn f.payload s = (.ok [byteOf (sticksToSet s)], setSticks (fun _ => true) s) := if_neg hmode
  constructor
  · rw [exec_allSignalsOn, serve_of hs hk (by rw [hpay, payloadFault_allSignalsOn]), hown, allSticksSet]
  · have hreply := replied_of (.ok [byteOf (sticksToSet s)]) hs (setSticks_changes (fun _ => true) s) (by decide)
    rwa [replyTo_eq hk] at hreply

/-- The sticks that the reply counts are those newly set. -/
theorem sticksToSet_eq {s t : State} (h : ∀ n, slotReverse s n = true → (t.signal n).stick = true) :
    sticksToSet s = (List.finRange 24).countP fun n => slotReverse s n && !(s.signal n).stick && (t.signal n).stick := by
  refine List.countP_congr fun n _ => ?_
  cases hreverse : slotReverse s n with
  | false => simp
  | true => simp [h n hreverse]

/-- Settles O35: with the stick of every REVERSE lever set before the event ends, no demand is justified at its end; each
fall sets no stick but its own and tells its output, and the rises set none. -/
theorem allSignalsGoOn : Obligations.AllSignalsGoOn := by
  intro s f rest hs hkind hpay
  refine ⟨fun hmode => ?_, fun hmode => ?_⟩
  · exact serve_justAnswer (owner := allSignalsOn) (a := .wrongMode) hs (requestKind_allSignalsOn hkind)
      (by rw [hpay, payloadFault_allSignalsOn]) (if_pos hmode)
  · obtain ⟨hrun, hreply⟩ := allSignalsOn_accepted hs hkind hpay hmode
    have hsticks (n : SigSlot) (h : slotReverse s n = true) : ((finish (allSticksSet f s)).signal n).stick = true :=
      finish_stick_set (allSticksSet_stick h)
    have hdemands := finish_noDemand (s := allSticksSet f s) fun n h =>
      allSticksSet_stick (by rwa [allSticksSet_slotReverse] at h)
    refine ⟨_, hrun, ?_, hsticks, hdemands, fun n hdemand => ?_, fun n hreverse hdemand => ?_,
      fun n hproved hreverse => ?_, ?_⟩
    · rwa [← sticksToSet_eq hsticks]
    · have hoff := finish_fallen_output (n := n) (by rwa [allSticksSet_signal]) (hdemands n)
      exact ⟨hoff, commanded_off hoff⟩
    · have hkept := finish_stick_off (n := n) (s := allSticksSet f s) (by rwa [allSticksSet_signal])
      rwa [allSticksSet_signal, hreverse, Bool.or_false] at hkept
    · rw [← Bool.not_eq_true]
      intro hdemand
      exact absurd (reverse_clear_of_demand hproved hdemand).1 (by simp [hreverse])
    · exact ((allSticksSet_changes f s).mono (by decide)).andThen (finish_changes _) (List.subset_cons_self _ _)

end Sys2Proof
end
